-- ==== Sys2Proof/Word.lean ====
section
/-! DEFINITION. The words of MF-JDEC: bytes, 16-bit fields and the 32-bit datapath word (R8, R9, R10). -/

namespace Sys2Proof

/-- A byte: 8 bits (R9). -/
abbrev Byte := BitVec 8

/-- A nibble, half of a packed field (R9, R62). -/
abbrev Nibble := BitVec 4

/-- A two-byte field of a marker segment (R61). -/
abbrev Half := BitVec 16

/-- A datapath value: 32-bit two's complement; `+`, `-`, `*` and `<<<` wrap (R8, R10). -/
abbrev Word := BitVec 32

/-- Eight things of one kind: a row or a column of a block (R212, R214). -/
structure Oct (α : Type) where
  a0 : α
  a1 : α
  a2 : α
  a3 : α
  a4 : α
  a5 : α
  a6 : α
  a7 : α
  deriving DecidableEq, Repr

/-- The eight entries in index order. -/
def Oct.toList {α : Type} (o : Oct α) : List α :=
  [o.a0, o.a1, o.a2, o.a3, o.a4, o.a5, o.a6, o.a7]

end Sys2Proof
end

