-- ==== Sys2Proof/Syntax.lean ====
section
/-! DEFINITION. The instructions of MF-JDEC: one constructor per row of spec/opcode_table.json.
Operands of a marker segment are the fields of its payload (R83 to R88), pulled out by the decoder
(Decode.lean); an internal operation (R17) carries the operands its rule names. -/

namespace Sys2Proof

/-- The level a word of the stream is read at (R80, R97): the same bits mean different instructions at
the start of the stream, at the marker level, in the entropy-coded segment, and as a Huffman symbol. -/
inductive Level where
  | start
  | top
  | ecs
  | dcSymbol
  | acSymbol
  deriving DecidableEq, Repr

/-- A marker segment after its marker: fewer than two bytes are left for the length (`noLength`), the
length field is malformed (`badLength`: below 2, or beyond the input), or a payload of the stated
length (`ok`) (R81, R142). -/
inductive Framed (α : Type) where
  | noLength (left : List Byte)
  | badLength (l : Half)
  | ok (body : α)
  deriving DecidableEq, Repr

/-- One component of an SOF0 payload: `C`, `H[7:4] V[3:0]`, `Tq` (R83). -/
structure SofComp where
  cid : Byte
  h : Nibble
  v : Nibble
  tq : Byte
  deriving DecidableEq, Repr

/-- An SOF0 payload (R83). `short` is one with fewer than the six header bytes. -/
inductive SofBody where
  | short (bytes : List Byte)
  | full (prec : Byte) (height width : Half) (nf : Byte) (comps : List SofComp) (extra : List Byte)
  deriving DecidableEq, Repr

/-- One table definition of a DHT payload: class, identifier, 16 counts, the symbols (R84). -/
structure DhtTable where
  tc : Nibble
  th : Nibble
  counts : List Byte
  syms : List Byte
  deriving DecidableEq, Repr

/-- A DHT payload: table definitions back to back and what is left, fewer than 17 bytes (R84, R151). -/
structure DhtBody where
  tables : List DhtTable
  tail : List Byte
  deriving DecidableEq, Repr

/-- One table of a DQT payload: precision, slot, 64 steps in zig-zag order (R85). -/
structure DqtTable where
  pq : Nibble
  tq : Nibble
  steps : List Byte
  deriving DecidableEq, Repr

/-- A DQT payload: tables back to back and what is left, fewer than 65 bytes (R85, R155). -/
structure DqtBody where
  tables : List DqtTable
  tail : List Byte
  deriving DecidableEq, Repr

/-- A DRI payload (R86). `short` is one of fewer than two bytes. -/
inductive DriBody where
  | short (bytes : List Byte)
  | full (ri : Half) (extra : List Byte)
  deriving DecidableEq, Repr

/-- One component of an SOS payload: `Cs`, `Td[7:4] Ta[3:0]` (R87). -/
structure SosSel where
  cs : Byte
  td : Nibble
  ta : Nibble
  deriving DecidableEq, Repr

/-- An SOS payload (R87); its `Ns` is the number of `sels`. `short` is one that does not hold the
`4 + 2·Ns` bytes its own first byte asks for. -/
inductive SosBody where
  | short (bytes : List Byte)
  | full (sels : List SosSel) (ss se : Byte) (ah al : Nibble) (extra : List Byte)
  deriving DecidableEq, Repr

/-- The instructions, in the order of spec/opcode_table.json. -/
inductive Instr where
  -- marker level (R82, R140 to R170)
  | soi
  | sof0 (seg : Framed SofBody)
  | dht (seg : Framed DhtBody)
  | dqt (seg : Framed DqtBody)
  | dri (seg : Framed DriBody)
  | sos (seg : Framed SosBody)
  | appn (n : Nibble) (seg : Framed (List Byte))
  | com (seg : Framed (List Byte))
  | eoiTop
  | rstmTop (m : BitVec 3)
  | unsupportedSof1Sof3 (code : Byte)
  | unsupportedSof5Sof7 (code : Byte)
  | unsupportedJpgSof9Sof11 (code : Byte)
  | unsupportedDacSof13Sof15 (code : Byte)
  | unsupportedDnl
  | unsupportedDhpExp (code : Byte)
  | unsupportedJpgn (code : Byte)
  | unsupportedSoiAgain
  | unsupportedReserved00Bf (code : Byte)
  | unsupportedFillTop
  | notAMarker (b0 b1 : Byte)
  -- escapes of the entropy-coded segment (R89, R111 to R116)
  | ecsData (b : Byte)
  | ecsStuff
  | ecsFill
  | ecsRstm (m : BitVec 3)
  | ecsEoi
  | ecsOtherMarker (c : Byte)
  | ecsFfLast
  | ecsFiller
  -- Huffman symbols (R92, R93, R180 to R188)
  | dcCat (ignored : Nibble) (s : Nibble)
  | acEob
  | acZrl
  | acRuncat (r s : Nibble)
  | acIllegal (r : Nibble)
  | huffMiss (w : Half)
  -- internal operations (R17)
  | decode (buf : List Byte) (len : Nat)
  | toploop
  | seglen
  | skip (n : Nat)
  | refill
  | align
  | peek (n : Fin 17)
  | consume (n : Fin 17)
  | read (n : Fin 17)
  | buildHt (h : Fin 4) (counts : List Byte) (syms : List Byte)
  | decodeVlc (h : Fin 4)
  | decodeBlock (k off : Nat)
  | scan
  | restart
  | idctBlock (k off : Nat)
  | idctRow (b : Oct Word)
  | idctCol (b : Oct Word)
  | upsH (k : Nat)
  | upsV (k : Nat)
  | convert
  | ycc2rgb (y cb cr : Byte)
  | color
  | compact
  deriving DecidableEq, Repr

/-- The sum of a table's 16 counts: how many symbol bytes it asks for (R84). -/
def countSum (counts : List Byte) : Nat :=
  (counts.map BitVec.toNat).sum

/-- Payload bytes of an SOF0 body. -/
def SofBody.size : SofBody → Nat
  | .short bytes => bytes.length
  | .full _ _ _ _ comps extra => 6 + 3 * comps.length + extra.length

/-- Payload bytes of one table definition. -/
def DhtTable.size (t : DhtTable) : Nat :=
  1 + t.counts.length + t.syms.length

/-- Payload bytes of a DHT body. -/
def DhtBody.size (b : DhtBody) : Nat :=
  (b.tables.map DhtTable.size).sum + b.tail.length

/-- Payload bytes of a DQT body. -/
def DqtBody.size (b : DqtBody) : Nat :=
  (b.tables.map fun t => 1 + t.steps.length).sum + b.tail.length

/-- Payload bytes of a DRI body. -/
def DriBody.size : DriBody → Nat
  | .short bytes => bytes.length
  | .full _ extra => 2 + extra.length

/-- Payload bytes of an SOS body. -/
def SosBody.size : SosBody → Nat
  | .short bytes => bytes.length
  | .full sels _ _ _ _ extra => 4 + 2 * sels.length + extra.length

end Sys2Proof
end

