-- ==== Sys2Proof/WellFormed.lean ====
section
/-! DEFINITION. Which terms of `Instr` stand for something the stream or the host can hand the block:
the fields lie in the ranges their encodings admit (R81 to R93) and the operands of the internal
operations in the ranges their rules name. -/

namespace Sys2Proof

/-- A framed segment is what some stream holds: the payload is well formed and its length fits the
16-bit field that counts itself too (R81); a malformed length field is not 2, the length of an empty
payload, which no input can fall short of. -/
def Framed.wf {α : Type} (size : α → Nat) (body : α → Bool) : Framed α → Bool
  | .noLength left => decide (left.length < 2)
  | .badLength l => decide (l.toNat ≠ 2)
  | .ok a => body a && decide (size a + 2 < 65536)

/-- R83: as many components as `Nf` says, or as many as the payload holds. -/
def SofBody.wf : SofBody → Bool
  | .short bytes => decide (bytes.length < 6)
  | .full _ _ _ nf comps extra =>
    decide (comps.length = nf.toNat) || (decide (comps.length < nf.toNat) && decide (extra.length < 3))

/-- R84: every table has 16 counts and the symbols they ask for; only the last may be cut short, and
then nothing follows it; a tail is shorter than a table header. -/
def dhtWf : List DhtTable → List Byte → Bool
  | [], tail => decide (tail.length < 17)
  | [t], tail =>
    decide (t.counts.length = 16) &&
      ((decide (t.syms.length = countSum t.counts) && decide (tail.length < 17)) ||
        (decide (t.syms.length < countSum t.counts) && tail.isEmpty))
  | t :: u :: ts, tail =>
    decide (t.counts.length = 16) && decide (t.syms.length = countSum t.counts) && dhtWf (u :: ts) tail

/-- R84. -/
def DhtBody.wf (b : DhtBody) : Bool :=
  dhtWf b.tables b.tail

/-- R85: 64 steps a table, and a tail shorter than a table. -/
def DqtBody.wf (b : DqtBody) : Bool :=
  b.tables.all (fun t => decide (t.steps.length = 64)) && decide (b.tail.length < 65)

/-- R86. -/
def DriBody.wf : DriBody → Bool
  | .short bytes => decide (bytes.length < 2)
  | .full _ _ => true

/-- R87: `Ns` is one byte; a short payload does not hold the fields its `Ns` asks for. -/
def SosBody.wf : SosBody → Bool
  | .short [] => true
  | .short (ns :: rest) => decide (rest.length < 2 * ns.toNat + 3)
  | .full sels _ _ _ _ _ => decide (sels.length < 256)

/-- The code byte lies in lo..hi. -/
def codeIn (lo hi : Nat) (c : Byte) : Bool :=
  decide (lo ≤ c.toNat) && decide (c.toNat ≤ hi)

/-- The code bytes the row UNSUPPORTED_RESERVED_00_BF covers: 0x00..0xBF, "and any code byte no more
specific row matches" (its note), of which there is none. -/
def reservedCode (c : Byte) : Bool :=
  codeIn 0x00 0xBF c

/-- The second bytes R115 speaks of: not 0x00, 0xD0..0xD7, 0xD9 or 0xFF. -/
def otherMarkerCode (c : Byte) : Bool :=
  !(decide (c = 0x00) || codeIn 0xD0 0xD7 c || decide (c = 0xD9) || decide (c = 0xFF))

/-- Well-formedness of an instruction. -/
def Instr.wf : Instr → Bool
  | .soi => true
  | .sof0 seg => seg.wf SofBody.size SofBody.wf
  | .dht seg => seg.wf DhtBody.size DhtBody.wf
  | .dqt seg => seg.wf DqtBody.size DqtBody.wf
  | .dri seg => seg.wf DriBody.size DriBody.wf
  | .sos seg => seg.wf SosBody.size SosBody.wf
  | .appn _ seg => seg.wf List.length (fun _ => true)
  | .com seg => seg.wf List.length (fun _ => true)
  | .eoiTop => true
  | .rstmTop _ => true
  | .unsupportedSof1Sof3 c => codeIn 0xC1 0xC3 c
  | .unsupportedSof5Sof7 c => codeIn 0xC5 0xC7 c
  | .unsupportedJpgSof9Sof11 c => codeIn 0xC8 0xCB c
  | .unsupportedDacSof13Sof15 c => codeIn 0xCC 0xCF c
  | .unsupportedDnl => true
  | .unsupportedDhpExp c => codeIn 0xDE 0xDF c
  | .unsupportedJpgn c => codeIn 0xF0 0xFD c
  | .unsupportedSoiAgain => true
  | .unsupportedReserved00Bf c => reservedCode c
  | .unsupportedFillTop => true
  | .notAMarker b0 _ => decide (b0 ≠ 0xFF)
  | .ecsData b => decide (b ≠ 0xFF)
  | .ecsStuff => true
  | .ecsFill => true
  | .ecsRstm _ => true
  | .ecsEoi => true
  | .ecsOtherMarker c => otherMarkerCode c
  | .ecsFfLast => true
  | .ecsFiller => true
  | .dcCat _ _ => true
  | .acEob => true
  | .acZrl => true
  | .acRuncat _ s => decide (s ≠ 0)
  | .acIllegal r => decide (r ≠ 0) && decide (r ≠ 15)
  | .huffMiss _ => true
  | .decode buf len => decide (len = buf.length)
  | .toploop => true
  | .seglen => true
  | .skip _ => true
  | .refill => true
  | .align => true
  | .peek _ => true
  | .consume _ => true
  | .read _ => true
  | .buildHt _ counts _ => decide (counts.length = 16)
  | .decodeVlc _ => true
  | .decodeBlock k _ => decide (k < 3)
  | .scan => true
  | .restart => true
  | .idctBlock k _ => decide (k < 3)
  | .idctRow _ => true
  | .idctCol _ => true
  | .upsH k => decide (k < 3)
  | .upsV k => decide (k < 3)
  | .convert => true
  | .ycc2rgb _ _ _ => true
  | .color => true
  | .compact => true

end Sys2Proof
end

