-- ==== Sys2Proof/Decode.lean ====
section
/-! DEFINITION. The decoder and, after it, the encoder, both written from 30_encoding.md (R80 to R100).
A level (R97) says how the next bytes are read; decoding rejects by name only where no instruction
starts (too few bytes, no SOI at the start of the stream). -/

namespace Sys2Proof

/-- Why no instruction starts at the given bytes. -/
inductive DecodeError where
  /-- fewer than two bytes where a marker must start (R140, R141) -/
  | needTwoBytes
  /-- the stream does not start with SOI (R140) -/
  | notSoi
  /-- no symbol byte -/
  | needOneByte
  deriving DecidableEq, Repr

/-- A two-byte field, most significant byte first (R61). -/
def be16 (hi lo : Byte) : Half :=
  hi ++ lo

/-- The first-named nibble of a packed field (R62). -/
def hiNibble (b : Byte) : Nibble :=
  b.extractLsb' 4 4

/-- The second-named nibble of a packed field (R62). -/
def loNibble (b : Byte) : Nibble :=
  b.extractLsb' 0 4

/-! ### Payload layouts -/

/-- At most n components of three bytes each (R83), and the bytes left. -/
def parseSofComps : Nat → List Byte → List SofComp × List Byte
  | 0, bs => ([], bs)
  | n + 1, c :: hv :: tq :: bs =>
    let rest := parseSofComps n bs
    (⟨c, hiNibble hv, loNibble hv, tq⟩ :: rest.1, rest.2)
  | _ + 1, bs => ([], bs)

/-- SOF0 payload (R83). -/
def parseSof : List Byte → SofBody
  | p :: y1 :: y0 :: x1 :: x0 :: nf :: bs =>
    let rest := parseSofComps nf.toNat bs
    .full p (be16 y1 y0) (be16 x1 x0) nf rest.1 rest.2
  | bs => .short bs

/-- DHT payload (R84): a table while 17 bytes are left (R151); the first argument bounds the tables. -/
def parseDhtTables : Nat → List Byte → DhtBody
  | 0, bs => ⟨[], bs⟩
  | fuel + 1, bs =>
    match bs with
    | [] => ⟨[], []⟩
    | t :: after =>
      if after.length < 16 then ⟨[], t :: after⟩
      else
        let counts := after.take 16
        let rest := after.drop 16
        let n := countSum counts
        let more := parseDhtTables fuel (rest.drop n)
        ⟨⟨hiNibble t, loNibble t, counts, rest.take n⟩ :: more.tables, more.tail⟩

/-- DHT payload (R84). -/
def parseDht (bs : List Byte) : DhtBody :=
  parseDhtTables bs.length bs

/-- DQT payload (R85): a table while 65 bytes are left (R155). -/
def parseDqtTables : Nat → List Byte → DqtBody
  | 0, bs => ⟨[], bs⟩
  | fuel + 1, bs =>
    match bs with
    | [] => ⟨[], []⟩
    | t :: after =>
      if after.length < 64 then ⟨[], t :: after⟩
      else
        let more := parseDqtTables fuel (after.drop 64)
        ⟨⟨hiNibble t, loNibble t, after.take 64⟩ :: more.tables, more.tail⟩

/-- DQT payload (R85). -/
def parseDqt (bs : List Byte) : DqtBody :=
  parseDqtTables bs.length bs

/-- DRI payload (R86). -/
def parseDri : List Byte → DriBody
  | r1 :: r0 :: extra => .full (be16 r1 r0) extra
  | bs => .short bs

/-- n component selectors of two bytes each (R87), and the bytes left. -/
def parseSosSels : Nat → List Byte → List SosSel × List Byte
  | 0, bs => ([], bs)
  | n + 1, cs :: t :: bs =>
    let rest := parseSosSels n bs
    (⟨cs, hiNibble t, loNibble t⟩ :: rest.1, rest.2)
  | _ + 1, bs => ([], bs)

/-- SOS payload (R87). -/
def parseSos : List Byte → SosBody
  | [] => .short []
  | ns :: bs =>
    let rest := parseSosSels ns.toNat bs
    match rest.2 with
    | ss :: se :: a :: extra =>
      if rest.1.length = ns.toNat then .full rest.1 ss se (hiNibble a) (loNibble a) extra
      else .short (ns :: bs)
    | _ => .short (ns :: bs)

/-- The segment after a marker (R81, R142): its length field, the payload, and the bytes after it. -/
def parseFrame {α : Type} (parse : List Byte → α) : List Byte → Framed α × List Byte
  | l1 :: l0 :: rest =>
    let l := (be16 l1 l0).toNat
    if l < 2 ∨ rest.length < l - 2 then (.badLength (be16 l1 l0), rest)
    else (.ok (parse (rest.take (l - 2))), rest.drop (l - 2))
  | bs => (.noLength bs, [])

/-! ### Levels -/

/-- A segment instruction and the bytes after it. -/
def framedInstr {α : Type} (mk : Framed α → Instr) (parse : List Byte → α) (rest : List Byte) :
    Instr × List Byte :=
  let f := parseFrame parse rest
  (mk f.1, f.2)

/-- The instruction of the marker code c at the top level, total over the 256 codes (R82, R97), and the
bytes after it. -/
def decodeMarker (c : Byte) (rest : List Byte) : Instr × List Byte :=
  if c = 0xC0 then framedInstr .sof0 parseSof rest
  else if c = 0xC4 then framedInstr .dht parseDht rest
  else if c = 0xDB then framedInstr .dqt parseDqt rest
  else if c = 0xDD then framedInstr .dri parseDri rest
  else if c = 0xDA then framedInstr .sos parseSos rest
  else if hiNibble c = 0xE then framedInstr (.appn (loNibble c)) id rest
  else if c = 0xFE then framedInstr .com id rest
  else if c = 0xD9 then (.eoiTop, rest)
  else if c = 0xD8 then (.unsupportedSoiAgain, rest)
  else if c = 0xDC then (.unsupportedDnl, rest)
  else if c = 0xFF then (.unsupportedFillTop, rest)
  else if codeIn 0xC1 0xC3 c then (.unsupportedSof1Sof3 c, rest)
  else if codeIn 0xC5 0xC7 c then (.unsupportedSof5Sof7 c, rest)
  else if codeIn 0xC8 0xCB c then (.unsupportedJpgSof9Sof11 c, rest)
  else if codeIn 0xCC 0xCF c then (.unsupportedDacSof13Sof15 c, rest)
  else if codeIn 0xD0 0xD7 c then (.rstmTop (c.extractLsb' 0 3), rest)
  else if codeIn 0xDE 0xDF c then (.unsupportedDhpExp c, rest)
  else if codeIn 0xF0 0xFD c then (.unsupportedJpgn c, rest)
  else (.unsupportedReserved00Bf c, rest)

/-- The marker level (R97): a marker, or a byte other than 0xFF where one must start (R141). -/
def decodeTop : List Byte → Except DecodeError (Instr × List Byte)
  | b0 :: b1 :: rest => .ok (if b0 = 0xFF then decodeMarker b1 rest else (.notAMarker b0 b1, rest))
  | _ => .error .needTwoBytes

/-- The escape `0xFF c` of the entropy-coded segment, total over the 256 second bytes (R89, R97). -/
def decodeEscape (c : Byte) : Instr :=
  if c = 0x00 then .ecsStuff
  else if c = 0xFF then .ecsFill
  else if c = 0xD9 then .ecsEoi
  else if codeIn 0xD0 0xD7 c then .ecsRstm (c.extractLsb' 0 3)
  else .ecsOtherMarker c

/-- The byte level of the entropy-coded segment, total (R89): no byte is the filler, a final 0xFF is an
error of its own. -/
def decodeEcs : List Byte → Instr × List Byte
  | [] => (.ecsFiller, [])
  | b :: rest =>
    if b = 0xFF then
      match rest with
      | [] => (.ecsFfLast, [])
      | c :: after => (decodeEscape c, after)
    else (.ecsData b, rest)

/-- A DC symbol: the category is the low nibble, the high nibble is ignored (R92, D26). -/
def decodeDcSymbol (sym : Byte) : Instr :=
  .dcCat (hiNibble sym) (loNibble sym)

/-- An AC symbol, total over the 256 bytes (R93, R97). -/
def decodeAcSymbol (sym : Byte) : Instr :=
  if sym = 0x00 then .acEob
  else if sym = 0xF0 then .acZrl
  else if loNibble sym = 0 then .acIllegal (hiNibble sym)
  else .acRuncat (hiNibble sym) (loNibble sym)

/-- The instruction that starts at the given bytes, read at the given level, and the bytes after it. -/
def decode : Level → List Byte → Except DecodeError (Instr × List Byte)
  | .start, b0 :: b1 :: rest => if b0 = 0xFF ∧ b1 = 0xD8 then .ok (.soi, rest) else .error .notSoi
  | .start, _ => .error .needTwoBytes
  | .top, bs => decodeTop bs
  | .ecs, bs => .ok (decodeEcs bs)
  | .dcSymbol, sym :: rest => .ok (decodeDcSymbol sym, rest)
  | .dcSymbol, [] => .error .needOneByte
  | .acSymbol, sym :: rest => .ok (decodeAcSymbol sym, rest)
  | .acSymbol, [] => .error .needOneByte

/-! ### The encoder -/

/-- The more significant byte of a 16-bit field. -/
def hiByte (x : Half) : Byte :=
  x.extractLsb' 8 8

/-- The less significant byte of a 16-bit field. -/
def loByte (x : Half) : Byte :=
  x.extractLsb' 0 8

/-- A packed field of two nibbles (R62). -/
def pack (hi lo : Nibble) : Byte :=
  hi ++ lo

/-- One SOF0 component (R83). -/
def encodeSofComp (c : SofComp) : List Byte :=
  [c.cid, pack c.h c.v, c.tq]

/-- SOF0 payload (R83). -/
def encodeSof : SofBody → List Byte
  | .short bytes => bytes
  | .full p y x nf comps extra =>
    [p, hiByte y, loByte y, hiByte x, loByte x, nf] ++ comps.flatMap encodeSofComp ++ extra

/-- One DHT table definition (R84). -/
def encodeDhtTable (t : DhtTable) : List Byte :=
  pack t.tc t.th :: (t.counts ++ t.syms)

/-- DHT payload (R84). -/
def encodeDht (b : DhtBody) : List Byte :=
  b.tables.flatMap encodeDhtTable ++ b.tail

/-- One DQT table (R85). -/
def encodeDqtTable (t : DqtTable) : List Byte :=
  pack t.pq t.tq :: t.steps

/-- DQT payload (R85). -/
def encodeDqt (b : DqtBody) : List Byte :=
  b.tables.flatMap encodeDqtTable ++ b.tail

/-- DRI payload (R86). -/
def encodeDri : DriBody → List Byte
  | .short bytes => bytes
  | .full ri extra => [hiByte ri, loByte ri] ++ extra

/-- One SOS selector (R87). -/
def encodeSosSel (s : SosSel) : List Byte :=
  [s.cs, pack s.td s.ta]

/-- SOS payload (R87). -/
def encodeSos : SosBody → List Byte
  | .short bytes => bytes
  | .full sels ss se ah al extra =>
    BitVec.ofNat 8 sels.length :: (sels.flatMap encodeSosSel ++ ([ss, se, pack ah al] ++ extra))

/-- The segment after a marker: the length field counts itself and the payload (R81). -/
def encodeFrame {α : Type} (enc : α → List Byte) : Framed α → List Byte
  | .noLength left => left
  | .badLength l => [hiByte l, loByte l]
  | .ok a =>
    let l := BitVec.ofNat 16 ((enc a).length + 2)
    hiByte l :: loByte l :: enc a

/-- The code of a restart marker (R82). -/
def rstCode (m : BitVec 3) : Byte :=
  (0b11010 : BitVec 5) ++ m

/-- The level and the bytes of a stream instruction; an internal operation has none (R17), and neither
have HUFF_MISS (a window with no code) and the filler (no byte at all). -/
def encode : Instr → Option (Level × List Byte)
  | .soi => some (.start, [0xFF, 0xD8])
  | .sof0 seg => some (.top, 0xFF :: 0xC0 :: encodeFrame encodeSof seg)
  | .dht seg => some (.top, 0xFF :: 0xC4 :: encodeFrame encodeDht seg)
  | .dqt seg => some (.top, 0xFF :: 0xDB :: encodeFrame encodeDqt seg)
  | .dri seg => some (.top, 0xFF :: 0xDD :: encodeFrame encodeDri seg)
  | .sos seg => some (.top, 0xFF :: 0xDA :: encodeFrame encodeSos seg)
  | .appn n seg => some (.top, 0xFF :: pack 0xE n :: encodeFrame id seg)
  | .com seg => some (.top, 0xFF :: 0xFE :: encodeFrame id seg)
  | .eoiTop => some (.top, [0xFF, 0xD9])
  | .rstmTop m => some (.top, [0xFF, rstCode m])
  | .unsupportedSof1Sof3 c => some (.top, [0xFF, c])
  | .unsupportedSof5Sof7 c => some (.top, [0xFF, c])
  | .unsupportedJpgSof9Sof11 c => some (.top, [0xFF, c])
  | .unsupportedDacSof13Sof15 c => some (.top, [0xFF, c])
  | .unsupportedDnl => some (.top, [0xFF, 0xDC])
  | .unsupportedDhpExp c => some (.top, [0xFF, c])
  | .unsupportedJpgn c => some (.top, [0xFF, c])
  | .unsupportedSoiAgain => some (.top, [0xFF, 0xD8])
  | .unsupportedReserved00Bf c => some (.top, [0xFF, c])
  | .unsupportedFillTop => some (.top, [0xFF, 0xFF])
  | .notAMarker b0 b1 => some (.top, [b0, b1])
  | .ecsData b => some (.ecs, [b])
  | .ecsStuff => some (.ecs, [0xFF, 0x00])
  | .ecsFill => some (.ecs, [0xFF, 0xFF])
  | .ecsRstm m => some (.ecs, [0xFF, rstCode m])
  | .ecsEoi => some (.ecs, [0xFF, 0xD9])
  | .ecsOtherMarker c => some (.ecs, [0xFF, c])
  | .ecsFfLast => some (.ecs, [0xFF])
  | .ecsFiller => some (.ecs, [])
  | .dcCat hi s => some (.dcSymbol, [pack hi s])
  | .acEob => some (.acSymbol, [0x00])
  | .acZrl => some (.acSymbol, [0xF0])
  | .acRuncat r s => some (.acSymbol, [pack r s])
  | .acIllegal r => some (.acSymbol, [pack r 0])
  | .huffMiss _ => none
  | .decode _ _ => none
  | .toploop => none
  | .seglen => none
  | .skip _ => none
  | .refill => none
  | .align => none
  | .peek _ => none
  | .consume _ => none
  | .read _ => none
  | .buildHt _ _ _ => none
  | .decodeVlc _ => none
  | .decodeBlock _ _ => none
  | .scan => none
  | .restart => none
  | .idctBlock _ _ => none
  | .idctRow _ => none
  | .idctCol _ => none
  | .upsH _ => none
  | .upsV _ => none
  | .convert => none
  | .ycc2rgb _ _ _ => none
  | .color => none
  | .compact => none

/-! ### Words of the opcode table (log 15) -/

/-- A marker or escape is ONE 16-bit word stored most significant byte first (R61, R81); a word of
operand zeros follows it, so that a segment's length field is there to be read. -/
def tableBytes (nbits w : Nat) : List Byte :=
  if nbits = 8 then [BitVec.ofNat 8 w]
  else [BitVec.ofNat 8 (w / 256), BitVec.ofNat 8 w, 0, 0]

/-- The level a table word of nbits bits is read at: 16 bits are a marker (0xFFD8 the one that starts
the stream), 8 bits are an AC symbol, but for 0xFF, the byte that ends an entropy-coded segment. -/
def tableLevel (nbits w : Nat) : Option Level :=
  if nbits = 16 then some (if w % 65536 = 0xFFD8 then .start else .top)
  else if nbits = 8 then some (if w % 256 = 0xFF then .ecs else .acSymbol)
  else none

/-- The instruction the decoder reads from an instruction whose bits are w. -/
def decodeTableWord (nbits w : Nat) : Option Instr :=
  match tableLevel nbits w with
  | none => none
  | some level =>
    match decode level (tableBytes nbits w) with
    | .ok r => some r.1
    | .error _ => none

end Sys2Proof
end

