-- ==== Sys2Proof/Machine/Memory.lean ====
section
/-! DEFINITION. Byte memory: a list of (address, byte) cells in ONE canonical form, addresses strictly
rising; and a buffer, a memory with a size (R12, R60). An unlisted address has NO VALUE: the contents of a
fresh buffer are unspecified (R150), so reading a byte nothing has written answers none (log 7). -/

namespace Sys2Proof.Machine

/-- Cells in rising order of address. -/
abbrev Memory := List Host.Cell

/-- What an address reads as: its listed byte, else no value (log 7). -/
def Memory.read : Memory → Nat → Option Byte
  | [], _ => none
  | (a, b) :: rest, i => if i = a then some b else if i < a then none else Memory.read rest i

/-- Write one byte, keeping the canonical form. -/
def Memory.write : Memory → Nat → Byte → Memory
  | [], i, v => [(i, v)]
  | (a, b) :: rest, i, v =>
    if i = a then (i, v) :: rest
    else if i < a then (i, v) :: (a, b) :: rest
    else (a, b) :: Memory.write rest i v

/-- Every address is at least n, and addresses rise strictly. -/
def Memory.risingFrom : Nat → Memory → Bool
  | _, [] => true
  | n, (a, _) :: rest => decide (n ≤ a) && Memory.risingFrom (a + 1) rest

/-- The canonical form: addresses strictly rising. (No entry can equal what an unlisted address reads
as, since that is no value.) -/
def Memory.wf (m : Memory) : Bool :=
  Memory.risingFrom 0 m

/-- Every listed address is below n. -/
def Memory.below (n : Nat) (m : Memory) : Bool :=
  m.all fun c => decide (c.1 < n)

/-- The bytes of a list at addresses base, base + 1, ... -/
def Memory.ofBytes : Nat → List Byte → Memory
  | _, [] => []
  | base, b :: bs => (base, b) :: Memory.ofBytes (base + 1) bs

/-- The bytes at i, i + 1, ..., at most n of them, ending before the first address with no value. -/
def Memory.bytesAt : Memory → Nat → Nat → List Byte
  | [], _, _ => []
  | (a, b) :: rest, i, n =>
    if a < i then Memory.bytesAt rest i n
    else if a = i ∧ 0 < n then b :: Memory.bytesAt rest (i + 1) (n - 1)
    else []

/-- A flat array of `size` bytes indexed from 0 (R60). -/
structure Buffer where
  size : Nat
  mem : Memory
  deriving DecidableEq, Repr

/-- A fresh buffer of n bytes: no byte has a value (R150). -/
def Buffer.fresh (n : Nat) : Buffer :=
  ⟨n, []⟩

/-- A buffer holding exactly the bytes given. -/
def Buffer.ofBytes (bs : List Byte) : Buffer :=
  ⟨bs.length, Memory.ofBytes 0 bs⟩

/-- The canonical form of a buffer: its memory's, with every listed address inside the buffer. -/
def Buffer.wf (b : Buffer) : Bool :=
  b.mem.wf && b.mem.below b.size

/-- Byte i has a value. -/
def Buffer.has (b : Buffer) (i : Nat) : Bool :=
  decide (i < b.size) && (b.mem.read i).isSome

end Sys2Proof.Machine
end

