-- ==== Sys2Proof/Config.lean ====
section
/-! DEFINITION. The configuration record of R7 (00_scope.md) and the model's one free value.
The record is plain data held in `State.cfg`, so that a statement over all states is a statement over
all parameters; the defaults R7 gives stand in Machine/Params.lean. -/

namespace Sys2Proof

/-- Which sample the right-edge filter of the horizontal pass reads from (R7, R233). -/
inductive UpsEdge where
  | stride
  | width
  deriving DecidableEq, Repr

/-- The numeric result codes, the last row of R7's table (R271). -/
structure ResultNumbers where
  ok : BitVec 3
  notAJpeg : BitVec 3
  unsupported : BitVec 3
  outOfMemory : BitVec 3
  internalError : BitVec 3
  syntaxError : BitVec 3
  idle : BitVec 3
  deriving DecidableEq, Repr

/-- The parameters of R7. `memBytes` and `refused` are `ALLOC` as plain data (D10, log 5): a request
of n bytes with `live` bytes allocated is refused when `live + n > memBytes` (the `MEM_BYTES` instance)
or when the pair (n, live) is listed in `refused`. -/
structure Config where
  accBits : Nat
  inLenMax : Nat
  memBytes : Nat
  refused : List (Nat × Nat)
  w1 : Word
  w2 : Word
  w3 : Word
  w5 : Word
  w6 : Word
  w7 : Word
  wr : Word
  idctShortcutLiteral : Bool
  cf4a : Word
  cf4b : Word
  cf4c : Word
  cf4d : Word
  cf3a : Word
  cf3b : Word
  cf3c : Word
  cf3x : Word
  cf3y : Word
  cf3z : Word
  cf2a : Word
  cf2b : Word
  upsHEdge : UpsEdge
  ccRCr : Word
  ccGCb : Word
  ccGCr : Word
  ccBCb : Word
  zz : Vector (Fin 64) 64
  codes : ResultNumbers
  deriving DecidableEq, Repr

/-- FREE VALUE (log 8): what `OUT_SIZE` holds when the output has 2^32 bytes or more. R34 gives the
register 32 bits and the value `3·W·H`, and states no result for a product that does not fit. -/
opaque Config.outSizeBeyond32 : Nat → Word

end Sys2Proof
end

