-- ==== Sys2Proof/Machine/Params.lean ====
section
/-! DEFINITION. The default values of R7's parameters (00_scope.md), each from the rule that names it. -/

namespace Sys2Proof.Machine

/-- The zig-zag table of R96: natural index `8·v + u` of the k-th coefficient. -/
def zigZag : Vector (Fin 64) 64 :=
  #v[0, 1, 8, 16, 9, 2, 3, 10, 17, 24, 32, 25, 18, 11, 4, 5,
    12, 19, 26, 33, 40, 48, 41, 34, 27, 20, 13, 6, 7, 14, 21, 28,
    35, 42, 49, 56, 57, 50, 43, 36, 29, 22, 15, 23, 30, 37, 44, 51,
    58, 59, 52, 45, 38, 31, 39, 46, 53, 60, 61, 54, 47, 55, 62, 63]

/-- R271: 0 to 5 in the order of R270, 7 for `IDLE`. -/
def resultNumbers : ResultNumbers where
  ok := 0
  notAJpeg := 1
  unsupported := 2
  outOfMemory := 3
  internalError := 4
  syntaxError := 5
  idle := 7

/-- R7's defaults: R211 (IDCT), R231 (taps), R233 (edge), R252 (colour), R96 (zig-zag), D11 (input
length). `ALLOC` is OPEN (D10): the limit here is one no request of this block passes (log 5).
DESIGN CHOICE (log 27): `ACC_BITS` = 32, since R7 says "any value ≥ 32" and names no default. -/
def defaultConfig : Config where
  accBits := 32
  inLenMax := 2 ^ 31 - 1
  memBytes := 2 ^ 64
  refused := []
  w1 := 2841
  w2 := 2676
  w3 := 2408
  w5 := 1609
  w6 := 1108
  w7 := 565
  wr := 181
  idctShortcutLiteral := false
  cf4a := -9
  cf4b := 111
  cf4c := 29
  cf4d := -3
  cf3a := 28
  cf3b := 109
  cf3c := -9
  cf3x := 104
  cf3y := 27
  cf3z := -3
  cf2a := 139
  cf2b := -11
  upsHEdge := .stride
  ccRCr := 359
  ccGCb := 88
  ccGCr := 183
  ccBCb := 454
  zz := zigZag
  codes := resultNumbers

end Sys2Proof.Machine
end

