-- ==== Sys2Proof/Machine/State.lean ====
section
/-! DEFINITION. The state of one decoder instance (10_state.md, R20 to R39), as plain data, its reset, and
the reasons a step can stop. -/

namespace Sys2Proof.Machine

/-- The six result codes (R24, R270). -/
inductive Code where
  | ok
  | notAJpeg
  | unsupported
  | outOfMemory
  | internalError
  | syntaxError
  deriving DecidableEq, Repr

/-- Register 0, `RESULT`: no DECODE has ended yet (`IDLE`), or the code of the last one (R34, R270). -/
inductive ResultReg where
  | idle
  | ended (c : Code)
  deriving DecidableEq, Repr

/-- Where the control flow stands (R25). -/
inductive Phase where
  | idle
  | headers
  | scan
  | convert
  | done
  deriving DecidableEq, Repr

/-- Register 5, `OUT_BUF`, a reference to a byte array (R34, R256). -/
inductive OutRef where
  | none
  | rgb
  | plane0
  deriving DecidableEq, Repr

/-- An entry of a Huffman lookup table: a code length in 0..16 and a symbol (R28). -/
structure HtEntry where
  len : Fin 17
  sym : Byte
  deriving DecidableEq, Repr

/-- A Huffman lookup table of 2^16 entries (R28) as the list of its code spans, in window order: an
entry (len, sym) fills the next `2^(16 - len)` windows, and the windows after the last span hold (0, 0).
`HuffTable.lookup` (Machine/Huffman.lean) is the entry at a window (log 9). -/
abbrev HuffTable := List HtEntry

/-- One component record (R30). -/
structure Comp where
  cid : Byte
  ssx : Nibble
  ssy : Nibble
  width : Nat
  height : Nat
  stride : Nat
  qtsel : BitVec 2
  dcsel : BitVec 2
  acsel : BitVec 2
  dcpred : Word
  pixels : Option Buffer
  deriving DecidableEq, Repr

/-- What runs next inside a scan: a DC symbol, an AC symbol, the block's IDCT, or the restart check
(the control flow of R182 and R190, log 10). -/
inductive Stage where
  | dc
  | ac
  | idct
  | restart
  deriving DecidableEq, Repr

/-- The loop variables of R190 and R182: component, block row, block column, zig-zag position (log 10). -/
structure Seq where
  k : Nat
  sby : Nat
  sbx : Nat
  kz : Nat
  stage : Stage
  deriving DecidableEq, Repr

/-- Before the first symbol of the first block of an MCU. -/
def Seq.start : Seq :=
  ⟨0, 0, 0, 0, .dc⟩

/-- The value the last operation run by itself returned (log 11). -/
inductive Ret where
  | none
  | nat (n : Nat)
  | symbol (sym : Byte) (v : Word)
  | words (ws : Oct Word)
  | samples (bs : Oct Byte)
  | rgb (r g b : Byte)
  deriving DecidableEq, Repr

/-- A DECODE(buf, len) the host has issued (R140, R303). -/
structure Command where
  buf : List Byte
  len : Nat
  deriving DecidableEq, Repr

/-- The byte spaces a rule can index (R60). -/
inductive Space where
  | input
  | plane
  | rgb
  deriving DecidableEq, Repr

/-- Why the machine stops. No run from reset reaches one (R312). -/
inductive Fault where
  /-- An index outside its buffer, "a model fault (never a value)" (R12, R69, U15). Raised by the byte
  reads and writes of Machine/Ops.lean. Safe. -/
  | indexOutside (sp : Space)
  /-- A read of a byte of a fresh buffer that nothing has written: its contents are unspecified (R150).
  Raised by the byte reads of Machine/Ops.lean. Safe (log 7). -/
  | unwritten (sp : Space)
  /-- An access to a plane or to the RGB buffer while none is allocated. Raised by the byte reads and
  writes of Machine/Ops.lean. Safe (log 18). -/
  | noBuffer (sp : Space)
  /-- A component index k that no component of the frame has (R30). Raised by `getComp`. Safe (log 18). -/
  | noComponent
  /-- An upsampler pass on a plane below 3 samples, against the precondition of R232 and R236. Raised by
  `upsHOp` and `upsVOp`. Safe (log 18). -/
  | planeTooSmall
  /-- A loop ran past the bound R191 and R311 give it. Raised by the bounded loops. Safe (log 17). -/
  | loopBound
  deriving DecidableEq, Repr

/-- Why a move is refused. -/
inductive Refusal where
  /-- The arm of an instruction without a meaning yet. Raised by `exec` only. Safe. -/
  | notModelled (mnemonic : String)
  /-- A DECODE whose `len` is not the buffer's size or is above `IN_LEN_MAX`: a broken host duty has no
  move (R140, R303, U3). Raised by `execDecode` and by accepting a command. Safe (log 4). -/
  | hostDuty
  /-- A DECODE issued while one is in progress: undefined, "a model refuses the second" (R72, U1). Raised
  by `execDecode` and by `step`. Safe (log 3). -/
  | overlappingDecode
  deriving DecidableEq, Repr

/-- The state `S` of one instance. -/
structure State where
  /-- the configuration record (R7) -/
  cfg : Config
  /-- a DECODE issued and not begun (R303, log 2) -/
  cmd : Option Command
  /-- `S.in` and, as its size, `S.N` (R21) -/
  inp : Buffer
  /-- `S.pos` (R22) -/
  pos : Nat
  /-- `S.remaining` (R22) -/
  remaining : Int
  /-- `S.acc`, head first; `S.accBits` is its length (R23) -/
  acc : List Bool
  /-- `S.error`, the sticky result (R24) -/
  error : Code
  /-- `S.phase` (R25) -/
  phase : Phase
  /-- an SOF0 segment has been accepted (R26) -/
  frame : Bool
  width : Half
  height : Half
  ncomp : BitVec 2
  hmax : Nibble
  vmax : Nibble
  mcuW : Nat
  mcuH : Nat
  mbwidth : Nat
  mbheight : Nat
  /-- `S.qt[t][k]` (R27) -/
  qt : Vector (Vector Byte 64) 4
  qtAvail : BitVec 4
  qtUsed : BitVec 4
  /-- `S.ht[h]` (R28) -/
  ht : Vector HuffTable 4
  /-- in MCUs (R29, C1) -/
  restartInterval : Half
  /-- `S.comp[k]`, in SOF order (R30) -/
  comps : List Comp
  /-- the scan sequencer (R31) -/
  mbx : Nat
  mby : Nat
  rstCount : Nat
  nextRst : BitVec 3
  /-- the loop variables of a scan (log 10) -/
  seq : Seq
  /-- the scratch block (R32) -/
  blk : Vector Word 64
  /-- `S.rgb` (R33) -/
  rgb : Option Buffer
  /-- bytes allocated (R33) -/
  live : Nat
  /-- register 0 (R34) -/
  result : ResultReg
  /-- registers 1 to 5, written by R255 -/
  regWidth : Half
  regHeight : Half
  regIsColor : Bool
  regOutSize : Word
  regOutBuf : OutRef
  /-- the value the last operation returned (log 11) -/
  ret : Ret
  deriving DecidableEq, Repr

/-- Power-on, before the first DECODE: `S.phase = IDLE`, `RESULT = IDLE`, every other field as in the
per-decode reset (R39, R38). -/
def State.reset : State where
  cfg := defaultConfig
  cmd := none
  inp := Buffer.ofBytes []
  pos := 0
  remaining := 0
  acc := []
  error := .ok
  phase := .idle
  frame := false
  width := 0
  height := 0
  ncomp := 0
  hmax := 0
  vmax := 0
  mcuW := 0
  mcuH := 0
  mbwidth := 0
  mbheight := 0
  qt := Vector.replicate 4 (Vector.replicate 64 0)
  qtAvail := 0
  qtUsed := 0
  ht := Vector.replicate 4 []
  restartInterval := 0
  comps := []
  mbx := 0
  mby := 0
  rstCount := 0
  nextRst := 0
  seq := Seq.start
  blk := Vector.replicate 64 0
  rgb := none
  live := 0
  result := .idle
  regWidth := 0
  regHeight := 0
  regIsColor := false
  regOutSize := 0
  regOutBuf := .none
  ret := .none

end Sys2Proof.Machine
end

