-- ==== Sys2Proof/Machine/Ops.lean ====
section
/-! DEFINITION. The named operations over the state: the abort (R275), byte accesses to the four spaces
(R12), allocation (D10), component access and counted loops. An operation answers a value, or stops: the
DECODE ends by an abort, or the model faults. -/

namespace Sys2Proof.Machine

/-- How an operation stops short. -/
inductive Stop where
  /-- `raise Abort` ended the command, in the state given (R275) -/
  | aborted (s : State)
  /-- a model fault (R12) -/
  | fault (f : Fault)
  deriving DecidableEq, Repr

/-- An operation's answer. -/
abbrev Eng (α : Type) := Except Stop α

/-- The outcome of an instruction: an abort is a next state, the one R275 gives. -/
def conclude : Eng State → Host.Outcome State Fault Refusal
  | .ok s => .next s
  | .error (.aborted s) => .next s
  | .error (.fault f) => .fault f

/-! ### The abort: the block's one exception -/

/-- Entry of an abort (R275), one step: the first code stays, `S.phase = DONE`, `RESULT` is written, every
buffer of this DECODE is released and `S.live` is 0. Nothing is saved. The sequencer's loop variables end
with the command (log 13). -/
def State.abort (code : Code) (s : State) : State :=
  let e := if s.error = .ok then code else s.error
  { s with
    error := e
    phase := .done
    result := .ended e
    comps := s.comps.map fun c => { c with pixels := none }
    rgb := none
    live := 0
    seq := Seq.start }

/-- `raise Abort(code)` (R13): abort and end the command. -/
def raise {α : Type} (code : Code) (s : State) : Eng α :=
  .error (.aborted (s.abort code))

/-- A model fault. -/
def stuck {α : Type} (f : Fault) : Eng α :=
  .error (.fault f)

/-- The return from an abort (R280): there is no return-from-trap operation; the next DECODE starts from
the per-decode reset, R38 (R300). The configuration and the host registers stay until they are rewritten,
and the buffer given becomes the input. -/
def State.decodeReset (buf : List Byte) (s : State) : State :=
  { State.reset with
    cfg := s.cfg
    inp := Buffer.ofBytes buf
    remaining := buf.length
    phase := .headers
    result := s.result
    regWidth := s.regWidth
    regHeight := s.regHeight
    regIsColor := s.regIsColor
    regOutSize := s.regOutSize
    regOutBuf := s.regOutBuf }

/-! ### The input -/

/-- `Skip(n)` (R143): `S.pos` and `S.remaining` move together (R22). -/
def State.skip (n : Nat) (s : State) : State :=
  { s with pos := s.pos + n, remaining := s.remaining - n }

/-- Read byte i of a buffer (R12): a value, or a fault of the space it belongs to. -/
def Buffer.get (b : Buffer) (sp : Space) (i : Nat) : Eng Byte :=
  if i < b.size then
    match b.mem.read i with
    | some v => .ok v
    | none => stuck (.unwritten sp)
  else stuck (.indexOutside sp)

/-- Write byte i of a buffer (R12). -/
def Buffer.put (b : Buffer) (sp : Space) (i : Nat) (v : Byte) : Eng Buffer :=
  if i < b.size then .ok { b with mem := b.mem.write i v } else stuck (.indexOutside sp)

/-- `InByte(i)` (R12). -/
def inByte (i : Nat) (s : State) : Eng Byte :=
  s.inp.get .input i

/-- The bytes the engine may still take, from `S.pos` on (R22). -/
def State.bytesLeft (s : State) : List Byte :=
  s.inp.mem.bytesAt s.pos s.remaining.toNat

/-! ### Components and planes -/

/-- Component k (R30). -/
def getComp (k : Nat) (s : State) : Eng Comp :=
  match s.comps[k]? with
  | some c => .ok c
  | none => stuck .noComponent

/-- Component k becomes c. -/
def State.setComp (k : Nat) (c : Comp) (s : State) : State :=
  { s with comps := s.comps.set k c }

/-- The pixel plane of a component. -/
def Comp.plane (c : Comp) : Eng Buffer :=
  match c.pixels with
  | some b => .ok b
  | none => stuck (.noBuffer .plane)

/-- `PlaneRead(k, i)` (R12). -/
def planeRead (k i : Nat) (s : State) : Eng Byte := do
  let c ← getComp k s
  let b ← c.plane
  b.get .plane i

/-- `PlaneWrite(k, i, v)` (R12). -/
def planeWrite (k i : Nat) (v : Byte) (s : State) : Eng State := do
  let c ← getComp k s
  let b ← c.plane
  let b' ← b.put .plane i v
  return s.setComp k { c with pixels := some b' }

/-- `OutWrite(i, v)` (R12). -/
def outWrite (i : Nat) (v : Byte) (s : State) : Eng State :=
  match s.rgb with
  | none => stuck (.noBuffer .rgb)
  | some b => do
    let b' ← b.put .rgb i v
    return { s with rgb := some b' }

/-! ### Allocation -/

/-- Whether the oracle grants n bytes with `live` allocated (D10, log 5). -/
def allocGrants (cfg : Config) (n live : Nat) : Bool :=
  decide (live + n ≤ cfg.memBytes) && !cfg.refused.contains (n, live)

/-- `ALLOC(n)` (R150): a fresh buffer, n more live bytes; or `raise Abort(OUT_OF_MEMORY)` (R276). -/
def alloc (n : Nat) (s : State) : Eng (Buffer × State) :=
  if allocGrants s.cfg n s.live then .ok (Buffer.fresh n, { s with live := s.live + n })
  else raise .outOfMemory s

/-- Release a buffer of n bytes (R232). -/
def State.release (n : Nat) (s : State) : State :=
  { s with live := s.live - n }

/-! ### Counted loops -/

/-- `for i in start .. start + n - 1: body i`, in ascending order. -/
def forUp (body : Nat → State → Eng State) : (n start : Nat) → State → Eng State
  | 0, _, s => .ok s
  | n + 1, i, s => do
    let s ← body i s
    forUp body n (i + 1) s

end Sys2Proof.Machine
end

