-- ==== Sys2Proof/Machine/Operands.lean ====
section
/-! DEFINITION. The operand forms of 30_encoding.md and of the scan: magnitude bits (R94), table slots (R152,
R162), sampling factors (R148), coefficient positions (R95), block offsets (R190), sample indices (R75). -/

namespace Sys2Proof.Machine

/-- `extend(v, s)` (R94): the magnitude bits v of category s as a signed 32-bit value. -/
def extend (v s : Nat) : Word :=
  if s = 0 then 0
  else if v < 2 ^ (s - 1) then BitVec.ofNat 32 v + ((-1 : Word) <<< s) + 1
  else BitVec.ofNat 32 v

/-- `ceil(a / b)` on naturals (R10). -/
def ceilDiv (a b : Nat) : Nat :=
  (a + b - 1) / b

/-- A sampling factor is a power of two (R148): one of 1, 2, 4, 8. -/
def powerOfTwo (f : Nibble) : Bool :=
  f = 1 || f = 2 || f = 4 || f = 8

/-- The slot of a DHT table, `h = 2·t[4] + t[0]` (R152). -/
def htSlot (tc th : Nibble) : Fin 4 :=
  Fin.ofNat 4 (2 * (tc.toNat % 2) + th.toNat % 2)

/-- The DC slot a selector names, `t[4]` (R162). -/
def dcSlot (td : Nibble) : BitVec 2 :=
  BitVec.ofNat 2 (td.toNat % 2)

/-- The AC slot a selector names, `2 + t[0]` (R162). -/
def acSlot (ta : Nibble) : BitVec 2 :=
  BitVec.ofNat 2 (2 + ta.toNat % 2)

/-- The natural position of zig-zag index kz, `ZZ[kz]` (R95, R96). -/
def zzPos (cfg : Config) (kz : Nat) : Fin 64 :=
  cfg.zz.get (Fin.ofNat 64 kz)

/-- The quantisation step of zig-zag position kz in slot t, as a datapath value (R27, D46). -/
def quantStep (s : State) (t : BitVec 2) (kz : Nat) : Word :=
  ((s.qt.get t.toFin).get (Fin.ofNat 64 kz)).setWidth 32

/-- Entry i of a block. -/
def blkAt (b : Vector Word 64) (i : Nat) : Word :=
  b.get (Fin.ofNat 64 i)

/-- A block with entry i replaced. -/
def blkSet (b : Vector Word 64) (i : Nat) (v : Word) : Vector Word 64 :=
  b.set (i % 64) v (Nat.mod_lt i (by decide))

/-- The plane offset of block (sbx, sby) of component c in MCU (mbx, mby) (R190). -/
def blockOffset (c : Comp) (mbx mby sbx sby : Nat) : Nat :=
  ((mby * c.ssy.toNat + sby) * c.stride + mbx * c.ssx.toNat + sbx) * 8

/-- The plane index of sample (x, y) (R75). -/
def sampleIndex (c : Comp) (x y : Nat) : Nat :=
  y * c.stride + x

/-- A byte as a datapath value. -/
def sampleWord (b : Byte) : Word :=
  b.setWidth 32

/-- `clip(x)` (R10): 0 below 0, 255 above 255, on the signed value. -/
def clip (x : Word) : Byte :=
  if x.toInt < 0 then 0 else if 255 < x.toInt then 255 else x.setWidth 8

/-- The bits of a byte, most significant first (R63). -/
def bits8 (b : Byte) : List Bool :=
  [b.getLsbD 7, b.getLsbD 6, b.getLsbD 5, b.getLsbD 4, b.getLsbD 3, b.getLsbD 2, b.getLsbD 1,
    b.getLsbD 0]

/-- A bit sequence as an unsigned number, first bit most significant (R63, R119). -/
def bitsNat (bs : List Bool) : Nat :=
  bs.foldl (fun n b => 2 * n + b.toNat) 0

end Sys2Proof.Machine
end

