-- ==== Sys2Proof/Machine/Flags.lean ====
section
/-! DEFINITION. The block has no condition codes (R24). Its status is the result register, the colour flag
and the other host registers: their numbers (R271), and what completion writes into them (R255). -/

namespace Sys2Proof.Machine

/-- The number of a result code (R271). -/
def codeNumber (cfg : Config) : Code → BitVec 3
  | .ok => cfg.codes.ok
  | .notAJpeg => cfg.codes.notAJpeg
  | .unsupported => cfg.codes.unsupported
  | .outOfMemory => cfg.codes.outOfMemory
  | .internalError => cfg.codes.internalError
  | .syntaxError => cfg.codes.syntaxError

/-- The value of `RESULT`: the code in bits [2:0], zero above (R34). -/
def resultWord (cfg : Config) : ResultReg → Word
  | .idle => cfg.codes.idle.setWidth 32
  | .ended c => (codeNumber cfg c).setWidth 32

/-- The frame is a colour image: three components (R34). -/
def State.isColor (s : State) : Bool :=
  decide (s.ncomp = 3)

/-- The bytes of the output: `3·W·H` for a colour image, `W·H` for a gray one (R34). -/
def State.outBytes (s : State) : Nat :=
  s.width.toNat * s.height.toNat * (if s.isColor then 3 else 1)

/-- `OUT_SIZE`: the count when it fits the register's 32 bits, else the free value (R34, log 8). -/
def outSizeWord (n : Nat) : Word :=
  if n < 2 ^ 32 then BitVec.ofNat 32 n else Config.outSizeBeyond32 n

/-- Completion of a DECODE (R255): `S.phase` and the six host registers. -/
def State.finish (s : State) : State :=
  { s with
    phase := .done
    result := .ended .ok
    regWidth := s.width
    regHeight := s.height
    regIsColor := s.isColor
    regOutSize := outSizeWord s.outBytes
    regOutBuf := if s.isColor then .rgb else .plane0 }

end Sys2Proof.Machine
end

