-- ==== Sys2Proof/Machine/BitReader.lean ====
section
/-! DEFINITION. The bit reader (40_bit_reader.md): the eight escapes of the entropy-coded segment, REFILL,
ALIGN, PEEK, CONSUME and READ. -/

namespace Sys2Proof.Machine

/-- Append a whole byte at the tail of `S.acc`, most significant bit first (R23, R63). -/
def State.push (b : Byte) (s : State) : State :=
  { s with acc := s.acc ++ bits8 b }

/-- Remove the first n bits of `S.acc` (R23). -/
def State.dropBits (n : Nat) (s : State) : State :=
  { s with acc := s.acc.drop n }

/-- The input ends here: `S.remaining <- 0` (R112). -/
def State.endInput (s : State) : State :=
  { s with remaining := 0 }

/-- The value an operation run by itself returns (log 11). -/
def State.returns (r : Ret) (s : State) : State :=
  { s with ret := r }

/-! ### The escapes (R89, R111) -/

/-- A byte other than 0xFF is taken and is data (R111). -/
def dataByte (b : Byte) (s : State) : State :=
  (s.skip 1).push b

/-- The 0xFF of an escape is taken and is data; then its second byte is taken (R111). -/
def takeEscape (s : State) : State :=
  (dataByte 0xFF s).skip 1

/-- `0xFF 0xDm`: both bytes are data (R113). -/
def rstEscape (m : Byte) (s : State) : State :=
  (takeEscape s).push m

/-- `0xFF 0xD9`: the 0xFF is data and the input ends (R112). -/
def eoiEscape (s : State) : State :=
  (takeEscape s).endInput

/-- 0xFF as the last input byte: it is data, then SYNTAX_ERROR (R116). -/
def ffLast (s : State) : Eng State :=
  raise .syntaxError (dataByte 0xFF s)

/-- Any other marker: SYNTAX_ERROR after both bytes are taken (R115). -/
def otherMarker (s : State) : Eng State :=
  raise .syntaxError (takeEscape s)

/-- REFILL (R111). -/
def refillOp (s : State) : Eng State :=
  if s.remaining ≤ 0 then .ok (s.push 0xFF)
  else do
    let b ← inByte s.pos s
    if b ≠ 0xFF then return dataByte b s
    else if (dataByte b s).remaining ≤ 0 then ffLast s
    else do
      let m ← inByte (s.pos + 1) s
      if m = 0x00 then return takeEscape s
      else if m = 0xFF then return takeEscape s
      else if m = 0xD9 then return eoiEscape s
      else if codeIn 0xD0 0xD7 m then return rstEscape m s
      else otherMarker s

/-! ### PEEK, CONSUME, READ, ALIGN -/

/-- `while S.accBits < n: REFILL()`, at most `fuel` times (R119, R191). -/
def fillOp (n : Nat) : Nat → State → Eng State
  | 0, s => if s.acc.length < n then stuck .loopBound else .ok s
  | fuel + 1, s =>
    if s.acc.length < n then do
      let s ← refillOp s
      fillOp n fuel s
    else .ok s

/-- PEEK(n) (R119): two refills suffice for n ≤ 16, each adding at least 8 bits (R117). -/
def peekOp (n : Nat) (s : State) : Eng (Nat × State) :=
  if n = 0 then .ok (0, s)
  else do
    let s ← fillOp n 2 s
    return (bitsNat (s.acc.take n), s)

/-- CONSUME(n) (R120). -/
def consumeOp (n : Nat) (s : State) : Eng State :=
  if s.acc.length < n then do
    let r ← peekOp n s
    return r.2.dropBits n
  else .ok (s.dropBits n)

/-- READ(n) (R121). -/
def readOp (n : Nat) (s : State) : Eng (Nat × State) := do
  let r ← peekOp n s
  let s ← consumeOp n r.2
  return (r.1, s)

/-- ALIGN (R118): drop the partial byte at the head of `S.acc`. -/
def alignOp (s : State) : State :=
  s.dropBits (s.acc.length % 8)

/-! ### Meanings -/

/-- ECS_DATA (R111). -/
def execEcsData (b : Byte) (s : State) : Host.Outcome State Fault Refusal :=
  .next (dataByte b s)

/-- ECS_STUFF (R111): `0xFF 0x00` is one data byte 0xFF. -/
def execEcsStuff (s : State) : Host.Outcome State Fault Refusal :=
  .next (takeEscape s)

/-- ECS_FILL (R114): `0xFF 0xFF` is one data byte 0xFF. -/
def execEcsFill (s : State) : Host.Outcome State Fault Refusal :=
  .next (takeEscape s)

/-- ECS_RSTm (R113): `0xFF 0xDm` is two data bytes. -/
def execEcsRstm (m : BitVec 3) (s : State) : Host.Outcome State Fault Refusal :=
  .next (rstEscape ((0b11010 : BitVec 5) ++ m) s)

/-- ECS_EOI (R112). -/
def execEcsEoi (s : State) : Host.Outcome State Fault Refusal :=
  .next (eoiEscape s)

/-- ECS_OTHER_MARKER (R115). -/
def execEcsOtherMarker (_c : Byte) (s : State) : Host.Outcome State Fault Refusal :=
  conclude (otherMarker s)

/-- ECS_FF_LAST (R116). -/
def execEcsFfLast (s : State) : Host.Outcome State Fault Refusal :=
  conclude (ffLast s)

/-- ECS_FILLER (R111): a filler byte 0xFF, no input read. -/
def execEcsFiller (s : State) : Host.Outcome State Fault Refusal :=
  .next (s.push 0xFF)

/-- REFILL (R111). -/
def execRefill (s : State) : Host.Outcome State Fault Refusal :=
  conclude (refillOp s)

/-- ALIGN (R118). -/
def execAlign (s : State) : Host.Outcome State Fault Refusal :=
  .next (alignOp s)

/-- PEEK (R119). -/
def execPeek (n : Fin 17) (s : State) : Host.Outcome State Fault Refusal :=
  conclude (do
    let r ← peekOp n.val s
    return r.2.returns (.nat r.1))

/-- CONSUME (R120). -/
def execConsume (n : Fin 17) (s : State) : Host.Outcome State Fault Refusal :=
  conclude (consumeOp n.val s)

/-- READ (R121). -/
def execRead (n : Fin 17) (s : State) : Host.Outcome State Fault Refusal :=
  conclude (do
    let r ← readOp n.val s
    return r.2.returns (.nat r.1))

end Sys2Proof.Machine
end

