-- ==== Sys2Proof/Machine/Huffman.lean ====
section
/-! DEFINITION. The Huffman table builder (41_huffman_table.md), the lookup, and the symbol decoder
DECODE_VLC (R180). -/

namespace Sys2Proof.Machine

/-- The entry of window w (R28, R131): the span the window falls in, or (0, 0), "no match". -/
def HuffTable.lookup : HuffTable → Nat → HtEntry
  | [], _ => ⟨0, 0⟩
  | e :: rest, w =>
    if w < 2 ^ (16 - e.len.val) then e else HuffTable.lookup rest (w - 2 ^ (16 - e.len.val))

/-- The lengths of BUILD_HT's loop (R131, R153) from `l` on: `counts` holds the counts of the lengths l,
l + 1, ..., `syms` the symbol bytes not yet used, `space` the unclaimed windows. For each length with
codes: the payload check, the over-subscription check (R132), then the symbols, taken from the payload. -/
def buildSpans : (l : Nat) → (counts syms : List Byte) → (space : Int) → State → Eng (HuffTable × State)
  | _, [], _, _, s => .ok ([], s)
  | l, n :: counts, syms, space, s =>
    if n = 0 then buildSpans (l + 1) counts syms space s
    else if syms.length < n.toNat then raise .syntaxError s
    else
      let left : Int := space - n.toNat * 2 ^ (16 - l)
      if left < 0 then raise .syntaxError s
      else do
        let r ← buildSpans (l + 1) counts (syms.drop n.toNat) left (s.skip n.toNat)
        return ((syms.take n.toNat).map (fun v => ⟨Fin.ofNat 17 l, v⟩) ++ r.1, r.2)

/-- BUILD_HT(h, counts, syms) with payload consumption (R130 to R133, R153): the slot's content is
replaced whole, only if no exception is raised. -/
def buildHtOp (h : Fin 4) (counts syms : List Byte) (s : State) : Eng State := do
  let r ← buildSpans 1 counts syms 65536 s
  return { r.2 with ht := r.2.ht.set h.val r.1 h.isLt }

/-- The magnitude bits of a symbol of category c (R180): none for c = 0, else READ(c) extended (R94). -/
def magnitudeOp (c : Nat) (s : State) : Eng (Word × State) :=
  if c = 0 then .ok (0, s)
  else do
    let r ← readOp c s
    return (extend r.1 c, r.2)

/-- DECODE_VLC(h) (R180): the symbol and its value. -/
def decodeVlcOp (h : Fin 4) (s : State) : Eng (Byte × Word × State) := do
  let r ← peekOp 16 s
  let e := HuffTable.lookup (r.2.ht.get h) r.1
  if e.len = 0 then raise .syntaxError r.2
  else do
    let s ← consumeOp e.len.val r.2
    let m ← magnitudeOp (e.sym.toNat % 16) s
    return (e.sym, m.1, m.2)

/-! ### Meanings -/

/-- BUILD_HT (R130). -/
def execBuildHt (h : Fin 4) (counts syms : List Byte) (s : State) : Host.Outcome State Fault Refusal :=
  conclude (buildHtOp h counts syms s)

/-- DECODE_VLC (R180). -/
def execDecodeVlc (h : Fin 4) (s : State) : Host.Outcome State Fault Refusal :=
  conclude (do
    let r ← decodeVlcOp h s
    return r.2.2.returns (.symbol r.1 r.2.1))

/-- HUFF_MISS (R180): a window with no code is SYNTAX_ERROR. -/
def execHuffMiss (_w : Half) (s : State) : Host.Outcome State Fault Refusal :=
  conclude (raise .syntaxError s)

end Sys2Proof.Machine
end

