-- ==== Sys2Proof/Machine/Idct.lean ====
section
/-! DEFINITION. The fixed-point IDCT (44_idct.md): the row pass, the column pass and the block. All
arithmetic is 32-bit and wraps; `sra` is the arithmetic right shift (R10). -/

namespace Sys2Proof.Machine

/-- The arithmetic right shift `x >> n` (R10). -/
def sra (x : Word) (n : Nat) : Word :=
  x.sshiftRight n

/-- The high-frequency entries of a row or column are all zero (R213). -/
def flat (b : Oct Word) : Bool :=
  b.a1 = 0 && b.a2 = 0 && b.a3 = 0 && b.a4 = 0 && b.a5 = 0 && b.a6 = 0 && b.a7 = 0

/-- The full row transform (R212), statement by statement. -/
def idctRowFull (cfg : Config) (b : Oct Word) : Oct Word :=
  let x0 := (b.a0 <<< 11) + 128
  let x1 := b.a4 <<< 11
  let x2 := b.a6
  let x3 := b.a2
  let x4 := b.a1
  let x5 := b.a7
  let x6 := b.a5
  let x7 := b.a3
  let x8 := cfg.w7 * (x4 + x5)
  let x4 := x8 + (cfg.w1 - cfg.w7) * x4
  let x5 := x8 - (cfg.w1 + cfg.w7) * x5
  let x8 := cfg.w3 * (x6 + x7)
  let x6 := x8 - (cfg.w3 - cfg.w5) * x6
  let x7 := x8 - (cfg.w3 + cfg.w5) * x7
  let x8 := x0 + x1
  let x0 := x0 - x1
  let x1 := cfg.w6 * (x3 + x2)
  let x2 := x1 - (cfg.w2 + cfg.w6) * x2
  let x3 := x1 + (cfg.w2 - cfg.w6) * x3
  let x1 := x4 + x6
  let x4 := x4 - x6
  let x6 := x5 + x7
  let x5 := x5 - x7
  let x7 := x8 + x3
  let x8 := x8 - x3
  let x3 := x0 + x2
  let x0 := x0 - x2
  let x2 := sra (cfg.wr * (x4 + x5) + 128) 8
  let x4 := sra (cfg.wr * (x4 - x5) + 128) 8
  ⟨sra (x7 + x1) 8, sra (x3 + x2) 8, sra (x0 + x4) 8, sra (x8 + x6) 8,
    sra (x8 - x6) 8, sra (x0 - x4) 8, sra (x3 - x2) 8, sra (x7 - x1) 8⟩

/-- The row shortcut `b[0] << 3` (R213). -/
def idctRowFast (b : Oct Word) : Oct Word :=
  let v := b.a0 <<< 3
  ⟨v, v, v, v, v, v, v, v⟩

/-- IDCT_ROW (R212, R213). -/
def idctRowOp (cfg : Config) (b : Oct Word) : Oct Word :=
  if cfg.idctShortcutLiteral && flat b then idctRowFast b else idctRowFull cfg b

/-- Bias then clamp (R216, D48). -/
def biasClip (v : Word) : Byte :=
  clip (v + 128)

/-- The full column transform (R214), statement by statement. -/
def idctColFull (cfg : Config) (b : Oct Word) : Oct Byte :=
  let x0 := (b.a0 <<< 8) + 8192
  let x1 := b.a4 <<< 8
  let x2 := b.a6
  let x3 := b.a2
  let x4 := b.a1
  let x5 := b.a7
  let x6 := b.a5
  let x7 := b.a3
  let x8 := cfg.w7 * (x4 + x5) + 4
  let x4 := sra (x8 + (cfg.w1 - cfg.w7) * x4) 3
  let x5 := sra (x8 - (cfg.w1 + cfg.w7) * x5) 3
  let x8 := cfg.w3 * (x6 + x7) + 4
  let x6 := sra (x8 - (cfg.w3 - cfg.w5) * x6) 3
  let x7 := sra (x8 - (cfg.w3 + cfg.w5) * x7) 3
  let x8 := x0 + x1
  let x0 := x0 - x1
  let x1 := cfg.w6 * (x3 + x2) + 4
  let x2 := sra (x1 - (cfg.w2 + cfg.w6) * x2) 3
  let x3 := sra (x1 + (cfg.w2 - cfg.w6) * x3) 3
  let x1 := x4 + x6
  let x4 := x4 - x6
  let x6 := x5 + x7
  let x5 := x5 - x7
  let x7 := x8 + x3
  let x8 := x8 - x3
  let x3 := x0 + x2
  let x0 := x0 - x2
  let x2 := sra (cfg.wr * (x4 + x5) + 128) 8
  let x4 := sra (cfg.wr * (x4 - x5) + 128) 8
  ⟨biasClip (sra (x7 + x1) 14), biasClip (sra (x3 + x2) 14),
    biasClip (sra (x0 + x4) 14), biasClip (sra (x8 + x6) 14),
    biasClip (sra (x8 - x6) 14), biasClip (sra (x0 - x4) 14),
    biasClip (sra (x3 - x2) 14), biasClip (sra (x7 - x1) 14)⟩

/-- The column shortcut `clip(((b[0] + 32) >> 6) + 128)` (R215). -/
def idctColFast (b : Oct Word) : Oct Byte :=
  let v := biasClip (sra (b.a0 + 32) 6)
  ⟨v, v, v, v, v, v, v, v⟩

/-- IDCT_COL (R214, R215). -/
def idctColOp (cfg : Config) (b : Oct Word) : Oct Byte :=
  if cfg.idctShortcutLiteral && flat b then idctColFast b else idctColFull cfg b

/-! ### The block -/

/-- Row r of a block, entries 8r .. 8r+7. -/
def blkRow (b : Vector Word 64) (r : Nat) : Oct Word :=
  ⟨blkAt b (8 * r), blkAt b (8 * r + 1), blkAt b (8 * r + 2), blkAt b (8 * r + 3),
    blkAt b (8 * r + 4), blkAt b (8 * r + 5), blkAt b (8 * r + 6), blkAt b (8 * r + 7)⟩

/-- Column c of a block, entries c, c+8, ..., c+56. -/
def blkCol (b : Vector Word 64) (c : Nat) : Oct Word :=
  ⟨blkAt b c, blkAt b (c + 8), blkAt b (c + 16), blkAt b (c + 24),
    blkAt b (c + 32), blkAt b (c + 40), blkAt b (c + 48), blkAt b (c + 56)⟩

/-- A block with row r replaced. -/
def blkSetRow (b : Vector Word 64) (r : Nat) (o : Oct Word) : Vector Word 64 :=
  let b := blkSet b (8 * r) o.a0
  let b := blkSet b (8 * r + 1) o.a1
  let b := blkSet b (8 * r + 2) o.a2
  let b := blkSet b (8 * r + 3) o.a3
  let b := blkSet b (8 * r + 4) o.a4
  let b := blkSet b (8 * r + 5) o.a5
  let b := blkSet b (8 * r + 6) o.a6
  blkSet b (8 * r + 7) o.a7

/-- All eight rows transformed, in order, each replacing its row (R210). -/
def idctRows (cfg : Config) (b : Vector Word 64) : Vector Word 64 :=
  [0, 1, 2, 3, 4, 5, 6, 7].foldl (fun b r => blkSetRow b r (idctRowOp cfg (blkRow b r))) b

/-- Store a column of samples: sample r at `off + r · stride + c` (R216). -/
def storeColumn (k off stride c : Nat) : List Byte → (r : Nat) → State → Eng State
  | [], _, s => .ok s
  | v :: vs, r, s => do
    let s ← planeWrite k (off + r * stride + c) v s
    storeColumn k off stride c vs (r + 1) s

/-- Transform and store column c (R210). -/
def idctColumn (k off stride : Nat) (c : Nat) (s : State) : Eng State :=
  storeColumn k off stride c (idctColOp s.cfg (blkCol s.blk c)).toList 0 s

/-- IDCT_BLOCK(k, off) (R210): all rows before any column. -/
def idctBlockOp (k off : Nat) (s : State) : Eng State := do
  let c ← getComp k s
  forUp (idctColumn k off c.stride) 8 0 { s with blk := idctRows s.cfg s.blk }

/-! ### Meanings -/

/-- IDCT_BLOCK (R210). -/
def execIdctBlock (k off : Nat) (s : State) : Host.Outcome State Fault Refusal :=
  conclude (idctBlockOp k off s)

/-- IDCT_ROW (R212). -/
def execIdctRow (b : Oct Word) (s : State) : Host.Outcome State Fault Refusal :=
  .next (s.returns (.words (idctRowOp s.cfg b)))

/-- IDCT_COL (R214). -/
def execIdctCol (b : Oct Word) (s : State) : Host.Outcome State Fault Refusal :=
  .next (s.returns (.samples (idctColOp s.cfg b)))

end Sys2Proof.Machine
end

