-- ==== Sys2Proof/Machine/Block.lean ====
section
/-! DEFINITION. The block decoder (43_block_decoder.md R180 to R189) and the entropy symbols. The component,
the zig-zag position and what comes next stand in `State.seq` (log 10). -/

namespace Sys2Proof.Machine

/-- The next block of component k begins: the scratch block is cleared (R184) and a DC symbol comes next. -/
def State.startBlock (k : Nat) (s : State) : State :=
  { s with
    blk := Vector.replicate 64 0
    seq := { s.seq with k := k, kz := 0, stage := .dc } }

/-- The coefficients of the block are complete; its IDCT comes next (R186). -/
def State.endBlock (s : State) : State :=
  { s with seq := { s.seq with stage := .idct } }

/-- Store coefficient v of zig-zag position kz, scaled by the component's step: `S.blk[ZZ[kz]] <- v·q[kz]`
(R182, R95), and make kz the position; past 63 no symbol follows (R186, D28). -/
def State.storeCoef (c : Comp) (kz : Nat) (v : Word) (s : State) : State :=
  { s with
    blk := blkSet s.blk (zzPos s.cfg kz).val (v * quantStep s c.qtsel kz)
    seq := { s.seq with kz := kz, stage := if kz < 63 then .ac else .idct } }

/-- The DC coefficient (R185): the predictor moves by d, and entry 0 is the predictor times step 0. -/
def dcValueOp (d : Word) (s : State) : Eng State := do
  let c ← getComp s.seq.k s
  let c' := { c with dcpred := c.dcpred + d }
  let s := s.setComp s.seq.k c'
  return { s with
    blk := blkSet s.blk 0 (c'.dcpred * quantStep s c.qtsel 0)
    seq := { s.seq with kz := 0, stage := .ac } }

/-- An AC coefficient after a run of r zeros (R186, R188). -/
def acRunOp (r : Nat) (v : Word) (s : State) : Eng State :=
  let kz := s.seq.kz + r + 1
  if 63 < kz then raise .syntaxError s
  else do
    let c ← getComp s.seq.k s
    return s.storeCoef c kz v

/-- An AC symbol with its value (R182): EOB, a reserved symbol (R187), or a run (ZRL has r = 15, v = 0). -/
def acSymbolOp (sym : Byte) (v : Word) (s : State) : Eng State :=
  if sym = 0x00 then .ok s.endBlock
  else if sym.toNat % 16 = 0 ∧ sym ≠ 0xF0 then raise .syntaxError s
  else acRunOp (sym.toNat / 16) v s

/-- The AC loop of R182, `while kz < 63`: every turn moves the position by at least 1, so 63 turns suffice
(R191). -/
def acLoop : Nat → State → Eng State
  | 0, s => if s.seq.stage = .ac then stuck .loopBound else .ok s
  | fuel + 1, s =>
    if s.seq.stage = .ac then do
      let c ← getComp s.seq.k s
      let r ← decodeVlcOp c.acsel.toFin s
      let s ← acSymbolOp r.1 r.2.1 r.2.2
      acLoop fuel s
    else .ok s

/-- The coefficients of one block of component k: DC, then the AC loop (R182 to R188). -/
def coefficientsOp (k : Nat) (s : State) : Eng State := do
  let c ← getComp k s
  let r ← decodeVlcOp c.dcsel.toFin (s.startBlock k)
  let s ← dcValueOp r.2.1 r.2.2
  acLoop 63 s

/-- DECODE_BLOCK(k, off) (R182): the coefficients, then the IDCT (R189). -/
def decodeBlockOp (k off : Nat) (s : State) : Eng State := do
  let s ← coefficientsOp k s
  idctBlockOp k off s

/-! ### Meanings -/

/-- DC_CAT (R185): the magnitude bits of the category, then the DC coefficient. -/
def execDcCat (_ignored cat : Nibble) (s : State) : Host.Outcome State Fault Refusal :=
  conclude (do
    let m ← magnitudeOp cat.toNat s
    dcValueOp m.1 m.2)

/-- AC_EOB (R186): the rest of the block is zero. -/
def execAcEob (s : State) : Host.Outcome State Fault Refusal :=
  .next s.endBlock

/-- AC_ZRL (R186): sixteen zeros, no magnitude bits. -/
def execAcZrl (s : State) : Host.Outcome State Fault Refusal :=
  conclude (acRunOp 15 0 s)

/-- AC_RUNCAT (R186): the magnitude bits are read first (R188), then r zeros and one coefficient. -/
def execAcRuncat (r cat : Nibble) (s : State) : Host.Outcome State Fault Refusal :=
  conclude (do
    let m ← magnitudeOp cat.toNat s
    acRunOp r.toNat m.1 m.2)

/-- AC_ILLEGAL (R187): a category-0 symbol other than EOB and ZRL is SYNTAX_ERROR. -/
def execAcIllegal (_r : Nibble) (s : State) : Host.Outcome State Fault Refusal :=
  conclude (raise .syntaxError s)

/-- DECODE_BLOCK (R182). -/
def execDecodeBlock (k off : Nat) (s : State) : Host.Outcome State Fault Refusal :=
  conclude (decodeBlockOp k off s)

end Sys2Proof.Machine
end

