-- ==== Sys2Proof/Machine/Scan.lean ====
section
/-! DEFINITION. The scan sequencer (43_block_decoder.md R190 to R194): SCAN as one operation, its restart
check, and the same sequence block by block for the step (`nextBlock`). -/

namespace Sys2Proof.Machine

/-- The next MCU begins with the first block of component 0 (R190). -/
def State.startMcu (s : State) : State :=
  { s with seq := Seq.start }.startBlock 0

/-- The first line of SCAN (R190, R193). -/
def State.startScan (s : State) : State :=
  { s with
    rstCount := s.restartInterval.toNat
    nextRst := 0
    mbx := 0
    mby := 0 }.startMcu

/-- The scan has decoded its last MCU: `S.phase <- CONVERT`, and the bits left in `S.acc` are dropped (R194). -/
def State.endScan (s : State) : State :=
  { s with acc := [], phase := .convert, seq := Seq.start }

/-- A restart marker is due: the restart check comes next (R192). -/
def State.awaitRestart (s : State) : State :=
  { s with seq := { Seq.start with stage := .restart } }

/-- The MCU at (mbx, mby) is the image's last (R190, R191). -/
def State.lastMcu (s : State) : Bool :=
  decide (s.mbwidth ≤ s.mbx + 1) && decide (s.mbheight ≤ s.mby + 1)

/-- The loop's end after an MCU (R190): move on in raster order; past the last MCU the scan ends;
otherwise count towards the next restart marker. -/
def State.afterMcu (s : State) : State :=
  let wraps := decide (s.mbwidth ≤ s.mbx + 1)
  let last := s.lastMcu
  let s := { s with mbx := if wraps then 0 else s.mbx + 1, mby := if wraps then s.mby + 1 else s.mby }
  if last then s.endScan
  else if s.restartInterval = 0 then s.startMcu
  else
    let s := { s with rstCount := s.rstCount - 1 }
    if s.rstCount = 0 then s.awaitRestart else s.startMcu

/-- What an accepted restart marker does (R192): the next number mod 8, the counter, every predictor 0. -/
def State.restarted (s : State) : State :=
  { s with
    nextRst := s.nextRst + 1
    rstCount := s.restartInterval.toNat
    comps := s.comps.map fun c => { c with dcpred := 0 } }

/-- RESTART (R192): align, read 16 bits, require `0xFFD0` with the expected low three bits. -/
def restartOp (s : State) : Eng State := do
  let r ← readOp 16 (alignOp s)
  if r.1 = 0xFFD0 + s.nextRst.toNat then return r.2.restarted
  else raise .syntaxError r.2

/-- The blocks of component k in one MCU, row by row (R190, D45). -/
def mcuComponent (k : Nat) (s : State) : Eng State := do
  let c ← getComp k s
  forUp (fun sby s =>
    forUp (fun sbx s => decodeBlockOp k (blockOffset c s.mbx s.mby sbx sby) s) c.ssx.toNat 0 s)
    c.ssy.toNat 0 s

/-- One MCU: the components in SOF order (R190). -/
def mcuOp (s : State) : Eng State :=
  forUp mcuComponent s.ncomp.toNat 0 s

/-- SCAN's loop, at most `fuel` MCUs (R191). -/
def scanLoop : Nat → State → Eng State
  | 0, _ => stuck .loopBound
  | fuel + 1, s => do
    let m ← mcuOp s
    let s := m.afterMcu
    if m.lastMcu then return s
    else if s.seq.stage = .restart then do
      let s ← restartOp s
      scanLoop fuel s.startMcu
    else scanLoop fuel s

/-- The MCUs a scan decodes (R191): `mbwidth · mbheight`, and never none, since the loop tests at its end. -/
def State.mcuCount (s : State) : Nat :=
  max 1 s.mbwidth * max 1 s.mbheight

/-- SCAN (R190). -/
def scanOp (s : State) : Eng State :=
  scanLoop s.mcuCount s.startScan

/-- After the block the sequencer stands at: the next block of the MCU in the order of R190, or the MCU's
end. -/
def State.nextBlock (c : Comp) (s : State) : State :=
  let q := s.seq
  if q.sbx + 1 < c.ssx.toNat then
    { s with seq := { q with sbx := q.sbx + 1 } }.startBlock q.k
  else if q.sby + 1 < c.ssy.toNat then
    { s with seq := { q with sbx := 0, sby := q.sby + 1 } }.startBlock q.k
  else if q.k + 1 < s.ncomp.toNat then
    { s with seq := { q with sbx := 0, sby := 0 } }.startBlock (q.k + 1)
  else s.afterMcu

/-! ### Meanings -/

/-- RESTART (R192). -/
def execRestart (s : State) : Host.Outcome State Fault Refusal :=
  conclude (restartOp s)

/-- SCAN (R190). -/
def execScan (s : State) : Host.Outcome State Fault Refusal :=
  conclude (scanOp s)

end Sys2Proof.Machine
end

