-- ==== Sys2Proof/Machine/Markers.lean ====
section
/-! DEFINITION. The marker parser (42_marker_parser.md R140 to R170): SEGLEN, Skip, and one meaning per marker.
A segment's meaning takes the marker's two bytes (R141), checks the frame (R142), and applies the checks of
its rule in the rule's order to the fields the decoder pulled out of the payload (log 14). -/

namespace Sys2Proof.Machine

/-- SEGLEN (R142) at `S.pos`: the payload length, with the two length bytes skipped. -/
def segLenOp (s : State) : Eng (Nat × State) :=
  if s.remaining < 2 then raise .syntaxError s
  else do
    let l1 ← inByte s.pos s
    let l0 ← inByte (s.pos + 1) s
    let l := (be16 l1 l0).toNat
    if l < 2 ∨ s.remaining < l then raise .syntaxError s
    else return (l - 2, s.skip 2)

/-- A marker segment: skip the marker (R141), then SEGLEN's checks on the frame the decoder found (R142),
skip the length, then the body. -/
def segmentOp {α : Type} (seg : Framed α) (size : α → Nat) (body : α → State → Eng State)
    (s : State) : Eng State :=
  let s := s.skip 2
  if s.remaining < 2 then raise .syntaxError s
  else
    match seg with
    | .noLength _ => raise .syntaxError s
    | .badLength _ => raise .syntaxError s
    | .ok a => if s.remaining < size a + 2 then raise .syntaxError s else body a (s.skip 2)

/-- A marker the block does not accept at the top level ends the decode with the code given; the marker's
two bytes have been taken (R141, R168, R169). -/
def refusedMarker (code : Code) (s : State) : Eng State :=
  raise code (s.skip 2)

/-! ### SOF0 -/

/-- A component as R148 first writes it: the identifier, the predictor 0, no plane yet. DESIGN CHOICE
(log 26): the spec states no value of `ssx`, `ssy`, `qtsel`, `width`, `height` and `stride` until SOF0 writes
them, nor of `dcsel` and `acsel` until SOS does; the model has 0, and 2 for `acsel`. -/
def newComp (cid : Byte) : Comp where
  cid := cid
  ssx := 0
  ssy := 0
  width := 0
  height := 0
  stride := 0
  qtsel := 0
  dcsel := 0
  acsel := 2
  dcpred := 0
  pixels := none

/-- One component of SOF0 (R148), appended to the list. -/
def sofCompOp (c : SofComp) (s : State) : Eng State :=
  let started := { s with comps := s.comps ++ [newComp c.cid] }
  if c.h = 0 then raise .syntaxError started
  else if ¬ powerOfTwo c.h then raise .unsupported started
  else if c.v = 0 then raise .syntaxError started
  else if ¬ powerOfTwo c.v then raise .unsupported started
  else if 3 < c.tq.toNat then raise .syntaxError started
  else .ok
    { s with
      comps := s.comps ++
        [{ newComp c.cid with ssx := c.h, ssy := c.v, qtsel := c.tq.setWidth 2 }]
      qtUsed := s.qtUsed ||| ((1 : BitVec 4) <<< c.tq.toNat) }

/-- The components of SOF0 in order, three payload bytes each (R146). -/
def sofCompsOp : List SofComp → State → Eng State
  | [], s => .ok s
  | c :: cs, s => do
    let s ← sofCompOp c s
    sofCompsOp cs (s.skip 3)

/-- The largest of a list of factors. -/
def largest (fs : List Nibble) : Nibble :=
  fs.foldl (fun m f => if m < f then f else m) 0

/-- The plane geometry of a component (R149). -/
def compGeometry (width height mbwidth : Nat) (hmax vmax : Nibble) (c : Comp) : Comp :=
  { c with
    width := ceilDiv (width * c.ssx.toNat) hmax.toNat
    height := ceilDiv (height * c.ssy.toNat) vmax.toNat
    stride := 8 * c.ssx.toNat * mbwidth }

/-- SOF0 geometry (R149): a one-component frame has factors 1 by 1 (D17). -/
def State.geometry (s : State) : State :=
  let comps := if s.ncomp = 1 then s.comps.map fun c => { c with ssx := 1, ssy := 1 } else s.comps
  let hmax := largest (comps.map (·.ssx))
  let vmax := largest (comps.map (·.ssy))
  let mcuW := 8 * hmax.toNat
  let mcuH := 8 * vmax.toNat
  let mbwidth := ceilDiv s.width.toNat mcuW
  let mbheight := ceilDiv s.height.toNat mcuH
  { s with
    comps := comps.map (compGeometry s.width.toNat s.height.toNat mbwidth hmax vmax)
    hmax := hmax
    vmax := vmax
    mcuW := mcuW
    mcuH := mcuH
    mbwidth := mbwidth
    mbheight := mbheight }

/-- The size of a plane as SOF0 allocates it (R150, R30). -/
def planeBytes (c : Comp) (mbheight : Nat) : Nat :=
  c.stride * 8 * c.ssy.toNat * mbheight

/-- SOF0 allocation of component k (R150): the size check, then its plane. -/
def allocPlane (k : Nat) (s : State) : Eng State := do
  let c ← getComp k s
  if (c.width < 3 ∧ c.ssx ≠ s.hmax) ∨ (c.height < 3 ∧ c.ssy ≠ s.vmax) then raise .unsupported s
  else do
    let r ← alloc (planeBytes c s.mbheight) s
    return r.2.setComp k { c with pixels := some r.1 }

/-- The RGB buffer of a three-component frame (R150). -/
def allocRgb (s : State) : Eng State :=
  if s.ncomp = 3 then do
    let r ← alloc (3 * s.width.toNat * s.height.toNat) s
    return { r.2 with rgb := some r.1 }
  else .ok s

/-- The body of SOF0 (R146 to R150, R170), checks in the order written. -/
def sofBodyOp (b : SofBody) (s : State) : Eng State :=
  if s.frame then raise .syntaxError s
  else
    match b with
    | .short _ => raise .syntaxError s
    | .full prec height width nf comps extra =>
      if b.size < 9 then raise .syntaxError s
      else if prec ≠ 8 then raise .unsupported s
      else
        let s := { s with height := height, width := width }
        if width = 0 ∨ height = 0 then raise .syntaxError s
        else
          let s := { s with ncomp := nf.setWidth 2 }.skip 6
          if nf ≠ 1 ∧ nf ≠ 3 then raise .unsupported s
          else if b.size - 6 < 3 * nf.toNat then raise .syntaxError s
          else do
            let s ← sofCompsOp comps s
            let s ← forUp allocPlane nf.toNat 0 s.geometry
            let s ← allocRgb s
            return { s with frame := true }.skip extra.length

/-! ### DHT, DQT, DRI, SOS -/

/-- One table definition of DHT (R151 to R153): the header check, then BUILD_HT over its symbols. -/
def dhtTableOp (t : DhtTable) (s : State) : Eng State :=
  if 1 < t.tc.toNat ∨ 3 < t.th.toNat then raise .syntaxError s
  else if 1 < t.th.toNat then raise .unsupported s
  else buildHtOp (htSlot t.tc t.th) t.counts t.syms (s.skip 17)

/-- The table definitions of DHT in order; what is left must be nothing (R151). -/
def dhtTablesOp : List DhtTable → List Byte → State → Eng State
  | [], tail, s => if tail.length = 0 then .ok s else raise .syntaxError s
  | t :: ts, tail, s => do
    let s ← dhtTableOp t s
    dhtTablesOp ts tail s

/-- Steps written to a quantisation slot from position k on (R155). -/
def writeSteps : List Byte → (k : Nat) → Vector Byte 64 → Vector Byte 64
  | [], _, q => q
  | b :: bs, k, q => writeSteps bs (k + 1) (q.set (k % 64) b (Nat.mod_lt k (by decide)))

/-- One table of DQT (R155, R156). -/
def dqtTableOp (t : DqtTable) (s : State) : Eng State :=
  if t.pq ≠ 0 then raise .unsupported s
  else if 3 < t.tq.toNat then raise .syntaxError s
  else
    let slot := Fin.ofNat 4 t.tq.toNat
    .ok ({ s with
      qt := s.qt.set slot.val (writeSteps t.steps 0 (s.qt.get slot)) slot.isLt
      qtAvail := s.qtAvail ||| ((1 : BitVec 4) <<< slot.val) }.skip 65)

/-- The tables of DQT in order; what is left must be nothing (R155). -/
def dqtTablesOp : List DqtTable → List Byte → State → Eng State
  | [], tail, s => if tail.length = 0 then .ok s else raise .syntaxError s
  | t :: ts, tail, s => do
    let s ← dqtTableOp t s
    dqtTablesOp ts tail s

/-- The body of DRI (R158). -/
def driBodyOp (b : DriBody) (s : State) : Eng State :=
  match b with
  | .short _ => raise .syntaxError s
  | .full ri extra => .ok ({ s with restartInterval := ri }.skip (2 + extra.length))

/-- Component k of SOS: the identifier check (R161), then the table selectors (R162). -/
def sosSelOp (k : Nat) (sel : SosSel) (s : State) : Eng State := do
  let c ← getComp k s
  if sel.cs ≠ c.cid then raise .unsupported s
  else if 1 < sel.td.toNat ∨ 1 < sel.ta.toNat then raise .syntaxError s
  else return (s.setComp k { c with dcsel := dcSlot sel.td, acsel := acSlot sel.ta }).skip 2

/-- The components of SOS in order (R160). -/
def sosSelsOp : List SosSel → (k : Nat) → State → Eng State
  | [], _, s => .ok s
  | sel :: sels, k, s => do
    let s ← sosSelOp k sel s
    sosSelsOp sels (k + 1) s

/-- The body of SOS (R160 to R166): the checks, the selectors, then `S.phase <- SCAN` and the start of the
scan, whose blocks the engine decodes next (log 1). DEDUCED (log 28): the length is checked before the count, as
R160, R274 and R278 have it, so that a non-interleaved SOS whose payload is just long enough for its own list is
SYNTAX_ERROR, where R4 and D20 read alone say UNSUPPORTED. -/
def sosBodyOp (b : SosBody) (s : State) : Eng State :=
  if ¬ s.frame then raise .syntaxError s
  else if b.size < 4 + 2 * s.ncomp.toNat then raise .syntaxError s
  else
    match b with
    | .short _ => raise .unsupported s
    | .full sels ss se ah al extra =>
      if sels.length ≠ s.ncomp.toNat then raise .unsupported s
      else do
        let s ← sosSelsOp sels 0 (s.skip 1)
        if ss ≠ 0 ∨ se ≠ 63 ∨ ah ≠ 0 ∨ al ≠ 0 then raise .unsupported s
        else if s.qtUsed &&& ~~~ s.qtAvail ≠ 0 then raise .syntaxError s
        else return { s.skip (3 + extra.length) with phase := .scan }.startScan

/-- APPn and COM: SKIPSEG (R167). -/
def skipSegOp (payload : List Byte) (s : State) : Eng State :=
  .ok (s.skip payload.length)

/-! ### Meanings -/

/-- The SOI check of DECODE (R140): a stream of fewer than two bytes or without SOI is NOT_A_JPEG, else
`Skip(2)`. -/
def soiOp (s : State) : Eng State :=
  if s.inp.size < 2 then raise .notAJpeg s
  else do
    let b0 ← inByte 0 s
    let b1 ← inByte 1 s
    if b0 ≠ 0xFF ∨ b1 ≠ 0xD8 then raise .notAJpeg s
    else return s.skip 2

/-- SOI (R140). -/
def execSoi (s : State) : Host.Outcome State Fault Refusal :=
  conclude (soiOp s)

/-- SOF0 as an operation (R146). -/
def sof0Op (seg : Framed SofBody) (s : State) : Eng State :=
  segmentOp seg SofBody.size sofBodyOp s

/-- SOF0 (R146). -/
def execSof0 (seg : Framed SofBody) (s : State) : Host.Outcome State Fault Refusal :=
  conclude (sof0Op seg s)

/-- DHT as an operation (R151). -/
def dhtOp (seg : Framed DhtBody) (s : State) : Eng State :=
  segmentOp seg DhtBody.size (fun b => dhtTablesOp b.tables b.tail) s

/-- DHT (R151). -/
def execDht (seg : Framed DhtBody) (s : State) : Host.Outcome State Fault Refusal :=
  conclude (dhtOp seg s)

/-- DQT as an operation (R155). -/
def dqtOp (seg : Framed DqtBody) (s : State) : Eng State :=
  segmentOp seg DqtBody.size (fun b => dqtTablesOp b.tables b.tail) s

/-- DQT (R155). -/
def execDqt (seg : Framed DqtBody) (s : State) : Host.Outcome State Fault Refusal :=
  conclude (dqtOp seg s)

/-- DRI as an operation (R158). -/
def driOp (seg : Framed DriBody) (s : State) : Eng State :=
  segmentOp seg DriBody.size driBodyOp s

/-- DRI (R158). -/
def execDri (seg : Framed DriBody) (s : State) : Host.Outcome State Fault Refusal :=
  conclude (driOp seg s)

/-- SOS as an operation (R160). -/
def sosOp (seg : Framed SosBody) (s : State) : Eng State :=
  segmentOp seg SosBody.size sosBodyOp s

/-- SOS (R160). -/
def execSos (seg : Framed SosBody) (s : State) : Host.Outcome State Fault Refusal :=
  conclude (sosOp seg s)

/-- SKIPSEG as an operation (R167). -/
def skipSegmentOp (seg : Framed (List Byte)) (s : State) : Eng State :=
  segmentOp seg List.length skipSegOp s

/-- APPn (R167). -/
def execAppn (_n : Nibble) (seg : Framed (List Byte)) (s : State) : Host.Outcome State Fault Refusal :=
  conclude (skipSegmentOp seg s)

/-- COM (R167). -/
def execCom (seg : Framed (List Byte)) (s : State) : Host.Outcome State Fault Refusal :=
  conclude (skipSegmentOp seg s)

/-- EOI at the top level (R168): SYNTAX_ERROR. -/
def execEoiTop (s : State) : Host.Outcome State Fault Refusal :=
  conclude (refusedMarker .syntaxError s)

/-- RSTm at the top level (R169): UNSUPPORTED. -/
def execRstmTop (_m : BitVec 3) (s : State) : Host.Outcome State Fault Refusal :=
  conclude (refusedMarker .unsupported s)

/-- SOF1 to SOF3 (R169). -/
def execUnsupportedSof1Sof3 (_code : Byte) (s : State) : Host.Outcome State Fault Refusal :=
  conclude (refusedMarker .unsupported s)

/-- SOF5 to SOF7 (R169). -/
def execUnsupportedSof5Sof7 (_code : Byte) (s : State) : Host.Outcome State Fault Refusal :=
  conclude (refusedMarker .unsupported s)

/-- JPG, SOF9 to SOF11 (R169). -/
def execUnsupportedJpgSof9Sof11 (_code : Byte) (s : State) : Host.Outcome State Fault Refusal :=
  conclude (refusedMarker .unsupported s)

/-- DAC, SOF13 to SOF15 (R169). -/
def execUnsupportedDacSof13Sof15 (_code : Byte) (s : State) : Host.Outcome State Fault Refusal :=
  conclude (refusedMarker .unsupported s)

/-- DNL (R169). -/
def execUnsupportedDnl (s : State) : Host.Outcome State Fault Refusal :=
  conclude (refusedMarker .unsupported s)

/-- DHP, EXP (R169). -/
def execUnsupportedDhpExp (_code : Byte) (s : State) : Host.Outcome State Fault Refusal :=
  conclude (refusedMarker .unsupported s)

/-- JPG0 to JPG13 (R169). -/
def execUnsupportedJpgn (_code : Byte) (s : State) : Host.Outcome State Fault Refusal :=
  conclude (refusedMarker .unsupported s)

/-- A second SOI (R169). -/
def execUnsupportedSoiAgain (s : State) : Host.Outcome State Fault Refusal :=
  conclude (refusedMarker .unsupported s)

/-- The codes 0x00 to 0xBF (R169). -/
def execUnsupportedReserved00Bf (_code : Byte) (s : State) : Host.Outcome State Fault Refusal :=
  conclude (refusedMarker .unsupported s)

/-- The code 0xFF (R169). -/
def execUnsupportedFillTop (s : State) : Host.Outcome State Fault Refusal :=
  conclude (refusedMarker .unsupported s)

/-- A byte other than 0xFF where a marker must start (R141): SYNTAX_ERROR, no byte taken. -/
def execNotAMarker (_b0 _b1 : Byte) (s : State) : Host.Outcome State Fault Refusal :=
  conclude (raise .syntaxError s)

/-- SEGLEN (R142): it returns the payload length. -/
def execSeglen (s : State) : Host.Outcome State Fault Refusal :=
  conclude (do
    let r ← segLenOp s
    return r.2.returns (.nat r.1))

/-- Skip(n) (R143). -/
def execSkip (n : Nat) (s : State) : Host.Outcome State Fault Refusal :=
  .next (s.skip n)

end Sys2Proof.Machine
end

