-- ==== Sys2Proof/Machine/Upsample.lean ====
section
/-! DEFINITION. The bicubic upsampler (45_upsampler.md): the filter of one line, the horizontal pass and the
vertical pass, "the transpose of the same algorithm" (R236). -/

namespace Sys2Proof.Machine

/-- `CF(x) = clip((x + 64) >> 7)` (R230). -/
def filterRound (x : Word) : Byte :=
  clip (sra (x + 64) 7)

/-- A two-tap output. -/
def tap2 (a b : Word) (x y : Byte) : Byte :=
  filterRound (a * sampleWord x + b * sampleWord y)

/-- A three-tap output. -/
def tap3 (a b c : Word) (x y z : Byte) : Byte :=
  filterRound (a * sampleWord x + b * sampleWord y + c * sampleWord z)

/-- A four-tap output. -/
def tap4 (a b c d : Word) (x y z w : Byte) : Byte :=
  filterRound (a * sampleWord x + b * sampleWord y + c * sampleWord z + d * sampleWord w)

/-- The three outputs at one edge, outermost first, of the three samples nearest it (R231, R232). -/
def edgeOutputs (cfg : Config) (x y z : Byte) : Byte × Byte × Byte :=
  (tap2 cfg.cf2a cfg.cf2b x y, tap3 cfg.cf3x cfg.cf3y cfg.cf3z x y z, tap3 cfg.cf3a cfg.cf3b cfg.cf3c x y z)

/-- The interior outputs `2x + 3` and `2x + 4` for x = x, x + 1, ..., n of them (R232). -/
def interiorOutputs (cfg : Config) (line : Nat → Eng Byte) : (n x : Nat) → Eng (List Byte)
  | 0, _ => .ok []
  | n + 1, x => do
    let p ← line x
    let q ← line (x + 1)
    let r ← line (x + 2)
    let t ← line (x + 3)
    let rest ← interiorOutputs cfg line n (x + 1)
    return tap4 cfg.cf4a cfg.cf4b cfg.cf4c cfg.cf4d p q r t ::
      tap4 cfg.cf4d cfg.cf4c cfg.cf4b cfg.cf4a p q r t :: rest

/-- The 2w outputs of one line of w samples, in index order; the last three read the samples before index
e (R232, R236). `line i` is sample i. -/
def upsampleLine (cfg : Config) (line : Nat → Eng Byte) (w e : Nat) : Eng (List Byte) := do
  let l0 ← line 0
  let l1 ← line 1
  let l2 ← line 2
  let middle ← interiorOutputs cfg line (w - 3) 0
  let r1 ← line (e - 1)
  let r2 ← line (e - 2)
  let r3 ← line (e - 3)
  let left := edgeOutputs cfg l0 l1 l2
  let right := edgeOutputs cfg r1 r2 r3
  return [left.1, left.2.1, left.2.2] ++ middle ++ [right.2.2, right.2.1, right.1]

/-- Lines 0 .. n-1 of a plane, in order. -/
def upsampleLines (one : Nat → Eng (List Byte)) : (n i : Nat) → Eng (List (List Byte))
  | 0, _ => .ok []
  | n + 1, i => do
    let l ← one i
    let rest ← upsampleLines one n (i + 1)
    return l :: rest

/-- The right-edge source index E of the horizontal pass (R233). -/
def rightEdge (cfg : Config) (c : Comp) : Nat :=
  match cfg.upsHEdge with
  | .stride => c.stride
  | .width => c.width

/-- Columns of n bytes laid out row by row: byte `r·w + x` is entry r of column x, w the number of columns
(R236). -/
def rowsOfColumns (cols : List (List Byte)) (n : Nat) : List Byte :=
  (List.range n).flatMap fun r => cols.map fun col => col.getD r 0

/-- Component k gets an upsampled plane: the old one is released (R232, R236). -/
def replacePlane (k : Nat) (old : Buffer) (c : Comp) (bytes : List Byte) (s : State) : State :=
  (s.release old.size).setComp k { c with pixels := some (Buffer.ofBytes bytes) }

/-- UPS_H(k) (R232). -/
def upsHOp (k : Nat) (s : State) : Eng State := do
  let c ← getComp k s
  if c.width < 3 then stuck .planeTooSmall
  else do
    let r ← alloc (2 * c.width * c.height) s
    let old ← c.plane
    let rows ← upsampleLines
      (fun y => upsampleLine s.cfg (fun x => old.get .plane (y * c.stride + x)) c.width (rightEdge s.cfg c))
      c.height 0
    return replacePlane k old { c with width := 2 * c.width, stride := 2 * c.width } rows.flatten r.2

/-- UPS_V(k) (R236). -/
def upsVOp (k : Nat) (s : State) : Eng State := do
  let c ← getComp k s
  if c.height < 3 then stuck .planeTooSmall
  else do
    let r ← alloc (c.width * (2 * c.height)) s
    let old ← c.plane
    let cols ← upsampleLines
      (fun x => upsampleLine s.cfg (fun y => old.get .plane (y * c.stride + x)) c.height c.height)
      c.width 0
    return replacePlane k old { c with height := 2 * c.height, stride := c.width }
      (rowsOfColumns cols (2 * c.height)) r.2

/-! ### Meanings -/

/-- UPS_H (R232). -/
def execUpsH (k : Nat) (s : State) : Host.Outcome State Fault Refusal :=
  conclude (upsHOp k s)

/-- UPS_V (R236). -/
def execUpsV (k : Nat) (s : State) : Host.Outcome State Fault Refusal :=
  conclude (upsVOp k s)

end Sys2Proof.Machine
end

