-- ==== Sys2Proof/Machine/Color.lean ====
section
/-! DEFINITION. The colour converter and output stage (46_color_converter.md): CONVERT, YCC2RGB, COLOR and
COMPACT. -/

namespace Sys2Proof.Machine

/-- YCC2RGB(y, cb, cr) (R251). -/
def yccOp (cfg : Config) (y cb cr : Byte) : Byte × Byte × Byte :=
  let y' := sampleWord y <<< 8
  let cb' := sampleWord cb - 128
  let cr' := sampleWord cr - 128
  (clip (sra (y' + cfg.ccRCr * cr' + 128) 8),
    clip (sra (y' - cfg.ccGCb * cb' - cfg.ccGCr * cr' + 128) 8),
    clip (sra (y' + cfg.ccBCb * cb' + 128) 8))

/-- Sample (x, y) of component k (R75). -/
def sampleAt (k x y : Nat) (s : State) : Eng Byte := do
  let c ← getComp k s
  planeRead k (sampleIndex c x y) s

/-- Pixel (x, y) of COLOR (R253), stored at `3·(y·W + x)` (R76). -/
def colorPixel (y x : Nat) (s : State) : Eng State := do
  let l ← sampleAt 0 x y s
  let cb ← sampleAt 1 x y s
  let cr ← sampleAt 2 x y s
  let p := yccOp s.cfg l cb cr
  let o := 3 * (y * s.width.toNat + x)
  let s ← outWrite o p.1 s
  let s ← outWrite (o + 1) p.2.1 s
  outWrite (o + 2) p.2.2 s

/-- COLOR (R253): rows, then pixels of a row. -/
def colorOp (s : State) : Eng State :=
  forUp (fun y s => forUp (colorPixel y) s.width.toNat 0 s) s.height.toNat 0 s

/-- One byte of COMPACT (R254). -/
def compactByte (c : Comp) (y x : Nat) (s : State) : Eng State := do
  let v ← planeRead 0 (y * c.stride + x) s
  planeWrite 0 (y * c.width + x) v s

/-- COMPACT (R254): rows 1 .. height-1, x ascending; then the stride is the width. -/
def compactOp (s : State) : Eng State := do
  let c ← getComp 0 s
  if c.width = c.stride then return s
  else do
    let s ← forUp (fun y s => forUp (compactByte c y) c.width 0 s) (c.height - 1) 1 s
    let c' ← getComp 0 s
    return s.setComp 0 { c' with stride := c.width }

/-- Component k is narrower or shorter than the image (R250). -/
def State.needsUpsampling (c : Comp) (s : State) : Bool :=
  decide (c.width < s.width.toNat) || decide (c.height < s.height.toNat)

/-- A horizontal pass if the plane is narrow (R250). -/
def widen (k : Nat) (s : State) : Eng State := do
  let c ← getComp k s
  if c.width < s.width.toNat then upsHOp k s else return s

/-- A vertical pass if the plane is short (R250). -/
def heighten (k : Nat) (s : State) : Eng State := do
  let c ← getComp k s
  if c.height < s.height.toNat then upsVOp k s else return s

/-- The convergence loop of component k (R238, R250): a side of 16 bits is reached in at most 17 turns, each
doubling a side of at least 3. -/
def upsampleLoop (k : Nat) : Nat → State → Eng State
  | 0, _ => stuck .loopBound
  | fuel + 1, s => do
    let c ← getComp k s
    if s.needsUpsampling c then do
      let s ← widen k s
      let s ← heighten k s
      upsampleLoop k fuel s
    else return s

/-- Component k upsampled to completion, and the dimension check (R239, R250). -/
def upsampleComp (k : Nat) (s : State) : Eng State := do
  let s ← upsampleLoop k 17 s
  let c ← getComp k s
  if s.needsUpsampling c then raise .internalError s else return s

/-- CONVERT (R250). -/
def convertOp (s : State) : Eng State := do
  let s ← forUp upsampleComp s.ncomp.toNat 0 s
  if s.ncomp = 3 then colorOp s else compactOp s

/-! ### Meanings -/

/-- CONVERT (R250). -/
def execConvert (s : State) : Host.Outcome State Fault Refusal :=
  conclude (convertOp s)

/-- YCC2RGB (R251). -/
def execYcc2rgb (y cb cr : Byte) (s : State) : Host.Outcome State Fault Refusal :=
  let p := yccOp s.cfg y cb cr
  .next (s.returns (.rgb p.1 p.2.1 p.2.2))

/-- COLOR (R253). -/
def execColor (s : State) : Host.Outcome State Fault Refusal :=
  conclude (colorOp s)

/-- COMPACT (R254). -/
def execCompact (s : State) : Host.Outcome State Fault Refusal :=
  conclude (compactOp s)

end Sys2Proof.Machine
end

