-- ==== Sys2Proof/Machine/Command.lean ====
section
/-! DEFINITION. The marker loop TOPLOOP (R141) and the host command DECODE (R140), each as one operation. -/

namespace Sys2Proof.Machine

/-- The handler of a marker the decoder read at the top level, the cases of TOPLOOP (R141): "otherwise" is
UNSUPPORTED (R169). -/
def markerOp (i : Instr) (s : State) : Eng State :=
  match i with
  | .sof0 seg => sof0Op seg s
  | .dht seg => dhtOp seg s
  | .dqt seg => dqtOp seg s
  | .dri seg => driOp seg s
  | .sos seg => sosOp seg s
  | .appn _ seg => skipSegmentOp seg s
  | .com seg => skipSegmentOp seg s
  | .eoiTop => refusedMarker .syntaxError s
  | .notAMarker _ _ => raise .syntaxError s
  | _ => refusedMarker .unsupported s

/-- The marker SOS, after which TOPLOOP runs the scan and returns (R141, R160). -/
def isSos : Instr → Bool
  | .sos _ => true
  | _ => false

/-- TOPLOOP (R141): fewer than two bytes is SYNTAX_ERROR; else the marker's handler, until SOS, which hands
over to the scan, run here to its end (R160, log 1). Every turn takes at least two bytes or ends the
command, so `fuel` turns suffice where `S.remaining` is below `2·fuel` (R311). -/
def topLoop : Nat → State → Eng State
  | 0, _ => stuck .loopBound
  | fuel + 1, s =>
    match decodeTop s.bytesLeft with
    | .error _ => raise .syntaxError s
    | .ok r => do
      let s ← markerOp r.1 s
      if isSos r.1 then scanOp s else topLoop fuel s

/-- TOPLOOP (R141). -/
def topLoopOp (s : State) : Eng State :=
  topLoop (s.remaining.toNat + 1) s

/-- The host's duty (R140, R303, U3): `len` is the buffer's size and at most `IN_LEN_MAX`. -/
def dutyKept (cfg : Config) (buf : List Byte) (len : Nat) : Bool :=
  decide (len = buf.length) && decide (len ≤ cfg.inLenMax)

/-- DECODE after its per-decode reset (R140): SOI, the marker loop, CONVERT, completion. -/
def decodeRun (s : State) : Eng State := do
  let s ← soiOp s
  let s ← topLoopOp s
  let s ← convertOp s
  return s.finish

/-- No DECODE is in progress and none is issued (R36). -/
def State.ready (s : State) : Bool :=
  (s.phase = .idle || s.phase = .done) && s.cmd.isNone

/-- The host's move DECODE(buf, len), one transition from IDLE or DONE to DONE (R36, R140, D36). -/
def decodeOp (buf : List Byte) (len : Nat) (s : State) : Host.Outcome State Fault Refusal :=
  if ¬ s.ready then .refused .overlappingDecode
  else if ¬ dutyKept s.cfg buf len then .refused .hostDuty
  else conclude (decodeRun (s.decodeReset buf))

/-- The engine takes up a command the host has issued: the per-decode reset, "the first step of every
DECODE" (R300). -/
def acceptCommand (c : Command) (s : State) : Host.Outcome State Fault Refusal :=
  if dutyKept s.cfg c.buf c.len then .next (s.decodeReset c.buf) else .refused .hostDuty

/-! ### Meanings -/

/-- TOPLOOP (R141). -/
def execToploop (s : State) : Host.Outcome State Fault Refusal :=
  conclude (topLoopOp s)

/-- DECODE (R140). -/
def execDecode (buf : List Byte) (len : Nat) (s : State) : Host.Outcome State Fault Refusal :=
  decodeOp buf len s

end Sys2Proof.Machine
end

