-- ==== Sys2Proof/Machine/Dispatch.lean ====
section
/-! DEFINITION. The dispatch: one arm per instruction, each one direct call of its meaning. -/

namespace Sys2Proof.Machine

def exec (i : Instr) (s : State) : Host.Outcome State Fault Refusal :=
  match i with
  | .soi => Sys2Proof.Machine.execSoi s
  | .sof0 seg => Sys2Proof.Machine.execSof0 seg s
  | .dht seg => Sys2Proof.Machine.execDht seg s
  | .dqt seg => Sys2Proof.Machine.execDqt seg s
  | .dri seg => Sys2Proof.Machine.execDri seg s
  | .sos seg => Sys2Proof.Machine.execSos seg s
  | .appn n seg => Sys2Proof.Machine.execAppn n seg s
  | .com seg => Sys2Proof.Machine.execCom seg s
  | .eoiTop => Sys2Proof.Machine.execEoiTop s
  | .rstmTop m => Sys2Proof.Machine.execRstmTop m s
  | .unsupportedSof1Sof3 code => Sys2Proof.Machine.execUnsupportedSof1Sof3 code s
  | .unsupportedSof5Sof7 code => Sys2Proof.Machine.execUnsupportedSof5Sof7 code s
  | .unsupportedJpgSof9Sof11 code => Sys2Proof.Machine.execUnsupportedJpgSof9Sof11 code s
  | .unsupportedDacSof13Sof15 code => Sys2Proof.Machine.execUnsupportedDacSof13Sof15 code s
  | .unsupportedDnl => Sys2Proof.Machine.execUnsupportedDnl s
  | .unsupportedDhpExp code => Sys2Proof.Machine.execUnsupportedDhpExp code s
  | .unsupportedJpgn code => Sys2Proof.Machine.execUnsupportedJpgn code s
  | .unsupportedSoiAgain => Sys2Proof.Machine.execUnsupportedSoiAgain s
  | .unsupportedReserved00Bf code => Sys2Proof.Machine.execUnsupportedReserved00Bf code s
  | .unsupportedFillTop => Sys2Proof.Machine.execUnsupportedFillTop s
  | .notAMarker b0 b1 => Sys2Proof.Machine.execNotAMarker b0 b1 s
  | .ecsData b => Sys2Proof.Machine.execEcsData b s
  | .ecsStuff => Sys2Proof.Machine.execEcsStuff s
  | .ecsFill => Sys2Proof.Machine.execEcsFill s
  | .ecsRstm m => Sys2Proof.Machine.execEcsRstm m s
  | .ecsEoi => Sys2Proof.Machine.execEcsEoi s
  | .ecsOtherMarker c => Sys2Proof.Machine.execEcsOtherMarker c s
  | .ecsFfLast => Sys2Proof.Machine.execEcsFfLast s
  | .ecsFiller => Sys2Proof.Machine.execEcsFiller s
  | .dcCat ignored cat => Sys2Proof.Machine.execDcCat ignored cat s
  | .acEob => Sys2Proof.Machine.execAcEob s
  | .acZrl => Sys2Proof.Machine.execAcZrl s
  | .acRuncat r cat => Sys2Proof.Machine.execAcRuncat r cat s
  | .acIllegal r => Sys2Proof.Machine.execAcIllegal r s
  | .huffMiss w => Sys2Proof.Machine.execHuffMiss w s
  | .decode buf len => Sys2Proof.Machine.execDecode buf len s
  | .toploop => Sys2Proof.Machine.execToploop s
  | .seglen => Sys2Proof.Machine.execSeglen s
  | .skip n => Sys2Proof.Machine.execSkip n s
  | .refill => Sys2Proof.Machine.execRefill s
  | .align => Sys2Proof.Machine.execAlign s
  | .peek n => Sys2Proof.Machine.execPeek n s
  | .consume n => Sys2Proof.Machine.execConsume n s
  | .read n => Sys2Proof.Machine.execRead n s
  | .buildHt h counts syms => Sys2Proof.Machine.execBuildHt h counts syms s
  | .decodeVlc h => Sys2Proof.Machine.execDecodeVlc h s
  | .decodeBlock k off => Sys2Proof.Machine.execDecodeBlock k off s
  | .scan => Sys2Proof.Machine.execScan s
  | .restart => Sys2Proof.Machine.execRestart s
  | .idctBlock k off => Sys2Proof.Machine.execIdctBlock k off s
  | .idctRow b => Sys2Proof.Machine.execIdctRow b s
  | .idctCol b => Sys2Proof.Machine.execIdctCol b s
  | .upsH k => Sys2Proof.Machine.execUpsH k s
  | .upsV k => Sys2Proof.Machine.execUpsV k s
  | .convert => Sys2Proof.Machine.execConvert s
  | .ycc2rgb y cb cr => Sys2Proof.Machine.execYcc2rgb y cb cr s
  | .color => Sys2Proof.Machine.execColor s
  | .compact => Sys2Proof.Machine.execCompact s

end Sys2Proof.Machine
end

