-- ==== Sys2Proof/Machine/Fetch.lean ====
section
/-! DEFINITION. Which operation runs next. `S.phase`, `S.pos` and the sequencer are the block's program counter
(R13, R31): between markers the next instruction is read from `S.in` at `S.pos`; inside a scan it is the
escape the bit reader takes next, the Huffman symbol at the head of `S.acc`, the IDCT or the restart check. -/

namespace Sys2Proof.Machine

/-- What the engine does next. -/
inductive Fetched where
  /-- nothing: no DECODE is in progress and none is issued (R287) -/
  | quiet
  /-- take up the command the host has issued (R300) -/
  | accept (c : Command)
  /-- the host has issued a second DECODE (R72) -/
  | overlap
  /-- fewer than two bytes where a marker must start (R141) -/
  | noMarker
  /-- run an instruction -/
  | run (i : Instr)
  /-- consume the n bits of a Huffman code, then run its symbol (R180) -/
  | symbol (n : Nat) (i : Instr)
  /-- the sequencer names a component the frame does not have -/
  | broken (f : Fault)
  deriving DecidableEq, Repr

/-- The escape REFILL takes next (R111): no byte once `S.remaining ≤ 0`. -/
def nextEscape (s : State) : Instr :=
  (decodeEcs (s.inp.mem.bytesAt s.pos (min s.remaining.toNat 2))).1

/-- The symbol at the head of `S.acc`, read with slot h and made an instruction by `read` (R180). -/
def nextSymbol (h : Fin 4) (read : Byte → Instr) (s : State) : Fetched :=
  if s.acc.length < 16 then .run (nextEscape s)
  else
    let w := bitsNat (s.acc.take 16)
    let e := HuffTable.lookup (s.ht.get h) w
    if e.len = 0 then .run (.huffMiss (BitVec.ofNat 16 w)) else .symbol e.len.val (read e.sym)

/-- Inside a scan (R182, R190). -/
def fetchScan (s : State) : Fetched :=
  match s.seq.stage with
  | .restart => .run .restart
  | stage =>
    match s.comps[s.seq.k]? with
    | none => .broken .noComponent
    | some c =>
      match stage with
      | .dc => nextSymbol c.dcsel.toFin decodeDcSymbol s
      | .ac => nextSymbol c.acsel.toFin decodeAcSymbol s
      | _ => .run (.idctBlock s.seq.k (blockOffset c s.mbx s.mby s.seq.sbx s.seq.sby))

/-- Between markers (R140, R141): the first two bytes must be SOI, and SOI's meaning checks them. -/
def fetchMarker (s : State) : Fetched :=
  if s.pos = 0 then .run .soi
  else
    match decodeTop s.bytesLeft with
    | .ok r => .run r.1
    | .error _ => .noMarker

/-- What runs next (R13, R25, R31). -/
def fetch (s : State) : Fetched :=
  match s.phase, s.cmd with
  | .idle, none => .quiet
  | .done, none => .quiet
  | .idle, some c => .accept c
  | .done, some c => .accept c
  | .headers, none => fetchMarker s
  | .scan, none => fetchScan s
  | .convert, none => .run .convert
  | .headers, some _ => .overlap
  | .scan, some _ => .overlap
  | .convert, some _ => .overlap

/-- What the step adds after an instruction whose end is the end of a loop turn: the next block (R190), the
next MCU after a restart marker (R192), completion after CONVERT (R255). An aborted command adds nothing. -/
def settle (i : Instr) (t : State) : State :=
  match i with
  | .idctBlock k _ =>
    match t.phase, t.comps[k]? with
    | .scan, some c => t.nextBlock c
    | _, _ => t
  | .restart => if t.phase = .scan then t.startMcu else t
  | .convert => if t.phase = .convert then t.finish else t
  | _ => t

/-! ### Placing an instruction (log 15) -/

/-- A component for a scan placed without a frame. -/
def placedComp : Comp :=
  newComp 0

/-- The stream `FF D8` and then the bytes given, with the engine past SOI (R140, R141). -/
def State.atMarker (bytes : List Byte) (s : State) : State :=
  { s with
    cmd := none
    inp := Buffer.ofBytes (0xFF :: 0xD8 :: bytes)
    pos := 2
    remaining := bytes.length
    phase := .headers
    error := .ok }

/-- A stream that starts with the bytes given. -/
def State.atStart (bytes : List Byte) (s : State) : State :=
  { s with
    cmd := none
    inp := Buffer.ofBytes bytes
    pos := 0
    remaining := bytes.length
    phase := .headers
    error := .ok }

/-- Inside a scan, component 0 with one component at least. -/
def State.inScan (stage : Stage) (s : State) : State :=
  { s with
    cmd := none
    phase := .scan
    error := .ok
    comps := if s.comps.isEmpty then [placedComp] else s.comps
    seq := { Seq.start with stage := stage } }

/-- The bytes given are the entropy-coded data the bit reader takes next. -/
def State.atEcs (bytes : List Byte) (s : State) : State :=
  { s.inScan .dc with
    inp := Buffer.ofBytes bytes
    pos := 0
    remaining := bytes.length
    acc := [] }

/-- An AC symbol comes next: its code is the one bit 0 in the AC slot of component 0. -/
def State.atAcSymbol (sym : Byte) (s : State) : State :=
  let s := s.inScan .ac
  let h := match s.comps.head? with
    | some c => c.acsel.toFin
    | none => 0
  { s with
    ht := s.ht.set h.val [⟨1, sym⟩] h.isLt
    acc := List.replicate 16 false }

/-- The state with the instruction of a table word where the step fetches next. -/
def placeTableWord (s : State) (nbits w : Nat) : State :=
  let bytes := tableBytes nbits w
  match tableLevel nbits w with
  | some .start => s.atStart bytes
  | some .top => s.atMarker bytes
  | some .ecs => s.atEcs bytes
  | some .acSymbol => s.atAcSymbol (BitVec.ofNat 8 w)
  | some .dcSymbol => s
  | none => s

end Sys2Proof.Machine
end

