-- ==== Sys2Proof/Machine/Step.lean ====
section
/-! DEFINITION. The step: fetch what runs next (Machine/Fetch.lean) and run it. -/

namespace Sys2Proof.Machine

/-- What the step adds after an instruction (`settle`), where it answers a next state. -/
def settled (i : Instr) : Host.Outcome State Fault Refusal → Host.Outcome State Fault Refusal
  | .next t => .next (settle i t)
  | .fault f => .fault f
  | .refused r => .refused r

/-- One step of the engine. -/
def step (s : State) : Host.Outcome State Fault Refusal :=
  match fetch s with
  | .quiet => .next s
  | .accept c => acceptCommand c s
  | .overlap => .refused .overlappingDecode
  | .noMarker => .next (s.abort .syntaxError)
  | .run i => settled i (exec i s)
  | .symbol n i => settled i (exec i (s.dropBits n))
  | .broken f => .fault f

/-- The state with the instruction of a table word where `step` fetches next (log 15). -/
def State.withFetchWord (s : State) (nbits w : Nat) : State :=
  placeTableWord s nbits w

end Sys2Proof.Machine
end

