-- ==== Sys2Proof/Machine/HostPort.lean ====
section
/-! DEFINITION. What the host can do besides DECODE (R303): read the six registers (R34, R35) and take the
output (R77, R256). Reads have no effect on the state (R66). -/

namespace Sys2Proof.Machine

/-- The registers of R34, by number. -/
inductive HostReg where
  | result
  | width
  | height
  | isColor
  | outSize
  | outBuf
  deriving DecidableEq, Repr

/-- What a register read answers: 32 bits, or the reference `OUT_BUF`. -/
inductive HostValue where
  | word (w : Word)
  | ref (r : OutRef)
  deriving DecidableEq, Repr

/-- Register r where its value is defined: `RESULT` between DECODEs always, registers 1 to 5 only when
`RESULT = OK` (R34, R35, R306, U4); otherwise the read has no value. -/
def hostRead (r : HostReg) (s : State) : Option HostValue :=
  if ¬ s.ready then none
  else
    match r with
    | .result => some (.word (resultWord s.cfg s.result))
    | r =>
      if s.result ≠ .ended .ok then none
      else
        match r with
        | .width => some (.word (s.regWidth.setWidth 32))
        | .height => some (.word (s.regHeight.setWidth 32))
        | .isColor => some (.word (if s.regIsColor then 1 else 0))
        | .outSize => some (.word s.regOutSize)
        | _ => some (.ref s.regOutBuf)

/-- The byte array `OUT_BUF` refers to (R256). -/
def outArray (s : State) : Option Buffer :=
  match s.regOutBuf with
  | .none => none
  | .rgb => s.rgb
  | .plane0 => s.comps.head?.bind (·.pixels)

/-- The bytes of the output, from the registers (R34, R76). -/
def outputSize (s : State) : Nat :=
  s.regWidth.toNat * s.regHeight.toNat * (if s.regIsColor then 3 else 1)

/-- Byte i of the output the host takes (R256): only when `RESULT = OK`, and only the first `OUT_SIZE`
bytes, `W·H` or `3·W·H` of them. -/
def outputByte (i : Nat) (s : State) : Option Byte :=
  if s.ready && s.result = .ended .ok && decide (i < outputSize s) then
    (outArray s).bind fun b => if i < b.size then b.mem.read i else none
  else none

end Sys2Proof.Machine
end

