-- ==== Sys2Proof/Safety.lean ====
section
/-! DEFINITION. What counts as a safe run, in the terms statements use: an operation that answers or aborts and
never faults, memory in canonical form, an input that is all there, the stream position, a frame whose
planes fit it. -/

namespace Sys2Proof

/-- The bytes of a segment's payload, none where the framing is malformed (R142). -/
def Framed.payload {α : Type} (size : α → Nat) : Framed α → Option Nat
  | .noLength _ => none
  | .badLength _ => none
  | .ok a => some (size a)

/-- The segment of a marker that has one (R81), and its payload's size. -/
def Instr.segment : Instr → Option (Option Nat)
  | .sof0 seg => some (seg.payload SofBody.size)
  | .dht seg => some (seg.payload DhtBody.size)
  | .dqt seg => some (seg.payload DqtBody.size)
  | .dri seg => some (seg.payload DriBody.size)
  | .sos seg => some (seg.payload SosBody.size)
  | .appn _ seg => some (seg.payload List.length)
  | .com seg => some (seg.payload List.length)
  | _ => none

/-- The encoding says itself where it ends. A malformed segment, the final 0xFF and the filler are what they
are only because the input ends (R111, R116, R142). -/
def Instr.endsItself : Instr → Bool
  | .ecsFfLast => false
  | .ecsFiller => false
  | i => match i.segment with
    | some none => false
    | _ => true

end Sys2Proof

namespace Sys2Proof.Machine

/-! ### Outcomes -/

/-- The outcome is a next state with property P. -/
def Answers (o : Host.Outcome State Fault Refusal) (P : State → Prop) : Prop :=
  ∃ t, o = .next t ∧ P t

/-- Every next state the outcome allows has property P; a fault or a refusal claims nothing. -/
def Keeps (o : Host.Outcome State Fault Refusal) (P : State → Prop) : Prop :=
  ∀ t, o = .next t → P t

/-- An operation's answer: `yes` of a value it returns, `ab` of the state an abort leaves, `ft` of a fault. -/
def Post {α : Type} (m : Eng α) (yes : α → Prop) (ab : State → Prop) (ft : Prop) : Prop :=
  match m with
  | .ok a => yes a
  | .error (.aborted s) => ab s
  | .error (.fault _) => ft

/-- The outcome is the end of the DECODE by an abort with the code (R275), from a state with the sticky error,
the command, the input and the registers of s. -/
def AbortsWith (s : State) (code : Code) (o : Host.Outcome State Fault Refusal) : Prop :=
  Answers o fun t =>
    t.phase = .done ∧ t.error = (if s.error = .ok then code else s.error) ∧ t.result = .ended t.error ∧
    (∀ c ∈ t.comps, c.pixels = none) ∧ t.rgb = none ∧ t.live = 0 ∧
    t.cfg = s.cfg ∧ t.cmd = s.cmd ∧ t.inp = s.inp ∧ t.regWidth = s.regWidth ∧ t.regHeight = s.regHeight ∧
    t.regIsColor = s.regIsColor ∧ t.regOutSize = s.regOutSize ∧ t.regOutBuf = s.regOutBuf

/-! ### Memory -/

/-- A buffer that may be missing is in canonical form. -/
def optBufferWf : Option Buffer → Bool
  | none => true
  | some b => b.wf

/-- Every byte space of the state is in canonical form. -/
def State.memoryWf (s : State) : Bool :=
  s.inp.wf && s.comps.all (fun c => optBufferWf c.pixels) && optBufferWf s.rgb

/-- Every byte of the input is there: "the whole buffer is assumed resident" (R73). -/
def State.inputResident (s : State) : Prop :=
  ∀ i, i < s.inp.size → ∃ b, s.inp.mem.read i = some b

/-- R22: `S.pos` lies in 0 .. `S.N`, and `S.remaining` is what is left of the input or is used up. -/
def State.positionOk (s : State) : Prop :=
  s.pos ≤ s.inp.size ∧ (s.remaining ≤ 0 ∨ s.remaining = (s.inp.size : Int) - s.pos)

/-- The input as a DECODE finds it: canonical, resident (R73), with the stream position inside (R22). -/
def State.inputOk (s : State) : Prop :=
  s.inp.wf = true ∧ s.inputResident ∧ s.positionOk

/-- R117: the bit accumulator never holds more than 31 bits. -/
def State.accOk (s : State) : Prop :=
  s.acc.length ≤ 31

/-- Byte j of component k's plane. -/
def State.planeByte (s : State) (k j : Nat) : Option Byte :=
  (s.comps[k]?).bind fun c => c.pixels.bind fun b => b.mem.read j

/-- Byte j of component k's plane is there and has a value. -/
def State.planeHas (s : State) (k j : Nat) : Prop :=
  ∃ c b, s.comps[k]? = some c ∧ c.pixels = some b ∧ b.has j = true

/-- Byte j of the RGB buffer. -/
def State.rgbByte (s : State) (j : Nat) : Option Byte :=
  s.rgb.bind fun b => b.mem.read j

/-- The bytes of a buffer that may be missing. -/
def optBufferSize : Option Buffer → Nat
  | none => 0
  | some b => b.size

/-- The bytes of the planes and of the RGB buffer. -/
def State.bufferBytes (s : State) : Nat :=
  (s.comps.map fun c => optBufferSize c.pixels).sum + optBufferSize s.rgb

/-- R33: `S.live` counts the bytes allocated to planes and to the RGB buffer. -/
def State.liveOk (s : State) : Prop :=
  s.live = s.bufferBytes

/-! ### The frame -/

/-- No frame yet: no component exists and nothing is allocated for one (R38). -/
def State.noFrame (s : State) : Prop :=
  s.comps = [] ∧ s.rgb = none

/-- A component as SOF0 lays it out (R148, R149, R150): legal factors within the maxima, the plane's
dimensions, and a buffer for the whole plane. -/
def State.laidOut (s : State) (c : Comp) : Prop :=
  powerOfTwo c.ssx = true ∧ powerOfTwo c.ssy = true ∧ c.ssx ≤ s.hmax ∧ c.ssy ≤ s.vmax ∧
  c.width = ceilDiv (s.width.toNat * c.ssx.toNat) s.hmax.toNat ∧
  c.height = ceilDiv (s.height.toNat * c.ssy.toNat) s.vmax.toNat ∧
  c.stride = 8 * c.ssx.toNat * s.mbwidth ∧
  (c.width < 3 → c.ssx = s.hmax) ∧ (c.height < 3 → c.ssy = s.vmax) ∧
  ∃ b, c.pixels = some b ∧ b.size = c.stride * 8 * c.ssy.toNat * s.mbheight

/-- A frame as SOF0 leaves it (R146 to R150): one or three components, all laid out, and the RGB buffer of a
colour image. -/
def State.frameLaidOut (s : State) : Prop :=
  (s.ncomp = 1 ∨ s.ncomp = 3) ∧ s.comps.length = s.ncomp.toNat ∧ s.width ≠ 0 ∧ s.height ≠ 0 ∧
  s.mbwidth = ceilDiv s.width.toNat (8 * s.hmax.toNat) ∧
  s.mbheight = ceilDiv s.height.toNat (8 * s.vmax.toNat) ∧
  (∀ c ∈ s.comps, s.laidOut c) ∧
  (s.ncomp = 1 → s.rgb = none) ∧
  (s.ncomp = 3 → ∃ b, s.rgb = some b ∧ b.size = 3 * s.width.toNat * s.height.toNat)

/-- What holds of the frame as a DECODE goes: between markers there is none or it is laid out; through the
scan and up to the conversion it is laid out; the bytes allocated are counted (R33, R40, R170). -/
def State.frameOk (s : State) : Prop :=
  (s.phase = .headers → (s.frame = false ∧ s.noFrame) ∨ (s.frame = true ∧ s.frameLaidOut)) ∧
  (s.phase = .scan ∨ s.phase = .convert → s.frameLaidOut) ∧ s.liveOk

/-! ### Huffman codes -/

/-- The lengths of the code words of a table, in the order of its symbols (R91); `counts` holds the counts
of the lengths l, l + 1, ... -/
def codeLengths : (l : Nat) → (counts : List Byte) → List Nat
  | _, [] => []
  | l, n :: counts => List.replicate n.toNat l ++ codeLengths (l + 1) counts

/-- The 16-bit windows that begin with one of the code words of the lengths given (R91, R131). -/
def codeWindows (lengths : List Nat) : Nat :=
  (lengths.map fun l => 2 ^ (16 - l)).sum

/-! ### Runs -/

/-- n steps from a state, each answering a next state. -/
def stepsTo : Nat → State → State → Prop
  | 0, s, t => s = t
  | n + 1, s, t => ∃ u, step s = .next u ∧ stepsTo n u t

end Sys2Proof.Machine
end

