-- ==== Sys2Proof/Certificates/Slice0/Obligations.lean ====
section
/-! DEFINITION. The statements about the model, for the provers. Each docstring names the rule of spec/ it
formalises; OBLIGATIONS.json holds the list. -/

open Sys2Proof Sys2Proof.Machine

/-! ### Encoding -/

/-- R80 to R94, R97: the decoder reads every well-formed instruction back from its own bytes, whatever follows
them where the encoding says itself where it ends, and otherwise at the end of the input. -/
def Obligations.DecodeReadsBackEncoded : Prop :=
  ∀ (i : Instr) (level : Level) (bs rest : List Byte), i.wf = true → encode i = some (level, bs) →
    (rest = [] ∨ i.endsItself = true) → decode level (bs ++ rest) = .ok (i, rest)

/-- R97, R99: what the decoder answers is well formed, and its encoding is the bytes it took. -/
def Obligations.DecodedTakesItsBytes : Prop :=
  ∀ (level : Level) (bs rest : List Byte) (i : Instr), decode level bs = .ok (i, rest) →
    i.wf = true ∧ ∃ enc, encode i = some (level, enc) ∧ enc ++ rest = bs

/-- R81 to R94: words written out from the spec's layouts, most of them of program P1, decode to the
instructions they stand for. -/
def Obligations.SpecWordsDecode : Prop :=
  decode .start [0xFF, 0xD8] = .ok (.soi, []) ∧
  decode .top [0xFF, 0xC0, 0x00, 0x0B, 0x08, 0x00, 0x08, 0x00, 0x10, 0x01, 0x01, 0x21, 0x03] =
    .ok (.sof0 (.ok (.full 8 8 16 1 [⟨1, 2, 1, 3⟩] [])), []) ∧
  decode .top [0xFF, 0xDD, 0x00, 0x04, 0x01, 0x02, 0xAA] = .ok (.dri (.ok (.full 0x0102 [])), [0xAA]) ∧
  decode .top [0xFF, 0xDA, 0x00, 0x08, 0x01, 0x05, 0x10, 0x00, 0x3F, 0x00] =
    .ok (.sos (.ok (.full [⟨5, 1, 0⟩] 0 63 0 0 [])), []) ∧
  decode .top [0xFF, 0xFE, 0x00, 0x04, 0x41, 0x42] = .ok (.com (.ok [0x41, 0x42]), []) ∧
  decode .top [0xFF, 0xC2, 0x00] = .ok (.unsupportedSof1Sof3 0xC2, [0x00]) ∧
  decode .ecs [0xFF, 0xD3] = .ok (.ecsRstm 3, []) ∧
  decode .dcSymbol [0x07] = .ok (.dcCat 0 7, []) ∧
  decode .acSymbol [0x23] = .ok (.acRuncat 2 3, [])

/-! ### Aborts, reset and the step -/

/-- R169, R168, R141: every marker code at the top level but the segments the block accepts and EOI is
UNSUPPORTED, when its code byte is read and before its length; EOI there and a byte other than 0xFF where a
marker must start are SYNTAX_ERROR. Instruction by instruction, the next state is the abort's. -/
def Obligations.RefusedMarkersAbort : Prop :=
  (∀ (c : Byte) (rest : List Byte), c ≠ 0xC0 → c ≠ 0xC4 → c ≠ 0xDB → c ≠ 0xDD → c ≠ 0xDA →
    ¬ (0xE0 ≤ c ∧ c ≤ 0xEF) → c ≠ 0xFE → c ≠ 0xD9 →
    ∃ i, decode .top (0xFF :: c :: rest) = .ok (i, rest) ∧
      ∀ s : State, exec i s = .next ((s.skip 2).abort .unsupported)) ∧
  ∀ (s : State) (m : BitVec 3) (c d : Byte),
    exec .eoiTop s = .next ((s.skip 2).abort .syntaxError) ∧
    exec (.notAMarker c d) s = .next (s.abort .syntaxError) ∧
    exec (.rstmTop m) s = .next ((s.skip 2).abort .unsupported) ∧
    exec (.unsupportedSof1Sof3 c) s = .next ((s.skip 2).abort .unsupported) ∧
    exec (.unsupportedSof5Sof7 c) s = .next ((s.skip 2).abort .unsupported) ∧
    exec (.unsupportedJpgSof9Sof11 c) s = .next ((s.skip 2).abort .unsupported) ∧
    exec (.unsupportedDacSof13Sof15 c) s = .next ((s.skip 2).abort .unsupported) ∧
    exec .unsupportedDnl s = .next ((s.skip 2).abort .unsupported) ∧
    exec (.unsupportedDhpExp c) s = .next ((s.skip 2).abort .unsupported) ∧
    exec (.unsupportedJpgn c) s = .next ((s.skip 2).abort .unsupported) ∧
    exec .unsupportedSoiAgain s = .next ((s.skip 2).abort .unsupported) ∧
    exec (.unsupportedReserved00Bf c) s = .next ((s.skip 2).abort .unsupported) ∧
    exec .unsupportedFillTop s = .next ((s.skip 2).abort .unsupported)
/-- R275, R35: what `raise Abort` does, as one step. The first code stays, the phase is DONE, RESULT is
written, every buffer is released and no register but RESULT is readable. The last clause, that every field
R275 does not name keeps its value but for the sequencer's loop variables, is the model's choice (log 13): R279
and R314 promise nothing of what the input position, `S.acc` and the planes hold after an abort. -/
def Obligations.AbortEntry : Prop :=
  ∀ (s : State) (code : Code), code ≠ .ok →
    (s.abort code).error = (if s.error = .ok then code else s.error) ∧
    (s.abort code).phase = .done ∧
    (s.abort code).result = .ended (s.abort code).error ∧
    (s.abort code).comps = s.comps.map (fun c => { c with pixels := none }) ∧
    (s.abort code).rgb = none ∧ (s.abort code).live = 0 ∧
    (∀ r : HostReg, r ≠ .result → hostRead r (s.abort code) = none) ∧
    (∀ i, outputByte i (s.abort code) = none) ∧
    s = { s.abort code with
      error := s.error
      phase := s.phase
      result := s.result
      comps := s.comps
      rgb := s.rgb
      live := s.live
      seq := s.seq }

/-- R39: the state of an instance before its first DECODE. -/
def Obligations.PowerOnState : Prop :=
  State.reset.phase = .idle ∧ hostRead .result State.reset = some (.word 7) ∧ State.reset.pos = 0 ∧
  State.reset.acc = [] ∧ State.reset.error = .ok ∧ State.reset.frame = false ∧ State.reset.width = 0 ∧
  State.reset.height = 0 ∧ State.reset.ncomp = 0 ∧ State.reset.hmax = 0 ∧ State.reset.vmax = 0 ∧
  State.reset.mcuW = 0 ∧ State.reset.mcuH = 0 ∧ State.reset.mbwidth = 0 ∧ State.reset.mbheight = 0 ∧
  (∀ t : Fin 4, ∀ k : Fin 64, (State.reset.qt.get t).get k = 0) ∧ State.reset.qtAvail = 0 ∧
  State.reset.qtUsed = 0 ∧ (∀ (h : Fin 4) (w : Nat), HuffTable.lookup (State.reset.ht.get h) w = ⟨0, 0⟩) ∧
  State.reset.restartInterval = 0 ∧ State.reset.comps = [] ∧ State.reset.mbx = 0 ∧ State.reset.mby = 0 ∧
  State.reset.rstCount = 0 ∧ State.reset.nextRst = 0 ∧ (∀ i : Fin 64, State.reset.blk.get i = 0) ∧
  State.reset.rgb = none ∧ State.reset.live = 0 ∧ State.reset.remaining = (State.reset.inp.size : Int)

/-- R38, R300, R280: the per-decode reset, the first step of a DECODE the host has issued and whose duty it
kept (the command waits in the model's field `cmd`, log 2): every field takes the value of R38's table, nothing
survives but the configuration and the host registers. -/
def Obligations.PerDecodeReset : Prop :=
  ∀ (s : State) (buf : List Byte), (s.phase = .idle ∨ s.phase = .done) →
    s.cmd = some ⟨buf, buf.length⟩ → buf.length ≤ s.cfg.inLenMax →
    ∃ t, step s = .next t ∧
      t.inp.size = buf.length ∧ (∀ i, t.inp.mem.read i = buf[i]?) ∧ t.pos = 0 ∧
      t.remaining = (buf.length : Int) ∧ t.acc = [] ∧ t.error = .ok ∧ t.phase = .headers ∧ t.frame = false ∧
      t.width = 0 ∧ t.height = 0 ∧ t.ncomp = 0 ∧ t.hmax = 0 ∧ t.vmax = 0 ∧ t.mcuW = 0 ∧ t.mcuH = 0 ∧
      t.mbwidth = 0 ∧ t.mbheight = 0 ∧ (∀ n : Fin 4, ∀ k : Fin 64, (t.qt.get n).get k = 0) ∧
      t.qtAvail = 0 ∧ t.qtUsed = 0 ∧
      (∀ (h : Fin 4) (w : Nat), HuffTable.lookup (t.ht.get h) w = ⟨0, 0⟩) ∧ t.restartInterval = 0 ∧
      t.comps = [] ∧ t.mbx = 0 ∧ t.mby = 0 ∧ t.rstCount = 0 ∧ t.nextRst = 0 ∧
      (∀ i : Fin 64, t.blk.get i = 0) ∧ t.rgb = none ∧ t.live = 0 ∧ t.cfg = s.cfg ∧ t.cmd = none ∧
      t.result = s.result ∧ t.regWidth = s.regWidth ∧ t.regHeight = s.regHeight ∧
      t.regIsColor = s.regIsColor ∧ t.regOutSize = s.regOutSize ∧ t.regOutBuf = s.regOutBuf

/-- R140, R141, R22: between markers a step is exec of the instruction the bytes at `S.pos` decode to; at the start
of the stream it is SOI, which checks those bytes; with fewer than two bytes left it is SYNTAX_ERROR. The bytes
decoded are the input from `S.pos` on, `S.remaining` of them. That the engine goes one instruction a step is the
model's (log 1). -/
def Obligations.StepRunsMarker : Prop :=
  ∀ s : State, s.phase = .headers → s.cmd = none →
    (s.pos = 0 → step s = exec .soi s) ∧
    (∀ i rest, s.pos ≠ 0 → decode .top s.bytesLeft = .ok (i, rest) → step s = exec i s) ∧
    (s.pos ≠ 0 → s.bytesLeft.length < 2 → step s = .next (s.abort .syntaxError)) ∧
    (s.inputOk → s.bytesLeft.length = s.remaining.toNat ∧
      ∀ j, j < s.remaining.toNat → s.bytesLeft[j]? = s.inp.mem.read (s.pos + j))

/-- R180, R182, R190, R192: inside a scan a step is exec of the escape the bit reader takes next (fewer than
16 bits held), of the symbol at the head of `S.acc` after its code is consumed, of the block's IDCT, after
which the sequencer moves to the next block, or of the restart check, after which the next MCU begins. The steps
and the loop variables are the model's (log 1, log 10). -/
def Obligations.StepRunsScan : Prop :=
  ∀ (s : State) (c : Comp), s.phase = .scan → s.cmd = none → s.comps[s.seq.k]? = some c →
    ((s.seq.stage = .dc ∨ s.seq.stage = .ac) → s.acc.length < 16 → ∀ i rest,
      decode .ecs (s.inp.mem.bytesAt s.pos (min s.remaining.toNat 2)) = .ok (i, rest) →
      step s = exec i s) ∧
    (∀ (h : Fin 4) (level : Level),
      (s.seq.stage = .dc ∧ h = c.dcsel.toFin ∧ level = .dcSymbol) ∨
        (s.seq.stage = .ac ∧ h = c.acsel.toFin ∧ level = .acSymbol) →
      16 ≤ s.acc.length → ∀ e, e = HuffTable.lookup (s.ht.get h) (bitsNat (s.acc.take 16)) →
      (e.len = 0 → step s = exec (.huffMiss (BitVec.ofNat 16 (bitsNat (s.acc.take 16)))) s) ∧
      (∀ i rest, e.len ≠ 0 → decode level [e.sym] = .ok (i, rest) →
        step s = exec i { s with acc := s.acc.drop e.len.val })) ∧
    (∀ off t d, s.seq.stage = .idct → off = blockOffset c s.mbx s.mby s.seq.sbx s.seq.sby →
      exec (.idctBlock s.seq.k off) s = .next t → t.phase = .scan → t.comps[s.seq.k]? = some d →
      step s = .next (t.nextBlock d)) ∧
    (∀ t, s.seq.stage = .restart → exec .restart s = .next t →
      step s = .next (if t.phase = .scan then t.startMcu else t))

/-- R36, R72, R140, R255, R287: with no command an idle engine stays as it is (log 24); a kept duty is taken up
(log 2), a broken one refused (log 4), a second command refused (log 3); after CONVERT the completion is written. -/
def Obligations.StepBetweenDecodes : Prop :=
  ∀ s : State,
    ((s.phase = .idle ∨ s.phase = .done) → s.cmd = none → step s = .next s) ∧
    (∀ c, (s.phase = .idle ∨ s.phase = .done) → s.cmd = some c →
      (c.len = c.buf.length → c.len ≤ s.cfg.inLenMax → step s = .next (s.decodeReset c.buf)) ∧
      (c.len ≠ c.buf.length ∨ s.cfg.inLenMax < c.len → step s = .refused .hostDuty)) ∧
    (∀ c, s.phase ≠ .idle → s.phase ≠ .done → s.cmd = some c → step s = .refused .overlappingDecode) ∧
    (∀ t, s.phase = .convert → s.cmd = none → exec .convert s = .next t →
      step s = .next (if t.phase = .convert then t.finish else t)) ∧
    (∀ buf len, (s.ready = false → exec (.decode buf len) s = .refused .overlappingDecode) ∧
      (s.ready = true → len ≠ buf.length ∨ s.cfg.inLenMax < len →
        exec (.decode buf len) s = .refused .hostDuty))

/-! ### The bit reader -/

/-- R112, R113, R114 (and the escapes of R111): what each escape of the entropy-coded segment does, and that
after EOI every refill is filler. -/
def Obligations.EscapesTaken : Prop :=
  ∀ s : State,
    (∀ b : Byte, exec (.ecsData b) s =
      .next { s with pos := s.pos + 1, remaining := s.remaining - 1, acc := s.acc ++ bits8 b }) ∧
    exec .ecsStuff s =
      .next { s with pos := s.pos + 2, remaining := s.remaining - 2, acc := s.acc ++ bits8 0xFF } ∧
    exec .ecsFill s =
      .next { s with pos := s.pos + 2, remaining := s.remaining - 2, acc := s.acc ++ bits8 0xFF } ∧
    (∀ m : BitVec 3, exec (.ecsRstm m) s =
      .next { s with
        pos := s.pos + 2
        remaining := s.remaining - 2
        acc := s.acc ++ bits8 0xFF ++ bits8 (0xD0 + m.setWidth 8) }) ∧
    exec .ecsEoi s = .next { s with pos := s.pos + 2, remaining := 0, acc := s.acc ++ bits8 0xFF } ∧
    exec .ecsFiller s = .next { s with acc := s.acc ++ bits8 0xFF } ∧
    (s.remaining ≤ 0 → exec .refill s = .next { s with acc := s.acc ++ bits8 0xFF })

/-- R115, R116, R187: any other marker in the entropy-coded data, a final 0xFF, a reserved AC symbol and a
window without a code (R180) are SYNTAX_ERROR. -/
def Obligations.EntropyErrors : Prop :=
  ∀ s : State,
    (∀ c : Byte, c ≠ 0x00 → ¬ (0xD0 ≤ c ∧ c ≤ 0xD7) → c ≠ 0xD9 → c ≠ 0xFF →
      decode .ecs [0xFF, c] = .ok (.ecsOtherMarker c, [])) ∧
    (∀ c : Byte, exec (.ecsOtherMarker c) s = .next ({ s with
        pos := s.pos + 2
        remaining := s.remaining - 2
        acc := s.acc ++ bits8 0xFF }.abort .syntaxError)) ∧
    decode .ecs [0xFF] = .ok (.ecsFfLast, []) ∧
    exec .ecsFfLast s = .next ({ s with
        pos := s.pos + 1
        remaining := s.remaining - 1
        acc := s.acc ++ bits8 0xFF }.abort .syntaxError) ∧
    (∀ r : Nibble, r ≠ 0 → r ≠ 15 → decode .acSymbol [r ++ (0 : Nibble)] = .ok (.acIllegal r, [])) ∧
    (∀ r : Nibble, exec (.acIllegal r) s = .next (s.abort .syntaxError)) ∧
    (∀ w : Half, exec (.huffMiss w) s = .next (s.abort .syntaxError))

/-- R111: REFILL, case by case on the bytes at `S.pos`. -/
def Obligations.RefillFollowsTheBytes : Prop :=
  ∀ s : State,
    (s.remaining ≤ 0 → exec .refill s = .next { s with acc := s.acc ++ bits8 0xFF }) ∧
    (∀ b : Byte, 0 < s.remaining → s.pos < s.inp.size → s.inp.mem.read s.pos = some b →
      (b ≠ 0xFF → exec .refill s =
        .next { s with pos := s.pos + 1, remaining := s.remaining - 1, acc := s.acc ++ bits8 b }) ∧
      (b = 0xFF → s.remaining = 1 → AbortsWith s .syntaxError (exec .refill s)) ∧
      (∀ m : Byte, b = 0xFF → 2 ≤ s.remaining → s.pos + 1 < s.inp.size →
        s.inp.mem.read (s.pos + 1) = some m →
        if m = 0x00 ∨ m = 0xFF then exec .refill s =
          .next { s with pos := s.pos + 2, remaining := s.remaining - 2, acc := s.acc ++ bits8 0xFF }
        else if m = 0xD9 then exec .refill s =
          .next { s with pos := s.pos + 2, remaining := 0, acc := s.acc ++ bits8 0xFF }
        else if 0xD0 ≤ m ∧ m ≤ 0xD7 then exec .refill s =
          .next { s with
            pos := s.pos + 2
            remaining := s.remaining - 2
            acc := s.acc ++ bits8 0xFF ++ bits8 m }
        else AbortsWith s .syntaxError (exec .refill s)))

/-- R89, R111, R17: REFILL is the escape the decoder reads at `S.pos`, whatever the input. -/
def Obligations.RefillIsTheNextEscape : Prop :=
  ∀ (s : State) (i : Instr) (rest : List Byte), s.inputOk →
    decode .ecs (s.inp.mem.bytesAt s.pos (min s.remaining.toNat 2)) = .ok (i, rest) →
    exec .refill s = exec i s

/-- R119: PEEK returns the first n bits, first bit most significant, and consumes nothing; while fewer than n
are held it refills; PEEK(0) takes no byte. -/
def Obligations.PeekReadsBits : Prop :=
  (∀ (b : Bool) (bs : List Bool), bitsNat (b :: bs) = b.toNat * 2 ^ bs.length + bitsNat bs) ∧
  ∀ (n : Fin 17) (s : State),
    (n = 0 → exec (.peek n) s = .next { s with ret := .nat 0 }) ∧
    (n.val ≤ s.acc.length → exec (.peek n) s = .next { s with ret := .nat (bitsNat (s.acc.take n.val)) }) ∧
    (∀ u, s.acc.length < n.val → refillOp s = .ok u → exec (.peek n) s = exec (.peek n) u) ∧
    (∀ u, s.acc.length < n.val → refillOp s = .error (.aborted u) → exec (.peek n) s = .next u)

/-- R118, R120, R121: ALIGN removes the first `S.accBits mod 8` bits and reads no input; CONSUME removes the
first n bits, READ is PEEK then CONSUME; a refill that ends the DECODE ends them. -/
def Obligations.AlignConsumeRead : Prop :=
  ∀ (n : Fin 17) (s : State),
    (n.val ≤ s.acc.length → exec (.consume n) s = .next { s with acc := s.acc.drop n.val } ∧
      exec (.read n) s =
        .next { s with acc := s.acc.drop n.val, ret := .nat (bitsNat (s.acc.take n.val)) }) ∧
    (∀ v u, peekOp n.val s = .ok (v, u) →
      exec (.consume n) s = .next { u with acc := u.acc.drop n.val } ∧
      exec (.read n) s = .next { u with acc := u.acc.drop n.val, ret := .nat v }) ∧
    (∀ u, peekOp n.val s = .error (.aborted u) →
      exec (.consume n) s = .next u ∧ exec (.read n) s = .next u) ∧
    (∃ t, exec .align s = .next t ∧ t = { s with acc := s.acc.drop (s.acc.length % 8) } ∧
      t.acc.length % 8 = 0 ∧ (s.acc.length % 8 = 0 → t = s))

/-! ### Huffman tables and symbols -/

/-- R131, R132, R133, R153: BUILD_HT with enough symbol bytes and code space gives each code of length l the
next 2^(16-l) windows, in order, leaves the rest without a match, and changes no other slot; too few symbol
bytes or too little code space is SYNTAX_ERROR with no slot changed. -/
def Obligations.BuildHtFillsTable : Prop :=
  ∀ (h : Fin 4) (counts syms : List Byte) (s : State), counts.length = 16 →
    (countSum counts ≤ syms.length → codeWindows (codeLengths 1 counts) ≤ 65536 →
      ∃ t, exec (.buildHt h counts syms) s = .next t ∧
        t = { s with
          pos := s.pos + countSum counts
          remaining := s.remaining - (countSum counts : Int)
          ht := t.ht } ∧
        (∀ g, g ≠ h → t.ht.get g = s.ht.get g) ∧
        (∀ j l v w, (codeLengths 1 counts)[j]? = some l → syms[j]? = some v →
          codeWindows ((codeLengths 1 counts).take j) ≤ w →
          w < codeWindows ((codeLengths 1 counts).take j) + 2 ^ (16 - l) →
          (HuffTable.lookup (t.ht.get h) w).len.val = l ∧ (HuffTable.lookup (t.ht.get h) w).sym = v) ∧
        (∀ w, codeWindows (codeLengths 1 counts) ≤ w → HuffTable.lookup (t.ht.get h) w = ⟨0, 0⟩)) ∧
    (syms.length < countSum counts ∨ 65536 < codeWindows (codeLengths 1 counts) →
      AbortsWith s .syntaxError (exec (.buildHt h counts syms) s) ∧
      Keeps (exec (.buildHt h counts syms) s) fun t => t.ht = s.ht)

/-- R180: DECODE_VLC peeks 16 bits, looks them up, consumes the code and reads the magnitude bits, extended. -/
def Obligations.DecodeVlcSymbol : Prop :=
  ∀ (h : Fin 4) (s : State),
    (∀ u, s.acc.length < 16 → refillOp s = .ok u → exec (.decodeVlc h) s = exec (.decodeVlc h) u) ∧
    (∀ u, s.acc.length < 16 → refillOp s = .error (.aborted u) → exec (.decodeVlc h) s = .next u) ∧
    (∀ e cat, 16 ≤ s.acc.length → e = HuffTable.lookup (s.ht.get h) (bitsNat (s.acc.take 16)) →
      cat = e.sym.toNat % 16 →
      (e.len = 0 → exec (.decodeVlc h) s = .next (s.abort .syntaxError)) ∧
      (e.len ≠ 0 → cat = 0 → exec (.decodeVlc h) s =
        .next { s with acc := s.acc.drop e.len.val, ret := .symbol e.sym 0 }) ∧
      (e.len ≠ 0 → cat ≠ 0 → e.len.val + cat ≤ s.acc.length → exec (.decodeVlc h) s =
        .next { s with
          acc := s.acc.drop (e.len.val + cat)
          ret := .symbol e.sym (extend (bitsNat ((s.acc.drop e.len.val).take cat)) cat) }) ∧
      (∀ v u, e.len ≠ 0 → cat ≠ 0 → readOp cat { s with acc := s.acc.drop e.len.val } = .ok (v, u) →
        exec (.decodeVlc h) s = .next { u with ret := .symbol e.sym (extend v cat) }) ∧
      (∀ u, e.len ≠ 0 → cat ≠ 0 →
        readOp cat { s with acc := s.acc.drop e.len.val } = .error (.aborted u) →
        exec (.decodeVlc h) s = .next u))

/-- R94: the magnitude bits v of category s as a signed value. -/
def Obligations.ExtendSigned : Prop :=
  (∀ v, extend v 0 = 0) ∧
  ∀ v s : Nat, 1 ≤ s → s ≤ 15 → v < 2 ^ s →
    (extend v s).toInt = (if v < 2 ^ (s - 1) then (v : Int) - 2 ^ s + 1 else (v : Int))

/-- R185: the DC coefficient. The predictor of the component moves by the decoded delta, and entry 0 of the
block is the predictor times quantisation step 0; with the magnitude bits held they are dropped, otherwise
READ takes them. The loop position in `seq` is the model's (log 10). -/
def Obligations.DcCoefficient : Prop :=
  ∀ (ignored cat : Nibble) (s : State) (c : Comp), s.comps[s.seq.k]? = some c →
    (cat.toNat ≤ s.acc.length → ∀ d, d = extend (bitsNat (s.acc.take cat.toNat)) cat.toNat →
      exec (.dcCat ignored cat) s = .next { s with
        acc := s.acc.drop cat.toNat
        comps := s.comps.set s.seq.k { c with dcpred := c.dcpred + d }
        blk := s.blk.set 0 ((c.dcpred + d) * ((s.qt.get c.qtsel.toFin).get 0).setWidth 32)
        seq := { s.seq with kz := 0, stage := .ac } }) ∧
    (∀ v u, cat ≠ 0 → readOp cat.toNat s = .ok (v, u) →
      exec (.dcCat ignored cat) s = .next { u with
        comps := s.comps.set s.seq.k { c with dcpred := c.dcpred + extend v cat.toNat }
        blk := s.blk.set 0 ((c.dcpred + extend v cat.toNat) * ((s.qt.get c.qtsel.toFin).get 0).setWidth 32)
        seq := { s.seq with kz := 0, stage := .ac } }) ∧
    (∀ u, cat ≠ 0 → readOp cat.toNat s = .error (.aborted u) →
      exec (.dcCat ignored cat) s = .next u)

/-- R186, R188: EOB ends the block; ZRL moves 16 on and stores 0; a run moves r + 1 on and stores the
magnitude times the step of the new position, at its natural position; past 63 it is SYNTAX_ERROR; at 63 the
block ends. The loop position in `seq` is the model's (log 10). -/
def Obligations.AcCoefficients : Prop :=
  ∀ (s : State) (c : Comp), s.comps[s.seq.k]? = some c →
    exec .acEob s = .next { s with seq := { s.seq with stage := .idct } } ∧
    (∀ kz, kz = s.seq.kz + 16 →
      (kz ≤ 63 → exec .acZrl s = .next { s with
        blk := blkSet s.blk (zzPos s.cfg kz).val 0
        seq := { s.seq with kz := kz, stage := if kz < 63 then .ac else .idct } }) ∧
      (63 < kz → exec .acZrl s = .next (s.abort .syntaxError))) ∧
    (∀ (r cat : Nibble) (kz : Nat), cat ≠ 0 → kz = s.seq.kz + r.toNat + 1 →
      (cat.toNat ≤ s.acc.length → ∀ v, v = extend (bitsNat (s.acc.take cat.toNat)) cat.toNat →
        (kz ≤ 63 → exec (.acRuncat r cat) s = .next { s with
          acc := s.acc.drop cat.toNat
          blk := blkSet s.blk (zzPos s.cfg kz).val (v * quantStep s c.qtsel kz)
          seq := { s.seq with kz := kz, stage := if kz < 63 then .ac else .idct } }) ∧
        (63 < kz → exec (.acRuncat r cat) s =
          .next ({ s with acc := s.acc.drop cat.toNat }.abort .syntaxError))) ∧
      (∀ v u, readOp cat.toNat s = .ok (v, u) →
        (kz ≤ 63 → exec (.acRuncat r cat) s = .next { u with
          blk := blkSet s.blk (zzPos s.cfg kz).val (extend v cat.toNat * quantStep s c.qtsel kz)
          seq := { s.seq with kz := kz, stage := if kz < 63 then .ac else .idct } }) ∧
        (63 < kz → exec (.acRuncat r cat) s = .next (u.abort .syntaxError))) ∧
      (∀ u, readOp cat.toNat s = .error (.aborted u) → exec (.acRuncat r cat) s = .next u))

/-! ### Blocks and the IDCT -/

/-- R182, R189: DECODE_BLOCK on a resident input and a block inside its plane answers a next state: either
SYNTAX_ERROR, or the 64 bytes of the block have values and nothing changed but them, the predictor of the
component, the scratch block, the bit reader and the sequencer. -/
def Obligations.DecodeBlockWritesItsBlock : Prop :=
  ∀ (k off : Nat) (s : State) (c : Comp) (b : Buffer), s.inputOk → s.comps[k]? = some c →
    c.pixels = some b → off + 7 * c.stride + 8 ≤ b.size →
    AbortsWith s .syntaxError (exec (.decodeBlock k off) s) ∨
    ∃ t, exec (.decodeBlock k off) s = .next t ∧
      t = { s with
        pos := t.pos
        remaining := t.remaining
        acc := t.acc
        blk := t.blk
        comps := t.comps
        seq := t.seq } ∧
      (∃ p b', t.comps = s.comps.set k { c with dcpred := p, pixels := some b' } ∧ b'.size = b.size) ∧
      (∀ r x, r < 8 → x < 8 → (t.planeByte k (off + r * c.stride + x)).isSome = true) ∧
      (∀ j, (∀ r x, r < 8 → x < 8 → j ≠ off + r * c.stride + x) → t.planeByte k j = s.planeByte k j)

/-- R182, R184: a block whose codes are a DC symbol of category 0 and an EOB, both at the head of `S.acc`,
completes: every coefficient but the DC one is 0, and the IDCT of that block is what it stores. -/
def Obligations.DecodeBlockFlat : Prop :=
  ∀ (k off : Nat) (s : State) (c : Comp) (b : Buffer) (dc ac : HtEntry), s.comps[k]? = some c →
    c.pixels = some b → off + 7 * c.stride + 8 ≤ b.size →
    dc = HuffTable.lookup (s.ht.get c.dcsel.toFin) (bitsNat (s.acc.take 16)) →
    dc.len ≠ 0 → dc.sym.toNat % 16 = 0 → 16 + dc.len.val ≤ s.acc.length →
    ac = HuffTable.lookup (s.ht.get c.acsel.toFin) (bitsNat ((s.acc.drop dc.len.val).take 16)) →
    ac.len ≠ 0 → ac.sym = 0x00 →
    exec (.decodeBlock k off) s = exec (.idctBlock k off) { s with
      acc := s.acc.drop (dc.len.val + ac.len.val)
      blk := (Vector.replicate 64 0).set 0 (c.dcpred * ((s.qt.get c.qtsel.toFin).get 0).setWidth 32)
      seq := { s.seq with k := k, kz := 0, stage := .idct } } ∧
    ∃ t, exec (.decodeBlock k off) s = .next t ∧ t.error = s.error ∧ t.phase = s.phase ∧
      ∀ r x, r < 8 → x < 8 → (t.planeByte k (off + r * c.stride + x)).isSome = true

/-- R212: one row pass with the literal shortcut off or not applicable, in closed form. -/
def Obligations.IdctRowFormula : Prop :=
  ∀ (s : State) (b : Oct Word), (s.cfg.idctShortcutLiteral = false ∨ b.a1 ≠ 0 ∨ b.a2 ≠ 0 ∨ b.a3 ≠ 0 ∨
      b.a4 ≠ 0 ∨ b.a5 ≠ 0 ∨ b.a6 ≠ 0 ∨ b.a7 ≠ 0) →
    ∀ w1 w2 w3 w5 w6 w7 e0 e1 e2 e3 o4 o5 o6 o7 m n : Word,
    w1 = s.cfg.w1 → w2 = s.cfg.w2 → w3 = s.cfg.w3 → w5 = s.cfg.w5 → w6 = s.cfg.w6 → w7 = s.cfg.w7 →
    e0 = (b.a0 <<< 11) + 128 + (b.a4 <<< 11) → e1 = (b.a0 <<< 11) + 128 - (b.a4 <<< 11) →
    e2 = w6 * (b.a2 + b.a6) - (w2 + w6) * b.a6 → e3 = w6 * (b.a2 + b.a6) + (w2 - w6) * b.a2 →
    o4 = w7 * (b.a1 + b.a7) + (w1 - w7) * b.a1 → o5 = w7 * (b.a1 + b.a7) - (w1 + w7) * b.a7 →
    o6 = w3 * (b.a5 + b.a3) - (w3 - w5) * b.a5 → o7 = w3 * (b.a5 + b.a3) - (w3 + w5) * b.a3 →
    m = (s.cfg.wr * ((o4 - o6) + (o5 - o7)) + 128).sshiftRight 8 →
    n = (s.cfg.wr * ((o4 - o6) - (o5 - o7)) + 128).sshiftRight 8 →
    ∀ o : Oct Word, o =
      ⟨(e0 + e3 + (o4 + o6)).sshiftRight 8, (e1 + e2 + m).sshiftRight 8, (e1 - e2 + n).sshiftRight 8,
        (e0 - e3 + (o5 + o7)).sshiftRight 8, (e0 - e3 - (o5 + o7)).sshiftRight 8,
        (e1 - e2 - n).sshiftRight 8, (e1 + e2 - m).sshiftRight 8, (e0 + e3 - (o4 + o6)).sshiftRight 8⟩ →
    exec (.idctRow b) s = .next { s with ret := .words o }

/-- R214, R216: one column pass with the literal shortcut off or not applicable, in closed form, each output
biased by 128 and then clamped. -/
def Obligations.IdctColFormula : Prop :=
  ∀ (s : State) (b : Oct Word), (s.cfg.idctShortcutLiteral = false ∨ b.a1 ≠ 0 ∨ b.a2 ≠ 0 ∨ b.a3 ≠ 0 ∨
      b.a4 ≠ 0 ∨ b.a5 ≠ 0 ∨ b.a6 ≠ 0 ∨ b.a7 ≠ 0) →
    ∀ w1 w2 w3 w5 w6 w7 e0 e1 e2 e3 o4 o5 o6 o7 m n : Word,
    w1 = s.cfg.w1 → w2 = s.cfg.w2 → w3 = s.cfg.w3 → w5 = s.cfg.w5 → w6 = s.cfg.w6 → w7 = s.cfg.w7 →
    e0 = (b.a0 <<< 8) + 8192 + (b.a4 <<< 8) → e1 = (b.a0 <<< 8) + 8192 - (b.a4 <<< 8) →
    e2 = (w6 * (b.a2 + b.a6) + 4 - (w2 + w6) * b.a6).sshiftRight 3 →
    e3 = (w6 * (b.a2 + b.a6) + 4 + (w2 - w6) * b.a2).sshiftRight 3 →
    o4 = (w7 * (b.a1 + b.a7) + 4 + (w1 - w7) * b.a1).sshiftRight 3 →
    o5 = (w7 * (b.a1 + b.a7) + 4 - (w1 + w7) * b.a7).sshiftRight 3 →
    o6 = (w3 * (b.a5 + b.a3) + 4 - (w3 - w5) * b.a5).sshiftRight 3 →
    o7 = (w3 * (b.a5 + b.a3) + 4 - (w3 + w5) * b.a3).sshiftRight 3 →
    m = (s.cfg.wr * ((o4 - o6) + (o5 - o7)) + 128).sshiftRight 8 →
    n = (s.cfg.wr * ((o4 - o6) - (o5 - o7)) + 128).sshiftRight 8 →
    ∀ o : Oct Byte, o =
      ⟨clip ((e0 + e3 + (o4 + o6)).sshiftRight 14 + 128), clip ((e1 + e2 + m).sshiftRight 14 + 128),
        clip ((e1 - e2 + n).sshiftRight 14 + 128), clip ((e0 - e3 + (o5 + o7)).sshiftRight 14 + 128),
        clip ((e0 - e3 - (o5 + o7)).sshiftRight 14 + 128), clip ((e1 - e2 - n).sshiftRight 14 + 128),
        clip ((e1 + e2 - m).sshiftRight 14 + 128), clip ((e0 + e3 - (o4 + o6)).sshiftRight 14 + 128)⟩ →
    exec (.idctCol b) s = .next { s with ret := .samples o }

/-- R217, R213, R215: where the high-frequency entries are 0, the full transform with the default weights and
the shortcut agree on the ranges the rule gives, the literal shortcut is taken when the parameter asks for it,
and just outside the ranges the two differ. -/
def Obligations.ShortcutIdentity : Prop :=
  (∀ (s : State) (d : Word), (s.cfg.idctShortcutLiteral = true ∨ (s.cfg = defaultConfig ∧
      -2 ^ 20 ≤ d.toInt ∧ d.toInt ≤ 2 ^ 20 - 1)) → ∀ v, v = d <<< 3 →
    exec (.idctRow ⟨d, 0, 0, 0, 0, 0, 0, 0⟩) s = .next { s with ret := .words ⟨v, v, v, v, v, v, v, v⟩ }) ∧
  (∀ (s : State) (e : Word), (s.cfg.idctShortcutLiteral = true ∨ (s.cfg = defaultConfig ∧
      -2 ^ 23 ≤ e.toInt ∧ e.toInt ≤ 2 ^ 23 - 33)) → ∀ v, v = clip ((e + 32).sshiftRight 6 + 128) →
    exec (.idctCol ⟨e, 0, 0, 0, 0, 0, 0, 0⟩) s =
      .next { s with ret := .samples ⟨v, v, v, v, v, v, v, v⟩ }) ∧
  (∀ (d : Word), d = 1048576 ∨ d = -1048577 →
    (idctRowOp defaultConfig ⟨d, 0, 0, 0, 0, 0, 0, 0⟩).a0 ≠ d <<< 3) ∧
  (∀ (e : Word), e = 8388576 ∨ e = -8388641 →
    (idctColOp defaultConfig ⟨e, 0, 0, 0, 0, 0, 0, 0⟩).a0 ≠ clip ((e + 32).sshiftRight 6 + 128))

/-- R210, R216: IDCT_BLOCK replaces every row of the block by its row pass, then stores output r of column x at
`off + r·stride + x`, and no other byte. A plane's stride is a multiple of 8 (R149; statement StepKeepsFrame),
so that those 64 bytes are distinct. -/
def Obligations.IdctBlockWrites : Prop :=
  ∀ (k off : Nat) (s : State) (c : Comp) (b : Buffer), s.comps[k]? = some c → c.pixels = some b →
    8 ≤ c.stride → off + 7 * c.stride + 8 ≤ b.size →
    ∃ t b', exec (.idctBlock k off) s = .next t ∧
      t = { s with blk := t.blk, comps := s.comps.set k { c with pixels := some b' } } ∧ b'.size = b.size ∧
      (∀ r, r < 8 → blkRow t.blk r = idctRowOp s.cfg (blkRow s.blk r)) ∧
      (∀ r x, r < 8 → x < 8 → t.planeByte k (off + r * c.stride + x) =
        (idctColOp s.cfg (blkCol t.blk x)).toList[r]?) ∧
      (∀ j, (∀ r x, r < 8 → x < 8 → j ≠ off + r * c.stride + x) → t.planeByte k j = s.planeByte k j)

/-! ### The scan -/

/-- R190, R192, R193, R194: where the sequencer goes after a block: along the row of blocks of the component,
down its rows, to the next component, and after the MCU's last block to the next MCU in raster order, or to
the restart check when its count runs out, or after the last MCU to CONVERT, where the bits left in `S.acc` are
dropped. The loop variables are the model's fields (log 10). -/
def Obligations.NextBlockOrder : Prop :=
  ∀ (s : State) (c : Comp), ∀ z, z = Vector.replicate 64 (0 : Word) →
    (s.seq.sbx + 1 < c.ssx.toNat → s.nextBlock c =
      { s with blk := z, seq := ⟨s.seq.k, s.seq.sby, s.seq.sbx + 1, 0, .dc⟩ }) ∧
    (c.ssx.toNat ≤ s.seq.sbx + 1 → s.seq.sby + 1 < c.ssy.toNat → s.nextBlock c =
      { s with blk := z, seq := ⟨s.seq.k, s.seq.sby + 1, 0, 0, .dc⟩ }) ∧
    (c.ssx.toNat ≤ s.seq.sbx + 1 → c.ssy.toNat ≤ s.seq.sby + 1 → s.seq.k + 1 < s.ncomp.toNat →
      s.nextBlock c = { s with blk := z, seq := ⟨s.seq.k + 1, 0, 0, 0, .dc⟩ }) ∧
    (c.ssx.toNat ≤ s.seq.sbx + 1 → c.ssy.toNat ≤ s.seq.sby + 1 → s.ncomp.toNat ≤ s.seq.k + 1 →
      (∀ x y, (s.mbx + 1 < s.mbwidth ∧ x = s.mbx + 1 ∧ y = s.mby) ∨
          (s.mbwidth ≤ s.mbx + 1 ∧ s.mby + 1 < s.mbheight ∧ x = 0 ∧ y = s.mby + 1) →
        (s.restartInterval = 0 → s.nextBlock c =
          { s with mbx := x, mby := y, blk := z, seq := ⟨0, 0, 0, 0, .dc⟩ }) ∧
        (s.restartInterval ≠ 0 → s.rstCount - 1 ≠ 0 → s.nextBlock c =
          { s with mbx := x, mby := y, rstCount := s.rstCount - 1, blk := z, seq := ⟨0, 0, 0, 0, .dc⟩ }) ∧
        (s.restartInterval ≠ 0 → s.rstCount - 1 = 0 → s.nextBlock c =
          { s with mbx := x, mby := y, rstCount := 0, seq := ⟨0, 0, 0, 0, .restart⟩ })) ∧
      (s.mbwidth ≤ s.mbx + 1 → s.mbheight ≤ s.mby + 1 → s.nextBlock c =
        { s with mbx := 0, mby := s.mby + 1, acc := [], phase := .convert, seq := ⟨0, 0, 0, 0, .dc⟩ }))

/-- R192: the restart check aligns, reads 16 bits, and accepts exactly the marker with the expected number:
then the number moves on mod 8, the count starts again and every predictor is 0; anything else is
SYNTAX_ERROR. -/
def Obligations.RestartCheck : Prop :=
  ∀ (s : State) (a : List Bool), a = s.acc.drop (s.acc.length % 8) →
    (16 ≤ a.length → ∀ m : Half, m = BitVec.ofNat 16 (bitsNat (a.take 16)) →
      (m &&& 0xFFF8 = 0xFFD0 → m.extractLsb' 0 3 = s.nextRst → exec .restart s = .next { s with
        acc := a.drop 16
        nextRst := s.nextRst + 1
        rstCount := s.restartInterval.toNat
        comps := s.comps.map fun c => { c with dcpred := 0 } }) ∧
      (m &&& 0xFFF8 ≠ 0xFFD0 ∨ m.extractLsb' 0 3 ≠ s.nextRst →
        exec .restart s = .next ({ s with acc := a.drop 16 }.abort .syntaxError))) ∧
    (∀ v u, readOp 16 { s with acc := a } = .ok (v, u) → ∀ m : Half, m = BitVec.ofNat 16 v →
      (m &&& 0xFFF8 = 0xFFD0 → m.extractLsb' 0 3 = s.nextRst → exec .restart s = .next { u with
        nextRst := s.nextRst + 1
        rstCount := s.restartInterval.toNat
        comps := s.comps.map fun c => { c with dcpred := 0 } }) ∧
      (m &&& 0xFFF8 ≠ 0xFFD0 ∨ m.extractLsb' 0 3 ≠ s.nextRst →
        exec .restart s = .next (u.abort .syntaxError))) ∧
    (∀ u, readOp 16 { s with acc := a } = .error (.aborted u) → exec .restart s = .next u)

/-- R190, R191, R194, R312: over a laid out frame and a resident input SCAN answers whatever the input holds:
either SYNTAX_ERROR, or the phase is CONVERT, every byte of every plane has been written and no bit is held.
The only fields it may change are the input position and count, `S.acc`, the scratch block, the predictors and
planes of the components (each component is otherwise as it was) and the sequencer; it writes no other. -/
def Obligations.ScanAnswers : Prop :=
  ∀ s : State, s.inputOk → s.frameLaidOut →
    AbortsWith s .syntaxError (exec .scan s) ∨
    ∃ t, exec .scan s = .next t ∧ t.phase = .convert ∧ t.frameLaidOut ∧ t.inputOk ∧
      (∀ c ∈ t.comps, ∀ b, c.pixels = some b → ∀ j, j < b.size → b.has j = true) ∧
      t = { s with
        pos := t.pos
        remaining := t.remaining
        acc := []
        blk := t.blk
        comps := t.comps
        seq := t.seq
        mbx := t.mbx
        mby := t.mby
        rstCount := t.rstCount
        nextRst := t.nextRst
        phase := .convert } ∧
      t.comps.map (fun c => { c with dcpred := 0, pixels := none }) =
        s.comps.map (fun c => { c with dcpred := 0, pixels := none })

/-- R190, R194, R134, R309: with the input exhausted, no restart interval, and tables whose all-ones window is a
DC symbol of category 0 or an EOB, the filler bits decode every block and SCAN completes. -/
def Obligations.ScanCompletes : Prop :=
  ∀ s : State, s.frameLaidOut → s.restartInterval = 0 → s.acc = [] → s.remaining ≤ 0 →
    (∀ c ∈ s.comps, ∀ dc ac, dc = HuffTable.lookup (s.ht.get c.dcsel.toFin) 0xFFFF →
      ac = HuffTable.lookup (s.ht.get c.acsel.toFin) 0xFFFF →
      dc.len ≠ 0 ∧ dc.sym.toNat % 16 = 0 ∧ ac.len ≠ 0 ∧ ac.sym = 0x00) →
    ∃ t, exec .scan s = .next t ∧ t.phase = .convert ∧ t.error = s.error ∧ t.frameLaidOut ∧ t.pos = s.pos ∧
      ∀ c ∈ t.comps, ∀ b, c.pixels = some b → ∀ j, j < b.size → b.has j = true

/-! ### Markers -/

/-- R140, R272: the stream must start with SOI, else it is NOT_A_JPEG; SOI is skipped. -/
def Obligations.SoiChecked : Prop :=
  ∀ s : State,
    (s.inp.size < 2 → exec .soi s = .next (s.abort .notAJpeg)) ∧
    (∀ b0 b1 : Byte, 2 ≤ s.inp.size → s.inp.mem.read 0 = some b0 → s.inp.mem.read 1 = some b1 →
      (b0 ≠ 0xFF ∨ b1 ≠ 0xD8 → exec .soi s = .next (s.abort .notAJpeg)) ∧
      (b0 = 0xFF → b1 = 0xD8 →
        exec .soi s = .next { s with pos := s.pos + 2, remaining := s.remaining - 2 }))

/-- R142, R143: SEGLEN returns the payload length and skips the two length bytes, or is SYNTAX_ERROR; Skip moves
the position and the remaining count together. -/
def Obligations.SeglenAndSkip : Prop :=
  ∀ s : State,
    (s.remaining < 2 → exec .seglen s = .next (s.abort .syntaxError)) ∧
    (∀ (l1 l0 : Byte) (l : Nat), 2 ≤ s.remaining → s.pos + 1 < s.inp.size →
      s.inp.mem.read s.pos = some l1 → s.inp.mem.read (s.pos + 1) = some l0 →
      l = 256 * l1.toNat + l0.toNat →
      (l < 2 ∨ s.remaining < (l : Int) → exec .seglen s = .next (s.abort .syntaxError)) ∧
      (2 ≤ l → (l : Int) ≤ s.remaining → exec .seglen s =
        .next { s with pos := s.pos + 2, remaining := s.remaining - 2, ret := .nat (l - 2) })) ∧
    (∀ n : Nat, exec (.skip n) s = .next { s with pos := s.pos + n, remaining := s.remaining - (n : Int) })

/-- R142: every segment instruction is SYNTAX_ERROR where the length field is missing, malformed, or beyond the
input. -/
def Obligations.SegmentFramingErrors : Prop :=
  ∀ (i : Instr) (payload : Option Nat) (s : State), i.segment = some payload →
    (s.remaining < 4 ∨ payload = none ∨ ∃ n, payload = some n ∧ s.remaining < (n : Int) + 4) →
    exec i s = .next ((s.skip 2).abort .syntaxError)

/-- R167, R158: APPn and COM are skipped whole; DRI sets the restart interval, ignores extra bytes, and is
SYNTAX_ERROR with fewer than two. -/
def Obligations.SkippedSegmentsAndDri : Prop :=
  ∀ s : State,
    (∀ (n : Nibble) (p : List Byte), (p.length : Int) + 4 ≤ s.remaining → ∀ t : State,
      t = { s with pos := s.pos + (p.length + 4), remaining := s.remaining - ((p.length : Int) + 4) } →
      exec (.appn n (.ok p)) s = .next t ∧ exec (.com (.ok p)) s = .next t) ∧
    (∀ (ri : Half) (extra : List Byte), (extra.length : Int) + 6 ≤ s.remaining →
      exec (.dri (.ok (.full ri extra))) s = .next { s with
        pos := s.pos + (extra.length + 6)
        remaining := s.remaining - ((extra.length : Int) + 6)
        restartInterval := ri }) ∧
    (∀ bytes : List Byte, bytes.length < 2 → (bytes.length : Int) + 4 ≤ s.remaining →
      AbortsWith s .syntaxError (exec (.dri (.ok (.short bytes))) s))

/-- R155, R156: DQT writes each table to its slot, a later one over an earlier one, and marks the slot; a table
of 16-bit steps is UNSUPPORTED, a slot above 3 or a partial table SYNTAX_ERROR, the first in the segment
deciding. -/
def Obligations.DqtLoads : Prop :=
  ∀ (b : DqtBody) (s : State), b.wf = true → (b.size : Int) + 4 ≤ s.remaining →
    ((∀ u ∈ b.tables, u.pq = 0 ∧ u.tq.toNat ≤ 3) →
      (b.tail ≠ [] → AbortsWith s .syntaxError (exec (.dqt (.ok b)) s)) ∧
      (b.tail = [] → ∃ t, exec (.dqt (.ok b)) s = .next t ∧
        t = { s with
          pos := s.pos + (b.size + 4)
          remaining := s.remaining - ((b.size : Int) + 4)
          qt := t.qt
          qtAvail := t.qtAvail } ∧
        ∀ i : Fin 4,
          (∀ u, b.tables.reverse.find? (fun u => u.tq.toNat = i.val) = some u →
            t.qtAvail.getLsbD i.val = true ∧ ∀ k : Fin 64, u.steps[k.val]? = some ((t.qt.get i).get k)) ∧
          (b.tables.reverse.find? (fun u => u.tq.toNat = i.val) = none →
            t.qtAvail.getLsbD i.val = s.qtAvail.getLsbD i.val ∧ t.qt.get i = s.qt.get i))) ∧
    (∀ good bad more, b.tables = good ++ bad :: more → (∀ u ∈ good, u.pq = 0 ∧ u.tq.toNat ≤ 3) →
      (bad.pq ≠ 0 → AbortsWith s .unsupported (exec (.dqt (.ok b)) s)) ∧
      (bad.pq = 0 → 3 < bad.tq.toNat → AbortsWith s .syntaxError (exec (.dqt (.ok b)) s)))

/-- R151, R152, R153: DHT builds each table in its slot 2·Tc + Th, a later one over an earlier one, each as
BUILD_HT builds it; class above 1, identifier above 3, missing symbols, too little code space and a partial
table are SYNTAX_ERROR, identifier 2 or 3 UNSUPPORTED, the first in the segment deciding. -/
def Obligations.DhtLoads : Prop :=
  ∀ (b : DhtBody) (s : State) (good : DhtTable → Prop), b.wf = true → (b.size : Int) + 4 ≤ s.remaining →
    (∀ u, good u ↔ u.tc.toNat ≤ 1 ∧ u.th.toNat ≤ 1 ∧ countSum u.counts ≤ u.syms.length ∧
      codeWindows (codeLengths 1 u.counts) ≤ 65536) →
    ((∀ u ∈ b.tables, good u) →
      (b.tail ≠ [] → AbortsWith s .syntaxError (exec (.dht (.ok b)) s)) ∧
      (b.tail = [] → ∃ t, exec (.dht (.ok b)) s = .next t ∧
        t = { s with
          pos := s.pos + (b.size + 4)
          remaining := s.remaining - ((b.size : Int) + 4)
          ht := t.ht } ∧
        ∀ h : Fin 4,
          (∀ u, b.tables.reverse.find? (fun u => 2 * u.tc.toNat + u.th.toNat = h.val) = some u →
            ∀ v w : State, exec (.buildHt h u.counts u.syms) v = .next w → t.ht.get h = w.ht.get h) ∧
          (b.tables.reverse.find? (fun u => 2 * u.tc.toNat + u.th.toNat = h.val) = none →
            t.ht.get h = s.ht.get h))) ∧
    (∀ before bad more, b.tables = before ++ bad :: more → (∀ u ∈ before, good u) →
      (1 < bad.tc.toNat ∨ 3 < bad.th.toNat → AbortsWith s .syntaxError (exec (.dht (.ok b)) s)) ∧
      (bad.tc.toNat ≤ 1 → 2 ≤ bad.th.toNat → bad.th.toNat ≤ 3 →
        AbortsWith s .unsupported (exec (.dht (.ok b)) s)) ∧
      (bad.tc.toNat ≤ 1 → bad.th.toNat ≤ 1 →
        bad.syms.length < countSum bad.counts ∨ 65536 < codeWindows (codeLengths 1 bad.counts) →
        AbortsWith s .syntaxError (exec (.dht (.ok b)) s)))

/-- R147, R148, R170: SOF0's checks, in the order they are made. -/
def Obligations.SofChecks : Prop :=
  ∀ (s : State) (b : SofBody), (b.size : Int) + 4 ≤ s.remaining →
    (s.frame = true → AbortsWith s .syntaxError (exec (.sof0 (.ok b)) s)) ∧
    (s.frame = false → b.size < 9 → AbortsWith s .syntaxError (exec (.sof0 (.ok b)) s)) ∧
    (∀ prec height width nf comps extra, b = .full prec height width nf comps extra → s.frame = false →
      9 ≤ b.size →
      (prec ≠ 8 → AbortsWith s .unsupported (exec (.sof0 (.ok b)) s)) ∧
      (prec = 8 → width = 0 ∨ height = 0 → AbortsWith s .syntaxError (exec (.sof0 (.ok b)) s)) ∧
      (prec = 8 → width ≠ 0 → height ≠ 0 →
        (nf ≠ 1 → nf ≠ 3 → AbortsWith s .unsupported (exec (.sof0 (.ok b)) s)) ∧
        (nf = 1 ∨ nf = 3 → b.size < 6 + 3 * nf.toNat →
          AbortsWith s .syntaxError (exec (.sof0 (.ok b)) s)) ∧
        (nf = 1 ∨ nf = 3 → 6 + 3 * nf.toNat ≤ b.size → ∀ good bad more, comps = good ++ bad :: more →
          (∀ c ∈ good, c.h ∈ [1, 2, 4, 8] ∧ c.v ∈ [1, 2, 4, 8] ∧ c.tq.toNat ≤ 3) →
          (bad.h = 0 → AbortsWith s .syntaxError (exec (.sof0 (.ok b)) s)) ∧
          (bad.h ≠ 0 → bad.h ∉ [1, 2, 4, 8] → AbortsWith s .unsupported (exec (.sof0 (.ok b)) s)) ∧
          (bad.h ∈ [1, 2, 4, 8] → bad.v = 0 → AbortsWith s .syntaxError (exec (.sof0 (.ok b)) s)) ∧
          (bad.h ∈ [1, 2, 4, 8] → bad.v ≠ 0 → bad.v ∉ [1, 2, 4, 8] →
            AbortsWith s .unsupported (exec (.sof0 (.ok b)) s)) ∧
          (bad.h ∈ [1, 2, 4, 8] → bad.v ∈ [1, 2, 4, 8] → 3 < bad.tq.toNat →
            AbortsWith s .syntaxError (exec (.sof0 (.ok b)) s)))))

/-- R146, R149, R150: a one-component SOF0 sets the frame, one block per MCU whatever its stated factors, and
allocates the plane; a refused allocation is OUT_OF_MEMORY. `dcsel` 0 and `acsel` 2 until SOS are the model's
(log 26). -/
def Obligations.SofGrayFrame : Prop :=
  ∀ (s : State) (height width : Half) (c : SofComp) (extra : List Byte) (mbw mbh n : Nat),
    s.frame = false → s.comps = [] → height ≠ 0 → width ≠ 0 → c.h ∈ [1, 2, 4, 8] → c.v ∈ [1, 2, 4, 8] →
    c.tq.toNat ≤ 3 → (extra.length : Int) + 13 ≤ s.remaining →
    mbw = (width.toNat + 7) / 8 → mbh = (height.toNat + 7) / 8 → n = 64 * mbw * mbh →
    (allocGrants s.cfg n s.live = true →
      exec (.sof0 (.ok (.full 8 height width 1 [c] extra))) s = .next { s with
        pos := s.pos + (extra.length + 13)
        remaining := s.remaining - ((extra.length : Int) + 13)
        frame := true
        width := width
        height := height
        ncomp := 1
        hmax := 1
        vmax := 1
        mcuW := 8
        mcuH := 8
        mbwidth := mbw
        mbheight := mbh
        qtUsed := s.qtUsed ||| ((1 : BitVec 4) <<< c.tq.toNat)
        comps := [⟨c.cid, 1, 1, width.toNat, height.toNat, 8 * mbw, c.tq.setWidth 2, 0, 2, 0, some ⟨n, []⟩⟩]
        live := s.live + n }) ∧
    (allocGrants s.cfg n s.live = false →
      AbortsWith s .outOfMemory (exec (.sof0 (.ok (.full 8 height width 1 [c] extra))) s))

/-- R146, R149, R150: a three-component SOF0 sets the frame and its geometry and allocates the planes in order
and then the RGB buffer. A plane too small to upsample is UNSUPPORTED and a refused allocation OUT_OF_MEMORY,
the first in the order of R150 deciding. `sizes` are the four requests and `grants j` says that the j-th is
granted after those before it. `dcsel` and `acsel` until SOS are the model's (log 26). -/
def Obligations.SofColourFrame : Prop :=
  ∀ (s : State) (height width : Half) (c0 c1 c2 : SofComp) (extra : List Byte) (hm vm : Nibble)
    (mbw mbh : Nat) (mk : SofComp → Comp) (small : SofComp → Prop) (sizes : List Nat) (grants : Nat → Prop),
    s.frame = false → s.comps = [] → height ≠ 0 → width ≠ 0 →
    (∀ c ∈ [c0, c1, c2], c.h ∈ [1, 2, 4, 8] ∧ c.v ∈ [1, 2, 4, 8] ∧ c.tq.toNat ≤ 3 ∧ c.h ≤ hm ∧ c.v ≤ vm) →
    (∃ c ∈ [c0, c1, c2], c.h = hm) → (∃ c ∈ [c0, c1, c2], c.v = vm) →
    (extra.length : Int) + 19 ≤ s.remaining →
    mbw = ceilDiv width.toNat (8 * hm.toNat) → mbh = ceilDiv height.toNat (8 * vm.toNat) →
    (∀ c, mk c = ⟨c.cid, c.h, c.v, ceilDiv (width.toNat * c.h.toNat) hm.toNat,
      ceilDiv (height.toNat * c.v.toNat) vm.toNat, 8 * c.h.toNat * mbw, c.tq.setWidth 2, 0, 2, 0,
      some ⟨8 * c.h.toNat * mbw * 8 * c.v.toNat * mbh, []⟩⟩) →
    (∀ c, small c ↔ ((mk c).width < 3 ∧ c.h ≠ hm) ∨ ((mk c).height < 3 ∧ c.v ≠ vm)) →
    sizes = [c0, c1, c2].map (fun c => 8 * c.h.toNat * mbw * 8 * c.v.toNat * mbh) ++
      [3 * width.toNat * height.toNat] →
    (∀ j, grants j ↔ ∀ n, sizes[j]? = some n → allocGrants s.cfg n (s.live + (sizes.take j).sum) = true) →
    ((∀ c ∈ [c0, c1, c2], ¬ small c) → (∀ j, j < 4 → grants j) →
      exec (.sof0 (.ok (.full 8 height width 3 [c0, c1, c2] extra))) s = .next { s with
        pos := s.pos + (extra.length + 19)
        remaining := s.remaining - ((extra.length : Int) + 19)
        frame := true
        width := width
        height := height
        ncomp := 3
        hmax := hm
        vmax := vm
        mcuW := 8 * hm.toNat
        mcuH := 8 * vm.toNat
        mbwidth := mbw
        mbheight := mbh
        qtUsed := s.qtUsed ||| ((1 : BitVec 4) <<< c0.tq.toNat) ||| ((1 : BitVec 4) <<< c1.tq.toNat) |||
          ((1 : BitVec 4) <<< c2.tq.toNat)
        comps := [mk c0, mk c1, mk c2]
        rgb := some ⟨3 * width.toNat * height.toNat, []⟩
        live := s.live + sizes.sum }) ∧
    (∀ j c, [c0, c1, c2][j]? = some c → small c →
      (∀ i d, i < j → [c0, c1, c2][i]? = some d → ¬ small d ∧ grants i) →
      AbortsWith s .unsupported (exec (.sof0 (.ok (.full 8 height width 3 [c0, c1, c2] extra))) s)) ∧
    (∀ j, j < 4 → ¬ grants j → (∀ i, i < j → grants i) →
      (∀ i d, i ≤ j → [c0, c1, c2][i]? = some d → ¬ small d) →
      AbortsWith s .outOfMemory (exec (.sof0 (.ok (.full 8 height width 3 [c0, c1, c2] extra))) s))

/-- R160 to R164: an accepted SOS selects each component's tables, skips its payload and starts the scan. The
scan itself runs next, step by step or as SCAN (the model's reading of "S.phase <- SCAN; SCAN()", log 1). -/
def Obligations.SosStartsScan : Prop :=
  ∀ (s : State) (sels : List SosSel) (extra : List Byte), s.frame = true →
    s.comps.length = s.ncomp.toNat → sels.length = s.ncomp.toNat →
    (∀ (k : Nat) (c : Comp) (sel : SosSel), s.comps[k]? = some c → sels[k]? = some sel →
      sel.cs = c.cid ∧ sel.td.toNat ≤ 1 ∧ sel.ta.toNat ≤ 1) →
    s.qtUsed &&& ~~~ s.qtAvail = 0 →
    (2 * sels.length + extra.length : Int) + 8 ≤ s.remaining →
    exec (.sos (.ok (.full sels 0 63 0 0 extra))) s = .next { s with
      pos := s.pos + (2 * sels.length + extra.length + 8)
      remaining := s.remaining - ((2 * sels.length + extra.length : Int) + 8)
      comps := List.zipWith (fun c sel => { c with
        dcsel := if sel.td = 0 then 0 else 1
        acsel := if sel.ta = 0 then 2 else 3 }) s.comps sels
      phase := .scan
      mbx := 0
      mby := 0
      rstCount := s.restartInterval.toNat
      nextRst := 0
      blk := Vector.replicate 64 0
      seq := ⟨0, 0, 0, 0, .dc⟩ }

/-- R160, R161, R162, R163, R165, R166: SOS's checks, in the order they are made. That the payload's length comes
before its count, so that a list shorter than the frame's in a payload just long enough for it is SYNTAX_ERROR, is
the model's reading of R160, R274 and R278 against R4 and D20 (log 28). -/
def Obligations.SosChecks : Prop :=
  ∀ (s : State) (b : SosBody), (b.size : Int) + 4 ≤ s.remaining →
    (s.frame = false → AbortsWith s .syntaxError (exec (.sos (.ok b)) s)) ∧
    (s.frame = true → b.size < 4 + 2 * s.ncomp.toNat → AbortsWith s .syntaxError (exec (.sos (.ok b)) s)) ∧
    (∀ bytes, b = .short bytes → s.frame = true → 4 + 2 * s.ncomp.toNat ≤ b.size →
      AbortsWith s .unsupported (exec (.sos (.ok b)) s)) ∧
    (∀ sels ss se ah al extra, b = .full sels ss se ah al extra → s.frame = true →
      4 + 2 * s.ncomp.toNat ≤ b.size →
      (sels.length ≠ s.ncomp.toNat → AbortsWith s .unsupported (exec (.sos (.ok b)) s)) ∧
      (sels.length = s.ncomp.toNat → s.comps.length = s.ncomp.toNat → ∀ good : Nat → Prop,
        (∀ j, good j ↔ ∀ (c : Comp) (sel : SosSel), s.comps[j]? = some c → sels[j]? = some sel →
          sel.cs = c.cid ∧ sel.td.toNat ≤ 1 ∧ sel.ta.toNat ≤ 1) →
        (∀ (k : Nat) (c : Comp) (sel : SosSel), s.comps[k]? = some c → sels[k]? = some sel → (∀ j, j < k → good j) →
          (sel.cs ≠ c.cid → AbortsWith s .unsupported (exec (.sos (.ok b)) s)) ∧
          (sel.cs = c.cid → 1 < sel.td.toNat ∨ 1 < sel.ta.toNat →
            AbortsWith s .syntaxError (exec (.sos (.ok b)) s))) ∧
        ((∀ j, good j) →
          (ss ≠ 0 ∨ se ≠ 63 ∨ ah ≠ 0 ∨ al ≠ 0 → AbortsWith s .unsupported (exec (.sos (.ok b)) s)) ∧
          (ss = 0 → se = 63 → ah = 0 → al = 0 → s.qtUsed &&& ~~~ s.qtAvail ≠ 0 →
            AbortsWith s .syntaxError (exec (.sos (.ok b)) s)))))

/-- R141: TOPLOOP is the next marker's instruction and then TOPLOOP again, until one ends the DECODE or SOS starts
the scan, which runs to its end (log 1); fewer than two bytes are SYNTAX_ERROR. With a one-component SOS at the very
end of the input and tables that decode the filler, it completes. -/
def Obligations.TopLoopTurns : Prop :=
  ∀ s : State, s.phase = .headers → s.inputOk →
    (s.remaining < 2 → exec .toploop s = .next (s.abort .syntaxError)) ∧
    (∀ i rest t, decode .top s.bytesLeft = .ok (i, rest) → exec i s = .next t →
      (t.phase = .done → exec .toploop s = .next t) ∧
      (t.phase = .headers → exec .toploop s = exec .toploop t) ∧
      (t.phase = .scan → exec .toploop s = exec .scan t)) ∧
    (∀ (c : Comp) (dc ac : HtEntry), s.frame = true → s.ncomp = 1 → s.frameLaidOut → s.comps = [c] →
      s.qtUsed &&& ~~~ s.qtAvail = 0 → s.restartInterval = 0 → s.acc = [] →
      s.bytesLeft = [0xFF, 0xDA, 0x00, 0x08, 0x01, c.cid, 0x00, 0x00, 0x3F, 0x00] →
      dc = HuffTable.lookup (s.ht.get 0) 0xFFFF → ac = HuffTable.lookup (s.ht.get 2) 0xFFFF →
      dc.len ≠ 0 → dc.sym.toNat % 16 = 0 → ac.len ≠ 0 → ac.sym = 0x00 →
      ∃ t, exec .toploop s = .next t ∧ t.phase = .convert ∧ t.error = s.error ∧ t.frameLaidOut ∧
        ∀ d ∈ t.comps, ∀ b, d.pixels = some b → ∀ j, j < b.size → b.has j = true)

/-! ### The upsampler and the colour converter -/

/-- R230 to R234: the horizontal pass over a plane of width 3 or more with every byte written: the 2w outputs of
every row, the plane, width and stride doubled, the old plane released; a refused allocation is
OUT_OF_MEMORY. `L y x` is sample x of row y, `E` the right-edge index. -/
def Obligations.UpsHFormula : Prop :=
  ∀ (k : Nat) (s : State) (c : Comp) (old : Buffer) (L : Nat → Nat → Word) (cf : Word → Byte) (E : Nat),
    s.comps[k]? = some c → c.pixels = some old → 3 ≤ c.width → c.width ≤ c.stride →
    (∀ j, j < c.height * c.stride → old.has j = true) →
    (∀ y x v, old.mem.read (y * c.stride + x) = some v → L y x = v.setWidth 32) →
    (∀ x, cf x = clip ((x + 64).sshiftRight 7)) →
    (s.cfg.upsHEdge = .stride → E = c.stride) → (s.cfg.upsHEdge = .width → E = c.width) →
    (allocGrants s.cfg (2 * c.width * c.height) s.live = false →
      exec (.upsH k) s = .next (s.abort .outOfMemory)) ∧
    (allocGrants s.cfg (2 * c.width * c.height) s.live = true → ∃ t new,
      exec (.upsH k) s = .next t ∧ new.size = 2 * c.width * c.height ∧
      t = { s with
        comps := s.comps.set k
          { c with width := 2 * c.width, stride := 2 * c.width, pixels := some new }
        live := s.live + 2 * c.width * c.height - old.size } ∧
      ∀ y o, y < c.height → o = y * (2 * c.width) →
        new.mem.read (o + 0) = some (cf (s.cfg.cf2a * L y 0 + s.cfg.cf2b * L y 1)) ∧
        new.mem.read (o + 1) = some (cf (s.cfg.cf3x * L y 0 + s.cfg.cf3y * L y 1 + s.cfg.cf3z * L y 2)) ∧
        new.mem.read (o + 2) = some (cf (s.cfg.cf3a * L y 0 + s.cfg.cf3b * L y 1 + s.cfg.cf3c * L y 2)) ∧
        (∀ x, x + 4 ≤ c.width →
          new.mem.read (o + 2 * x + 3) = some (cf (s.cfg.cf4a * L y x + s.cfg.cf4b * L y (x + 1) +
            s.cfg.cf4c * L y (x + 2) + s.cfg.cf4d * L y (x + 3))) ∧
          new.mem.read (o + 2 * x + 4) = some (cf (s.cfg.cf4d * L y x + s.cfg.cf4c * L y (x + 1) +
            s.cfg.cf4b * L y (x + 2) + s.cfg.cf4a * L y (x + 3)))) ∧
        new.mem.read (o + 2 * c.width - 3) =
          some (cf (s.cfg.cf3a * L y (E - 1) + s.cfg.cf3b * L y (E - 2) + s.cfg.cf3c * L y (E - 3))) ∧
        new.mem.read (o + 2 * c.width - 2) =
          some (cf (s.cfg.cf3x * L y (E - 1) + s.cfg.cf3y * L y (E - 2) + s.cfg.cf3z * L y (E - 3))) ∧
        new.mem.read (o + 2 * c.width - 1) =
          some (cf (s.cfg.cf2a * L y (E - 1) + s.cfg.cf2b * L y (E - 2))))

/-- R236, R237: the vertical pass, rows for columns. `P x r` is the sample of column x and row r. -/
def Obligations.UpsVFormula : Prop :=
  ∀ (k : Nat) (s : State) (c : Comp) (old : Buffer) (P : Nat → Nat → Word) (cf : Word → Byte),
    s.comps[k]? = some c → c.pixels = some old → 3 ≤ c.height → c.width ≤ c.stride →
    (∀ j, j < c.height * c.stride → old.has j = true) →
    (∀ x r v, old.mem.read (r * c.stride + x) = some v → P x r = v.setWidth 32) →
    (∀ x, cf x = clip ((x + 64).sshiftRight 7)) →
    (allocGrants s.cfg (c.width * (2 * c.height)) s.live = false →
      exec (.upsV k) s = .next (s.abort .outOfMemory)) ∧
    (allocGrants s.cfg (c.width * (2 * c.height)) s.live = true → ∃ t new,
      exec (.upsV k) s = .next t ∧ new.size = c.width * (2 * c.height) ∧
      t = { s with
        comps := s.comps.set k { c with height := 2 * c.height, stride := c.width, pixels := some new }
        live := s.live + c.width * (2 * c.height) - old.size } ∧
      ∀ (x h : Nat) (put : Nat → Option Byte), x < c.width → h = c.height →
        (∀ r, put r = new.mem.read (r * c.width + x)) →
        put 0 = some (cf (s.cfg.cf2a * P x 0 + s.cfg.cf2b * P x 1)) ∧
        put 1 = some (cf (s.cfg.cf3x * P x 0 + s.cfg.cf3y * P x 1 + s.cfg.cf3z * P x 2)) ∧
        put 2 = some (cf (s.cfg.cf3a * P x 0 + s.cfg.cf3b * P x 1 + s.cfg.cf3c * P x 2)) ∧
        (∀ i, i + 4 ≤ h →
          put (2 * i + 3) = some (cf (s.cfg.cf4a * P x i + s.cfg.cf4b * P x (i + 1) +
            s.cfg.cf4c * P x (i + 2) + s.cfg.cf4d * P x (i + 3))) ∧
          put (2 * i + 4) = some (cf (s.cfg.cf4d * P x i + s.cfg.cf4c * P x (i + 1) +
            s.cfg.cf4b * P x (i + 2) + s.cfg.cf4a * P x (i + 3)))) ∧
        put (2 * h - 3) =
          some (cf (s.cfg.cf3a * P x (h - 1) + s.cfg.cf3b * P x (h - 2) + s.cfg.cf3c * P x (h - 3))) ∧
        put (2 * h - 2) =
          some (cf (s.cfg.cf3x * P x (h - 1) + s.cfg.cf3y * P x (h - 2) + s.cfg.cf3z * P x (h - 3))) ∧
        put (2 * h - 1) = some (cf (s.cfg.cf2a * P x (h - 1) + s.cfg.cf2b * P x (h - 2))))

/-- R251, R252: the pixel formula, its value over the integers with the default coefficients (no sum wraps), and
neutral chroma giving the luma in every channel. -/
def Obligations.PixelFormula : Prop :=
  (∀ (s : State) (y cb cr : Byte) (Y Cb Cr : Word), Y = y.setWidth 32 <<< 8 → Cb = cb.setWidth 32 - 128 →
    Cr = cr.setWidth 32 - 128 →
    exec (.ycc2rgb y cb cr) s = .next { s with
      ret := .rgb (clip ((Y + s.cfg.ccRCr * Cr + 128).sshiftRight 8))
        (clip ((Y - s.cfg.ccGCb * Cb - s.cfg.ccGCr * Cr + 128).sshiftRight 8))
        (clip ((Y + s.cfg.ccBCb * Cb + 128).sshiftRight 8)) }) ∧
  (∀ (s : State) (y cb cr r g b : Byte), s.cfg = defaultConfig →
    exec (.ycc2rgb y cb cr) s = .next { s with ret := .rgb r g b } →
    (r.toNat : Int) = max 0 (min 255 ((256 * (y.toNat : Int) + 359 * (cr.toNat - 128) + 128) / 256)) ∧
    (g.toNat : Int) = max 0 (min 255
      ((256 * (y.toNat : Int) - 88 * (cb.toNat - 128) - 183 * (cr.toNat - 128) + 128) / 256)) ∧
    (b.toNat : Int) = max 0 (min 255 ((256 * (y.toNat : Int) + 454 * (cb.toNat - 128) + 128) / 256))) ∧
  (∀ (s : State) (y : Byte), s.cfg = defaultConfig →
    exec (.ycc2rgb y 128 128) s = .next { s with ret := .rgb y y y })

/-- R253, R76: COLOR writes the three bytes of every pixel of the image at `3·(y·W + x)`, each plane read with
its own stride, and changes nothing else. -/
def Obligations.ColorWritesRgb : Prop :=
  ∀ (s : State) (W H : Nat) (b : Buffer), W = s.width.toNat → H = s.height.toNat → s.rgb = some b →
    3 * W * H ≤ b.size →
    (∀ k x y, k < 3 → x < W → y < H → ∃ c, s.comps[k]? = some c ∧ s.planeHas k (y * c.stride + x)) →
    ∃ t b', exec .color s = .next t ∧ t = { s with rgb := some b' } ∧ b'.size = b.size ∧
      (∀ x y c0 c1 c2 l cb cr p, x < W → y < H → s.comps[0]? = some c0 → s.comps[1]? = some c1 →
        s.comps[2]? = some c2 → s.planeByte 0 (y * c0.stride + x) = some l →
        s.planeByte 1 (y * c1.stride + x) = some cb → s.planeByte 2 (y * c2.stride + x) = some cr →
        p = yccOp s.cfg l cb cr →
        b'.mem.read (3 * (y * W + x)) = some p.1 ∧ b'.mem.read (3 * (y * W + x) + 1) = some p.2.1 ∧
        b'.mem.read (3 * (y * W + x) + 2) = some p.2.2) ∧
      (∀ j, 3 * W * H ≤ j → b'.mem.read j = b.mem.read j)

/-- R254: COMPACT moves every row of component 0 to `y·width`, keeps the plane's size, makes the stride the
width, and changes no byte at or past `width·height`; with stride and width equal it does nothing. -/
def Obligations.CompactMovesRows : Prop :=
  ∀ (s : State) (c : Comp) (b : Buffer), s.comps[0]? = some c → c.pixels = some b → c.width ≤ c.stride →
    (∀ x y, x < c.width → y < c.height → b.has (y * c.stride + x) = true) →
    (c.width = c.stride → exec .compact s = .next s) ∧
    (c.width ≠ c.stride → ∃ t b', exec .compact s = .next t ∧
      t = { s with comps := s.comps.set 0 { c with stride := c.width, pixels := some b' } } ∧
      b'.size = b.size ∧
      (∀ x y, x < c.width → y < c.height →
        b'.mem.read (y * c.width + x) = b.mem.read (y * c.stride + x)) ∧
      (∀ j, c.height * c.width ≤ j → b'.mem.read j = b.mem.read j))

/-- R238, R250: one turn of the upsampling of the first component that does not cover the image: a horizontal
pass if it is narrower, then a vertical pass if it is shorter, then CONVERT goes on from there; a pass refused
its memory ends the DECODE. -/
def Obligations.ConvertRunsPasses : Prop :=
  ∀ (s u v : State) (k : Nat) (c : Comp), s.phase = .convert → k < s.ncomp.toNat →
    (∀ j, j < k → ∃ d, s.comps[j]? = some d ∧ s.width.toNat ≤ d.width ∧ s.height.toNat ≤ d.height) →
    s.comps[k]? = some c → 3 ≤ c.width → 3 ≤ c.height →
    (c.width < s.width.toNat ∨ c.height < s.height.toNat) →
    (if c.width < s.width.toNat then exec (.upsH k) s = .next u else u = s) →
    (u.phase = .done → exec .convert s = .next u) ∧
    (u.phase = .convert →
      (if c.height < s.height.toNat then exec (.upsV k) u = .next v else v = u) →
      (v.phase = .done → exec .convert s = .next v) ∧
      (v.phase = .convert → exec .convert s = exec .convert v))

/-- R250, R239, R277, R312: where every component covers the image CONVERT is COLOR or COMPACT and, over a laid
out frame with every plane byte written, completes with a complete output; where some component does not, it
completes so too or is OUT_OF_MEMORY, never INTERNAL_ERROR. -/
def Obligations.ConvertAnswers : Prop :=
  ∀ (s : State) (covers complete : Prop), s.ncomp = 1 ∨ s.ncomp = 3 →
    (covers ↔ ∀ k, k < s.ncomp.toNat →
      ∃ c, s.comps[k]? = some c ∧ s.width.toNat ≤ c.width ∧ s.height.toNat ≤ c.height) →
    (complete ↔ ∃ t, exec .convert s = .next t ∧
      t = { s with comps := t.comps, rgb := t.rgb, live := t.live } ∧
      (s.ncomp = 1 → ∀ j, j < s.width.toNat * s.height.toNat → t.planeHas 0 j) ∧
      (s.ncomp = 3 → ∀ j, j < 3 * s.width.toNat * s.height.toNat → (t.rgbByte j).isSome = true)) →
    (covers → exec .convert s = if s.ncomp = 3 then exec .color s else exec .compact s) ∧
    (s.frameLaidOut →
      (∀ c ∈ s.comps, ∀ b, c.pixels = some b → ∀ j, j < b.size → b.has j = true) →
      (covers → complete) ∧ (complete ∨ AbortsWith s .outOfMemory (exec .convert s)))

/-! ### The command -/

/-- R140: DECODE is the per-decode reset, SOI, TOPLOOP, CONVERT and the completion, each only while the one before
did not end it. -/
def Obligations.DecodeRunsItsParts : Prop :=
  ∀ (s : State) (buf : List Byte), s.ready = true → buf.length ≤ s.cfg.inLenMax → ∀ o,
    o = exec (.decode buf buf.length) s →
    ∃ a, exec .soi (s.decodeReset buf) = .next a ∧
      (a.phase = .done → o = .next a) ∧
      (a.phase ≠ .done → ∃ b, exec .toploop a = .next b ∧
        (b.phase = .done → o = .next b) ∧
        (b.phase ≠ .done → ∃ c, exec .convert b = .next c ∧
          (c.phase = .done → o = .next c) ∧ (c.phase ≠ .done → o = .next c.finish)))

/-- R36, R303, R312, R277: a DECODE whose host kept its duty ends, whatever the buffer holds, in DONE with RESULT
written, never INTERNAL_ERROR; if RESULT is OK, the registers give a non-empty image and every byte of the
output is there. -/
def Obligations.DecodeEndsDone : Prop :=
  ∀ (s : State) (buf : List Byte), s.ready = true → buf.length ≤ s.cfg.inLenMax →
    ∃ t, exec (.decode buf buf.length) s = .next t ∧ t.phase = .done ∧ t.ready = true ∧
      t.result = .ended t.error ∧ t.error ≠ .internalError ∧ t.cfg = s.cfg ∧
      (t.error = .ok → t.regWidth = t.width ∧ t.regHeight = t.height ∧ t.width ≠ 0 ∧ t.height ≠ 0 ∧
        (t.ncomp = 1 ∨ t.ncomp = 3) ∧ (t.regIsColor = true ↔ t.ncomp = 3) ∧
        ∀ i, i < outputSize t → (outputByte i t).isSome = true)

/-- R36, R140, R255: a DECODE that succeeds. A gray stream of any size, SOI, DQT, SOF0, DHT and SOS and then
nothing, whose two tables give both their codes the symbol 0: the filler decodes every block, and the command
ends OK with the image's registers and every byte of its output, provided the plane is granted. -/
def Obligations.DecodeCompletes : Prop :=
  ∀ (s : State) (width height : Half) (steps counts buf : List Byte), s.ready = true →
    width ≠ 0 → height ≠ 0 → steps.length = 64 → counts = 2 :: List.replicate 15 0 →
    buf = [0xFF, 0xD8] ++ ([0xFF, 0xDB, 0x00, 0x43, 0x00] ++ steps) ++
      [0xFF, 0xC0, 0x00, 0x0B, 0x08, hiByte height, loByte height, hiByte width, loByte width, 0x01, 0x01, 0x11,
        0x00] ++
      ([0xFF, 0xC4, 0x00, 0x28, 0x00] ++ counts ++ [0x00, 0x00, 0x10] ++ counts ++ [0x00, 0x00]) ++
      [0xFF, 0xDA, 0x00, 0x08, 0x01, 0x01, 0x00, 0x00, 0x3F, 0x00] →
    buf.length ≤ s.cfg.inLenMax →
    allocGrants s.cfg (64 * ((width.toNat + 7) / 8) * ((height.toNat + 7) / 8)) 0 = true →
    ∃ t, exec (.decode buf buf.length) s = .next t ∧ t.phase = .done ∧ t.error = .ok ∧ t.result = .ended .ok ∧
      t.regWidth = width ∧ t.regHeight = height ∧ t.regIsColor = false ∧ t.regOutBuf = .plane0 ∧
      ∀ i, i < width.toNat * height.toNat → (outputByte i t).isSome = true

/-- R36, R13, R31: DECODE as one transition is what the engine's steps reach, one instruction of the stream at a
time, from the state in which the host has issued the command (log 1, log 2). -/
def Obligations.DecodeIsItsEngineSteps : Prop :=
  ∀ (s t : State) (buf : List Byte), s.ready = true → buf.length ≤ s.cfg.inLenMax →
    exec (.decode buf buf.length) s = .next t →
    ∃ n, stepsTo n { s with cmd := some ⟨buf, buf.length⟩ } t

/-- R34, R35, R255, R256: the host registers after a completion, and that no register but RESULT, and no output
byte, is readable otherwise. -/
def Obligations.HostRegisters : Prop :=
  ∀ s : State,
    (s.cmd = none →
      hostRead .result s.finish = some (.word (s.cfg.codes.ok.setWidth 32)) ∧
      hostRead .width s.finish = some (.word (s.width.setWidth 32)) ∧
      hostRead .height s.finish = some (.word (s.height.setWidth 32)) ∧
      hostRead .isColor s.finish = some (.word (if s.ncomp = 3 then 1 else 0)) ∧
      (∀ n, n = s.width.toNat * s.height.toNat * (if s.ncomp = 3 then 3 else 1) → n < 2 ^ 32 →
        hostRead .outSize s.finish = some (.word (BitVec.ofNat 32 n))) ∧
      hostRead .outBuf s.finish = some (.ref (if s.ncomp = 3 then .rgb else .plane0)) ∧
      (∀ i, outputByte i s.finish =
        if i < s.width.toNat * s.height.toNat * (if s.ncomp = 3 then 3 else 1) then
          (if s.ncomp = 3 then s.rgb else s.comps.head?.bind Comp.pixels).bind
            fun b => if i < b.size then b.mem.read i else none
        else none)) ∧
    (s.result ≠ .ended .ok ∨ s.ready = false →
      (∀ r : HostReg, r ≠ .result → hostRead r s = none) ∧ ∀ i, outputByte i s = none)

/-! ### Invariants of the step -/

/-- R12, R60, R69: every step keeps the byte spaces in canonical form, with every byte inside its buffer. -/
def Obligations.StepKeepsMemoryForm : Prop :=
  ∀ s : State, s.memoryWf = true → Keeps (step s) fun t => t.memoryWf = true

/-- R22, R73, R117: every step keeps the stream position inside the resident input, `S.remaining` what is left of
it or used up, and at most 31 bits in `S.acc`. -/
def Obligations.StepKeepsReaderBounds : Prop :=
  ∀ s : State, s.inputOk → s.accOk → Keeps (step s) fun t => t.inputOk ∧ t.accOk

/-- R40, R33, R149, R170: every step keeps the frame: none or a laid out one between markers, a laid out one from
the scan to the conversion, and `S.live` the bytes of the buffers. -/
def Obligations.StepKeepsFrame : Prop :=
  ∀ s : State, s.frameOk → Keeps (step s) fun t => t.frameOk

/-- R21, R24, R73, R183, R255: the configuration never changes; the input only when a command is taken up; the
first error stays; the tables and their selectors stay through the scan; the registers change only at a
completion. -/
def Obligations.StepKeepsOwnedState : Prop :=
  ∀ s : State, Keeps (step s) fun t =>
    t.cfg = s.cfg ∧
    (s.cmd = none → t.cmd = none ∧ t.inp = s.inp ∧ (s.error ≠ .ok → t.error = s.error)) ∧
    (s.phase = .scan → t.ht = s.ht ∧ t.qt = s.qt ∧ t.qtAvail = s.qtAvail ∧ t.qtUsed = s.qtUsed ∧
      t.restartInterval = s.restartInterval ∧
      t.comps.map (fun c => (c.qtsel, c.dcsel, c.acsel)) = s.comps.map (fun c => (c.qtsel, c.dcsel, c.acsel))) ∧
    (¬ (s.phase = .convert ∧ t.result = .ended .ok) →
      t.regWidth = s.regWidth ∧ t.regHeight = s.regHeight ∧ t.regIsColor = s.regIsColor ∧
      t.regOutSize = s.regOutSize ∧ t.regOutBuf = s.regOutBuf)

/-- R39: the state before the first DECODE meets every invariant. -/
def Obligations.ResetMeetsInvariants : Prop :=
  State.reset.memoryWf = true ∧ State.reset.inputOk ∧ State.reset.accOk ∧ State.reset.frameOk
end

