-- ==== Sys2Proof/Laws/State.lean ====
section
/-! SUPPORT. One lemma per field per named update of the state, true by rfl. -/

namespace Sys2Proof.Machine

@[simp] theorem State.skip_cfg (s : State) (n : Nat) : (s.skip n).cfg = s.cfg := rfl
@[simp] theorem State.skip_cmd (s : State) (n : Nat) : (s.skip n).cmd = s.cmd := rfl
@[simp] theorem State.skip_inp (s : State) (n : Nat) : (s.skip n).inp = s.inp := rfl
@[simp] theorem State.skip_pos (s : State) (n : Nat) : (s.skip n).pos = s.pos + n := rfl
@[simp] theorem State.skip_remaining (s : State) (n : Nat) : (s.skip n).remaining = s.remaining - n := rfl
@[simp] theorem State.skip_acc (s : State) (n : Nat) : (s.skip n).acc = s.acc := rfl
@[simp] theorem State.skip_error (s : State) (n : Nat) : (s.skip n).error = s.error := rfl
@[simp] theorem State.skip_phase (s : State) (n : Nat) : (s.skip n).phase = s.phase := rfl
@[simp] theorem State.skip_frame (s : State) (n : Nat) : (s.skip n).frame = s.frame := rfl
@[simp] theorem State.skip_width (s : State) (n : Nat) : (s.skip n).width = s.width := rfl
@[simp] theorem State.skip_height (s : State) (n : Nat) : (s.skip n).height = s.height := rfl
@[simp] theorem State.skip_ncomp (s : State) (n : Nat) : (s.skip n).ncomp = s.ncomp := rfl
@[simp] theorem State.skip_hmax (s : State) (n : Nat) : (s.skip n).hmax = s.hmax := rfl
@[simp] theorem State.skip_vmax (s : State) (n : Nat) : (s.skip n).vmax = s.vmax := rfl
@[simp] theorem State.skip_mcuW (s : State) (n : Nat) : (s.skip n).mcuW = s.mcuW := rfl
@[simp] theorem State.skip_mcuH (s : State) (n : Nat) : (s.skip n).mcuH = s.mcuH := rfl
@[simp] theorem State.skip_mbwidth (s : State) (n : Nat) : (s.skip n).mbwidth = s.mbwidth := rfl
@[simp] theorem State.skip_mbheight (s : State) (n : Nat) : (s.skip n).mbheight = s.mbheight := rfl
@[simp] theorem State.skip_qt (s : State) (n : Nat) : (s.skip n).qt = s.qt := rfl
@[simp] theorem State.skip_qtAvail (s : State) (n : Nat) : (s.skip n).qtAvail = s.qtAvail := rfl
@[simp] theorem State.skip_qtUsed (s : State) (n : Nat) : (s.skip n).qtUsed = s.qtUsed := rfl
@[simp] theorem State.skip_ht (s : State) (n : Nat) : (s.skip n).ht = s.ht := rfl
@[simp] theorem State.skip_restartInterval (s : State) (n : Nat) : (s.skip n).restartInterval = s.restartInterval := rfl
@[simp] theorem State.skip_comps (s : State) (n : Nat) : (s.skip n).comps = s.comps := rfl
@[simp] theorem State.skip_mbx (s : State) (n : Nat) : (s.skip n).mbx = s.mbx := rfl
@[simp] theorem State.skip_mby (s : State) (n : Nat) : (s.skip n).mby = s.mby := rfl
@[simp] theorem State.skip_rstCount (s : State) (n : Nat) : (s.skip n).rstCount = s.rstCount := rfl
@[simp] theorem State.skip_nextRst (s : State) (n : Nat) : (s.skip n).nextRst = s.nextRst := rfl
@[simp] theorem State.skip_seq (s : State) (n : Nat) : (s.skip n).seq = s.seq := rfl
@[simp] theorem State.skip_blk (s : State) (n : Nat) : (s.skip n).blk = s.blk := rfl
@[simp] theorem State.skip_rgb (s : State) (n : Nat) : (s.skip n).rgb = s.rgb := rfl
@[simp] theorem State.skip_live (s : State) (n : Nat) : (s.skip n).live = s.live := rfl
@[simp] theorem State.skip_result (s : State) (n : Nat) : (s.skip n).result = s.result := rfl
@[simp] theorem State.skip_regWidth (s : State) (n : Nat) : (s.skip n).regWidth = s.regWidth := rfl
@[simp] theorem State.skip_regHeight (s : State) (n : Nat) : (s.skip n).regHeight = s.regHeight := rfl
@[simp] theorem State.skip_regIsColor (s : State) (n : Nat) : (s.skip n).regIsColor = s.regIsColor := rfl
@[simp] theorem State.skip_regOutSize (s : State) (n : Nat) : (s.skip n).regOutSize = s.regOutSize := rfl
@[simp] theorem State.skip_regOutBuf (s : State) (n : Nat) : (s.skip n).regOutBuf = s.regOutBuf := rfl
@[simp] theorem State.skip_ret (s : State) (n : Nat) : (s.skip n).ret = s.ret := rfl

@[simp] theorem State.push_cfg (s : State) (b : Byte) : (s.push b).cfg = s.cfg := rfl
@[simp] theorem State.push_cmd (s : State) (b : Byte) : (s.push b).cmd = s.cmd := rfl
@[simp] theorem State.push_inp (s : State) (b : Byte) : (s.push b).inp = s.inp := rfl
@[simp] theorem State.push_pos (s : State) (b : Byte) : (s.push b).pos = s.pos := rfl
@[simp] theorem State.push_remaining (s : State) (b : Byte) : (s.push b).remaining = s.remaining := rfl
@[simp] theorem State.push_acc (s : State) (b : Byte) : (s.push b).acc = s.acc ++ bits8 b := rfl
@[simp] theorem State.push_error (s : State) (b : Byte) : (s.push b).error = s.error := rfl
@[simp] theorem State.push_phase (s : State) (b : Byte) : (s.push b).phase = s.phase := rfl
@[simp] theorem State.push_frame (s : State) (b : Byte) : (s.push b).frame = s.frame := rfl
@[simp] theorem State.push_width (s : State) (b : Byte) : (s.push b).width = s.width := rfl
@[simp] theorem State.push_height (s : State) (b : Byte) : (s.push b).height = s.height := rfl
@[simp] theorem State.push_ncomp (s : State) (b : Byte) : (s.push b).ncomp = s.ncomp := rfl
@[simp] theorem State.push_hmax (s : State) (b : Byte) : (s.push b).hmax = s.hmax := rfl
@[simp] theorem State.push_vmax (s : State) (b : Byte) : (s.push b).vmax = s.vmax := rfl
@[simp] theorem State.push_mcuW (s : State) (b : Byte) : (s.push b).mcuW = s.mcuW := rfl
@[simp] theorem State.push_mcuH (s : State) (b : Byte) : (s.push b).mcuH = s.mcuH := rfl
@[simp] theorem State.push_mbwidth (s : State) (b : Byte) : (s.push b).mbwidth = s.mbwidth := rfl
@[simp] theorem State.push_mbheight (s : State) (b : Byte) : (s.push b).mbheight = s.mbheight := rfl
@[simp] theorem State.push_qt (s : State) (b : Byte) : (s.push b).qt = s.qt := rfl
@[simp] theorem State.push_qtAvail (s : State) (b : Byte) : (s.push b).qtAvail = s.qtAvail := rfl
@[simp] theorem State.push_qtUsed (s : State) (b : Byte) : (s.push b).qtUsed = s.qtUsed := rfl
@[simp] theorem State.push_ht (s : State) (b : Byte) : (s.push b).ht = s.ht := rfl
@[simp] theorem State.push_restartInterval (s : State) (b : Byte) : (s.push b).restartInterval = s.restartInterval := rfl
@[simp] theorem State.push_comps (s : State) (b : Byte) : (s.push b).comps = s.comps := rfl
@[simp] theorem State.push_mbx (s : State) (b : Byte) : (s.push b).mbx = s.mbx := rfl
@[simp] theorem State.push_mby (s : State) (b : Byte) : (s.push b).mby = s.mby := rfl
@[simp] theorem State.push_rstCount (s : State) (b : Byte) : (s.push b).rstCount = s.rstCount := rfl
@[simp] theorem State.push_nextRst (s : State) (b : Byte) : (s.push b).nextRst = s.nextRst := rfl
@[simp] theorem State.push_seq (s : State) (b : Byte) : (s.push b).seq = s.seq := rfl
@[simp] theorem State.push_blk (s : State) (b : Byte) : (s.push b).blk = s.blk := rfl
@[simp] theorem State.push_rgb (s : State) (b : Byte) : (s.push b).rgb = s.rgb := rfl
@[simp] theorem State.push_live (s : State) (b : Byte) : (s.push b).live = s.live := rfl
@[simp] theorem State.push_result (s : State) (b : Byte) : (s.push b).result = s.result := rfl
@[simp] theorem State.push_regWidth (s : State) (b : Byte) : (s.push b).regWidth = s.regWidth := rfl
@[simp] theorem State.push_regHeight (s : State) (b : Byte) : (s.push b).regHeight = s.regHeight := rfl
@[simp] theorem State.push_regIsColor (s : State) (b : Byte) : (s.push b).regIsColor = s.regIsColor := rfl
@[simp] theorem State.push_regOutSize (s : State) (b : Byte) : (s.push b).regOutSize = s.regOutSize := rfl
@[simp] theorem State.push_regOutBuf (s : State) (b : Byte) : (s.push b).regOutBuf = s.regOutBuf := rfl
@[simp] theorem State.push_ret (s : State) (b : Byte) : (s.push b).ret = s.ret := rfl

@[simp] theorem State.dropBits_cfg (s : State) (n : Nat) : (s.dropBits n).cfg = s.cfg := rfl
@[simp] theorem State.dropBits_cmd (s : State) (n : Nat) : (s.dropBits n).cmd = s.cmd := rfl
@[simp] theorem State.dropBits_inp (s : State) (n : Nat) : (s.dropBits n).inp = s.inp := rfl
@[simp] theorem State.dropBits_pos (s : State) (n : Nat) : (s.dropBits n).pos = s.pos := rfl
@[simp] theorem State.dropBits_remaining (s : State) (n : Nat) : (s.dropBits n).remaining = s.remaining := rfl
@[simp] theorem State.dropBits_acc (s : State) (n : Nat) : (s.dropBits n).acc = s.acc.drop n := rfl
@[simp] theorem State.dropBits_error (s : State) (n : Nat) : (s.dropBits n).error = s.error := rfl
@[simp] theorem State.dropBits_phase (s : State) (n : Nat) : (s.dropBits n).phase = s.phase := rfl
@[simp] theorem State.dropBits_frame (s : State) (n : Nat) : (s.dropBits n).frame = s.frame := rfl
@[simp] theorem State.dropBits_width (s : State) (n : Nat) : (s.dropBits n).width = s.width := rfl
@[simp] theorem State.dropBits_height (s : State) (n : Nat) : (s.dropBits n).height = s.height := rfl
@[simp] theorem State.dropBits_ncomp (s : State) (n : Nat) : (s.dropBits n).ncomp = s.ncomp := rfl
@[simp] theorem State.dropBits_hmax (s : State) (n : Nat) : (s.dropBits n).hmax = s.hmax := rfl
@[simp] theorem State.dropBits_vmax (s : State) (n : Nat) : (s.dropBits n).vmax = s.vmax := rfl
@[simp] theorem State.dropBits_mcuW (s : State) (n : Nat) : (s.dropBits n).mcuW = s.mcuW := rfl
@[simp] theorem State.dropBits_mcuH (s : State) (n : Nat) : (s.dropBits n).mcuH = s.mcuH := rfl
@[simp] theorem State.dropBits_mbwidth (s : State) (n : Nat) : (s.dropBits n).mbwidth = s.mbwidth := rfl
@[simp] theorem State.dropBits_mbheight (s : State) (n : Nat) : (s.dropBits n).mbheight = s.mbheight := rfl
@[simp] theorem State.dropBits_qt (s : State) (n : Nat) : (s.dropBits n).qt = s.qt := rfl
@[simp] theorem State.dropBits_qtAvail (s : State) (n : Nat) : (s.dropBits n).qtAvail = s.qtAvail := rfl
@[simp] theorem State.dropBits_qtUsed (s : State) (n : Nat) : (s.dropBits n).qtUsed = s.qtUsed := rfl
@[simp] theorem State.dropBits_ht (s : State) (n : Nat) : (s.dropBits n).ht = s.ht := rfl
@[simp] theorem State.dropBits_restartInterval (s : State) (n : Nat) : (s.dropBits n).restartInterval = s.restartInterval := rfl
@[simp] theorem State.dropBits_comps (s : State) (n : Nat) : (s.dropBits n).comps = s.comps := rfl
@[simp] theorem State.dropBits_mbx (s : State) (n : Nat) : (s.dropBits n).mbx = s.mbx := rfl
@[simp] theorem State.dropBits_mby (s : State) (n : Nat) : (s.dropBits n).mby = s.mby := rfl
@[simp] theorem State.dropBits_rstCount (s : State) (n : Nat) : (s.dropBits n).rstCount = s.rstCount := rfl
@[simp] theorem State.dropBits_nextRst (s : State) (n : Nat) : (s.dropBits n).nextRst = s.nextRst := rfl
@[simp] theorem State.dropBits_seq (s : State) (n : Nat) : (s.dropBits n).seq = s.seq := rfl
@[simp] theorem State.dropBits_blk (s : State) (n : Nat) : (s.dropBits n).blk = s.blk := rfl
@[simp] theorem State.dropBits_rgb (s : State) (n : Nat) : (s.dropBits n).rgb = s.rgb := rfl
@[simp] theorem State.dropBits_live (s : State) (n : Nat) : (s.dropBits n).live = s.live := rfl
@[simp] theorem State.dropBits_result (s : State) (n : Nat) : (s.dropBits n).result = s.result := rfl
@[simp] theorem State.dropBits_regWidth (s : State) (n : Nat) : (s.dropBits n).regWidth = s.regWidth := rfl
@[simp] theorem State.dropBits_regHeight (s : State) (n : Nat) : (s.dropBits n).regHeight = s.regHeight := rfl
@[simp] theorem State.dropBits_regIsColor (s : State) (n : Nat) : (s.dropBits n).regIsColor = s.regIsColor := rfl
@[simp] theorem State.dropBits_regOutSize (s : State) (n : Nat) : (s.dropBits n).regOutSize = s.regOutSize := rfl
@[simp] theorem State.dropBits_regOutBuf (s : State) (n : Nat) : (s.dropBits n).regOutBuf = s.regOutBuf := rfl
@[simp] theorem State.dropBits_ret (s : State) (n : Nat) : (s.dropBits n).ret = s.ret := rfl

@[simp] theorem State.endInput_cfg (s : State) : s.endInput.cfg = s.cfg := rfl
@[simp] theorem State.endInput_cmd (s : State) : s.endInput.cmd = s.cmd := rfl
@[simp] theorem State.endInput_inp (s : State) : s.endInput.inp = s.inp := rfl
@[simp] theorem State.endInput_pos (s : State) : s.endInput.pos = s.pos := rfl
@[simp] theorem State.endInput_remaining (s : State) : s.endInput.remaining = 0 := rfl
@[simp] theorem State.endInput_acc (s : State) : s.endInput.acc = s.acc := rfl
@[simp] theorem State.endInput_error (s : State) : s.endInput.error = s.error := rfl
@[simp] theorem State.endInput_phase (s : State) : s.endInput.phase = s.phase := rfl
@[simp] theorem State.endInput_frame (s : State) : s.endInput.frame = s.frame := rfl
@[simp] theorem State.endInput_width (s : State) : s.endInput.width = s.width := rfl
@[simp] theorem State.endInput_height (s : State) : s.endInput.height = s.height := rfl
@[simp] theorem State.endInput_ncomp (s : State) : s.endInput.ncomp = s.ncomp := rfl
@[simp] theorem State.endInput_hmax (s : State) : s.endInput.hmax = s.hmax := rfl
@[simp] theorem State.endInput_vmax (s : State) : s.endInput.vmax = s.vmax := rfl
@[simp] theorem State.endInput_mcuW (s : State) : s.endInput.mcuW = s.mcuW := rfl
@[simp] theorem State.endInput_mcuH (s : State) : s.endInput.mcuH = s.mcuH := rfl
@[simp] theorem State.endInput_mbwidth (s : State) : s.endInput.mbwidth = s.mbwidth := rfl
@[simp] theorem State.endInput_mbheight (s : State) : s.endInput.mbheight = s.mbheight := rfl
@[simp] theorem State.endInput_qt (s : State) : s.endInput.qt = s.qt := rfl
@[simp] theorem State.endInput_qtAvail (s : State) : s.endInput.qtAvail = s.qtAvail := rfl
@[simp] theorem State.endInput_qtUsed (s : State) : s.endInput.qtUsed = s.qtUsed := rfl
@[simp] theorem State.endInput_ht (s : State) : s.endInput.ht = s.ht := rfl
@[simp] theorem State.endInput_restartInterval (s : State) : s.endInput.restartInterval = s.restartInterval := rfl
@[simp] theorem State.endInput_comps (s : State) : s.endInput.comps = s.comps := rfl
@[simp] theorem State.endInput_mbx (s : State) : s.endInput.mbx = s.mbx := rfl
@[simp] theorem State.endInput_mby (s : State) : s.endInput.mby = s.mby := rfl
@[simp] theorem State.endInput_rstCount (s : State) : s.endInput.rstCount = s.rstCount := rfl
@[simp] theorem State.endInput_nextRst (s : State) : s.endInput.nextRst = s.nextRst := rfl
@[simp] theorem State.endInput_seq (s : State) : s.endInput.seq = s.seq := rfl
@[simp] theorem State.endInput_blk (s : State) : s.endInput.blk = s.blk := rfl
@[simp] theorem State.endInput_rgb (s : State) : s.endInput.rgb = s.rgb := rfl
@[simp] theorem State.endInput_live (s : State) : s.endInput.live = s.live := rfl
@[simp] theorem State.endInput_result (s : State) : s.endInput.result = s.result := rfl
@[simp] theorem State.endInput_regWidth (s : State) : s.endInput.regWidth = s.regWidth := rfl
@[simp] theorem State.endInput_regHeight (s : State) : s.endInput.regHeight = s.regHeight := rfl
@[simp] theorem State.endInput_regIsColor (s : State) : s.endInput.regIsColor = s.regIsColor := rfl
@[simp] theorem State.endInput_regOutSize (s : State) : s.endInput.regOutSize = s.regOutSize := rfl
@[simp] theorem State.endInput_regOutBuf (s : State) : s.endInput.regOutBuf = s.regOutBuf := rfl
@[simp] theorem State.endInput_ret (s : State) : s.endInput.ret = s.ret := rfl

@[simp] theorem State.returns_cfg (s : State) (r : Ret) : (s.returns r).cfg = s.cfg := rfl
@[simp] theorem State.returns_cmd (s : State) (r : Ret) : (s.returns r).cmd = s.cmd := rfl
@[simp] theorem State.returns_inp (s : State) (r : Ret) : (s.returns r).inp = s.inp := rfl
@[simp] theorem State.returns_pos (s : State) (r : Ret) : (s.returns r).pos = s.pos := rfl
@[simp] theorem State.returns_remaining (s : State) (r : Ret) : (s.returns r).remaining = s.remaining := rfl
@[simp] theorem State.returns_acc (s : State) (r : Ret) : (s.returns r).acc = s.acc := rfl
@[simp] theorem State.returns_error (s : State) (r : Ret) : (s.returns r).error = s.error := rfl
@[simp] theorem State.returns_phase (s : State) (r : Ret) : (s.returns r).phase = s.phase := rfl
@[simp] theorem State.returns_frame (s : State) (r : Ret) : (s.returns r).frame = s.frame := rfl
@[simp] theorem State.returns_width (s : State) (r : Ret) : (s.returns r).width = s.width := rfl
@[simp] theorem State.returns_height (s : State) (r : Ret) : (s.returns r).height = s.height := rfl
@[simp] theorem State.returns_ncomp (s : State) (r : Ret) : (s.returns r).ncomp = s.ncomp := rfl
@[simp] theorem State.returns_hmax (s : State) (r : Ret) : (s.returns r).hmax = s.hmax := rfl
@[simp] theorem State.returns_vmax (s : State) (r : Ret) : (s.returns r).vmax = s.vmax := rfl
@[simp] theorem State.returns_mcuW (s : State) (r : Ret) : (s.returns r).mcuW = s.mcuW := rfl
@[simp] theorem State.returns_mcuH (s : State) (r : Ret) : (s.returns r).mcuH = s.mcuH := rfl
@[simp] theorem State.returns_mbwidth (s : State) (r : Ret) : (s.returns r).mbwidth = s.mbwidth := rfl
@[simp] theorem State.returns_mbheight (s : State) (r : Ret) : (s.returns r).mbheight = s.mbheight := rfl
@[simp] theorem State.returns_qt (s : State) (r : Ret) : (s.returns r).qt = s.qt := rfl
@[simp] theorem State.returns_qtAvail (s : State) (r : Ret) : (s.returns r).qtAvail = s.qtAvail := rfl
@[simp] theorem State.returns_qtUsed (s : State) (r : Ret) : (s.returns r).qtUsed = s.qtUsed := rfl
@[simp] theorem State.returns_ht (s : State) (r : Ret) : (s.returns r).ht = s.ht := rfl
@[simp] theorem State.returns_restartInterval (s : State) (r : Ret) : (s.returns r).restartInterval = s.restartInterval := rfl
@[simp] theorem State.returns_comps (s : State) (r : Ret) : (s.returns r).comps = s.comps := rfl
@[simp] theorem State.returns_mbx (s : State) (r : Ret) : (s.returns r).mbx = s.mbx := rfl
@[simp] theorem State.returns_mby (s : State) (r : Ret) : (s.returns r).mby = s.mby := rfl
@[simp] theorem State.returns_rstCount (s : State) (r : Ret) : (s.returns r).rstCount = s.rstCount := rfl
@[simp] theorem State.returns_nextRst (s : State) (r : Ret) : (s.returns r).nextRst = s.nextRst := rfl
@[simp] theorem State.returns_seq (s : State) (r : Ret) : (s.returns r).seq = s.seq := rfl
@[simp] theorem State.returns_blk (s : State) (r : Ret) : (s.returns r).blk = s.blk := rfl
@[simp] theorem State.returns_rgb (s : State) (r : Ret) : (s.returns r).rgb = s.rgb := rfl
@[simp] theorem State.returns_live (s : State) (r : Ret) : (s.returns r).live = s.live := rfl
@[simp] theorem State.returns_result (s : State) (r : Ret) : (s.returns r).result = s.result := rfl
@[simp] theorem State.returns_regWidth (s : State) (r : Ret) : (s.returns r).regWidth = s.regWidth := rfl
@[simp] theorem State.returns_regHeight (s : State) (r : Ret) : (s.returns r).regHeight = s.regHeight := rfl
@[simp] theorem State.returns_regIsColor (s : State) (r : Ret) : (s.returns r).regIsColor = s.regIsColor := rfl
@[simp] theorem State.returns_regOutSize (s : State) (r : Ret) : (s.returns r).regOutSize = s.regOutSize := rfl
@[simp] theorem State.returns_regOutBuf (s : State) (r : Ret) : (s.returns r).regOutBuf = s.regOutBuf := rfl
@[simp] theorem State.returns_ret (s : State) (r : Ret) : (s.returns r).ret = r := rfl

@[simp] theorem State.setComp_cfg (s : State) (k : Nat) (c : Comp) : (s.setComp k c).cfg = s.cfg := rfl
@[simp] theorem State.setComp_cmd (s : State) (k : Nat) (c : Comp) : (s.setComp k c).cmd = s.cmd := rfl
@[simp] theorem State.setComp_inp (s : State) (k : Nat) (c : Comp) : (s.setComp k c).inp = s.inp := rfl
@[simp] theorem State.setComp_pos (s : State) (k : Nat) (c : Comp) : (s.setComp k c).pos = s.pos := rfl
@[simp] theorem State.setComp_remaining (s : State) (k : Nat) (c : Comp) : (s.setComp k c).remaining = s.remaining := rfl
@[simp] theorem State.setComp_acc (s : State) (k : Nat) (c : Comp) : (s.setComp k c).acc = s.acc := rfl
@[simp] theorem State.setComp_error (s : State) (k : Nat) (c : Comp) : (s.setComp k c).error = s.error := rfl
@[simp] theorem State.setComp_phase (s : State) (k : Nat) (c : Comp) : (s.setComp k c).phase = s.phase := rfl
@[simp] theorem State.setComp_frame (s : State) (k : Nat) (c : Comp) : (s.setComp k c).frame = s.frame := rfl
@[simp] theorem State.setComp_width (s : State) (k : Nat) (c : Comp) : (s.setComp k c).width = s.width := rfl
@[simp] theorem State.setComp_height (s : State) (k : Nat) (c : Comp) : (s.setComp k c).height = s.height := rfl
@[simp] theorem State.setComp_ncomp (s : State) (k : Nat) (c : Comp) : (s.setComp k c).ncomp = s.ncomp := rfl
@[simp] theorem State.setComp_hmax (s : State) (k : Nat) (c : Comp) : (s.setComp k c).hmax = s.hmax := rfl
@[simp] theorem State.setComp_vmax (s : State) (k : Nat) (c : Comp) : (s.setComp k c).vmax = s.vmax := rfl
@[simp] theorem State.setComp_mcuW (s : State) (k : Nat) (c : Comp) : (s.setComp k c).mcuW = s.mcuW := rfl
@[simp] theorem State.setComp_mcuH (s : State) (k : Nat) (c : Comp) : (s.setComp k c).mcuH = s.mcuH := rfl
@[simp] theorem State.setComp_mbwidth (s : State) (k : Nat) (c : Comp) : (s.setComp k c).mbwidth = s.mbwidth := rfl
@[simp] theorem State.setComp_mbheight (s : State) (k : Nat) (c : Comp) : (s.setComp k c).mbheight = s.mbheight := rfl
@[simp] theorem State.setComp_qt (s : State) (k : Nat) (c : Comp) : (s.setComp k c).qt = s.qt := rfl
@[simp] theorem State.setComp_qtAvail (s : State) (k : Nat) (c : Comp) : (s.setComp k c).qtAvail = s.qtAvail := rfl
@[simp] theorem State.setComp_qtUsed (s : State) (k : Nat) (c : Comp) : (s.setComp k c).qtUsed = s.qtUsed := rfl
@[simp] theorem State.setComp_ht (s : State) (k : Nat) (c : Comp) : (s.setComp k c).ht = s.ht := rfl
@[simp] theorem State.setComp_restartInterval (s : State) (k : Nat) (c : Comp) : (s.setComp k c).restartInterval = s.restartInterval := rfl
@[simp] theorem State.setComp_comps (s : State) (k : Nat) (c : Comp) : (s.setComp k c).comps = s.comps.set k c := rfl
@[simp] theorem State.setComp_mbx (s : State) (k : Nat) (c : Comp) : (s.setComp k c).mbx = s.mbx := rfl
@[simp] theorem State.setComp_mby (s : State) (k : Nat) (c : Comp) : (s.setComp k c).mby = s.mby := rfl
@[simp] theorem State.setComp_rstCount (s : State) (k : Nat) (c : Comp) : (s.setComp k c).rstCount = s.rstCount := rfl
@[simp] theorem State.setComp_nextRst (s : State) (k : Nat) (c : Comp) : (s.setComp k c).nextRst = s.nextRst := rfl
@[simp] theorem State.setComp_seq (s : State) (k : Nat) (c : Comp) : (s.setComp k c).seq = s.seq := rfl
@[simp] theorem State.setComp_blk (s : State) (k : Nat) (c : Comp) : (s.setComp k c).blk = s.blk := rfl
@[simp] theorem State.setComp_rgb (s : State) (k : Nat) (c : Comp) : (s.setComp k c).rgb = s.rgb := rfl
@[simp] theorem State.setComp_live (s : State) (k : Nat) (c : Comp) : (s.setComp k c).live = s.live := rfl
@[simp] theorem State.setComp_result (s : State) (k : Nat) (c : Comp) : (s.setComp k c).result = s.result := rfl
@[simp] theorem State.setComp_regWidth (s : State) (k : Nat) (c : Comp) : (s.setComp k c).regWidth = s.regWidth := rfl
@[simp] theorem State.setComp_regHeight (s : State) (k : Nat) (c : Comp) : (s.setComp k c).regHeight = s.regHeight := rfl
@[simp] theorem State.setComp_regIsColor (s : State) (k : Nat) (c : Comp) : (s.setComp k c).regIsColor = s.regIsColor := rfl
@[simp] theorem State.setComp_regOutSize (s : State) (k : Nat) (c : Comp) : (s.setComp k c).regOutSize = s.regOutSize := rfl
@[simp] theorem State.setComp_regOutBuf (s : State) (k : Nat) (c : Comp) : (s.setComp k c).regOutBuf = s.regOutBuf := rfl
@[simp] theorem State.setComp_ret (s : State) (k : Nat) (c : Comp) : (s.setComp k c).ret = s.ret := rfl

@[simp] theorem State.release_cfg (s : State) (n : Nat) : (s.release n).cfg = s.cfg := rfl
@[simp] theorem State.release_cmd (s : State) (n : Nat) : (s.release n).cmd = s.cmd := rfl
@[simp] theorem State.release_inp (s : State) (n : Nat) : (s.release n).inp = s.inp := rfl
@[simp] theorem State.release_pos (s : State) (n : Nat) : (s.release n).pos = s.pos := rfl
@[simp] theorem State.release_remaining (s : State) (n : Nat) : (s.release n).remaining = s.remaining := rfl
@[simp] theorem State.release_acc (s : State) (n : Nat) : (s.release n).acc = s.acc := rfl
@[simp] theorem State.release_error (s : State) (n : Nat) : (s.release n).error = s.error := rfl
@[simp] theorem State.release_phase (s : State) (n : Nat) : (s.release n).phase = s.phase := rfl
@[simp] theorem State.release_frame (s : State) (n : Nat) : (s.release n).frame = s.frame := rfl
@[simp] theorem State.release_width (s : State) (n : Nat) : (s.release n).width = s.width := rfl
@[simp] theorem State.release_height (s : State) (n : Nat) : (s.release n).height = s.height := rfl
@[simp] theorem State.release_ncomp (s : State) (n : Nat) : (s.release n).ncomp = s.ncomp := rfl
@[simp] theorem State.release_hmax (s : State) (n : Nat) : (s.release n).hmax = s.hmax := rfl
@[simp] theorem State.release_vmax (s : State) (n : Nat) : (s.release n).vmax = s.vmax := rfl
@[simp] theorem State.release_mcuW (s : State) (n : Nat) : (s.release n).mcuW = s.mcuW := rfl
@[simp] theorem State.release_mcuH (s : State) (n : Nat) : (s.release n).mcuH = s.mcuH := rfl
@[simp] theorem State.release_mbwidth (s : State) (n : Nat) : (s.release n).mbwidth = s.mbwidth := rfl
@[simp] theorem State.release_mbheight (s : State) (n : Nat) : (s.release n).mbheight = s.mbheight := rfl
@[simp] theorem State.release_qt (s : State) (n : Nat) : (s.release n).qt = s.qt := rfl
@[simp] theorem State.release_qtAvail (s : State) (n : Nat) : (s.release n).qtAvail = s.qtAvail := rfl
@[simp] theorem State.release_qtUsed (s : State) (n : Nat) : (s.release n).qtUsed = s.qtUsed := rfl
@[simp] theorem State.release_ht (s : State) (n : Nat) : (s.release n).ht = s.ht := rfl
@[simp] theorem State.release_restartInterval (s : State) (n : Nat) : (s.release n).restartInterval = s.restartInterval := rfl
@[simp] theorem State.release_comps (s : State) (n : Nat) : (s.release n).comps = s.comps := rfl
@[simp] theorem State.release_mbx (s : State) (n : Nat) : (s.release n).mbx = s.mbx := rfl
@[simp] theorem State.release_mby (s : State) (n : Nat) : (s.release n).mby = s.mby := rfl
@[simp] theorem State.release_rstCount (s : State) (n : Nat) : (s.release n).rstCount = s.rstCount := rfl
@[simp] theorem State.release_nextRst (s : State) (n : Nat) : (s.release n).nextRst = s.nextRst := rfl
@[simp] theorem State.release_seq (s : State) (n : Nat) : (s.release n).seq = s.seq := rfl
@[simp] theorem State.release_blk (s : State) (n : Nat) : (s.release n).blk = s.blk := rfl
@[simp] theorem State.release_rgb (s : State) (n : Nat) : (s.release n).rgb = s.rgb := rfl
@[simp] theorem State.release_live (s : State) (n : Nat) : (s.release n).live = s.live - n := rfl
@[simp] theorem State.release_result (s : State) (n : Nat) : (s.release n).result = s.result := rfl
@[simp] theorem State.release_regWidth (s : State) (n : Nat) : (s.release n).regWidth = s.regWidth := rfl
@[simp] theorem State.release_regHeight (s : State) (n : Nat) : (s.release n).regHeight = s.regHeight := rfl
@[simp] theorem State.release_regIsColor (s : State) (n : Nat) : (s.release n).regIsColor = s.regIsColor := rfl
@[simp] theorem State.release_regOutSize (s : State) (n : Nat) : (s.release n).regOutSize = s.regOutSize := rfl
@[simp] theorem State.release_regOutBuf (s : State) (n : Nat) : (s.release n).regOutBuf = s.regOutBuf := rfl
@[simp] theorem State.release_ret (s : State) (n : Nat) : (s.release n).ret = s.ret := rfl

@[simp] theorem State.startBlock_cfg (s : State) (k : Nat) : (s.startBlock k).cfg = s.cfg := rfl
@[simp] theorem State.startBlock_cmd (s : State) (k : Nat) : (s.startBlock k).cmd = s.cmd := rfl
@[simp] theorem State.startBlock_inp (s : State) (k : Nat) : (s.startBlock k).inp = s.inp := rfl
@[simp] theorem State.startBlock_pos (s : State) (k : Nat) : (s.startBlock k).pos = s.pos := rfl
@[simp] theorem State.startBlock_remaining (s : State) (k : Nat) : (s.startBlock k).remaining = s.remaining := rfl
@[simp] theorem State.startBlock_acc (s : State) (k : Nat) : (s.startBlock k).acc = s.acc := rfl
@[simp] theorem State.startBlock_error (s : State) (k : Nat) : (s.startBlock k).error = s.error := rfl
@[simp] theorem State.startBlock_phase (s : State) (k : Nat) : (s.startBlock k).phase = s.phase := rfl
@[simp] theorem State.startBlock_frame (s : State) (k : Nat) : (s.startBlock k).frame = s.frame := rfl
@[simp] theorem State.startBlock_width (s : State) (k : Nat) : (s.startBlock k).width = s.width := rfl
@[simp] theorem State.startBlock_height (s : State) (k : Nat) : (s.startBlock k).height = s.height := rfl
@[simp] theorem State.startBlock_ncomp (s : State) (k : Nat) : (s.startBlock k).ncomp = s.ncomp := rfl
@[simp] theorem State.startBlock_hmax (s : State) (k : Nat) : (s.startBlock k).hmax = s.hmax := rfl
@[simp] theorem State.startBlock_vmax (s : State) (k : Nat) : (s.startBlock k).vmax = s.vmax := rfl
@[simp] theorem State.startBlock_mcuW (s : State) (k : Nat) : (s.startBlock k).mcuW = s.mcuW := rfl
@[simp] theorem State.startBlock_mcuH (s : State) (k : Nat) : (s.startBlock k).mcuH = s.mcuH := rfl
@[simp] theorem State.startBlock_mbwidth (s : State) (k : Nat) : (s.startBlock k).mbwidth = s.mbwidth := rfl
@[simp] theorem State.startBlock_mbheight (s : State) (k : Nat) : (s.startBlock k).mbheight = s.mbheight := rfl
@[simp] theorem State.startBlock_qt (s : State) (k : Nat) : (s.startBlock k).qt = s.qt := rfl
@[simp] theorem State.startBlock_qtAvail (s : State) (k : Nat) : (s.startBlock k).qtAvail = s.qtAvail := rfl
@[simp] theorem State.startBlock_qtUsed (s : State) (k : Nat) : (s.startBlock k).qtUsed = s.qtUsed := rfl
@[simp] theorem State.startBlock_ht (s : State) (k : Nat) : (s.startBlock k).ht = s.ht := rfl
@[simp] theorem State.startBlock_restartInterval (s : State) (k : Nat) : (s.startBlock k).restartInterval = s.restartInterval := rfl
@[simp] theorem State.startBlock_comps (s : State) (k : Nat) : (s.startBlock k).comps = s.comps := rfl
@[simp] theorem State.startBlock_mbx (s : State) (k : Nat) : (s.startBlock k).mbx = s.mbx := rfl
@[simp] theorem State.startBlock_mby (s : State) (k : Nat) : (s.startBlock k).mby = s.mby := rfl
@[simp] theorem State.startBlock_rstCount (s : State) (k : Nat) : (s.startBlock k).rstCount = s.rstCount := rfl
@[simp] theorem State.startBlock_nextRst (s : State) (k : Nat) : (s.startBlock k).nextRst = s.nextRst := rfl
@[simp] theorem State.startBlock_seq (s : State) (k : Nat) : (s.startBlock k).seq = { s.seq with k := k, kz := 0, stage := .dc } := rfl
@[simp] theorem State.startBlock_blk (s : State) (k : Nat) : (s.startBlock k).blk = Vector.replicate 64 0 := rfl
@[simp] theorem State.startBlock_rgb (s : State) (k : Nat) : (s.startBlock k).rgb = s.rgb := rfl
@[simp] theorem State.startBlock_live (s : State) (k : Nat) : (s.startBlock k).live = s.live := rfl
@[simp] theorem State.startBlock_result (s : State) (k : Nat) : (s.startBlock k).result = s.result := rfl
@[simp] theorem State.startBlock_regWidth (s : State) (k : Nat) : (s.startBlock k).regWidth = s.regWidth := rfl
@[simp] theorem State.startBlock_regHeight (s : State) (k : Nat) : (s.startBlock k).regHeight = s.regHeight := rfl
@[simp] theorem State.startBlock_regIsColor (s : State) (k : Nat) : (s.startBlock k).regIsColor = s.regIsColor := rfl
@[simp] theorem State.startBlock_regOutSize (s : State) (k : Nat) : (s.startBlock k).regOutSize = s.regOutSize := rfl
@[simp] theorem State.startBlock_regOutBuf (s : State) (k : Nat) : (s.startBlock k).regOutBuf = s.regOutBuf := rfl
@[simp] theorem State.startBlock_ret (s : State) (k : Nat) : (s.startBlock k).ret = s.ret := rfl

@[simp] theorem State.endBlock_cfg (s : State) : s.endBlock.cfg = s.cfg := rfl
@[simp] theorem State.endBlock_cmd (s : State) : s.endBlock.cmd = s.cmd := rfl
@[simp] theorem State.endBlock_inp (s : State) : s.endBlock.inp = s.inp := rfl
@[simp] theorem State.endBlock_pos (s : State) : s.endBlock.pos = s.pos := rfl
@[simp] theorem State.endBlock_remaining (s : State) : s.endBlock.remaining = s.remaining := rfl
@[simp] theorem State.endBlock_acc (s : State) : s.endBlock.acc = s.acc := rfl
@[simp] theorem State.endBlock_error (s : State) : s.endBlock.error = s.error := rfl
@[simp] theorem State.endBlock_phase (s : State) : s.endBlock.phase = s.phase := rfl
@[simp] theorem State.endBlock_frame (s : State) : s.endBlock.frame = s.frame := rfl
@[simp] theorem State.endBlock_width (s : State) : s.endBlock.width = s.width := rfl
@[simp] theorem State.endBlock_height (s : State) : s.endBlock.height = s.height := rfl
@[simp] theorem State.endBlock_ncomp (s : State) : s.endBlock.ncomp = s.ncomp := rfl
@[simp] theorem State.endBlock_hmax (s : State) : s.endBlock.hmax = s.hmax := rfl
@[simp] theorem State.endBlock_vmax (s : State) : s.endBlock.vmax = s.vmax := rfl
@[simp] theorem State.endBlock_mcuW (s : State) : s.endBlock.mcuW = s.mcuW := rfl
@[simp] theorem State.endBlock_mcuH (s : State) : s.endBlock.mcuH = s.mcuH := rfl
@[simp] theorem State.endBlock_mbwidth (s : State) : s.endBlock.mbwidth = s.mbwidth := rfl
@[simp] theorem State.endBlock_mbheight (s : State) : s.endBlock.mbheight = s.mbheight := rfl
@[simp] theorem State.endBlock_qt (s : State) : s.endBlock.qt = s.qt := rfl
@[simp] theorem State.endBlock_qtAvail (s : State) : s.endBlock.qtAvail = s.qtAvail := rfl
@[simp] theorem State.endBlock_qtUsed (s : State) : s.endBlock.qtUsed = s.qtUsed := rfl
@[simp] theorem State.endBlock_ht (s : State) : s.endBlock.ht = s.ht := rfl
@[simp] theorem State.endBlock_restartInterval (s : State) : s.endBlock.restartInterval = s.restartInterval := rfl
@[simp] theorem State.endBlock_comps (s : State) : s.endBlock.comps = s.comps := rfl
@[simp] theorem State.endBlock_mbx (s : State) : s.endBlock.mbx = s.mbx := rfl
@[simp] theorem State.endBlock_mby (s : State) : s.endBlock.mby = s.mby := rfl
@[simp] theorem State.endBlock_rstCount (s : State) : s.endBlock.rstCount = s.rstCount := rfl
@[simp] theorem State.endBlock_nextRst (s : State) : s.endBlock.nextRst = s.nextRst := rfl
@[simp] theorem State.endBlock_seq (s : State) : s.endBlock.seq = { s.seq with stage := .idct } := rfl
@[simp] theorem State.endBlock_blk (s : State) : s.endBlock.blk = s.blk := rfl
@[simp] theorem State.endBlock_rgb (s : State) : s.endBlock.rgb = s.rgb := rfl
@[simp] theorem State.endBlock_live (s : State) : s.endBlock.live = s.live := rfl
@[simp] theorem State.endBlock_result (s : State) : s.endBlock.result = s.result := rfl
@[simp] theorem State.endBlock_regWidth (s : State) : s.endBlock.regWidth = s.regWidth := rfl
@[simp] theorem State.endBlock_regHeight (s : State) : s.endBlock.regHeight = s.regHeight := rfl
@[simp] theorem State.endBlock_regIsColor (s : State) : s.endBlock.regIsColor = s.regIsColor := rfl
@[simp] theorem State.endBlock_regOutSize (s : State) : s.endBlock.regOutSize = s.regOutSize := rfl
@[simp] theorem State.endBlock_regOutBuf (s : State) : s.endBlock.regOutBuf = s.regOutBuf := rfl
@[simp] theorem State.endBlock_ret (s : State) : s.endBlock.ret = s.ret := rfl

@[simp] theorem State.storeCoef_cfg (s : State) (c : Comp) (kz : Nat) (v : Word) : (s.storeCoef c kz v).cfg = s.cfg := rfl
@[simp] theorem State.storeCoef_cmd (s : State) (c : Comp) (kz : Nat) (v : Word) : (s.storeCoef c kz v).cmd = s.cmd := rfl
@[simp] theorem State.storeCoef_inp (s : State) (c : Comp) (kz : Nat) (v : Word) : (s.storeCoef c kz v).inp = s.inp := rfl
@[simp] theorem State.storeCoef_pos (s : State) (c : Comp) (kz : Nat) (v : Word) : (s.storeCoef c kz v).pos = s.pos := rfl
@[simp] theorem State.storeCoef_remaining (s : State) (c : Comp) (kz : Nat) (v : Word) : (s.storeCoef c kz v).remaining = s.remaining := rfl
@[simp] theorem State.storeCoef_acc (s : State) (c : Comp) (kz : Nat) (v : Word) : (s.storeCoef c kz v).acc = s.acc := rfl
@[simp] theorem State.storeCoef_error (s : State) (c : Comp) (kz : Nat) (v : Word) : (s.storeCoef c kz v).error = s.error := rfl
@[simp] theorem State.storeCoef_phase (s : State) (c : Comp) (kz : Nat) (v : Word) : (s.storeCoef c kz v).phase = s.phase := rfl
@[simp] theorem State.storeCoef_frame (s : State) (c : Comp) (kz : Nat) (v : Word) : (s.storeCoef c kz v).frame = s.frame := rfl
@[simp] theorem State.storeCoef_width (s : State) (c : Comp) (kz : Nat) (v : Word) : (s.storeCoef c kz v).width = s.width := rfl
@[simp] theorem State.storeCoef_height (s : State) (c : Comp) (kz : Nat) (v : Word) : (s.storeCoef c kz v).height = s.height := rfl
@[simp] theorem State.storeCoef_ncomp (s : State) (c : Comp) (kz : Nat) (v : Word) : (s.storeCoef c kz v).ncomp = s.ncomp := rfl
@[simp] theorem State.storeCoef_hmax (s : State) (c : Comp) (kz : Nat) (v : Word) : (s.storeCoef c kz v).hmax = s.hmax := rfl
@[simp] theorem State.storeCoef_vmax (s : State) (c : Comp) (kz : Nat) (v : Word) : (s.storeCoef c kz v).vmax = s.vmax := rfl
@[simp] theorem State.storeCoef_mcuW (s : State) (c : Comp) (kz : Nat) (v : Word) : (s.storeCoef c kz v).mcuW = s.mcuW := rfl
@[simp] theorem State.storeCoef_mcuH (s : State) (c : Comp) (kz : Nat) (v : Word) : (s.storeCoef c kz v).mcuH = s.mcuH := rfl
@[simp] theorem State.storeCoef_mbwidth (s : State) (c : Comp) (kz : Nat) (v : Word) : (s.storeCoef c kz v).mbwidth = s.mbwidth := rfl
@[simp] theorem State.storeCoef_mbheight (s : State) (c : Comp) (kz : Nat) (v : Word) : (s.storeCoef c kz v).mbheight = s.mbheight := rfl
@[simp] theorem State.storeCoef_qt (s : State) (c : Comp) (kz : Nat) (v : Word) : (s.storeCoef c kz v).qt = s.qt := rfl
@[simp] theorem State.storeCoef_qtAvail (s : State) (c : Comp) (kz : Nat) (v : Word) : (s.storeCoef c kz v).qtAvail = s.qtAvail := rfl
@[simp] theorem State.storeCoef_qtUsed (s : State) (c : Comp) (kz : Nat) (v : Word) : (s.storeCoef c kz v).qtUsed = s.qtUsed := rfl
@[simp] theorem State.storeCoef_ht (s : State) (c : Comp) (kz : Nat) (v : Word) : (s.storeCoef c kz v).ht = s.ht := rfl
@[simp] theorem State.storeCoef_restartInterval (s : State) (c : Comp) (kz : Nat) (v : Word) : (s.storeCoef c kz v).restartInterval = s.restartInterval := rfl
@[simp] theorem State.storeCoef_comps (s : State) (c : Comp) (kz : Nat) (v : Word) : (s.storeCoef c kz v).comps = s.comps := rfl
@[simp] theorem State.storeCoef_mbx (s : State) (c : Comp) (kz : Nat) (v : Word) : (s.storeCoef c kz v).mbx = s.mbx := rfl
@[simp] theorem State.storeCoef_mby (s : State) (c : Comp) (kz : Nat) (v : Word) : (s.storeCoef c kz v).mby = s.mby := rfl
@[simp] theorem State.storeCoef_rstCount (s : State) (c : Comp) (kz : Nat) (v : Word) : (s.storeCoef c kz v).rstCount = s.rstCount := rfl
@[simp] theorem State.storeCoef_nextRst (s : State) (c : Comp) (kz : Nat) (v : Word) : (s.storeCoef c kz v).nextRst = s.nextRst := rfl
@[simp] theorem State.storeCoef_seq (s : State) (c : Comp) (kz : Nat) (v : Word) : (s.storeCoef c kz v).seq = { s.seq with kz := kz, stage := if kz < 63 then .ac else .idct } := rfl
@[simp] theorem State.storeCoef_blk (s : State) (c : Comp) (kz : Nat) (v : Word) : (s.storeCoef c kz v).blk = blkSet s.blk (zzPos s.cfg kz).val (v * quantStep s c.qtsel kz) := rfl
@[simp] theorem State.storeCoef_rgb (s : State) (c : Comp) (kz : Nat) (v : Word) : (s.storeCoef c kz v).rgb = s.rgb := rfl
@[simp] theorem State.storeCoef_live (s : State) (c : Comp) (kz : Nat) (v : Word) : (s.storeCoef c kz v).live = s.live := rfl
@[simp] theorem State.storeCoef_result (s : State) (c : Comp) (kz : Nat) (v : Word) : (s.storeCoef c kz v).result = s.result := rfl
@[simp] theorem State.storeCoef_regWidth (s : State) (c : Comp) (kz : Nat) (v : Word) : (s.storeCoef c kz v).regWidth = s.regWidth := rfl
@[simp] theorem State.storeCoef_regHeight (s : State) (c : Comp) (kz : Nat) (v : Word) : (s.storeCoef c kz v).regHeight = s.regHeight := rfl
@[simp] theorem State.storeCoef_regIsColor (s : State) (c : Comp) (kz : Nat) (v : Word) : (s.storeCoef c kz v).regIsColor = s.regIsColor := rfl
@[simp] theorem State.storeCoef_regOutSize (s : State) (c : Comp) (kz : Nat) (v : Word) : (s.storeCoef c kz v).regOutSize = s.regOutSize := rfl
@[simp] theorem State.storeCoef_regOutBuf (s : State) (c : Comp) (kz : Nat) (v : Word) : (s.storeCoef c kz v).regOutBuf = s.regOutBuf := rfl
@[simp] theorem State.storeCoef_ret (s : State) (c : Comp) (kz : Nat) (v : Word) : (s.storeCoef c kz v).ret = s.ret := rfl

@[simp] theorem State.startMcu_cfg (s : State) : s.startMcu.cfg = s.cfg := rfl
@[simp] theorem State.startMcu_cmd (s : State) : s.startMcu.cmd = s.cmd := rfl
@[simp] theorem State.startMcu_inp (s : State) : s.startMcu.inp = s.inp := rfl
@[simp] theorem State.startMcu_pos (s : State) : s.startMcu.pos = s.pos := rfl
@[simp] theorem State.startMcu_remaining (s : State) : s.startMcu.remaining = s.remaining := rfl
@[simp] theorem State.startMcu_acc (s : State) : s.startMcu.acc = s.acc := rfl
@[simp] theorem State.startMcu_error (s : State) : s.startMcu.error = s.error := rfl
@[simp] theorem State.startMcu_phase (s : State) : s.startMcu.phase = s.phase := rfl
@[simp] theorem State.startMcu_frame (s : State) : s.startMcu.frame = s.frame := rfl
@[simp] theorem State.startMcu_width (s : State) : s.startMcu.width = s.width := rfl
@[simp] theorem State.startMcu_height (s : State) : s.startMcu.height = s.height := rfl
@[simp] theorem State.startMcu_ncomp (s : State) : s.startMcu.ncomp = s.ncomp := rfl
@[simp] theorem State.startMcu_hmax (s : State) : s.startMcu.hmax = s.hmax := rfl
@[simp] theorem State.startMcu_vmax (s : State) : s.startMcu.vmax = s.vmax := rfl
@[simp] theorem State.startMcu_mcuW (s : State) : s.startMcu.mcuW = s.mcuW := rfl
@[simp] theorem State.startMcu_mcuH (s : State) : s.startMcu.mcuH = s.mcuH := rfl
@[simp] theorem State.startMcu_mbwidth (s : State) : s.startMcu.mbwidth = s.mbwidth := rfl
@[simp] theorem State.startMcu_mbheight (s : State) : s.startMcu.mbheight = s.mbheight := rfl
@[simp] theorem State.startMcu_qt (s : State) : s.startMcu.qt = s.qt := rfl
@[simp] theorem State.startMcu_qtAvail (s : State) : s.startMcu.qtAvail = s.qtAvail := rfl
@[simp] theorem State.startMcu_qtUsed (s : State) : s.startMcu.qtUsed = s.qtUsed := rfl
@[simp] theorem State.startMcu_ht (s : State) : s.startMcu.ht = s.ht := rfl
@[simp] theorem State.startMcu_restartInterval (s : State) : s.startMcu.restartInterval = s.restartInterval := rfl
@[simp] theorem State.startMcu_comps (s : State) : s.startMcu.comps = s.comps := rfl
@[simp] theorem State.startMcu_mbx (s : State) : s.startMcu.mbx = s.mbx := rfl
@[simp] theorem State.startMcu_mby (s : State) : s.startMcu.mby = s.mby := rfl
@[simp] theorem State.startMcu_rstCount (s : State) : s.startMcu.rstCount = s.rstCount := rfl
@[simp] theorem State.startMcu_nextRst (s : State) : s.startMcu.nextRst = s.nextRst := rfl
@[simp] theorem State.startMcu_seq (s : State) : s.startMcu.seq = Seq.start := rfl
@[simp] theorem State.startMcu_blk (s : State) : s.startMcu.blk = Vector.replicate 64 0 := rfl
@[simp] theorem State.startMcu_rgb (s : State) : s.startMcu.rgb = s.rgb := rfl
@[simp] theorem State.startMcu_live (s : State) : s.startMcu.live = s.live := rfl
@[simp] theorem State.startMcu_result (s : State) : s.startMcu.result = s.result := rfl
@[simp] theorem State.startMcu_regWidth (s : State) : s.startMcu.regWidth = s.regWidth := rfl
@[simp] theorem State.startMcu_regHeight (s : State) : s.startMcu.regHeight = s.regHeight := rfl
@[simp] theorem State.startMcu_regIsColor (s : State) : s.startMcu.regIsColor = s.regIsColor := rfl
@[simp] theorem State.startMcu_regOutSize (s : State) : s.startMcu.regOutSize = s.regOutSize := rfl
@[simp] theorem State.startMcu_regOutBuf (s : State) : s.startMcu.regOutBuf = s.regOutBuf := rfl
@[simp] theorem State.startMcu_ret (s : State) : s.startMcu.ret = s.ret := rfl

@[simp] theorem State.startScan_cfg (s : State) : s.startScan.cfg = s.cfg := rfl
@[simp] theorem State.startScan_cmd (s : State) : s.startScan.cmd = s.cmd := rfl
@[simp] theorem State.startScan_inp (s : State) : s.startScan.inp = s.inp := rfl
@[simp] theorem State.startScan_pos (s : State) : s.startScan.pos = s.pos := rfl
@[simp] theorem State.startScan_remaining (s : State) : s.startScan.remaining = s.remaining := rfl
@[simp] theorem State.startScan_acc (s : State) : s.startScan.acc = s.acc := rfl
@[simp] theorem State.startScan_error (s : State) : s.startScan.error = s.error := rfl
@[simp] theorem State.startScan_phase (s : State) : s.startScan.phase = s.phase := rfl
@[simp] theorem State.startScan_frame (s : State) : s.startScan.frame = s.frame := rfl
@[simp] theorem State.startScan_width (s : State) : s.startScan.width = s.width := rfl
@[simp] theorem State.startScan_height (s : State) : s.startScan.height = s.height := rfl
@[simp] theorem State.startScan_ncomp (s : State) : s.startScan.ncomp = s.ncomp := rfl
@[simp] theorem State.startScan_hmax (s : State) : s.startScan.hmax = s.hmax := rfl
@[simp] theorem State.startScan_vmax (s : State) : s.startScan.vmax = s.vmax := rfl
@[simp] theorem State.startScan_mcuW (s : State) : s.startScan.mcuW = s.mcuW := rfl
@[simp] theorem State.startScan_mcuH (s : State) : s.startScan.mcuH = s.mcuH := rfl
@[simp] theorem State.startScan_mbwidth (s : State) : s.startScan.mbwidth = s.mbwidth := rfl
@[simp] theorem State.startScan_mbheight (s : State) : s.startScan.mbheight = s.mbheight := rfl
@[simp] theorem State.startScan_qt (s : State) : s.startScan.qt = s.qt := rfl
@[simp] theorem State.startScan_qtAvail (s : State) : s.startScan.qtAvail = s.qtAvail := rfl
@[simp] theorem State.startScan_qtUsed (s : State) : s.startScan.qtUsed = s.qtUsed := rfl
@[simp] theorem State.startScan_ht (s : State) : s.startScan.ht = s.ht := rfl
@[simp] theorem State.startScan_restartInterval (s : State) : s.startScan.restartInterval = s.restartInterval := rfl
@[simp] theorem State.startScan_comps (s : State) : s.startScan.comps = s.comps := rfl
@[simp] theorem State.startScan_mbx (s : State) : s.startScan.mbx = 0 := rfl
@[simp] theorem State.startScan_mby (s : State) : s.startScan.mby = 0 := rfl
@[simp] theorem State.startScan_rstCount (s : State) : s.startScan.rstCount = s.restartInterval.toNat := rfl
@[simp] theorem State.startScan_nextRst (s : State) : s.startScan.nextRst = 0 := rfl
@[simp] theorem State.startScan_seq (s : State) : s.startScan.seq = Seq.start := rfl
@[simp] theorem State.startScan_blk (s : State) : s.startScan.blk = Vector.replicate 64 0 := rfl
@[simp] theorem State.startScan_rgb (s : State) : s.startScan.rgb = s.rgb := rfl
@[simp] theorem State.startScan_live (s : State) : s.startScan.live = s.live := rfl
@[simp] theorem State.startScan_result (s : State) : s.startScan.result = s.result := rfl
@[simp] theorem State.startScan_regWidth (s : State) : s.startScan.regWidth = s.regWidth := rfl
@[simp] theorem State.startScan_regHeight (s : State) : s.startScan.regHeight = s.regHeight := rfl
@[simp] theorem State.startScan_regIsColor (s : State) : s.startScan.regIsColor = s.regIsColor := rfl
@[simp] theorem State.startScan_regOutSize (s : State) : s.startScan.regOutSize = s.regOutSize := rfl
@[simp] theorem State.startScan_regOutBuf (s : State) : s.startScan.regOutBuf = s.regOutBuf := rfl
@[simp] theorem State.startScan_ret (s : State) : s.startScan.ret = s.ret := rfl

@[simp] theorem State.endScan_cfg (s : State) : s.endScan.cfg = s.cfg := rfl
@[simp] theorem State.endScan_cmd (s : State) : s.endScan.cmd = s.cmd := rfl
@[simp] theorem State.endScan_inp (s : State) : s.endScan.inp = s.inp := rfl
@[simp] theorem State.endScan_pos (s : State) : s.endScan.pos = s.pos := rfl
@[simp] theorem State.endScan_remaining (s : State) : s.endScan.remaining = s.remaining := rfl
@[simp] theorem State.endScan_acc (s : State) : s.endScan.acc = [] := rfl
@[simp] theorem State.endScan_error (s : State) : s.endScan.error = s.error := rfl
@[simp] theorem State.endScan_phase (s : State) : s.endScan.phase = .convert := rfl
@[simp] theorem State.endScan_frame (s : State) : s.endScan.frame = s.frame := rfl
@[simp] theorem State.endScan_width (s : State) : s.endScan.width = s.width := rfl
@[simp] theorem State.endScan_height (s : State) : s.endScan.height = s.height := rfl
@[simp] theorem State.endScan_ncomp (s : State) : s.endScan.ncomp = s.ncomp := rfl
@[simp] theorem State.endScan_hmax (s : State) : s.endScan.hmax = s.hmax := rfl
@[simp] theorem State.endScan_vmax (s : State) : s.endScan.vmax = s.vmax := rfl
@[simp] theorem State.endScan_mcuW (s : State) : s.endScan.mcuW = s.mcuW := rfl
@[simp] theorem State.endScan_mcuH (s : State) : s.endScan.mcuH = s.mcuH := rfl
@[simp] theorem State.endScan_mbwidth (s : State) : s.endScan.mbwidth = s.mbwidth := rfl
@[simp] theorem State.endScan_mbheight (s : State) : s.endScan.mbheight = s.mbheight := rfl
@[simp] theorem State.endScan_qt (s : State) : s.endScan.qt = s.qt := rfl
@[simp] theorem State.endScan_qtAvail (s : State) : s.endScan.qtAvail = s.qtAvail := rfl
@[simp] theorem State.endScan_qtUsed (s : State) : s.endScan.qtUsed = s.qtUsed := rfl
@[simp] theorem State.endScan_ht (s : State) : s.endScan.ht = s.ht := rfl
@[simp] theorem State.endScan_restartInterval (s : State) : s.endScan.restartInterval = s.restartInterval := rfl
@[simp] theorem State.endScan_comps (s : State) : s.endScan.comps = s.comps := rfl
@[simp] theorem State.endScan_mbx (s : State) : s.endScan.mbx = s.mbx := rfl
@[simp] theorem State.endScan_mby (s : State) : s.endScan.mby = s.mby := rfl
@[simp] theorem State.endScan_rstCount (s : State) : s.endScan.rstCount = s.rstCount := rfl
@[simp] theorem State.endScan_nextRst (s : State) : s.endScan.nextRst = s.nextRst := rfl
@[simp] theorem State.endScan_seq (s : State) : s.endScan.seq = Seq.start := rfl
@[simp] theorem State.endScan_blk (s : State) : s.endScan.blk = s.blk := rfl
@[simp] theorem State.endScan_rgb (s : State) : s.endScan.rgb = s.rgb := rfl
@[simp] theorem State.endScan_live (s : State) : s.endScan.live = s.live := rfl
@[simp] theorem State.endScan_result (s : State) : s.endScan.result = s.result := rfl
@[simp] theorem State.endScan_regWidth (s : State) : s.endScan.regWidth = s.regWidth := rfl
@[simp] theorem State.endScan_regHeight (s : State) : s.endScan.regHeight = s.regHeight := rfl
@[simp] theorem State.endScan_regIsColor (s : State) : s.endScan.regIsColor = s.regIsColor := rfl
@[simp] theorem State.endScan_regOutSize (s : State) : s.endScan.regOutSize = s.regOutSize := rfl
@[simp] theorem State.endScan_regOutBuf (s : State) : s.endScan.regOutBuf = s.regOutBuf := rfl
@[simp] theorem State.endScan_ret (s : State) : s.endScan.ret = s.ret := rfl

@[simp] theorem State.awaitRestart_cfg (s : State) : s.awaitRestart.cfg = s.cfg := rfl
@[simp] theorem State.awaitRestart_cmd (s : State) : s.awaitRestart.cmd = s.cmd := rfl
@[simp] theorem State.awaitRestart_inp (s : State) : s.awaitRestart.inp = s.inp := rfl
@[simp] theorem State.awaitRestart_pos (s : State) : s.awaitRestart.pos = s.pos := rfl
@[simp] theorem State.awaitRestart_remaining (s : State) : s.awaitRestart.remaining = s.remaining := rfl
@[simp] theorem State.awaitRestart_acc (s : State) : s.awaitRestart.acc = s.acc := rfl
@[simp] theorem State.awaitRestart_error (s : State) : s.awaitRestart.error = s.error := rfl
@[simp] theorem State.awaitRestart_phase (s : State) : s.awaitRestart.phase = s.phase := rfl
@[simp] theorem State.awaitRestart_frame (s : State) : s.awaitRestart.frame = s.frame := rfl
@[simp] theorem State.awaitRestart_width (s : State) : s.awaitRestart.width = s.width := rfl
@[simp] theorem State.awaitRestart_height (s : State) : s.awaitRestart.height = s.height := rfl
@[simp] theorem State.awaitRestart_ncomp (s : State) : s.awaitRestart.ncomp = s.ncomp := rfl
@[simp] theorem State.awaitRestart_hmax (s : State) : s.awaitRestart.hmax = s.hmax := rfl
@[simp] theorem State.awaitRestart_vmax (s : State) : s.awaitRestart.vmax = s.vmax := rfl
@[simp] theorem State.awaitRestart_mcuW (s : State) : s.awaitRestart.mcuW = s.mcuW := rfl
@[simp] theorem State.awaitRestart_mcuH (s : State) : s.awaitRestart.mcuH = s.mcuH := rfl
@[simp] theorem State.awaitRestart_mbwidth (s : State) : s.awaitRestart.mbwidth = s.mbwidth := rfl
@[simp] theorem State.awaitRestart_mbheight (s : State) : s.awaitRestart.mbheight = s.mbheight := rfl
@[simp] theorem State.awaitRestart_qt (s : State) : s.awaitRestart.qt = s.qt := rfl
@[simp] theorem State.awaitRestart_qtAvail (s : State) : s.awaitRestart.qtAvail = s.qtAvail := rfl
@[simp] theorem State.awaitRestart_qtUsed (s : State) : s.awaitRestart.qtUsed = s.qtUsed := rfl
@[simp] theorem State.awaitRestart_ht (s : State) : s.awaitRestart.ht = s.ht := rfl
@[simp] theorem State.awaitRestart_restartInterval (s : State) : s.awaitRestart.restartInterval = s.restartInterval := rfl
@[simp] theorem State.awaitRestart_comps (s : State) : s.awaitRestart.comps = s.comps := rfl
@[simp] theorem State.awaitRestart_mbx (s : State) : s.awaitRestart.mbx = s.mbx := rfl
@[simp] theorem State.awaitRestart_mby (s : State) : s.awaitRestart.mby = s.mby := rfl
@[simp] theorem State.awaitRestart_rstCount (s : State) : s.awaitRestart.rstCount = s.rstCount := rfl
@[simp] theorem State.awaitRestart_nextRst (s : State) : s.awaitRestart.nextRst = s.nextRst := rfl
@[simp] theorem State.awaitRestart_seq (s : State) : s.awaitRestart.seq = { Seq.start with stage := .restart } := rfl
@[simp] theorem State.awaitRestart_blk (s : State) : s.awaitRestart.blk = s.blk := rfl
@[simp] theorem State.awaitRestart_rgb (s : State) : s.awaitRestart.rgb = s.rgb := rfl
@[simp] theorem State.awaitRestart_live (s : State) : s.awaitRestart.live = s.live := rfl
@[simp] theorem State.awaitRestart_result (s : State) : s.awaitRestart.result = s.result := rfl
@[simp] theorem State.awaitRestart_regWidth (s : State) : s.awaitRestart.regWidth = s.regWidth := rfl
@[simp] theorem State.awaitRestart_regHeight (s : State) : s.awaitRestart.regHeight = s.regHeight := rfl
@[simp] theorem State.awaitRestart_regIsColor (s : State) : s.awaitRestart.regIsColor = s.regIsColor := rfl
@[simp] theorem State.awaitRestart_regOutSize (s : State) : s.awaitRestart.regOutSize = s.regOutSize := rfl
@[simp] theorem State.awaitRestart_regOutBuf (s : State) : s.awaitRestart.regOutBuf = s.regOutBuf := rfl
@[simp] theorem State.awaitRestart_ret (s : State) : s.awaitRestart.ret = s.ret := rfl

@[simp] theorem State.restarted_cfg (s : State) : s.restarted.cfg = s.cfg := rfl
@[simp] theorem State.restarted_cmd (s : State) : s.restarted.cmd = s.cmd := rfl
@[simp] theorem State.restarted_inp (s : State) : s.restarted.inp = s.inp := rfl
@[simp] theorem State.restarted_pos (s : State) : s.restarted.pos = s.pos := rfl
@[simp] theorem State.restarted_remaining (s : State) : s.restarted.remaining = s.remaining := rfl
@[simp] theorem State.restarted_acc (s : State) : s.restarted.acc = s.acc := rfl
@[simp] theorem State.restarted_error (s : State) : s.restarted.error = s.error := rfl
@[simp] theorem State.restarted_phase (s : State) : s.restarted.phase = s.phase := rfl
@[simp] theorem State.restarted_frame (s : State) : s.restarted.frame = s.frame := rfl
@[simp] theorem State.restarted_width (s : State) : s.restarted.width = s.width := rfl
@[simp] theorem State.restarted_height (s : State) : s.restarted.height = s.height := rfl
@[simp] theorem State.restarted_ncomp (s : State) : s.restarted.ncomp = s.ncomp := rfl
@[simp] theorem State.restarted_hmax (s : State) : s.restarted.hmax = s.hmax := rfl
@[simp] theorem State.restarted_vmax (s : State) : s.restarted.vmax = s.vmax := rfl
@[simp] theorem State.restarted_mcuW (s : State) : s.restarted.mcuW = s.mcuW := rfl
@[simp] theorem State.restarted_mcuH (s : State) : s.restarted.mcuH = s.mcuH := rfl
@[simp] theorem State.restarted_mbwidth (s : State) : s.restarted.mbwidth = s.mbwidth := rfl
@[simp] theorem State.restarted_mbheight (s : State) : s.restarted.mbheight = s.mbheight := rfl
@[simp] theorem State.restarted_qt (s : State) : s.restarted.qt = s.qt := rfl
@[simp] theorem State.restarted_qtAvail (s : State) : s.restarted.qtAvail = s.qtAvail := rfl
@[simp] theorem State.restarted_qtUsed (s : State) : s.restarted.qtUsed = s.qtUsed := rfl
@[simp] theorem State.restarted_ht (s : State) : s.restarted.ht = s.ht := rfl
@[simp] theorem State.restarted_restartInterval (s : State) : s.restarted.restartInterval = s.restartInterval := rfl
@[simp] theorem State.restarted_comps (s : State) : s.restarted.comps = s.comps.map fun c => { c with dcpred := 0 } := rfl
@[simp] theorem State.restarted_mbx (s : State) : s.restarted.mbx = s.mbx := rfl
@[simp] theorem State.restarted_mby (s : State) : s.restarted.mby = s.mby := rfl
@[simp] theorem State.restarted_rstCount (s : State) : s.restarted.rstCount = s.restartInterval.toNat := rfl
@[simp] theorem State.restarted_nextRst (s : State) : s.restarted.nextRst = s.nextRst + 1 := rfl
@[simp] theorem State.restarted_seq (s : State) : s.restarted.seq = s.seq := rfl
@[simp] theorem State.restarted_blk (s : State) : s.restarted.blk = s.blk := rfl
@[simp] theorem State.restarted_rgb (s : State) : s.restarted.rgb = s.rgb := rfl
@[simp] theorem State.restarted_live (s : State) : s.restarted.live = s.live := rfl
@[simp] theorem State.restarted_result (s : State) : s.restarted.result = s.result := rfl
@[simp] theorem State.restarted_regWidth (s : State) : s.restarted.regWidth = s.regWidth := rfl
@[simp] theorem State.restarted_regHeight (s : State) : s.restarted.regHeight = s.regHeight := rfl
@[simp] theorem State.restarted_regIsColor (s : State) : s.restarted.regIsColor = s.regIsColor := rfl
@[simp] theorem State.restarted_regOutSize (s : State) : s.restarted.regOutSize = s.regOutSize := rfl
@[simp] theorem State.restarted_regOutBuf (s : State) : s.restarted.regOutBuf = s.regOutBuf := rfl
@[simp] theorem State.restarted_ret (s : State) : s.restarted.ret = s.ret := rfl

@[simp] theorem State.abort_cfg (s : State) (code : Code) : (s.abort code).cfg = s.cfg := rfl
@[simp] theorem State.abort_cmd (s : State) (code : Code) : (s.abort code).cmd = s.cmd := rfl
@[simp] theorem State.abort_inp (s : State) (code : Code) : (s.abort code).inp = s.inp := rfl
@[simp] theorem State.abort_pos (s : State) (code : Code) : (s.abort code).pos = s.pos := rfl
@[simp] theorem State.abort_remaining (s : State) (code : Code) : (s.abort code).remaining = s.remaining := rfl
@[simp] theorem State.abort_acc (s : State) (code : Code) : (s.abort code).acc = s.acc := rfl
@[simp] theorem State.abort_error (s : State) (code : Code) : (s.abort code).error = if s.error = .ok then code else s.error := rfl
@[simp] theorem State.abort_phase (s : State) (code : Code) : (s.abort code).phase = .done := rfl
@[simp] theorem State.abort_frame (s : State) (code : Code) : (s.abort code).frame = s.frame := rfl
@[simp] theorem State.abort_width (s : State) (code : Code) : (s.abort code).width = s.width := rfl
@[simp] theorem State.abort_height (s : State) (code : Code) : (s.abort code).height = s.height := rfl
@[simp] theorem State.abort_ncomp (s : State) (code : Code) : (s.abort code).ncomp = s.ncomp := rfl
@[simp] theorem State.abort_hmax (s : State) (code : Code) : (s.abort code).hmax = s.hmax := rfl
@[simp] theorem State.abort_vmax (s : State) (code : Code) : (s.abort code).vmax = s.vmax := rfl
@[simp] theorem State.abort_mcuW (s : State) (code : Code) : (s.abort code).mcuW = s.mcuW := rfl
@[simp] theorem State.abort_mcuH (s : State) (code : Code) : (s.abort code).mcuH = s.mcuH := rfl
@[simp] theorem State.abort_mbwidth (s : State) (code : Code) : (s.abort code).mbwidth = s.mbwidth := rfl
@[simp] theorem State.abort_mbheight (s : State) (code : Code) : (s.abort code).mbheight = s.mbheight := rfl
@[simp] theorem State.abort_qt (s : State) (code : Code) : (s.abort code).qt = s.qt := rfl
@[simp] theorem State.abort_qtAvail (s : State) (code : Code) : (s.abort code).qtAvail = s.qtAvail := rfl
@[simp] theorem State.abort_qtUsed (s : State) (code : Code) : (s.abort code).qtUsed = s.qtUsed := rfl
@[simp] theorem State.abort_ht (s : State) (code : Code) : (s.abort code).ht = s.ht := rfl
@[simp] theorem State.abort_restartInterval (s : State) (code : Code) : (s.abort code).restartInterval = s.restartInterval := rfl
@[simp] theorem State.abort_comps (s : State) (code : Code) : (s.abort code).comps = s.comps.map fun c => { c with pixels := none } := rfl
@[simp] theorem State.abort_mbx (s : State) (code : Code) : (s.abort code).mbx = s.mbx := rfl
@[simp] theorem State.abort_mby (s : State) (code : Code) : (s.abort code).mby = s.mby := rfl
@[simp] theorem State.abort_rstCount (s : State) (code : Code) : (s.abort code).rstCount = s.rstCount := rfl
@[simp] theorem State.abort_nextRst (s : State) (code : Code) : (s.abort code).nextRst = s.nextRst := rfl
@[simp] theorem State.abort_seq (s : State) (code : Code) : (s.abort code).seq = Seq.start := rfl
@[simp] theorem State.abort_blk (s : State) (code : Code) : (s.abort code).blk = s.blk := rfl
@[simp] theorem State.abort_rgb (s : State) (code : Code) : (s.abort code).rgb = none := rfl
@[simp] theorem State.abort_live (s : State) (code : Code) : (s.abort code).live = 0 := rfl
@[simp] theorem State.abort_result (s : State) (code : Code) : (s.abort code).result = .ended (if s.error = .ok then code else s.error) := rfl
@[simp] theorem State.abort_regWidth (s : State) (code : Code) : (s.abort code).regWidth = s.regWidth := rfl
@[simp] theorem State.abort_regHeight (s : State) (code : Code) : (s.abort code).regHeight = s.regHeight := rfl
@[simp] theorem State.abort_regIsColor (s : State) (code : Code) : (s.abort code).regIsColor = s.regIsColor := rfl
@[simp] theorem State.abort_regOutSize (s : State) (code : Code) : (s.abort code).regOutSize = s.regOutSize := rfl
@[simp] theorem State.abort_regOutBuf (s : State) (code : Code) : (s.abort code).regOutBuf = s.regOutBuf := rfl
@[simp] theorem State.abort_ret (s : State) (code : Code) : (s.abort code).ret = s.ret := rfl

@[simp] theorem State.decodeReset_cfg (s : State) (buf : List Byte) : (s.decodeReset buf).cfg = s.cfg := rfl
@[simp] theorem State.decodeReset_cmd (s : State) (buf : List Byte) : (s.decodeReset buf).cmd = State.reset.cmd := rfl
@[simp] theorem State.decodeReset_inp (s : State) (buf : List Byte) : (s.decodeReset buf).inp = Buffer.ofBytes buf := rfl
@[simp] theorem State.decodeReset_pos (s : State) (buf : List Byte) : (s.decodeReset buf).pos = State.reset.pos := rfl
@[simp] theorem State.decodeReset_remaining (s : State) (buf : List Byte) : (s.decodeReset buf).remaining = buf.length := rfl
@[simp] theorem State.decodeReset_acc (s : State) (buf : List Byte) : (s.decodeReset buf).acc = State.reset.acc := rfl
@[simp] theorem State.decodeReset_error (s : State) (buf : List Byte) : (s.decodeReset buf).error = State.reset.error := rfl
@[simp] theorem State.decodeReset_phase (s : State) (buf : List Byte) : (s.decodeReset buf).phase = .headers := rfl
@[simp] theorem State.decodeReset_frame (s : State) (buf : List Byte) : (s.decodeReset buf).frame = State.reset.frame := rfl
@[simp] theorem State.decodeReset_width (s : State) (buf : List Byte) : (s.decodeReset buf).width = State.reset.width := rfl
@[simp] theorem State.decodeReset_height (s : State) (buf : List Byte) : (s.decodeReset buf).height = State.reset.height := rfl
@[simp] theorem State.decodeReset_ncomp (s : State) (buf : List Byte) : (s.decodeReset buf).ncomp = State.reset.ncomp := rfl
@[simp] theorem State.decodeReset_hmax (s : State) (buf : List Byte) : (s.decodeReset buf).hmax = State.reset.hmax := rfl
@[simp] theorem State.decodeReset_vmax (s : State) (buf : List Byte) : (s.decodeReset buf).vmax = State.reset.vmax := rfl
@[simp] theorem State.decodeReset_mcuW (s : State) (buf : List Byte) : (s.decodeReset buf).mcuW = State.reset.mcuW := rfl
@[simp] theorem State.decodeReset_mcuH (s : State) (buf : List Byte) : (s.decodeReset buf).mcuH = State.reset.mcuH := rfl
@[simp] theorem State.decodeReset_mbwidth (s : State) (buf : List Byte) : (s.decodeReset buf).mbwidth = State.reset.mbwidth := rfl
@[simp] theorem State.decodeReset_mbheight (s : State) (buf : List Byte) : (s.decodeReset buf).mbheight = State.reset.mbheight := rfl
@[simp] theorem State.decodeReset_qt (s : State) (buf : List Byte) : (s.decodeReset buf).qt = State.reset.qt := rfl
@[simp] theorem State.decodeReset_qtAvail (s : State) (buf : List Byte) : (s.decodeReset buf).qtAvail = State.reset.qtAvail := rfl
@[simp] theorem State.decodeReset_qtUsed (s : State) (buf : List Byte) : (s.decodeReset buf).qtUsed = State.reset.qtUsed := rfl
@[simp] theorem State.decodeReset_ht (s : State) (buf : List Byte) : (s.decodeReset buf).ht = State.reset.ht := rfl
@[simp] theorem State.decodeReset_restartInterval (s : State) (buf : List Byte) : (s.decodeReset buf).restartInterval = State.reset.restartInterval := rfl
@[simp] theorem State.decodeReset_comps (s : State) (buf : List Byte) : (s.decodeReset buf).comps = State.reset.comps := rfl
@[simp] theorem State.decodeReset_mbx (s : State) (buf : List Byte) : (s.decodeReset buf).mbx = State.reset.mbx := rfl
@[simp] theorem State.decodeReset_mby (s : State) (buf : List Byte) : (s.decodeReset buf).mby = State.reset.mby := rfl
@[simp] theorem State.decodeReset_rstCount (s : State) (buf : List Byte) : (s.decodeReset buf).rstCount = State.reset.rstCount := rfl
@[simp] theorem State.decodeReset_nextRst (s : State) (buf : List Byte) : (s.decodeReset buf).nextRst = State.reset.nextRst := rfl
@[simp] theorem State.decodeReset_seq (s : State) (buf : List Byte) : (s.decodeReset buf).seq = State.reset.seq := rfl
@[simp] theorem State.decodeReset_blk (s : State) (buf : List Byte) : (s.decodeReset buf).blk = State.reset.blk := rfl
@[simp] theorem State.decodeReset_rgb (s : State) (buf : List Byte) : (s.decodeReset buf).rgb = State.reset.rgb := rfl
@[simp] theorem State.decodeReset_live (s : State) (buf : List Byte) : (s.decodeReset buf).live = State.reset.live := rfl
@[simp] theorem State.decodeReset_result (s : State) (buf : List Byte) : (s.decodeReset buf).result = s.result := rfl
@[simp] theorem State.decodeReset_regWidth (s : State) (buf : List Byte) : (s.decodeReset buf).regWidth = s.regWidth := rfl
@[simp] theorem State.decodeReset_regHeight (s : State) (buf : List Byte) : (s.decodeReset buf).regHeight = s.regHeight := rfl
@[simp] theorem State.decodeReset_regIsColor (s : State) (buf : List Byte) : (s.decodeReset buf).regIsColor = s.regIsColor := rfl
@[simp] theorem State.decodeReset_regOutSize (s : State) (buf : List Byte) : (s.decodeReset buf).regOutSize = s.regOutSize := rfl
@[simp] theorem State.decodeReset_regOutBuf (s : State) (buf : List Byte) : (s.decodeReset buf).regOutBuf = s.regOutBuf := rfl
@[simp] theorem State.decodeReset_ret (s : State) (buf : List Byte) : (s.decodeReset buf).ret = State.reset.ret := rfl

@[simp] theorem State.finish_cfg (s : State) : s.finish.cfg = s.cfg := rfl
@[simp] theorem State.finish_cmd (s : State) : s.finish.cmd = s.cmd := rfl
@[simp] theorem State.finish_inp (s : State) : s.finish.inp = s.inp := rfl
@[simp] theorem State.finish_pos (s : State) : s.finish.pos = s.pos := rfl
@[simp] theorem State.finish_remaining (s : State) : s.finish.remaining = s.remaining := rfl
@[simp] theorem State.finish_acc (s : State) : s.finish.acc = s.acc := rfl
@[simp] theorem State.finish_error (s : State) : s.finish.error = s.error := rfl
@[simp] theorem State.finish_phase (s : State) : s.finish.phase = .done := rfl
@[simp] theorem State.finish_frame (s : State) : s.finish.frame = s.frame := rfl
@[simp] theorem State.finish_width (s : State) : s.finish.width = s.width := rfl
@[simp] theorem State.finish_height (s : State) : s.finish.height = s.height := rfl
@[simp] theorem State.finish_ncomp (s : State) : s.finish.ncomp = s.ncomp := rfl
@[simp] theorem State.finish_hmax (s : State) : s.finish.hmax = s.hmax := rfl
@[simp] theorem State.finish_vmax (s : State) : s.finish.vmax = s.vmax := rfl
@[simp] theorem State.finish_mcuW (s : State) : s.finish.mcuW = s.mcuW := rfl
@[simp] theorem State.finish_mcuH (s : State) : s.finish.mcuH = s.mcuH := rfl
@[simp] theorem State.finish_mbwidth (s : State) : s.finish.mbwidth = s.mbwidth := rfl
@[simp] theorem State.finish_mbheight (s : State) : s.finish.mbheight = s.mbheight := rfl
@[simp] theorem State.finish_qt (s : State) : s.finish.qt = s.qt := rfl
@[simp] theorem State.finish_qtAvail (s : State) : s.finish.qtAvail = s.qtAvail := rfl
@[simp] theorem State.finish_qtUsed (s : State) : s.finish.qtUsed = s.qtUsed := rfl
@[simp] theorem State.finish_ht (s : State) : s.finish.ht = s.ht := rfl
@[simp] theorem State.finish_restartInterval (s : State) : s.finish.restartInterval = s.restartInterval := rfl
@[simp] theorem State.finish_comps (s : State) : s.finish.comps = s.comps := rfl
@[simp] theorem State.finish_mbx (s : State) : s.finish.mbx = s.mbx := rfl
@[simp] theorem State.finish_mby (s : State) : s.finish.mby = s.mby := rfl
@[simp] theorem State.finish_rstCount (s : State) : s.finish.rstCount = s.rstCount := rfl
@[simp] theorem State.finish_nextRst (s : State) : s.finish.nextRst = s.nextRst := rfl
@[simp] theorem State.finish_seq (s : State) : s.finish.seq = s.seq := rfl
@[simp] theorem State.finish_blk (s : State) : s.finish.blk = s.blk := rfl
@[simp] theorem State.finish_rgb (s : State) : s.finish.rgb = s.rgb := rfl
@[simp] theorem State.finish_live (s : State) : s.finish.live = s.live := rfl
@[simp] theorem State.finish_result (s : State) : s.finish.result = .ended .ok := rfl
@[simp] theorem State.finish_regWidth (s : State) : s.finish.regWidth = s.width := rfl
@[simp] theorem State.finish_regHeight (s : State) : s.finish.regHeight = s.height := rfl
@[simp] theorem State.finish_regIsColor (s : State) : s.finish.regIsColor = s.isColor := rfl
@[simp] theorem State.finish_regOutSize (s : State) : s.finish.regOutSize = outSizeWord s.outBytes := rfl
@[simp] theorem State.finish_regOutBuf (s : State) : s.finish.regOutBuf = if s.isColor then .rgb else .plane0 := rfl
@[simp] theorem State.finish_ret (s : State) : s.finish.ret = s.ret := rfl

end Sys2Proof.Machine
end

