-- ==== Sys2Proof/Laws/Eng.lean ====
section
/-! SUPPORT. How `Post` goes through the engine's operations: answers, aborts, faults, binds and loops. -/

namespace Sys2Proof.Machine

@[simp] theorem post_ok {α : Type} (a : α) (yes : α → Prop) (ab : State → Prop) (ft : Prop) :
    Post (.ok a : Eng α) yes ab ft ↔ yes a := Iff.rfl

@[simp] theorem post_pure {α : Type} (a : α) (yes : α → Prop) (ab : State → Prop) (ft : Prop) :
    Post (pure a : Eng α) yes ab ft ↔ yes a := Iff.rfl

@[simp] theorem post_aborted {α : Type} (s : State) (yes : α → Prop) (ab : State → Prop) (ft : Prop) :
    Post (.error (.aborted s) : Eng α) yes ab ft ↔ ab s := Iff.rfl

@[simp] theorem post_fault {α : Type} (f : Fault) (yes : α → Prop) (ab : State → Prop) (ft : Prop) :
    Post (.error (.fault f) : Eng α) yes ab ft ↔ ft := Iff.rfl

@[simp] theorem post_raise {α : Type} (c : Code) (s : State) (yes : α → Prop) (ab : State → Prop)
    (ft : Prop) : Post (raise c s : Eng α) yes ab ft ↔ ab (s.abort c) := Iff.rfl

@[simp] theorem post_stuck {α : Type} (f : Fault) (yes : α → Prop) (ab : State → Prop) (ft : Prop) :
    Post (stuck f : Eng α) yes ab ft ↔ ft := Iff.rfl

/-- A bind answers as its parts do, in order. -/
@[simp] theorem post_bind {α β : Type} (m : Eng α) (f : α → Eng β) (yes : β → Prop) (ab : State → Prop)
    (ft : Prop) : Post (m >>= f) yes ab ft ↔ Post m (fun a => Post (f a) yes ab ft) ab ft := by
  cases m with
  | ok a => rfl
  | error e => cases e <;> rfl

theorem Post.mono {α : Type} {m : Eng α} {yes yes' : α → Prop} {ab ab' : State → Prop} {ft ft' : Prop}
    (h : Post m yes ab ft) (hy : ∀ a, yes a → yes' a) (ha : ∀ s, ab s → ab' s) (hf : ft → ft') :
    Post m yes' ab' ft' := by
  cases m with
  | ok a => exact hy a h
  | error e =>
    cases e with
    | aborted s => exact ha s h
    | fault f => exact hf h

/-- Weaken what is known of the value only. -/
theorem Post.imp {α : Type} {m : Eng α} {yes yes' : α → Prop} {ab : State → Prop} {ft : Prop}
    (h : Post m yes ab ft) (hy : ∀ a, yes a → yes' a) : Post m yes' ab ft :=
  h.mono hy (fun _ h => h) (fun h => h)

/-- What two arguments say of one operation holds together. -/
theorem Post.and {α : Type} {m : Eng α} {y1 y2 : α → Prop} {a1 a2 : State → Prop} {f1 f2 : Prop}
    (h1 : Post m y1 a1 f1) (h2 : Post m y2 a2 f2) :
    Post m (fun a => y1 a ∧ y2 a) (fun s => a1 s ∧ a2 s) (f1 ∧ f2) := by
  cases m with
  | ok a => exact ⟨h1, h2⟩
  | error e => cases e <;> exact ⟨h1, h2⟩

/-- An abort from a state with the error, the command, the input and the registers of s. -/
theorem abortsWith_abort {s u : State} (code : Code) (h1 : u.error = s.error) (h2 : u.cfg = s.cfg)
    (h3 : u.cmd = s.cmd) (h4 : u.inp = s.inp) (h5 : u.regWidth = s.regWidth) (h6 : u.regHeight = s.regHeight)
    (h7 : u.regIsColor = s.regIsColor) (h8 : u.regOutSize = s.regOutSize) (h9 : u.regOutBuf = s.regOutBuf) :
    AbortsWith s code (.next (u.abort code)) := by
  refine ⟨_, rfl, rfl, ?_, rfl, fun c hc => ?_, rfl, rfl, h2, h3, h4, h5, h6, h7, h8, h9⟩
  · show (if u.error = .ok then code else u.error) = _
    rw [h1]
  · obtain ⟨d, _, rfl⟩ := List.mem_map.mp hc
    rfl

/-- An operation that cannot fault concludes in a next state. -/
theorem answers_of_post {m : Eng State} {P : State → Prop} (h : Post m P P False) :
    Answers (conclude m) P := by
  cases m with
  | ok s => exact ⟨s, rfl, h⟩
  | error e =>
    cases e with
    | aborted s => exact ⟨s, rfl, h⟩
    | fault f => exact h.elim

/-- Whatever the operation answers, its next state has the property. -/
theorem keeps_of_post {m : Eng State} {P : State → Prop} (h : Post m P P True) :
    Keeps (conclude m) P := by
  intro t ht
  cases m with
  | ok s => cases ht; exact h
  | error e =>
    cases e with
    | aborted s => cases ht; exact h
    | fault f => cases ht

/-- A counted loop: what holds before turn i, given an invariant `P i` that each turn moves on. -/
theorem forUp_post {body : Nat → State → Eng State} {P : Nat → State → Prop} {ab : State → Prop}
    {ft : Prop} (n i : Nat) (s : State) (h : P i s)
    (hb : ∀ j s, i ≤ j → j < i + n → P j s → Post (body j s) (P (j + 1)) ab ft) :
    Post (forUp body n i s) (P (i + n)) ab ft := by
  induction n generalizing i s with
  | zero => exact h
  | succ n ih =>
    simp only [forUp, post_bind]
    refine (hb i s (Nat.le_refl i) (by omega) h).imp fun s' hs' => ?_
    have := ih (i + 1) s' hs' fun j t h1 h2 ht => hb j t (by omega) (by omega) ht
    rwa [Nat.add_right_comm] at this

/-- A counted loop whose turns all keep P. -/
theorem forUp_keeps {body : Nat → State → Eng State} {P ab : State → Prop} {ft : Prop} (n i : Nat)
    (s : State) (h : P s) (hb : ∀ j s, P s → Post (body j s) P ab ft) :
    Post (forUp body n i s) P ab ft :=
  forUp_post (P := fun _ => P) n i s h fun j s _ _ hs => hb j s hs

end Sys2Proof.Machine
end

