-- ==== Sys2Proof/Laws/Memory.lean ====
section
/-! SUPPORT. The laws of byte memory: a read after a write, a write leaves other bytes alone, every operation
keeps the canonical form, and what a list of bytes laid into memory reads as. -/

namespace Sys2Proof.Machine

@[simp] theorem Memory.read_nil (i : Nat) : Memory.read [] i = none := rfl

theorem Memory.read_write_same (m : Memory) (i : Nat) (v : Byte) : (m.write i v).read i = some v := by
  induction m with
  | nil => simp [Memory.write, Memory.read]
  | cons c rest ih =>
    obtain ⟨a, b⟩ := c
    simp only [Memory.write]
    split
    · simp [Memory.read]
    · split
      · simp [Memory.read]
      · simp [Memory.read, *]

theorem Memory.read_write_other (m : Memory) (i j : Nat) (v : Byte) (h : j ≠ i) :
    (m.write i v).read j = m.read j := by
  induction m with
  | nil => simp [Memory.write, Memory.read, h]
  | cons c rest ih =>
    obtain ⟨a, b⟩ := c
    simp only [Memory.write]
    split
    · subst i; simp [Memory.read, h]
    · split
      · simp only [Memory.read, h, if_false]
        split
        · simp [show j ≠ a by omega, show j < a by omega]
        · rfl
      · simp [Memory.read, ih]

theorem Memory.read_write (m : Memory) (i j : Nat) (v : Byte) :
    (m.write i v).read j = if j = i then some v else m.read j := by
  split
  · subst j; exact m.read_write_same i v
  · exact m.read_write_other i j v ‹_›

theorem Memory.risingFrom_mono {n k : Nat} {m : Memory} (h : m.risingFrom n = true) (hk : k ≤ n) :
    m.risingFrom k = true := by
  cases m with
  | nil => rfl
  | cons c rest =>
    obtain ⟨a, b⟩ := c
    simp only [Memory.risingFrom, Bool.and_eq_true, decide_eq_true_eq] at h ⊢
    exact ⟨by omega, h.2⟩

theorem Memory.risingFrom_write {n i : Nat} {v : Byte} {m : Memory} (h : m.risingFrom n = true)
    (hi : n ≤ i) : (m.write i v).risingFrom n = true := by
  induction m generalizing n with
  | nil => simp [Memory.write, Memory.risingFrom, hi]
  | cons c rest ih =>
    obtain ⟨a, b⟩ := c
    simp only [Memory.risingFrom, Bool.and_eq_true, decide_eq_true_eq] at h
    simp only [Memory.write]
    split
    · subst i; simp [Memory.risingFrom, hi, h.2]
    · split
      · simp [Memory.risingFrom, hi, h.2, show i + 1 ≤ a by omega]
      · simp [Memory.risingFrom, h.1, ih h.2 (by omega)]

theorem Memory.wf_write {m : Memory} (i : Nat) (v : Byte) (h : m.wf = true) : (m.write i v).wf = true :=
  Memory.risingFrom_write h (Nat.zero_le i)

theorem Memory.below_write {n i : Nat} {v : Byte} {m : Memory} (h : m.below n = true) (hi : i < n) :
    (m.write i v).below n = true := by
  induction m with
  | nil => simp [Memory.write, Memory.below, hi]
  | cons c rest ih =>
    obtain ⟨a, b⟩ := c
    simp only [Memory.below, List.all_cons, Bool.and_eq_true, decide_eq_true_eq] at h ih
    simp only [Memory.write]
    split
    · simp [Memory.below, hi]; simpa [Memory.below] using h.2
    · split
      · simp [Memory.below, hi, h.1]; simpa [Memory.below] using h.2
      · simp only [Memory.below, List.all_cons, Bool.and_eq_true, decide_eq_true_eq]
        exact ⟨h.1, ih h.2⟩

/-- A byte with a value lies at or above the bound the memory rises from. -/
theorem Memory.le_of_read {n i : Nat} {v : Byte} {m : Memory} (h : m.risingFrom n = true)
    (hr : m.read i = some v) : n ≤ i := by
  induction m generalizing n with
  | nil => cases hr
  | cons c rest ih =>
    obtain ⟨a, b⟩ := c
    simp only [Memory.risingFrom, Bool.and_eq_true, decide_eq_true_eq] at h
    simp only [Memory.read] at hr
    split at hr
    · omega
    · split at hr
      · cases hr
      · have := ih h.2 hr; omega

/-- A byte with a value lies below the bound of the memory. -/
theorem Memory.lt_of_read {n i : Nat} {v : Byte} {m : Memory} (h : m.below n = true)
    (hr : m.read i = some v) : i < n := by
  induction m with
  | nil => cases hr
  | cons c rest ih =>
    obtain ⟨a, b⟩ := c
    simp only [Memory.below, List.all_cons, Bool.and_eq_true, decide_eq_true_eq] at h ih
    simp only [Memory.read] at hr
    split at hr
    · omega
    · split at hr
      · cases hr
      · exact ih h.2 hr

/-! ### A list of bytes laid into memory -/

theorem Memory.read_ofBytes (bs : List Byte) (base i : Nat) (hi : base ≤ i) :
    (Memory.ofBytes base bs).read i = bs[i - base]? := by
  induction bs generalizing base with
  | nil => simp [Memory.ofBytes]
  | cons b bs ih =>
    simp only [Memory.ofBytes, Memory.read]
    split
    · subst i; simp
    · have hlt : base < i := by omega
      rw [if_neg (by omega), ih (base + 1) (by omega)]
      obtain ⟨d, rfl⟩ : ∃ d, i = base + 1 + d := ⟨i - base - 1, by omega⟩
      simp [show base + 1 + d - base = d + 1 by omega]

theorem Memory.risingFrom_ofBytes (bs : List Byte) (base : Nat) :
    (Memory.ofBytes base bs).risingFrom base = true := by
  induction bs generalizing base with
  | nil => rfl
  | cons b bs ih => simp [Memory.ofBytes, Memory.risingFrom, ih]

theorem Memory.below_ofBytes (bs : List Byte) (base : Nat) :
    (Memory.ofBytes base bs).below (base + bs.length) = true := by
  induction bs generalizing base with
  | nil => rfl
  | cons b bs ih =>
    have := ih (base + 1)
    rw [show base + 1 + bs.length = base + (b :: bs).length by simp only [List.length_cons]; omega] at this
    simp only [Memory.below, Memory.ofBytes, List.all_cons, Bool.and_eq_true, decide_eq_true_eq]
    exact ⟨by simp only [List.length_cons]; omega, this⟩

@[simp] theorem Buffer.read_ofBytes (bs : List Byte) (i : Nat) : (Buffer.ofBytes bs).mem.read i = bs[i]? := by
  simpa [Buffer.ofBytes] using Memory.read_ofBytes bs 0 i (Nat.zero_le i)

@[simp] theorem Buffer.size_ofBytes (bs : List Byte) : (Buffer.ofBytes bs).size = bs.length := rfl

theorem Buffer.wf_ofBytes (bs : List Byte) : (Buffer.ofBytes bs).wf = true := by
  have h1 := Memory.risingFrom_ofBytes bs 0
  have h2 := Memory.below_ofBytes bs 0
  rw [Nat.zero_add] at h2
  simp [Buffer.wf, Buffer.ofBytes, Memory.wf, h1, h2]

theorem Buffer.wf_fresh (n : Nat) : (Buffer.fresh n).wf = true := by
  simp [Buffer.wf, Buffer.fresh, Memory.wf, Memory.risingFrom, Memory.below]

@[simp] theorem Buffer.size_fresh (n : Nat) : (Buffer.fresh n).size = n := rfl

@[simp] theorem Buffer.read_fresh (n i : Nat) : (Buffer.fresh n).mem.read i = none := rfl

/-! ### Runs of bytes -/

theorem Memory.length_bytesAt_le (m : Memory) (i n : Nat) : (m.bytesAt i n).length ≤ n := by
  induction m generalizing i n with
  | nil => simp [Memory.bytesAt]
  | cons c rest ih =>
    obtain ⟨a, b⟩ := c
    simp only [Memory.bytesAt]
    split
    · exact ih i n
    · split
      · have := ih (i + 1) (n - 1)
        simp only [List.length_cons]; omega
      · simp

/-- Every byte of a run is the byte at its address. -/
theorem Memory.read_of_bytesAt {m : Memory} {k i n j : Nat} {v : Byte} (h : m.risingFrom k = true)
    (hj : (m.bytesAt i n)[j]? = some v) : m.read (i + j) = some v := by
  induction m generalizing k i n j with
  | nil => simp [Memory.bytesAt] at hj
  | cons c rest ih =>
    obtain ⟨a, b⟩ := c
    simp only [Memory.risingFrom, Bool.and_eq_true, decide_eq_true_eq] at h
    simp only [Memory.bytesAt] at hj
    split at hj
    · have hr := ih h.2 hj
      simp [Memory.read, show ¬ (i + j = a) by omega, show ¬ (i + j < a) by omega, hr]
    · split at hj
      · cases j with
        | zero => simp_all [Memory.read]
        | succ j =>
          have hr := ih h.2 (by simpa using hj)
          have := Memory.le_of_read h.2 hr
          simp only [Memory.read, show ¬ (i + (j + 1) = a) by omega, show ¬ (i + (j + 1) < a) by omega,
            if_false]
          rw [← hr]; congr 1; omega
      · simp at hj

/-- A run over bytes that all have values is as long as asked, and holds them in order. -/
theorem Memory.bytesAt_of_resident {m : Memory} {k i n : Nat} (h : m.risingFrom k = true)
    (hr : ∀ j, j < n → (m.read (i + j)).isSome = true) {j : Nat} (hj : j < n) :
    (m.bytesAt i n)[j]? = m.read (i + j) := by
  induction m generalizing k i n j with
  | nil => have := hr 0 (by omega); simp at this
  | cons c rest ih =>
    obtain ⟨a, b⟩ := c
    simp only [Memory.risingFrom, Bool.and_eq_true, decide_eq_true_eq] at h
    have hskip : ∀ x, a < x → Memory.read ((a, b) :: rest) x = Memory.read rest x := by
      intro x hx
      simp [Memory.read, show ¬ x = a by omega, show ¬ x < a by omega]
    have h0 := hr 0 (by omega)
    have hai : a ≤ i := by
      by_contra hlt
      simp [Memory.read, show ¬ i = a by omega, show i < a by omega] at h0
    simp only [Memory.bytesAt]
    split
    · rw [ih h.2 (fun j hj => by rw [← hskip _ (by omega)]; exact hr j hj) hj, hskip _ (by omega)]
    · have hia : a = i := by omega
      subst a
      rw [if_pos ⟨rfl, by omega⟩]
      cases j with
      | zero => simp [Memory.read]
      | succ j =>
        rw [List.getElem?_cons_succ,
          ih (i := i + 1) (n := n - 1) h.2
            (fun j hj => by
              rw [← hskip _ (by omega), show i + 1 + j = i + (j + 1) by omega]
              exact hr (j + 1) (by omega)) (by omega),
          hskip _ (by omega)]
        congr 1; omega

theorem Memory.length_bytesAt_of_resident {m : Memory} {k i n : Nat} (h : m.risingFrom k = true)
    (hr : ∀ j, j < n → (m.read (i + j)).isSome = true) : (m.bytesAt i n).length = n := by
  refine Nat.le_antisymm (m.length_bytesAt_le i n) ?_
  by_contra hlt
  have hj := Memory.bytesAt_of_resident h hr (j := (m.bytesAt i n).length) (by omega)
  have hs := hr _ (Nat.lt_of_not_le hlt)
  rw [List.getElem?_eq_none (Nat.le_refl _)] at hj
  rw [← hj] at hs
  cases hs

/-! ### Buffers -/

/-- What a byte read can answer. -/
theorem Buffer.get_post (b : Buffer) (sp : Space) (i : Nat) (ab : State → Prop) (ft : Prop)
    (hf : b.has i = false → ft) : Post (b.get sp i) (fun v => i < b.size ∧ b.mem.read i = some v) ab ft := by
  unfold Buffer.get
  unfold Buffer.has at hf
  split
  · split
    · exact ⟨‹_›, ‹_›⟩
    · exact hf (by simp [*])
  · exact hf (by simp [*])

theorem Buffer.get_ok {b : Buffer} {i : Nat} {v : Byte} (sp : Space) (hi : i < b.size)
    (hr : b.mem.read i = some v) : b.get sp i = .ok v := by
  simp [Buffer.get, hi, hr]

theorem Buffer.put_ok {b : Buffer} {i : Nat} (sp : Space) (v : Byte) (hi : i < b.size) :
    b.put sp i v = .ok { b with mem := b.mem.write i v } := by
  simp [Buffer.put, hi]

theorem Buffer.wf_put {b : Buffer} {i : Nat} (v : Byte) (h : b.wf = true) (hi : i < b.size) :
    ({ b with mem := b.mem.write i v } : Buffer).wf = true := by
  simp only [Buffer.wf, Bool.and_eq_true] at h ⊢
  exact ⟨Memory.wf_write i v h.1, Memory.below_write h.2 hi⟩

end Sys2Proof.Machine
end

