-- ==== Sys2Proof/Laws/Reader.lean ====
section
/-! SUPPORT. What the bit reader's operations can do: the stream position and the accumulator move, and nothing
else; they fault only where the input is not there. -/

namespace Sys2Proof.Machine

@[simp] theorem length_bits8 (b : Byte) : (bits8 b).length = 8 := rfl

/-- t is s after taking input: only the stream position and the accumulator differ. -/
structure Reads (s t : State) : Prop where
  frame : t = { s with pos := t.pos, remaining := t.remaining, acc := t.acc }
  pos_le : s.pos ≤ t.pos
  remaining_le : t.remaining ≤ s.remaining
  position : s.positionOk → t.positionOk

theorem Reads.refl (s : State) : Reads s s :=
  ⟨rfl, Nat.le_refl _, Int.le_refl _, id⟩

theorem Reads.trans {s t u : State} (h1 : Reads s t) (h2 : Reads t u) : Reads s u := by
  refine ⟨?_, Nat.le_trans h1.pos_le h2.pos_le, Int.le_trans h2.remaining_le h1.remaining_le,
    fun h => h2.position (h1.position h)⟩
  have := h2.frame
  rw [h1.frame] at this
  exact this

theorem Reads.inp {s t : State} (h : Reads s t) : t.inp = s.inp := by rw [h.frame]
theorem Reads.comps {s t : State} (h : Reads s t) : t.comps = s.comps := by rw [h.frame]
theorem Reads.error {s t : State} (h : Reads s t) : t.error = s.error := by rw [h.frame]
theorem Reads.phase {s t : State} (h : Reads s t) : t.phase = s.phase := by rw [h.frame]
theorem Reads.cfg {s t : State} (h : Reads s t) : t.cfg = s.cfg := by rw [h.frame]
theorem Reads.ht {s t : State} (h : Reads s t) : t.ht = s.ht := by rw [h.frame]
theorem Reads.seq {s t : State} (h : Reads s t) : t.seq = s.seq := by rw [h.frame]
theorem Reads.rgb {s t : State} (h : Reads s t) : t.rgb = s.rgb := by rw [h.frame]
theorem Reads.mbx {s t : State} (h : Reads s t) : t.mbx = s.mbx := by rw [h.frame]
theorem Reads.mby {s t : State} (h : Reads s t) : t.mby = s.mby := by rw [h.frame]
theorem Reads.nextRst {s t : State} (h : Reads s t) : t.nextRst = s.nextRst := by rw [h.frame]

theorem Reads.inputOk {s t : State} (h : Reads s t) (hi : s.inputOk) : t.inputOk := by
  refine ⟨by rw [h.inp]; exact hi.1, ?_, h.position hi.2.2⟩
  unfold State.inputResident
  rw [h.inp]
  exact hi.2.1

theorem reads_dropBits (s : State) (n : Nat) : Reads s (s.dropBits n) :=
  ⟨rfl, Nat.le_refl _, Int.le_refl _, id⟩

theorem reads_push (s : State) (b : Byte) : Reads s (s.push b) :=
  ⟨rfl, Nat.le_refl _, Int.le_refl _, id⟩

/-- A byte of the input can be read wherever the engine may still take one. -/
theorem inByte_pos (s : State) (i : Nat) (yes : Byte → Prop) (ab : State → Prop)
    (h : ∀ v, i < s.inp.size → s.inp.mem.read i = some v → yes v) :
    Post (inByte i s) yes ab (¬ (s.inputResident ∧ i < s.inp.size)) := by
  unfold inByte
  refine (Buffer.get_post s.inp .input i ab _ fun hh hr => ?_).imp fun v hv => h v hv.1 hv.2
  obtain ⟨b, hb⟩ := hr.1 i hr.2
  simp [Buffer.has, hr.2, hb] at hh

/-- An aborted read: SYNTAX_ERROR after at most eight more bits. -/
def ReadAborts (s t : State) : Prop :=
  ∃ u, Reads s u ∧ u.acc.length ≤ s.acc.length + 8 ∧ t = u.abort .syntaxError

/-- REFILL appends one or two bytes, or ends the DECODE. -/
theorem refill_post (s : State) :
    Post (refillOp s) (fun t => Reads s t ∧ ∃ bits, t.acc = s.acc ++ bits ∧
      (bits.length = 8 ∨ bits.length = 16)) (ReadAborts s) (¬ s.inputOk) := by
  have hin : ∀ d : Nat, (d : Int) < s.remaining →
      ¬ (s.inputResident ∧ s.pos + d < s.inp.size) → ¬ s.inputOk := by
    intro d hd hn ⟨_, h1, h2, h3⟩
    exact hn ⟨h1, by omega⟩
  have hmove : ∀ (t : State) (d : Nat) (r : Int),
      t = { s with pos := s.pos + d, remaining := r, acc := t.acc } → s.pos + d ≤ s.inp.size →
      0 < s.remaining → (r = s.remaining - d ∨ r = 0) → Reads s t := by
    intro t d r ht hd hs hr
    rw [ht]
    refine ⟨rfl, by simp, by show r ≤ s.remaining; omega, ?_⟩
    intro ⟨h1, h2⟩
    exact ⟨hd, by show r ≤ 0 ∨ r = (s.inp.size : Int) - (s.pos + d : Nat); omega⟩
  unfold refillOp
  split
  · exact ⟨reads_push s _, _, rfl, .inl rfl⟩
  · rename_i hrem
    rw [post_bind]
    refine Post.mono (inByte_pos s s.pos (fun b => s.pos < s.inp.size) _ fun v hv _ => hv)
      (fun b hb => ?_) (fun _ h => h) (hin 0 (by omega))
    split
    · exact ⟨hmove _ 1 (s.remaining - 1) rfl hb (by omega) (.inl rfl), _, rfl, .inl rfl⟩
    · split
      · refine ⟨dataByte 0xFF s, hmove _ 1 (s.remaining - 1) rfl hb (by omega) (.inl rfl), ?_, rfl⟩
        simp [dataByte]
      · rename_i hrem2
        simp only [dataByte, State.push_remaining, State.skip_remaining] at hrem2
        rw [post_bind]
        refine Post.mono (inByte_pos s (s.pos + 1) (fun b => s.pos + 1 < s.inp.size) _ fun v hv _ => hv)
          (fun m hm => ?_) (fun _ h => h) (hin 1 (by omega))
        have htake : Reads s (takeEscape s) :=
          hmove _ 2 (s.remaining - 2) (by simp [takeEscape, dataByte, State.skip, State.push]; omega)
            (by omega) (by omega) (.inl rfl)
        split
        · exact ⟨htake, _, rfl, .inl rfl⟩
        · split
          · exact ⟨htake, _, rfl, .inl rfl⟩
          · split
            · exact ⟨hmove _ 2 0 rfl (by omega) (by omega) (.inr rfl), _, rfl, .inl rfl⟩
            · split
              · refine ⟨hmove _ 2 (s.remaining - 2) (by
                  simp [rstEscape, takeEscape, dataByte, State.skip, State.push]; omega)
                  (by omega) (by omega) (.inl rfl), bits8 0xFF ++ bits8 m, ?_, .inr rfl⟩
                simp [rstEscape, takeEscape, dataByte, State.push, State.skip]
              · exact ⟨takeEscape s, htake, by simp [takeEscape, dataByte], rfl⟩

/-- The bits in `t.acc` are those of `s.acc` and more. -/
def Grows (s t : State) : Prop :=
  ∃ bits, t.acc = s.acc ++ bits

/-- An aborted refill on the way to n bits: SYNTAX_ERROR, with at most n + 7 bits held. -/
def FillAborts (n : Nat) (s t : State) : Prop :=
  ∃ u, Reads s u ∧ u.acc.length ≤ n + 7 ∧ t = u.abort .syntaxError

theorem fill_post (n fuel : Nat) (s : State) (hn : n ≤ s.acc.length + 8 * fuel) :
    Post (fillOp n fuel s) (fun t => Reads s t ∧ Grows s t ∧ n ≤ t.acc.length ∧
      (t = s ∨ t.acc.length ≤ n + 15)) (FillAborts n s) (¬ s.inputOk) := by
  induction fuel generalizing s with
  | zero =>
    simp only [fillOp]
    rw [if_neg (by omega)]
    exact ⟨Reads.refl s, ⟨[], by simp⟩, by omega, .inl rfl⟩
  | succ fuel ih =>
    simp only [fillOp]
    split
    · rw [post_bind]
      refine Post.mono (refill_post s) (fun t ht => ?_) (fun t ht => ?_) id
      · obtain ⟨hr, bits, hb, hl⟩ := ht
        have hlen : t.acc.length = s.acc.length + bits.length := by rw [hb]; simp
        refine Post.mono (ih t (by omega)) (fun u hu => ?_) (fun u hu => ?_) (fun h hi => h (hr.inputOk hi))
        · obtain ⟨h1, ⟨more, h2⟩, h3, h4⟩ := hu
          refine ⟨hr.trans h1, ⟨bits ++ more, by rw [h2, hb]; simp⟩, h3, .inr ?_⟩
          rcases h4 with rfl | h4 <;> omega
        · obtain ⟨v, h1, h2, h3⟩ := hu
          exact ⟨v, hr.trans h1, h2, h3⟩
      · obtain ⟨u, h1, h2, h3⟩ := ht
        exact ⟨u, h1, by omega, h3⟩
    · exact ⟨Reads.refl s, ⟨[], by simp⟩, by omega, .inl rfl⟩

/-- PEEK: its value is the first n bits; it takes input only while fewer than n bits are held. -/
theorem peek_post (n : Nat) (s : State) (hn : n ≤ 16) :
    Post (peekOp n s) (fun r => Reads s r.2 ∧ Grows s r.2 ∧ n ≤ r.2.acc.length ∧
      r.1 = bitsNat (r.2.acc.take n) ∧ (r.2 = s ∨ r.2.acc.length ≤ n + 15)) (FillAborts n s)
      (¬ s.inputOk) := by
  unfold peekOp
  split
  · subst n
    exact ⟨Reads.refl s, ⟨[], by simp⟩, by simp, rfl, .inl rfl⟩
  · rw [post_bind]
    refine Post.imp (fill_post n 2 s (by omega)) fun t ht => ?_
    exact ⟨ht.1, ht.2.1, ht.2.2.1, rfl, ht.2.2.2⟩

theorem consume_held {n : Nat} {s : State} (h : n ≤ s.acc.length) : consumeOp n s = .ok (s.dropBits n) := by
  simp [consumeOp, show ¬ s.acc.length < n by omega]

/-- READ: the first n bits, removed. -/
theorem read_post (n : Nat) (s : State) (hn : n ≤ 16) :
    Post (readOp n s) (fun r => Reads s r.2 ∧ r.2.acc.length ≤ max s.acc.length 15 ∧
      r.1 < 2 ^ n) (FillAborts n s) (¬ s.inputOk) := by
  have hlt : ∀ bs : List Bool, bitsNat bs < 2 ^ bs.length := by
    intro bs
    have : ∀ (bs : List Bool) (a : Nat),
        bs.foldl (fun n b => 2 * n + b.toNat) a < (a + 1) * 2 ^ bs.length := by
      intro bs
      induction bs with
      | nil => intro a; simp
      | cons b bs ih =>
        intro a
        refine Nat.lt_of_lt_of_le (ih _) ?_
        rw [List.length_cons, Nat.pow_succ, Nat.mul_comm (2 ^ bs.length) 2, ← Nat.mul_assoc]
        refine Nat.mul_le_mul_right _ ?_
        have : b.toNat ≤ 1 := by cases b <;> simp
        show 2 * a + b.toNat + 1 ≤ _
        omega
    simpa [bitsNat] using this bs 0
  unfold readOp
  rw [post_bind]
  refine Post.imp (peek_post n s hn) fun r hr => ?_
  obtain ⟨h1, h2, h3, h4, h5⟩ := hr
  rw [post_bind, consume_held h3]
  refine ⟨h1.trans (reads_dropBits _ _), ?_, ?_⟩
  · simp only [State.dropBits_acc, List.length_drop]
    rcases h5 with h5 | h5
    · rw [h5]; omega
    · omega
  · simp only [h4]
    refine Nat.lt_of_lt_of_le (hlt _) (Nat.pow_le_pow_right (by omega) ?_)
    simp

theorem consume_post (n : Nat) (s : State) (hn : n ≤ 16) :
    Post (consumeOp n s) (fun t => Reads s t ∧ t.acc.length ≤ max s.acc.length 15) (FillAborts n s)
      (¬ s.inputOk) := by
  unfold consumeOp
  split
  · rw [post_bind]
    refine Post.imp (peek_post n s hn) fun r hr => ?_
    obtain ⟨h1, h2, h3, h4, h5⟩ := hr
    refine ⟨h1.trans (reads_dropBits _ _), ?_⟩
    simp only [State.dropBits_acc, List.length_drop]
    rcases h5 with h5 | h5
    · rw [h5]; omega
    · omega
  · exact ⟨reads_dropBits s n, by simp⟩

end Sys2Proof.Machine
end

