-- ==== Sys2Proof/Laws/Huffman.lean ====
section
/-! SUPPORT. The Huffman tables and the symbol decoder: what a table built from counts and symbols holds, and
what DECODE_VLC can do. -/

namespace Sys2Proof.Machine

/-! ### The table -/

@[simp] theorem codeWindows_nil : codeWindows [] = 0 := rfl

@[simp] theorem codeWindows_cons (l : Nat) (ls : List Nat) :
    codeWindows (l :: ls) = 2 ^ (16 - l) + codeWindows ls := by
  simp [codeWindows]

theorem codeWindows_append (a b : List Nat) : codeWindows (a ++ b) = codeWindows a + codeWindows b := by
  simp [codeWindows]

@[simp] theorem codeWindows_replicate (n l : Nat) :
    codeWindows (List.replicate n l) = n * 2 ^ (16 - l) := by
  simp [codeWindows]

theorem length_codeLengths (l : Nat) (counts : List Byte) :
    (codeLengths l counts).length = countSum counts := by
  induction counts generalizing l with
  | nil => rfl
  | cons n counts ih => simp [codeLengths, countSum, ih]

/-- The code length at position i of the list of code lengths. -/
theorem codeLengths_range (l : Nat) (counts : List Byte) {x : Nat} (h : x ∈ codeLengths l counts) :
    l ≤ x ∧ x < l + counts.length := by
  induction counts generalizing l with
  | nil => cases h
  | cons n counts ih =>
    simp only [codeLengths, List.mem_append, List.mem_replicate] at h
    rcases h with ⟨_, rfl⟩ | h
    · simp
    · have := ih (l + 1) h
      simp only [List.length_cons]
      omega

/-- The spans of a table: each code's length beside its symbol. -/
def spansOf (l : Nat) (counts syms : List Byte) : HuffTable :=
  List.zipWith (fun len v => ⟨Fin.ofNat 17 len, v⟩) (codeLengths l counts) syms

/-- BUILD_HT's loop succeeds where there are symbols and code space enough. -/
theorem buildSpans_ok (l : Nat) (counts syms : List Byte) (space : Int) (s : State)
    (hs : countSum counts ≤ syms.length) (hw : (codeWindows (codeLengths l counts) : Int) ≤ space) :
    buildSpans l counts syms space s = .ok (spansOf l counts syms, s.skip (countSum counts)) := by
  induction counts generalizing l syms space s with
  | nil => simp [buildSpans, spansOf, codeLengths, countSum, State.skip]
  | cons n counts ih =>
    have hsum : countSum (n :: counts) = n.toNat + countSum counts := by simp [countSum]
    rw [hsum] at hs
    simp only [codeLengths, codeWindows_append, codeWindows_replicate] at hw
    push_cast at hw
    simp only [buildSpans]
    split
    · subst n
      rw [ih (l + 1) syms space s (by omega) (by simpa using hw), hsum]
      simp [spansOf, codeLengths]
    · have hpos : (0 : Int) ≤ codeWindows (codeLengths (l + 1) counts) := Int.natCast_nonneg _
      rw [if_neg (by omega), if_neg (by omega)]
      rw [ih (l + 1) (syms.drop n.toNat) _ (s.skip n.toNat) (by simp; omega) (by omega)]
      have hlen : (syms.take n.toNat).length = n.toNat := by simp; omega
      have hzip : ∀ vs : List Byte, (List.zipWith (fun len v => (⟨Fin.ofNat 17 len, v⟩ : HtEntry))
          (List.replicate vs.length l) vs) = vs.map (fun v => ⟨Fin.ofNat 17 l, v⟩) := by
        intro vs
        induction vs with
        | nil => rfl
        | cons v vs ih => simpa [List.replicate_succ] using ih
      have hsplit : spansOf l (n :: counts) syms = (syms.take n.toNat).map (fun v => ⟨Fin.ofNat 17 l, v⟩) ++
          spansOf (l + 1) counts (syms.drop n.toNat) := by
        have hz := hzip (syms.take n.toNat)
        rw [hlen] at hz
        unfold spansOf
        rw [← hz, codeLengths]
        conv => lhs; rw [← List.take_append_drop n.toNat syms]
        rw [List.zipWith_append (by simp [hlen])]
      rw [hsplit, hsum]
      simp [bind, Except.bind, pure, Except.pure, State.skip, Nat.add_assoc]
      omega

/-- BUILD_HT's loop aborts where it lacks symbols or code space, after skipping some of the symbols. -/
theorem buildSpans_fails (l : Nat) (counts syms : List Byte) (space : Int) (s : State)
    (hp : 0 ≤ space)
    (h : syms.length < countSum counts ∨ space < (codeWindows (codeLengths l counts) : Int)) :
    ∃ k, k ≤ countSum counts ∧ k ≤ syms.length ∧
      buildSpans l counts syms space s = raise .syntaxError (s.skip k) := by
  induction counts generalizing l syms space s with
  | nil => simp [countSum, codeLengths] at h; omega
  | cons n counts ih =>
    have hsum : countSum (n :: counts) = n.toNat + countSum counts := by simp [countSum]
    rw [hsum] at h ⊢
    simp only [codeLengths, codeWindows_append, codeWindows_replicate] at h
    push_cast at h
    simp only [buildSpans]
    split
    · subst n
      simp only [BitVec.ofNat_eq_ofNat, BitVec.toNat_ofNat, Nat.zero_mod, Nat.cast_zero,
        zero_mul, zero_add] at h ⊢
      exact ih (l + 1) syms space s hp h
    · split
      · exact ⟨0, by omega, by omega, by simp [State.skip]⟩
      · split
        · exact ⟨0, by omega, by omega, by simp [State.skip]⟩
        · obtain ⟨k, h1, h2, h3⟩ := ih (l + 1) (syms.drop n.toNat)
            (space - n.toNat * 2 ^ (16 - l)) (s.skip n.toNat) (by omega) (by
              rcases h with h | h
              · left; simp only [List.length_drop]; omega
              · right; omega)
          refine ⟨n.toNat + k, by omega, by simp at h2; omega, ?_⟩
          rw [h3]
          have : (s.skip n.toNat).skip k = s.skip (n.toNat + k) := by
            simp only [State.skip, Nat.add_assoc, State.mk.injEq, true_and, and_true]
            push_cast; omega
          rw [this]
          rfl

/-- Before the spans of a prefix of the table end, the table's entries are the prefix's. -/
theorem lookup_append (a b : HuffTable) (w : Nat) :
    HuffTable.lookup (a ++ b) w = if w < codeWindows (a.map (·.len.val)) then HuffTable.lookup a w
      else HuffTable.lookup b (w - codeWindows (a.map (·.len.val))) := by
  induction a generalizing w with
  | nil => simp
  | cons e a ih =>
    simp only [List.cons_append, HuffTable.lookup, List.map_cons, codeWindows_cons]
    split
    · rw [if_pos (by omega)]
    · rw [ih]
      split
      · rw [if_pos (by omega)]
      · rw [if_neg (by omega)]
        congr 1; omega

/-- Past its last span a table has no match. -/
theorem lookup_past (t : HuffTable) (w : Nat) (h : codeWindows (t.map (·.len.val)) ≤ w) :
    HuffTable.lookup t w = ⟨0, 0⟩ := by
  induction t generalizing w with
  | nil => rfl
  | cons e t ih =>
    simp only [List.map_cons, codeWindows_cons] at h
    simp only [HuffTable.lookup]
    rw [if_neg (by omega), ih _ (by omega)]

/-- Inside the span of entry j the table's entry is entry j. -/
theorem lookup_span (t : HuffTable) (j w : Nat) (e : HtEntry) (hj : t[j]? = some e)
    (h1 : codeWindows ((t.take j).map (·.len.val)) ≤ w)
    (h2 : w < codeWindows ((t.take j).map (·.len.val)) + 2 ^ (16 - e.len.val)) :
    HuffTable.lookup t w = e := by
  induction t generalizing j w with
  | nil => simp at hj
  | cons x t ih =>
    cases j with
    | zero =>
      simp only [List.getElem?_cons_zero, Option.some.injEq] at hj
      subst hj
      simp only [List.take_zero, List.map_nil, codeWindows_nil, Nat.zero_add] at h2
      simp [HuffTable.lookup, h2]
    | succ j =>
      simp only [List.getElem?_cons_succ] at hj
      simp only [List.take_succ_cons, List.map_cons, codeWindows_cons] at h1 h2
      simp only [HuffTable.lookup]
      rw [if_neg (by omega)]
      exact ih j _ hj (by omega) (by omega)

/-! ### DECODE_VLC -/

/-- An abort in the entropy-coded data: SYNTAX_ERROR after some reading, the accumulator within its bound. -/
def EntropyAborts (s t : State) : Prop :=
  ∃ u, Reads s u ∧ (s.accOk → u.accOk) ∧ t = u.abort .syntaxError

theorem FillAborts.entropy {n : Nat} {s t : State} (h : FillAborts n s t) (hn : n ≤ 24) :
    EntropyAborts s t := by
  obtain ⟨u, h1, h2, h3⟩ := h
  exact ⟨u, h1, fun _ => by unfold State.accOk; omega, h3⟩

theorem EntropyAborts.of_reads {s t u : State} (h : Reads s t) (ha : s.accOk → t.accOk)
    (hu : EntropyAborts t u) : EntropyAborts s u := by
  obtain ⟨v, h1, h2, h3⟩ := hu
  exact ⟨v, h.trans h1, fun x => h2 (ha x), h3⟩

theorem magnitude_post (c : Nat) (s : State) (hc : c ≤ 15) :
    Post (magnitudeOp c s) (fun r => Reads s r.2 ∧ (s.accOk → r.2.accOk)) (EntropyAborts s)
      (¬ s.inputOk) := by
  unfold magnitudeOp
  split
  · exact ⟨Reads.refl s, id⟩
  · rw [post_bind]
    refine Post.mono (read_post c s (by omega)) (fun r hr => ⟨hr.1, fun h => ?_⟩)
      (fun t ht => ht.entropy (by omega)) id
    have := hr.2.1
    unfold State.accOk at h ⊢
    simp only
    omega

/-- DECODE_VLC reads, or ends the DECODE with SYNTAX_ERROR. -/
theorem vlc_post (h : Fin 4) (s : State) :
    Post (decodeVlcOp h s) (fun r => Reads s r.2.2 ∧ (s.accOk → r.2.2.accOk)) (EntropyAborts s)
      (¬ s.inputOk) := by
  unfold decodeVlcOp
  rw [post_bind]
  refine Post.mono (peek_post 16 s (by omega)) (fun r hr => ?_) (fun t ht => ht.entropy (by omega)) id
  obtain ⟨h1, h2, h3, h4, h5⟩ := hr
  have hacc : s.accOk → r.2.accOk := by
    intro ha
    unfold State.accOk at ha ⊢
    rcases h5 with h5 | h5
    · rw [h5]; exact ha
    · omega
  simp only
  split
  · exact ⟨r.2, h1, hacc, rfl⟩
  · rw [post_bind]
    refine Post.mono (consume_post _ r.2 (by omega)) (fun t ht => ?_)
      (fun t ht => .of_reads h1 hacc (ht.entropy (by omega))) (fun hn hi => hn (h1.inputOk hi))
    have hacc' : s.accOk → t.accOk := by
      intro ha
      have := hacc ha
      have := ht.2
      unfold State.accOk at *
      omega
    rw [post_bind]
    refine Post.mono (magnitude_post _ t (by omega)) (fun m hm => ?_)
      (fun u hu => .of_reads (h1.trans ht.1) hacc' hu) (fun hn hi => hn ((h1.trans ht.1).inputOk hi))
    exact ⟨(h1.trans ht.1).trans hm.1, fun ha => hm.2 (hacc' ha)⟩

end Sys2Proof.Machine
end

