-- ==== Sys2Proof/Laws/Planes.lean ====
section
/-! SUPPORT. Components, planes and the RGB buffer: what a byte write and an allocation can do. -/

namespace Sys2Proof.Machine

/-- What of a component a scan leaves alone: all but the predictor and the bytes of its plane. -/
def Comp.shape (c : Comp) : Comp :=
  { c with dcpred := 0, pixels := c.pixels.map fun b => Buffer.fresh b.size }

/-- The component's plane has n bytes or more. -/
def Comp.holds (c : Comp) (n : Nat) : Prop :=
  ∃ b, c.pixels = some b ∧ n ≤ b.size

theorem Comp.holds_of_shape {c d : Comp} (h : c.shape = d.shape) {n : Nat} (hc : c.holds n) : d.holds n := by
  obtain ⟨b, hb, hn⟩ := hc
  have hp : c.shape.pixels = d.shape.pixels := congrArg Comp.pixels h
  simp only [Comp.shape, hb, Option.map_some] at hp
  cases hd : d.pixels with
  | none => rw [hd] at hp; cases hp
  | some b' =>
    rw [hd] at hp
    simp only [Option.map_some, Option.some.injEq, Buffer.fresh, Buffer.mk.injEq, and_true] at hp
    exact ⟨b', hd, by omega⟩

theorem Comp.stride_of_shape {c d : Comp} (h : c.shape = d.shape) : c.stride = d.stride :=
  show c.shape.stride = d.shape.stride by rw [h]

theorem getComp_ok {k : Nat} {s : State} {c : Comp} (h : s.comps[k]? = some c) : getComp k s = .ok c := by
  simp [getComp, h]

theorem getComp_post (k : Nat) (s : State) (ab : State → Prop) :
    Post (getComp k s) (fun c => s.comps[k]? = some c) ab (s.comps[k]? = none) := by
  unfold getComp
  cases h : s.comps[k]? with
  | none => exact (rfl : (none : Option Comp) = none)
  | some c => exact (rfl : some c = some c)

theorem State.getElem_setComp (s : State) (k j : Nat) (c : Comp) :
    (s.setComp k c).comps[j]? = if j = k ∧ k < s.comps.length then some c else s.comps[j]? := by
  simp only [State.setComp, List.getElem?_set]
  split
  · subst j
    split
    · simp [*]
    · rw [if_neg (by omega), List.getElem?_eq_none (by omega)]
  · rw [if_neg (by omega)]

theorem shapes_setComp {s : State} {k : Nat} {c c' : Comp} (h : s.comps[k]? = some c)
    (hs : c'.shape = c.shape) : (s.setComp k c').comps.map Comp.shape = s.comps.map Comp.shape := by
  apply List.ext_getElem?
  intro j
  rw [List.getElem?_map, List.getElem?_map, State.getElem_setComp]
  split
  · obtain ⟨rfl, _⟩ := ‹_ ∧ _›
    simp [h, hs]
  · rfl

/-- A byte of component k's plane may be written: t is s with that one byte replaced. -/
structure WritesByte (k i : Nat) (v : Byte) (s t : State) : Prop where
  frame : t = { s with comps := t.comps }
  shapes : t.comps.map Comp.shape = s.comps.map Comp.shape
  byte : ∀ k' j, t.planeByte k' j = if k' = k ∧ j = i then some v else s.planeByte k' j
  predictors : t.comps.map Comp.dcpred = s.comps.map Comp.dcpred
  memory : s.memoryWf = true → t.memoryWf = true
  plane : ∀ c, s.comps[k]? = some c → ∃ p, t.comps = s.comps.set k { c with pixels := p }

theorem State.memoryWf_setComp {s : State} {k : Nat} {c : Comp} (h : s.memoryWf = true)
    (hc : optBufferWf c.pixels = true) : (s.setComp k c).memoryWf = true := by
  simp only [State.memoryWf, Bool.and_eq_true, List.all_eq_true] at h ⊢
  refine ⟨⟨h.1.1, fun x hx => ?_⟩, h.2⟩
  rcases List.mem_or_eq_of_mem_set hx with hx | rfl
  · exact h.1.2 x hx
  · exact hc

theorem State.plane_wf {s : State} {k : Nat} {c : Comp} {b : Buffer} (h : s.memoryWf = true)
    (hc : s.comps[k]? = some c) (hb : c.pixels = some b) : b.wf = true := by
  simp only [State.memoryWf, Bool.and_eq_true, List.all_eq_true] at h
  have := h.1.2 c (List.mem_of_getElem? hc)
  rwa [hb] at this

theorem planeWrite_ok {k i : Nat} {s : State} {c : Comp} {b : Buffer} (v : Byte)
    (hc : s.comps[k]? = some c) (hb : c.pixels = some b) (hi : i < b.size) :
    planeWrite k i v s = .ok (s.setComp k { c with pixels := some { b with mem := b.mem.write i v } }) := by
  simp [planeWrite, getComp_ok hc, Comp.plane, hb, Buffer.put_ok .plane v hi, bind, Except.bind, pure,
    Except.pure]

theorem writesByte_setComp {k i : Nat} {s : State} {c : Comp} {b : Buffer} (v : Byte)
    (hc : s.comps[k]? = some c) (hb : c.pixels = some b) (hi : i < b.size) :
    WritesByte k i v s (s.setComp k { c with pixels := some { b with mem := b.mem.write i v } }) := by
  have hk : k < s.comps.length := (List.getElem?_eq_some_iff.mp hc).1
  refine ⟨rfl, shapes_setComp hc ?_, fun k' j => ?_, ?_, fun hm => ?_, fun d hd => ?_⟩
  · simp [Comp.shape, hb]
  · simp only [State.planeByte, State.getElem_setComp]
    by_cases hkk : k' = k
    · subst hkk
      rw [if_pos ⟨rfl, hk⟩, hc]
      simp [hb, Memory.read_write]
    · simp [hkk]
  · apply List.ext_getElem?
    intro j
    rw [List.getElem?_map, List.getElem?_map, State.getElem_setComp]
    split
    · obtain ⟨rfl, _⟩ := ‹_ ∧ _›
      simp [hc]
    · rfl
  · exact State.memoryWf_setComp hm (Buffer.wf_put v (State.plane_wf hm hc hb) hi)
  · rw [hc] at hd
    cases hd
    exact ⟨_, rfl⟩

/-- One plane replaced, then replaced again. -/
theorem plane_trans {k : Nat} {a b c : List Comp}
    (h1 : ∀ d, a[k]? = some d → ∃ p, b = a.set k { d with pixels := p })
    (h2 : ∀ d, b[k]? = some d → ∃ p, c = b.set k { d with pixels := p }) :
    ∀ d, a[k]? = some d → ∃ p, c = a.set k { d with pixels := p } := by
  intro d hd
  obtain ⟨p, hp⟩ := h1 d hd
  have hk : k < a.length := (List.getElem?_eq_some_iff.mp hd).1
  obtain ⟨q, hq⟩ := h2 { d with pixels := p } (by rw [hp, List.getElem?_set_self hk])
  exact ⟨q, by rw [hq, hp, List.set_set]⟩

/-- PlaneWrite replaces one byte, or faults where the plane has no such byte. -/
theorem planeWrite_post (k i : Nat) (v : Byte) (s : State) (ab : State → Prop) :
    Post (planeWrite k i v s) (WritesByte k i v s) ab (¬ ∃ c, s.comps[k]? = some c ∧ c.holds (i + 1)) := by
  cases hc : s.comps[k]? with
  | none =>
    simp [planeWrite, getComp, hc, stuck, bind, Except.bind, Post]
  | some c =>
    cases hb : c.pixels with
    | none =>
      simp [planeWrite, getComp, hc, Comp.plane, hb, stuck, bind, Except.bind, Post, Comp.holds]
    | some b =>
      by_cases hi : i < b.size
      · rw [planeWrite_ok v hc hb hi]
        exact writesByte_setComp v hc hb hi
      · have : Buffer.put b .plane i v = stuck (.indexOutside .plane) := by simp [Buffer.put, hi]
        simp [planeWrite, getComp, hc, Comp.plane, hb, this, stuck, bind, Except.bind, Post, Comp.holds]
        omega

/-- PlaneRead answers the byte, or faults where it has no value. -/
theorem planeRead_post (k i : Nat) (s : State) (ab : State → Prop) :
    Post (planeRead k i s) (fun v => s.planeByte k i = some v) ab
      (¬ ∃ c b, s.comps[k]? = some c ∧ c.pixels = some b ∧ b.has i = true) := by
  unfold planeRead
  rw [post_bind]
  refine Post.mono (getComp_post k s _) (fun c hc => ?_) (fun _ h => h) (fun h => by simp [h])
  rw [post_bind]
  cases hb : c.pixels with
  | none => simp [Comp.plane, hb, stuck, Post, hc]
  | some b =>
    simp only [Comp.plane, hb, post_ok]
    refine Post.mono (Buffer.get_post b .plane i ab _ id) (fun v hv => ?_) (fun _ h => h) (fun h => ?_)
    · simp [State.planeByte, hc, hb, hv.2]
    · rintro ⟨c', b', h1, h2, h3⟩
      rw [hc] at h1
      cases h1
      rw [hb] at h2
      cases h2
      rw [h3] at h
      cases h

theorem planeRead_ok {k i : Nat} {s : State} {c : Comp} {b : Buffer} {v : Byte}
    (hc : s.comps[k]? = some c) (hb : c.pixels = some b) (hi : i < b.size) (hv : b.mem.read i = some v) :
    planeRead k i s = .ok v := by
  simp [planeRead, getComp_ok hc, Comp.plane, hb, Buffer.get_ok .plane hi hv, bind, Except.bind]

/-- OutWrite replaces one byte of the RGB buffer, or faults where there is none. -/
theorem outWrite_post (i : Nat) (v : Byte) (s : State) (ab : State → Prop) :
    Post (outWrite i v s) (fun t => ∃ b, s.rgb = some b ∧ i < b.size ∧
      t = { s with rgb := some { b with mem := b.mem.write i v } }) ab
      (¬ ∃ b, s.rgb = some b ∧ i < b.size) := by
  unfold outWrite
  cases hb : s.rgb with
  | none => simp [stuck, Post]
  | some b =>
    by_cases hi : i < b.size
    · simp only [Buffer.put_ok .rgb v hi]
      exact ⟨b, rfl, hi, rfl⟩
    · have : Buffer.put b .rgb i v = stuck (.indexOutside .rgb) := by simp [Buffer.put, hi]
      simp [this, stuck, bind, Except.bind, Post]
      omega

/-- ALLOC answers a fresh buffer and counts its bytes, or ends the DECODE with OUT_OF_MEMORY. -/
theorem alloc_post (n : Nat) (s : State) (ft : Prop) :
    Post (alloc n s) (fun r => r = (Buffer.fresh n, { s with live := s.live + n }) ∧
      allocGrants s.cfg n s.live = true)
      (fun t => t = s.abort .outOfMemory ∧ allocGrants s.cfg n s.live = false) ft := by
  unfold alloc
  split
  · exact ⟨rfl, ‹_›⟩
  · rename_i h
    exact ⟨rfl, by simpa using h⟩

end Sys2Proof.Machine
end

