-- ==== Sys2Proof/Laws/Block.lean ====
section
/-! SUPPORT. The IDCT's stores and the block decoder: which bytes a block writes, what else it changes, and
that it ends in an answer or a SYNTAX_ERROR wherever the block lies in its plane. -/

namespace Sys2Proof.Machine

/-! ### Many byte writes -/

/-- The value the last of a list of writes gave byte j, if any did. -/
def lastWrite : List (Nat × Byte) → Nat → Option Byte
  | [], _ => none
  | w :: ws, j => (lastWrite ws j).or (if j = w.1 then some w.2 else none)

theorem lastWrite_append (a b : List (Nat × Byte)) (j : Nat) :
    lastWrite (a ++ b) j = (lastWrite b j).or (lastWrite a j) := by
  induction a with
  | nil => simp [lastWrite]
  | cons w a ih => simp [lastWrite, ih, Option.or_assoc]

theorem lastWrite_none {ws : List (Nat × Byte)} {j : Nat} (h : ∀ w ∈ ws, w.1 ≠ j) :
    lastWrite ws j = none := by
  induction ws with
  | nil => rfl
  | cons w ws ih =>
    have h1 := h w (List.mem_cons_self ..)
    simp [lastWrite, ih fun x hx => h x (List.mem_cons_of_mem _ hx), Ne.symm h1]

/-- Where addresses are written once, the write at an address is the one of the list. -/
theorem lastWrite_mem {ws : List (Nat × Byte)} {j : Nat} {v : Byte} (h : (j, v) ∈ ws)
    (hd : ∀ w ∈ ws, w.1 = j → w.2 = v) : lastWrite ws j = some v := by
  induction ws with
  | nil => cases h
  | cons w ws ih =>
    rcases List.mem_cons.mp h with rfl | h
    · by_cases hm : ∃ w ∈ ws, w.1 = j
      · obtain ⟨w, hw, hj⟩ := hm
        have hv := hd w (List.mem_cons_of_mem _ hw) hj
        have : (j, v) ∈ ws := by rwa [← hj, ← hv]
        simp [lastWrite, ih this fun x hx => hd x (List.mem_cons_of_mem _ hx)]
      · rw [lastWrite, lastWrite_none fun x hx hj => hm ⟨x, hx, hj⟩]
        simp
    · simp [lastWrite, ih h fun x hx => hd x (List.mem_cons_of_mem _ hx)]

/-- t is s after a list of writes to the plane of component k. -/
structure WritesBytes (k : Nat) (ws : List (Nat × Byte)) (s t : State) : Prop where
  frame : t = { s with comps := t.comps }
  shapes : t.comps.map Comp.shape = s.comps.map Comp.shape
  byte : ∀ k' j, t.planeByte k' j = (if k' = k then lastWrite ws j else none).or (s.planeByte k' j)
  predictors : t.comps.map Comp.dcpred = s.comps.map Comp.dcpred
  memory : s.memoryWf = true → t.memoryWf = true
  plane : ∀ c, s.comps[k]? = some c → ∃ p, t.comps = s.comps.set k { c with pixels := p }

theorem WritesBytes.refl (k : Nat) (s : State) : WritesBytes k [] s s :=
  ⟨rfl, rfl, by simp [lastWrite], rfl, id, fun c hc => ⟨c.pixels, by
    obtain ⟨hk, rfl⟩ := List.getElem?_eq_some_iff.mp hc
    exact (List.set_getElem_self hk).symm⟩⟩

theorem WritesBytes.snoc {k i : Nat} {v : Byte} {ws : List (Nat × Byte)} {s t u : State}
    (h1 : WritesBytes k ws s t) (h2 : WritesByte k i v t u) : WritesBytes k (ws ++ [(i, v)]) s u := by
  refine ⟨?_, h2.shapes.trans h1.shapes, fun k' j => ?_, h2.predictors.trans h1.predictors,
    fun h => h2.memory (h1.memory h), plane_trans h1.plane h2.plane⟩
  · have := h2.frame
    rw [h1.frame] at this
    exact this
  · rw [h2.byte, h1.byte, lastWrite_append]
    by_cases hk : k' = k <;> by_cases hj : j = i <;> simp [hk, hj, lastWrite]

theorem WritesBytes.trans {k : Nat} {a b : List (Nat × Byte)} {s t u : State}
    (h1 : WritesBytes k a s t) (h2 : WritesBytes k b t u) : WritesBytes k (a ++ b) s u := by
  refine ⟨?_, h2.shapes.trans h1.shapes, fun k' j => ?_, h2.predictors.trans h1.predictors,
    fun h => h2.memory (h1.memory h), plane_trans h1.plane h2.plane⟩
  · have := h2.frame
    rw [h1.frame] at this
    exact this
  · rw [h2.byte, h1.byte, lastWrite_append]
    by_cases hk : k' = k <;> simp [hk, Option.or_assoc]

/-- Two lists of components of the same shapes hold the same component shape at k. -/
theorem shape_at {a b : List Comp} (h : a.map Comp.shape = b.map Comp.shape) {k : Nat} {c : Comp}
    (hc : b[k]? = some c) : ∃ d, a[k]? = some d ∧ d.shape = c.shape := by
  have hk : (a.map Comp.shape)[k]? = (b.map Comp.shape)[k]? := by rw [h]
  rw [List.getElem?_map, List.getElem?_map, hc] at hk
  cases ha : a[k]? with
  | none => rw [ha] at hk; cases hk
  | some d =>
    rw [ha] at hk
    exact ⟨d, rfl, by simpa using hk⟩

/-- The plane of component k has n bytes or more. -/
def State.planeHolds (s : State) (k n : Nat) : Prop :=
  ∃ c, s.comps[k]? = some c ∧ c.holds n

theorem planeHolds_of_shapes {s t : State} (h : t.comps.map Comp.shape = s.comps.map Comp.shape) {k n : Nat}
    (hs : s.planeHolds k n) : t.planeHolds k n := by
  obtain ⟨c, hc, hn⟩ := hs
  obtain ⟨d, hd, hsh⟩ := shape_at h hc
  exact ⟨d, hd, Comp.holds_of_shape hsh.symm hn⟩

theorem State.planeHolds_mono {s : State} {k m n : Nat} (h : s.planeHolds k n) (hm : m ≤ n) :
    s.planeHolds k m := by
  obtain ⟨c, hc, b, hb, hn⟩ := h
  exact ⟨c, hc, b, hb, by omega⟩

/-! ### The scratch block -/

theorem blkAt_blkSet (b : Vector Word 64) (i j : Nat) (v : Word) :
    blkAt (blkSet b i v) j = if i % 64 = j % 64 then v else blkAt b j := by
  have h : ∀ (a : Vector Word 64) (j : Nat), blkAt a j = a[j % 64]'(Nat.mod_lt j (by decide)) :=
    fun _ _ => rfl
  rw [h, h, blkSet, Vector.getElem_set]

theorem blkRow_blkSetRow (b : Vector Word 64) (r q : Nat) (hr : r < 8) (hq : q < 8) (o : Oct Word) :
    blkRow (blkSetRow b r o) q = if q = r then o else blkRow b q := by
  interval_cases r <;> interval_cases q <;> simp [blkRow, blkSetRow, blkAt_blkSet]

/-- The row pass transforms each row of the block on its own (R210). -/
theorem blkRow_idctRows (cfg : Config) (b : Vector Word 64) (r : Nat) (hr : r < 8) :
    blkRow (idctRows cfg b) r = idctRowOp cfg (blkRow b r) := by
  have gen : ∀ (l : List Nat) (b : Vector Word 64), l.Nodup → (∀ x ∈ l, x < 8) →
      blkRow (l.foldl (fun b r => blkSetRow b r (idctRowOp cfg (blkRow b r))) b) r =
        if r ∈ l then idctRowOp cfg (blkRow b r) else blkRow b r := by
    intro l
    induction l with
    | nil => intro b _ _; simp
    | cons x l ih =>
      intro b hn hl
      have hx := hl x (by simp)
      simp only [List.foldl_cons]
      rw [ih _ (List.nodup_cons.mp hn).2 (fun y hy => hl y (List.mem_cons_of_mem _ hy)),
        blkRow_blkSetRow _ _ _ hx hr]
      by_cases hrx : r = x
      · subst hrx
        rw [if_neg (List.nodup_cons.mp hn).1, if_pos rfl, if_pos (by simp)]
      · simp [hrx]
  unfold idctRows
  rw [gen _ b (by decide) (by decide), if_pos (by interval_cases r <;> decide)]

/-! ### The IDCT's stores -/

/-- The writes of one column of samples. -/
def columnWrites (off stride c : Nat) : List Byte → (r : Nat) → List (Nat × Byte)
  | [], _ => []
  | v :: vs, r => (off + r * stride + c, v) :: columnWrites off stride c vs (r + 1)

theorem storeColumn_post (k off stride c : Nat) (vs : List Byte) (r : Nat) (s : State) (ab : State → Prop) :
    Post (storeColumn k off stride c vs r s) (WritesBytes k (columnWrites off stride c vs r) s) ab
      (¬ s.planeHolds k (off + (r + vs.length - 1) * stride + c + 1)) := by
  induction vs generalizing r s with
  | nil => exact WritesBytes.refl k s
  | cons v vs ih =>
    simp only [storeColumn, post_bind, columnWrites]
    have hle : ∀ x, r ≤ x → off + r * stride + c + 1 ≤ off + x * stride + c + 1 := by
      intro x hx
      have := Nat.mul_le_mul_right stride hx
      omega
    refine Post.mono (planeWrite_post k _ v s ab) (fun t ht => ?_) (fun _ h => h) (fun hn hp => ?_)
    · refine Post.mono (ih (r + 1) t) (fun u hu => ?_) (fun _ h => h) (fun hn hp => hn ?_)
      · have := (WritesBytes.snoc (WritesBytes.refl k s) ht).trans hu
        simpa using this
      · have := planeHolds_of_shapes ht.shapes hp
        simp only [List.length_cons] at this
        rwa [show r + 1 + vs.length - 1 = r + (vs.length + 1) - 1 by omega]
    · refine hn (State.planeHolds_mono hp (hle _ ?_))
      simp only [List.length_cons]
      omega

/-- The writes of the eight columns of a transformed block. -/
def blockWrites (cfg : Config) (blk : Vector Word 64) (off stride : Nat) : Nat → List (Nat × Byte)
  | 0 => []
  | n + 1 => blockWrites cfg blk off stride n ++
      columnWrites off stride n (idctColOp cfg (blkCol blk n)).toList 0

/-- The 64 bytes of a block at `off` lie in the plane of component k. -/
def State.blockFits (s : State) (k off : Nat) : Prop :=
  ∃ c, s.comps[k]? = some c ∧ c.holds (off + 7 * c.stride + 8)

/-- IDCT_BLOCK transforms the rows in place and stores the columns; it changes nothing else. -/
theorem idctBlock_post (k off : Nat) (s : State) (ab : State → Prop) :
    Post (idctBlockOp k off s) (fun t => ∃ c, s.comps[k]? = some c ∧
      WritesBytes k (blockWrites s.cfg (idctRows s.cfg s.blk) off c.stride 8)
        { s with blk := idctRows s.cfg s.blk } t) ab (¬ s.blockFits k off) := by
  unfold idctBlockOp
  rw [post_bind]
  refine Post.mono (getComp_post k s ab) (fun c hc => ?_) (fun _ h => h) (fun h hf => ?_)
  · have hloop := forUp_post (body := idctColumn k off c.stride) (ab := ab) (ft := ¬ s.blockFits k off)
      (P := fun n t => WritesBytes k (blockWrites s.cfg (idctRows s.cfg s.blk) off c.stride n)
        { s with blk := idctRows s.cfg s.blk } t) 8 0 { s with blk := idctRows s.cfg s.blk }
      (WritesBytes.refl k _) (fun j t _ hj ht => ?_)
    · exact hloop.imp fun t ht => ⟨c, hc, ht⟩
    · unfold idctColumn
      refine Post.mono (storeColumn_post k off c.stride j _ 0 t ab) (fun u hu => ?_) (fun _ h => h)
        (fun hn hf => hn ?_)
      · have hb : t.blk = idctRows s.cfg s.blk := by rw [ht.frame]
        have hg : t.cfg = s.cfg := by rw [ht.frame]
        rw [hb, hg] at hu
        exact ht.trans hu
      · obtain ⟨c', hc', hh⟩ := hf
        rw [hc] at hc'
        cases hc'
        refine planeHolds_of_shapes ht.shapes ⟨c, hc, ?_⟩
        obtain ⟨b, hb, hn⟩ := hh
        refine ⟨b, hb, ?_⟩
        simp only [Oct.toList, List.length_cons, List.length_nil]
        omega
  · obtain ⟨c, hc, _⟩ := hf
    rw [h] at hc
    cases hc

theorem mem_columnWrites {off stride c : Nat} {vs : List Byte} {r : Nat} {w : Nat × Byte} :
    w ∈ columnWrites off stride c vs r ↔ ∃ i, vs[i]? = some w.2 ∧ w.1 = off + (r + i) * stride + c := by
  induction vs generalizing r with
  | nil => simp [columnWrites]
  | cons v vs ih =>
    simp only [columnWrites, List.mem_cons, ih]
    constructor
    · rintro (rfl | ⟨i, h1, h2⟩)
      · exact ⟨0, by simp⟩
      · exact ⟨i + 1, by simpa using h1, by rw [h2]; congr 3; omega⟩
    · rintro ⟨i, h1, h2⟩
      cases i with
      | zero =>
        left
        obtain ⟨w1, w2⟩ := w
        simp only [List.getElem?_cons_zero, Option.some.injEq, Nat.add_zero] at h1 h2
        rw [h1, h2]
      | succ i =>
        right
        exact ⟨i, by simpa using h1, by rw [h2]; congr 3; omega⟩

theorem mem_blockWrites {cfg : Config} {blk : Vector Word 64} {off stride n : Nat} {w : Nat × Byte} :
    w ∈ blockWrites cfg blk off stride n ↔ ∃ x, x < n ∧ ∃ r,
      (idctColOp cfg (blkCol blk x)).toList[r]? = some w.2 ∧ w.1 = off + r * stride + x := by
  induction n with
  | zero => simp [blockWrites]
  | succ n ih =>
    simp only [blockWrites, List.mem_append, ih, mem_columnWrites, Nat.zero_add]
    constructor
    · rintro (⟨x, hx, h⟩ | h)
      · exact ⟨x, by omega, h⟩
      · exact ⟨n, by omega, h⟩
    · rintro ⟨x, hx, h⟩
      by_cases hxn : x = n
      · subst hxn; exact .inr h
      · exact .inl ⟨x, by omega, h⟩

/-! ### What a scan changes -/

/-- t is s after decoding some blocks: the reader, the scratch block, the predictors, the sequencer's loop
variables and plane bytes differ, and no plane byte loses its value. -/
structure Blocks (s t : State) : Prop where
  frame : t =
    { s with
      pos := t.pos
      remaining := t.remaining
      acc := t.acc
      blk := t.blk
      comps := t.comps
      seq := t.seq }
  shapes : t.comps.map Comp.shape = s.comps.map Comp.shape
  written : ∀ k j, (s.planeByte k j).isSome = true → (t.planeByte k j).isSome = true
  position : s.positionOk → t.positionOk
  acc : s.accOk → t.accOk
  memory : s.memoryWf = true → t.memoryWf = true

theorem Blocks.refl (s : State) : Blocks s s :=
  ⟨rfl, rfl, fun _ _ h => h, id, id, id⟩

theorem Blocks.trans {s t u : State} (h1 : Blocks s t) (h2 : Blocks t u) : Blocks s u := by
  refine ⟨?_, h2.shapes.trans h1.shapes, fun k j h => h2.written k j (h1.written k j h),
    fun h => h2.position (h1.position h), fun h => h2.acc (h1.acc h), fun h => h2.memory (h1.memory h)⟩
  have := h2.frame
  rw [h1.frame] at this
  exact this

theorem memoryWf_of_buffers {s t : State} (h1 : t.inp = s.inp) (h2 : t.comps = s.comps) (h3 : t.rgb = s.rgb)
    (h : s.memoryWf = true) : t.memoryWf = true := by
  unfold State.memoryWf at h ⊢
  rw [h1, h2, h3]
  exact h

theorem planeByte_of_comps {s t : State} (h : t.comps = s.comps) (k j : Nat) :
    t.planeByte k j = s.planeByte k j := by
  unfold State.planeByte
  rw [h]

theorem Reads.memory {s t : State} (h : Reads s t) (hm : s.memoryWf = true) : t.memoryWf = true :=
  memoryWf_of_buffers h.inp h.comps h.rgb hm

theorem Reads.blocks {s t : State} (h : Reads s t) (ha : s.accOk → t.accOk) : Blocks s t := by
  refine ⟨?_, by rw [h.comps], fun k j hw => by rw [planeByte_of_comps h.comps]; exact hw, h.position, ha,
    h.memory⟩
  have := h.frame
  rw [this]

theorem WritesBytes.blocks {k : Nat} {ws : List (Nat × Byte)} {s t : State} (h : WritesBytes k ws s t) :
    Blocks s t := by
  have hf := h.frame
  refine ⟨by rw [hf], h.shapes, fun k' j hw => ?_, ?_, ?_, h.memory⟩
  · rw [h.byte]
    simp [hw]
  · rw [hf]; exact id
  · rw [hf]; exact id

theorem Blocks.inp {s t : State} (h : Blocks s t) : t.inp = s.inp := by rw [h.frame]
theorem Blocks.cfg {s t : State} (h : Blocks s t) : t.cfg = s.cfg := by rw [h.frame]
theorem Blocks.error {s t : State} (h : Blocks s t) : t.error = s.error := by rw [h.frame]

theorem Blocks.inputOk {s t : State} (h : Blocks s t) (hi : s.inputOk) : t.inputOk := by
  refine ⟨by rw [h.inp]; exact hi.1, ?_, h.position hi.2.2⟩
  unfold State.inputResident
  rw [h.inp]
  exact hi.2.1

/-- An abort while blocks are decoded: SYNTAX_ERROR. -/
def BlockAborts (s t : State) : Prop :=
  ∃ u, Blocks s u ∧ t = u.abort .syntaxError

theorem BlockAborts.of {s t u : State} (h : Blocks s t) (hu : BlockAborts t u) : BlockAborts s u := by
  obtain ⟨v, h1, h2⟩ := hu
  exact ⟨v, h.trans h1, h2⟩

theorem EntropyAborts.block {s t : State} (h : EntropyAborts s t) : BlockAborts s t := by
  obtain ⟨u, h1, h2, h3⟩ := h
  exact ⟨u, h1.blocks h2, h3⟩

/-! ### The coefficients -/

/-- A change of the scratch block and the sequencer alone. -/
theorem blocks_scratch (s : State) (blk : Vector Word 64) (seq : Seq) :
    Blocks s { s with blk := blk, seq := seq } :=
  ⟨rfl, rfl, fun _ _ h => h, id, id, id⟩

theorem shape_predictor (c : Comp) (v : Word) : ({ c with dcpred := v } : Comp).shape = c.shape := rfl

/-- A change of one predictor. -/
theorem blocks_predictor {s : State} {k : Nat} {c : Comp} (v : Word) (hc : s.comps[k]? = some c) :
    Blocks s (s.setComp k { c with dcpred := v }) := by
  refine ⟨rfl, shapes_setComp hc rfl, fun k' j hw => ?_, id, id, fun hm => ?_⟩
  · unfold State.planeByte at hw ⊢
    rw [State.getElem_setComp]
    split
    · obtain ⟨rfl, _⟩ := ‹_ ∧ _›
      rw [hc] at hw
      exact hw
    · exact hw
  · refine State.memoryWf_setComp hm ?_
    simp only [State.memoryWf, Bool.and_eq_true, List.all_eq_true] at hm
    exact hm.1.2 c (List.mem_of_getElem? hc)

theorem dcValue_post (d : Word) (s : State) (ab : State → Prop) :
    Post (dcValueOp d s) (fun t => Blocks s t ∧ t.seq.k = s.seq.k ∧ t.seq.kz = 0) ab
      (s.comps[s.seq.k]? = none) := by
  unfold dcValueOp
  rw [post_bind]
  refine Post.mono (getComp_post _ s ab) (fun c hc => ?_) (fun _ h => h) id
  simp only [post_pure]
  exact ⟨(blocks_predictor _ hc).trans (blocks_scratch _ _ _), by simp, by simp⟩

theorem acRun_post (r : Nat) (v : Word) (s : State) :
    Post (acRunOp r v s) (fun t => Blocks s t ∧ t.seq.k = s.seq.k ∧ s.seq.kz < t.seq.kz ∧ t.seq.kz ≤ 63 ∧
      (t.seq.stage = .ac → t.seq.kz < 63)) (BlockAborts s) (s.comps[s.seq.k]? = none) := by
  unfold acRunOp
  simp only
  split
  · exact ⟨s, Blocks.refl s, rfl⟩
  · rw [post_bind]
    refine Post.mono (getComp_post _ s _) (fun c hc => ?_) (fun _ h => h) id
    simp only [post_pure]
    refine ⟨blocks_scratch s _ _, rfl, ?_, ?_, ?_⟩
    · simp [State.storeCoef]
    · simp [State.storeCoef]; omega
    · simp only [State.storeCoef]
      intro h
      split at h
      · assumption
      · cases h

theorem acSymbol_post (sym : Byte) (v : Word) (s : State) :
    Post (acSymbolOp sym v s) (fun t => Blocks s t ∧ t.seq.k = s.seq.k ∧
      (t.seq.stage = .ac → s.seq.kz < t.seq.kz ∧ t.seq.kz < 63)) (BlockAborts s)
      (s.comps[s.seq.k]? = none) := by
  unfold acSymbolOp
  split
  · exact ⟨blocks_scratch s _ _, rfl, fun h => by cases h⟩
  · split
    · exact ⟨s, Blocks.refl s, rfl⟩
    · exact (acRun_post _ v s).imp fun t ht => ⟨ht.1, ht.2.1, fun h => ⟨ht.2.2.1, ht.2.2.2.2 h⟩⟩

/-- A component has the same shape, and so is there, after some blocks. -/
theorem Blocks.comp {s t : State} (h : Blocks s t) {k : Nat} {c : Comp} (hc : s.comps[k]? = some c) :
    ∃ d, t.comps[k]? = some d ∧ d.shape = c.shape :=
  shape_at h.shapes hc

/-- The AC loop ends in an answer or an abort: 63 turns suffice (R191). -/
theorem acLoop_post (fuel : Nat) (s : State) (hf : s.seq.stage = .ac → 63 ≤ fuel + s.seq.kz ∧ s.seq.kz < 63) :
    Post (acLoop fuel s) (fun t => Blocks s t ∧ t.seq.k = s.seq.k) (BlockAborts s)
      (¬ (s.inputOk ∧ ∃ c, s.comps[s.seq.k]? = some c)) := by
  induction fuel generalizing s with
  | zero =>
    simp only [acLoop]
    split
    · have := hf ‹_›; omega
    · exact ⟨Blocks.refl s, rfl⟩
  | succ fuel ih =>
    simp only [acLoop]
    split
    · rename_i hst
      have hf := hf hst
      rw [post_bind]
      refine Post.mono (getComp_post _ s _) (fun c hc => ?_) (fun _ h => h)
        (fun h ⟨_, c, hc⟩ => by rw [h] at hc; cases hc)
      rw [post_bind]
      refine Post.mono (vlc_post _ s) (fun r hr => ?_) (fun _ h => h.block) (fun h hi => h hi.1)
      have hb := hr.1.blocks hr.2
      have hseq : r.2.2.seq = s.seq := hr.1.seq
      have hcomp : r.2.2.comps[r.2.2.seq.k]? = some c := by rw [hr.1.comps, hseq]; exact hc
      rw [post_bind]
      refine Post.mono (acSymbol_post r.1 r.2.1 r.2.2) (fun t ht => ?_) (fun _ h => .of hb h)
        (fun h => by rw [hcomp] at h; cases h)
      obtain ⟨h1, h2, h3⟩ := ht
      rw [hseq] at h2 h3
      obtain ⟨d, hd, _⟩ := (hb.trans h1).comp hc
      refine Post.mono (ih t fun h => by have := h3 h; omega) (fun u hu => ?_) (fun _ h => .of (hb.trans h1) h)
        (fun hn hi => hn ⟨(hb.trans h1).inputOk hi.1, d, by rw [h2]; exact hd⟩)
      exact ⟨(hb.trans h1).trans hu.1, hu.2.trans h2⟩
    · exact ⟨Blocks.refl s, rfl⟩

theorem coefficients_post (k : Nat) (s : State) :
    Post (coefficientsOp k s) (fun t => Blocks s t ∧ t.seq.k = k) (BlockAborts s)
      (¬ (s.inputOk ∧ ∃ c, s.comps[k]? = some c)) := by
  unfold coefficientsOp
  rw [post_bind]
  refine Post.mono (getComp_post k s _) (fun c hc => ?_) (fun _ h => h)
    (fun h ⟨_, c, hc⟩ => by rw [h] at hc; cases hc)
  have h0 : Blocks s (s.startBlock k) := blocks_scratch s _ _
  rw [post_bind]
  refine Post.mono (vlc_post _ _) (fun r hr => ?_) (fun _ h => .of h0 h.block)
    (fun h hi => h (h0.inputOk hi.1))
  have hb := h0.trans (hr.1.blocks hr.2)
  have hk : r.2.2.seq.k = k := by rw [hr.1.seq]; rfl
  rw [post_bind]
  refine Post.mono (dcValue_post r.2.1 r.2.2 _) (fun t ht => ?_) (fun _ h => h) (fun h => ?_)
  · have hb' := hb.trans ht.1
    obtain ⟨d, hd, _⟩ := hb'.comp hc
    refine Post.mono (acLoop_post 63 t fun _ => by rw [ht.2.2]; omega) (fun u hu => ?_) (fun _ h => .of hb' h)
      (fun hn hi => hn ⟨hb'.inputOk hi.1, d, by rw [ht.2.1, hk]; exact hd⟩)
    exact ⟨hb'.trans hu.1, by rw [hu.2, ht.2.1, hk]⟩
  · have : r.2.2.comps[k]? = some c := by rw [hr.1.comps]; exact hc
    rw [hk, this] at h
    cases h

/-- The AC loop changes no component. -/
theorem acLoop_comps (fuel : Nat) (s : State) :
    Post (acLoop fuel s) (fun t => t.comps = s.comps) (fun _ => True) True := by
  have any : ∀ (n : Fin 4) (u : State),
      Post (decodeVlcOp n u) (fun r => Reads u r.2.2) (fun _ => True) True := fun n u =>
    (vlc_post n u).mono (fun _ h => h.1) (fun _ _ => trivial) (fun _ => trivial)
  induction fuel generalizing s with
  | zero => simp only [acLoop]; split <;> simp
  | succ fuel ih =>
    simp only [acLoop]
    split
    · rw [post_bind]
      refine Post.mono (getComp_post _ s _) (fun c hc => ?_) (fun _ h => h) (fun _ => trivial)
      rw [post_bind]
      refine (any _ s).imp fun r hr => ?_
      rw [post_bind]
      have hsym : Post (acSymbolOp r.1 r.2.1 r.2.2) (fun t => t.comps = r.2.2.comps) (fun _ => True) True := by
        unfold acSymbolOp acRunOp
        split
        · rfl
        · split
          · trivial
          · simp only
            split
            · trivial
            · rw [post_bind]
              refine Post.mono (getComp_post _ _ _) (fun c hc => ?_) (fun _ h => h) (fun _ => trivial)
              rfl
      refine hsym.imp fun t ht => (ih t).imp fun u hu => ?_
      rw [hu, ht, hr.comps]
    · rfl

/-- Of the components, the coefficients of a block change its own predictor only. -/
theorem coefficients_comps (k : Nat) (s : State) :
    Post (coefficientsOp k s) (fun t => ∃ c p, s.comps[k]? = some c ∧
      t.comps = s.comps.set k { c with dcpred := p }) (fun _ => True) True := by
  unfold coefficientsOp
  rw [post_bind]
  refine Post.mono (getComp_post k s _) (fun c hc => ?_) (fun _ h => h) (fun _ => trivial)
  rw [post_bind]
  refine Post.mono (vlc_post _ _) (fun r hr => ?_) (fun _ _ => trivial) (fun _ => trivial)
  have hk : r.2.2.seq.k = k := by rw [hr.1.seq]; rfl
  have hcomps : r.2.2.comps = s.comps := by rw [hr.1.comps]; rfl
  unfold dcValueOp
  rw [post_bind, post_bind, hk]
  refine Post.mono (getComp_post k _ _) (fun d hd => ?_) (fun _ h => h) (fun _ => trivial)
  rw [hcomps, hc] at hd
  cases hd
  simp only [post_pure]
  refine (acLoop_comps 63 _).imp fun t ht => ⟨c, c.dcpred + r.2.1, hc, ?_⟩
  rw [ht]
  simp [State.setComp, hcomps]

/-- Every byte of the block at `off` of component k has a value. -/
def State.blockWritten (s : State) (k off : Nat) : Prop :=
  ∃ c, s.comps[k]? = some c ∧ ∀ r x, r < 8 → x < 8 → (s.planeByte k (off + r * c.stride + x)).isSome = true

theorem blockWritten_of {s t : State} (h : Blocks s t) {k off : Nat} (hs : s.blockWritten k off) :
    t.blockWritten k off := by
  obtain ⟨c, hc, hw⟩ := hs
  obtain ⟨d, hd, hsh⟩ := h.comp hc
  refine ⟨d, hd, fun r x hr hx => ?_⟩
  rw [Comp.stride_of_shape hsh]
  exact h.written k _ (hw r x hr hx)

theorem blockFits_of {s t : State} (h : Blocks s t) {k off : Nat} (hs : s.blockFits k off) :
    t.blockFits k off := by
  obtain ⟨c, hc, hh⟩ := hs
  obtain ⟨d, hd, hsh⟩ := h.comp hc
  refine ⟨d, hd, ?_⟩
  rw [Comp.stride_of_shape hsh]
  exact Comp.holds_of_shape hsh.symm hh

/-- DECODE_BLOCK writes its block, or ends the DECODE with SYNTAX_ERROR. -/
theorem decodeBlock_post (k off : Nat) (s : State) :
    Post (decodeBlockOp k off s) (fun t => Blocks s t ∧ t.blockWritten k off) (BlockAborts s)
      (¬ (s.inputOk ∧ s.blockFits k off)) := by
  unfold decodeBlockOp
  rw [post_bind]
  refine Post.mono (coefficients_post k s) (fun t ht => ?_) (fun _ h => h)
    (fun h ⟨hi, c, hc, _⟩ => h ⟨hi, c, hc⟩)
  refine Post.mono (idctBlock_post k off t _) (fun u hu => ?_) (fun _ h => h)
    (fun h hi => h (blockFits_of ht.1 hi.2))
  obtain ⟨c, hc, hw⟩ := hu
  have hscratch : Blocks t { t with blk := idctRows t.cfg t.blk } := blocks_scratch t _ t.seq
  have hb := (ht.1.trans hscratch).trans hw.blocks
  refine ⟨hb, ?_⟩
  obtain ⟨d, hd, hsh⟩ := hw.blocks.comp hc
  refine ⟨d, hd, fun r x hr hx => ?_⟩
  rw [Comp.stride_of_shape hsh, hw.byte, if_pos rfl]
  have hlen : r < (idctColOp t.cfg (blkCol (idctRows t.cfg t.blk) x)).toList.length := by
    simp only [Oct.toList, List.length_cons, List.length_nil]; omega
  have hmem : (off + r * c.stride + x,
      (idctColOp t.cfg (blkCol (idctRows t.cfg t.blk) x)).toList[r]) ∈
      blockWrites t.cfg (idctRows t.cfg t.blk) off c.stride 8 :=
    mem_blockWrites.mpr ⟨x, hx, r, List.getElem?_eq_getElem hlen, rfl⟩
  have hsome : ∀ (ws : List (Nat × Byte)) (j : Nat) (v : Byte), (j, v) ∈ ws →
      (lastWrite ws j).isSome = true := by
    intro ws j v hm
    induction ws with
    | nil => cases hm
    | cons w ws ih =>
      rcases List.mem_cons.mp hm with rfl | hm
      · simp [lastWrite]
      · simp [lastWrite, ih hm]
  simp [hsome _ _ _ hmem]

end Sys2Proof.Machine
end

