-- ==== Sys2Proof/Laws/Upsample.lean ====
section
/-! SUPPORT. The upsampler: what one line of samples becomes, and what a pass changes. -/

namespace Sys2Proof.Machine

/-! ### One line -/

/-- The interior outputs of a line of samples. -/
def interiorOf (cfg : Config) (L : Nat → Byte) : (n x : Nat) → List Byte
  | 0, _ => []
  | n + 1, x =>
    tap4 cfg.cf4a cfg.cf4b cfg.cf4c cfg.cf4d (L x) (L (x + 1)) (L (x + 2)) (L (x + 3)) ::
      tap4 cfg.cf4d cfg.cf4c cfg.cf4b cfg.cf4a (L x) (L (x + 1)) (L (x + 2)) (L (x + 3)) ::
        interiorOf cfg L n (x + 1)

/-- The outputs of a line of samples. -/
def lineOf (cfg : Config) (L : Nat → Byte) (w e : Nat) : List Byte :=
  let left := edgeOutputs cfg (L 0) (L 1) (L 2)
  let right := edgeOutputs cfg (L (e - 1)) (L (e - 2)) (L (e - 3))
  [left.1, left.2.1, left.2.2] ++ interiorOf cfg L (w - 3) 0 ++ [right.2.2, right.2.1, right.1]

theorem length_interiorOf (cfg : Config) (L : Nat → Byte) (n x : Nat) :
    (interiorOf cfg L n x).length = 2 * n := by
  induction n generalizing x with
  | zero => rfl
  | succ n ih => simp only [interiorOf, List.length_cons, ih]; omega

theorem length_lineOf (cfg : Config) (L : Nat → Byte) (w e : Nat) (h : 3 ≤ w) :
    (lineOf cfg L w e).length = 2 * w := by
  simp only [lineOf, List.length_append, length_interiorOf, List.length_cons, List.length_nil]
  omega

theorem interiorOf_even (cfg : Config) (L : Nat → Byte) (n x i : Nat) (h : i < n) :
    (interiorOf cfg L n x)[2 * i]? = some (tap4 cfg.cf4a cfg.cf4b cfg.cf4c cfg.cf4d
      (L (x + i)) (L (x + i + 1)) (L (x + i + 2)) (L (x + i + 3))) := by
  induction n generalizing x i with
  | zero => omega
  | succ n ih =>
    cases i with
    | zero => simp [interiorOf]
    | succ i =>
      have := ih (x + 1) i (by omega)
      simp only [interiorOf, show 2 * (i + 1) = 2 * i + 1 + 1 by omega, List.getElem?_cons_succ, this]
      simp only [show x + 1 + i = x + (i + 1) by omega]

theorem interiorOf_odd (cfg : Config) (L : Nat → Byte) (n x i : Nat) (h : i < n) :
    (interiorOf cfg L n x)[2 * i + 1]? = some (tap4 cfg.cf4d cfg.cf4c cfg.cf4b cfg.cf4a
      (L (x + i)) (L (x + i + 1)) (L (x + i + 2)) (L (x + i + 3))) := by
  induction n generalizing x i with
  | zero => omega
  | succ n ih =>
    cases i with
    | zero => simp [interiorOf]
    | succ i =>
      have := ih (x + 1) i (by omega)
      simp only [interiorOf, show 2 * (i + 1) + 1 = 2 * i + 1 + 1 + 1 by omega, List.getElem?_cons_succ, this]
      simp only [show x + 1 + i = x + (i + 1) by omega]

theorem interiorOutputs_ok (cfg : Config) (line : Nat → Eng Byte) (L : Nat → Byte) (n x : Nat)
    (h : ∀ i, x ≤ i → i < x + n + 3 → line i = .ok (L i)) :
    interiorOutputs cfg line n x = .ok (interiorOf cfg L n x) := by
  induction n generalizing x with
  | zero => rfl
  | succ n ih =>
    simp only [interiorOutputs, h x (by omega) (by omega), h (x + 1) (by omega) (by omega),
      h (x + 2) (by omega) (by omega), h (x + 3) (by omega) (by omega),
      ih (x + 1) fun i h1 h2 => h i (by omega) (by omega), bind, Except.bind, pure, Except.pure, interiorOf]

/-- A line whose samples are all there has its outputs. -/
theorem upsampleLine_ok (cfg : Config) (line : Nat → Eng Byte) (L : Nat → Byte) (w e : Nat) (hw : 3 ≤ w)
    (he : 3 ≤ e) (h : ∀ i, i < max w e → line i = .ok (L i)) :
    upsampleLine cfg line w e = .ok (lineOf cfg L w e) := by
  unfold upsampleLine
  rw [interiorOutputs_ok cfg line L (w - 3) 0 fun i _ h2 => h i (by omega)]
  simp only [h 0 (by omega), h 1 (by omega), h 2 (by omega), h (e - 1) (by omega), h (e - 2) (by omega),
    h (e - 3) (by omega), bind, Except.bind, pure, Except.pure, lineOf]

/-- Lines that all answer are laid out in order. -/
theorem upsampleLines_ok (one : Nat → Eng (List Byte)) (f : Nat → List Byte) (n i : Nat)
    (h : ∀ j, i ≤ j → j < i + n → one j = .ok (f j)) :
    upsampleLines one n i = .ok ((List.range n).map fun j => f (i + j)) := by
  induction n generalizing i with
  | zero => rfl
  | succ n ih =>
    simp only [upsampleLines, h i (by omega) (by omega), ih (i + 1) fun j h1 h2 => h j (by omega) (by omega),
      bind, Except.bind, pure, Except.pure, List.range_succ_eq_map, List.map_cons, List.map_map]
    congr 2
    refine List.map_congr_left fun j _ => ?_
    show f (i + 1 + j) = f (i + (j + 1))
    congr 1; omega

/-! ### What a line or a pass can do at all -/

theorem interiorOutputs_post (cfg : Config) (line : Nat → Eng Byte) (ab : State → Prop)
    (hl : ∀ i, Post (line i) (fun _ => True) ab True) (n x : Nat) :
    Post (interiorOutputs cfg line n x) (fun l => l.length = 2 * n) ab True := by
  induction n generalizing x with
  | zero => rfl
  | succ n ih =>
    simp only [interiorOutputs, post_bind, post_pure]
    refine (hl _).imp fun _ _ => (hl _).imp fun _ _ => (hl _).imp fun _ _ => (hl _).imp fun _ _ => ?_
    refine (ih (x + 1)).imp fun l hl => ?_
    simp only [List.length_cons, hl]; omega

theorem upsampleLine_post (cfg : Config) (line : Nat → Eng Byte) (w e : Nat) (ab : State → Prop)
    (hw : 3 ≤ w) (hl : ∀ i, Post (line i) (fun _ => True) ab True) :
    Post (upsampleLine cfg line w e) (fun l => l.length = 2 * w) ab True := by
  simp only [upsampleLine, post_bind, post_pure]
  refine (hl _).imp fun _ _ => (hl _).imp fun _ _ => (hl _).imp fun _ _ => ?_
  refine (interiorOutputs_post cfg line ab hl _ _).imp fun m hm => ?_
  refine (hl _).imp fun _ _ => (hl _).imp fun _ _ => (hl _).imp fun _ _ => ?_
  simp only [List.length_append, List.length_cons, List.length_nil, hm]
  omega

theorem upsampleLines_post (one : Nat → Eng (List Byte)) (ab : State → Prop) (m : Nat)
    (ho : ∀ i, Post (one i) (fun l => l.length = m) ab True) (n i : Nat) :
    Post (upsampleLines one n i) (fun ls => ls.length = n ∧ ∀ l ∈ ls, l.length = m) ab True := by
  induction n generalizing i with
  | zero => exact ⟨rfl, fun _ h => by cases h⟩
  | succ n ih =>
    simp only [upsampleLines, post_bind, post_pure]
    refine (ho i).imp fun l hl => (ih (i + 1)).imp fun ls hls => ?_
    refine ⟨by simp [hls.1], fun x hx => ?_⟩
    rcases List.mem_cons.mp hx with rfl | hx
    · exact hl
    · exact hls.2 x hx

theorem length_flatten_of {m : Nat} (ls : List (List Byte)) (h : ∀ l ∈ ls, l.length = m) :
    ls.flatten.length = ls.length * m := by
  induction ls with
  | nil => simp
  | cons l ls ih =>
    simp only [List.flatten_cons, List.length_append, List.length_cons, Nat.succ_mul,
      h l (List.mem_cons_self ..), ih fun x hx => h x (List.mem_cons_of_mem _ hx)]
    omega

theorem length_rowsOfColumns (cols : List (List Byte)) (n : Nat) :
    (rowsOfColumns cols n).length = n * cols.length := by
  simp [rowsOfColumns, List.length_flatMap, List.sum_replicate]

theorem Buffer.get_any (b : Buffer) (sp : Space) (i : Nat) (ab : State → Prop) :
    Post (b.get sp i) (fun _ => True) ab True :=
  (Buffer.get_post b sp i ab True fun _ => trivial).imp fun _ _ => trivial

theorem Comp.plane_post (c : Comp) (ab : State → Prop) :
    Post c.plane (fun b => c.pixels = some b) ab (c.pixels = none) := by
  unfold Comp.plane
  cases h : c.pixels with
  | none => exact (rfl : (none : Option Buffer) = none)
  | some b => exact (rfl : some b = some b)

/-- UPS_H: an upsampled plane of 2w · h bytes replaces the old one, or the DECODE ends with OUT_OF_MEMORY
and nothing changed before. -/
theorem upsH_post (k : Nat) (s : State) :
    Post (upsHOp k s) (fun t => ∃ c old bytes, s.comps[k]? = some c ∧ c.pixels = some old ∧
      bytes.length = c.height * (2 * c.width) ∧ 3 ≤ c.width ∧
      t = replacePlane k old { c with width := 2 * c.width, stride := 2 * c.width } bytes
        { s with live := s.live + 2 * c.width * c.height })
      (fun t => t = s.abort .outOfMemory) True := by
  unfold upsHOp
  rw [post_bind]
  refine Post.mono (getComp_post k s _) (fun c hc => ?_) (fun _ h => h) (fun _ => trivial)
  split
  · trivial
  · rw [post_bind]
    refine Post.mono (alloc_post _ s True) (fun r hr => ?_) (fun _ h => h.1) id
    rw [post_bind]
    refine Post.mono (Comp.plane_post c _) (fun old hold => ?_) (fun _ h => h) (fun _ => trivial)
    rw [post_bind]
    refine Post.imp (upsampleLines_post _ _ (2 * c.width)
      (fun y => upsampleLine_post s.cfg _ c.width _ _ (by omega) fun x => Buffer.get_any old .plane _ _)
      c.height 0) fun rows hrows => ?_
    refine ⟨c, old, rows.flatten, hc, hold, ?_, by omega, ?_⟩
    · rw [length_flatten_of rows hrows.2, hrows.1]
    · rw [hr.1]

/-- UPS_V: as UPS_H, with rows for columns. -/
theorem upsV_post (k : Nat) (s : State) :
    Post (upsVOp k s) (fun t => ∃ c old bytes, s.comps[k]? = some c ∧ c.pixels = some old ∧
      bytes.length = 2 * c.height * c.width ∧ 3 ≤ c.height ∧
      t = replacePlane k old { c with height := 2 * c.height, stride := c.width } bytes
        { s with live := s.live + c.width * (2 * c.height) })
      (fun t => t = s.abort .outOfMemory) True := by
  unfold upsVOp
  rw [post_bind]
  refine Post.mono (getComp_post k s _) (fun c hc => ?_) (fun _ h => h) (fun _ => trivial)
  split
  · trivial
  · rw [post_bind]
    refine Post.mono (alloc_post _ s True) (fun r hr => ?_) (fun _ h => h.1) id
    rw [post_bind]
    refine Post.mono (Comp.plane_post c _) (fun old hold => ?_) (fun _ h => h) (fun _ => trivial)
    rw [post_bind]
    refine Post.imp (upsampleLines_post _ _ (2 * c.height)
      (fun x => upsampleLine_post s.cfg _ c.height _ _ (by omega) fun y => Buffer.get_any old .plane _ _)
      c.width 0) fun cols hcols => ?_
    refine ⟨c, old, rowsOfColumns cols (2 * c.height), hc, hold, ?_, by omega, ?_⟩
    · rw [length_rowsOfColumns, hcols.1]
    · rw [hr.1]

/-- A plane whose rows are all there: `height` rows of `stride` bytes, every byte with a value. -/
def Comp.full (c : Comp) : Prop :=
  c.width ≤ c.stride ∧ ∃ b, c.pixels = some b ∧ ∀ j, j < c.height * c.stride → b.has j = true

theorem Buffer.get_has {b : Buffer} {i : Nat} (sp : Space) (h : b.has i = true) :
    b.get sp i = .ok ((b.mem.read i).getD 0) := by
  simp only [Buffer.has, Bool.and_eq_true, decide_eq_true_eq] at h
  obtain ⟨v, hv⟩ := Option.isSome_iff_exists.mp h.2
  rw [Buffer.get_ok sp h.1 hv, hv]
  rfl

theorem index_lt {x y h s : Nat} (hx : x < s) (hy : y < h) : y * s + x < h * s := by
  have := Nat.mul_le_mul_right s hy
  rw [Nat.succ_mul] at this
  omega

/-- UPS_H on a full plane of width 3 or more, with the memory granted: the rows it writes. -/
theorem upsH_ok {k : Nat} {s : State} {c : Comp} {old : Buffer} (hc : s.comps[k]? = some c)
    (hb : c.pixels = some old) (hw : 3 ≤ c.width) (hs : c.width ≤ c.stride)
    (hf : ∀ j, j < c.height * c.stride → old.has j = true)
    (hg : allocGrants s.cfg (2 * c.width * c.height) s.live = true) :
    upsHOp k s = .ok (replacePlane k old { c with width := 2 * c.width, stride := 2 * c.width }
      ((List.range c.height).map fun y =>
        lineOf s.cfg (fun x => (old.mem.read (y * c.stride + x)).getD 0) c.width (rightEdge s.cfg c)).flatten
      { s with live := s.live + 2 * c.width * c.height }) := by
  have hedge : 3 ≤ rightEdge s.cfg c ∧ rightEdge s.cfg c ≤ c.stride := by
    unfold rightEdge
    cases s.cfg.upsHEdge <;> simp <;> omega
  have hlines := upsampleLines_ok
    (fun y => upsampleLine s.cfg (fun x => old.get .plane (y * c.stride + x)) c.width (rightEdge s.cfg c))
    (fun y => lineOf s.cfg (fun x => (old.mem.read (y * c.stride + x)).getD 0) c.width (rightEdge s.cfg c))
    c.height 0 fun y _ hy => upsampleLine_ok s.cfg _ _ c.width _ hw hedge.1 fun x hx =>
      Buffer.get_has .plane (hf _ (index_lt (by omega) (by omega)))
  simp only [Nat.zero_add] at hlines
  unfold upsHOp
  simp only [getComp_ok hc, show ¬ c.width < 3 by omega, alloc, hg, Comp.plane, hb, hlines, if_true, if_false,
    bind, Except.bind, pure, Except.pure]

/-- UPS_V on a full plane of height 3 or more, with the memory granted: the columns it writes. -/
theorem upsV_ok {k : Nat} {s : State} {c : Comp} {old : Buffer} (hc : s.comps[k]? = some c)
    (hb : c.pixels = some old) (hh : 3 ≤ c.height) (hs : c.width ≤ c.stride)
    (hf : ∀ j, j < c.height * c.stride → old.has j = true)
    (hg : allocGrants s.cfg (c.width * (2 * c.height)) s.live = true) :
    upsVOp k s = .ok (replacePlane k old { c with height := 2 * c.height, stride := c.width }
      (rowsOfColumns ((List.range c.width).map fun x =>
        lineOf s.cfg (fun y => (old.mem.read (y * c.stride + x)).getD 0) c.height c.height) (2 * c.height))
      { s with live := s.live + c.width * (2 * c.height) }) := by
  have hlines := upsampleLines_ok
    (fun x => upsampleLine s.cfg (fun y => old.get .plane (y * c.stride + x)) c.height c.height)
    (fun x => lineOf s.cfg (fun y => (old.mem.read (y * c.stride + x)).getD 0) c.height c.height)
    c.width 0 fun x _ hx => upsampleLine_ok s.cfg _ _ c.height _ hh hh fun y hy =>
      Buffer.get_has .plane (hf _ (index_lt (by omega) (by omega)))
  simp only [Nat.zero_add] at hlines
  unfold upsVOp
  simp only [getComp_ok hc, show ¬ c.height < 3 by omega, alloc, hg, Comp.plane, hb, hlines, if_true, if_false,
    bind, Except.bind, pure, Except.pure]

/-- The bytes of rows laid out one after another. -/
theorem getElem_flatten_rows (f : Nat → List Byte) (m n : Nat) (hf : ∀ y, (f y).length = m) {y x : Nat}
    (hy : y < n) (hx : x < m) : ((List.range n).map f).flatten[y * m + x]? = (f y)[x]? := by
  induction n generalizing y f with
  | zero => omega
  | succ n ih =>
    rw [List.range_succ_eq_map, List.map_cons, List.map_map, List.flatten_cons]
    cases y with
    | zero =>
      rw [Nat.zero_mul, Nat.zero_add, List.getElem?_append_left (by rw [hf]; exact hx)]
    | succ y =>
      rw [Nat.succ_mul, List.getElem?_append_right (by rw [hf]; omega), hf,
        show y * m + m + x - m = y * m + x by omega]
      exact ih (f ∘ Nat.succ) (fun y => hf _) (by omega)

/-- The bytes of columns laid out row by row. -/
theorem getElem_rowsOfColumns (f : Nat → List Byte) (w n : Nat) {r x : Nat} (hr : r < n) (hx : x < w) :
    (rowsOfColumns ((List.range w).map f) n)[r * w + x]? = some ((f x).getD r 0) := by
  have hlen : ∀ r, (((List.range w).map f).map fun col => col.getD r 0).length = w := by simp
  have := getElem_flatten_rows (fun r => ((List.range w).map f).map fun col => col.getD r 0) w n hlen hr hx
  rw [rowsOfColumns, List.flatMap_def, this]
  simp [hx]

theorem replacePlane_comp {k : Nat} {s : State} {old : Buffer} {c : Comp} {bytes : List Byte} {d : Comp}
    (hc : s.comps[k]? = some d) : (replacePlane k old c bytes s).comps[k]? =
      some { c with pixels := some (Buffer.ofBytes bytes) } := by
  have hk : k < s.comps.length := (List.getElem?_eq_some_iff.mp hc).1
  rw [replacePlane, State.getElem_setComp]
  simp [State.release, hk]

theorem replacePlane_other {k j : Nat} {s : State} {old : Buffer} {c : Comp} {bytes : List Byte}
    (hj : j ≠ k) : (replacePlane k old c bytes s).comps[j]? = s.comps[j]? := by
  rw [replacePlane, State.getElem_setComp, if_neg (by simp [hj])]
  rfl

theorem replacePlane_memory {k : Nat} {s : State} {old : Buffer} {c : Comp} {bytes : List Byte}
    (h : s.memoryWf = true) : (replacePlane k old c bytes s).memoryWf = true :=
  State.memoryWf_setComp (s := s.release old.size) h (Buffer.wf_ofBytes bytes)

/-- The plane a pass leaves is full: every byte of it was written. -/
theorem full_ofBytes (c : Comp) (bytes : List Byte) (h : c.height * c.stride ≤ bytes.length)
    (hw : c.width ≤ c.stride) : ({ c with pixels := some (Buffer.ofBytes bytes) } : Comp).full := by
  refine ⟨hw, _, rfl, fun j hj => ?_⟩
  have : j < bytes.length := by simp only at hj; omega
  simp [Buffer.has, this]

end Sys2Proof.Machine
end

