-- ==== Sys2Proof/Laws/Color.lean ====
section
/-! SUPPORT. The output stage: COLOR, COMPACT, and upsampling to completion. -/

namespace Sys2Proof.Machine

/-! ### COLOR -/

/-- Sample (x, y) of component k, 0 where there is none. -/
def State.sample (s : State) (k x y : Nat) : Byte :=
  match s.comps[k]? with
  | some c => (s.planeByte k (sampleIndex c x y)).getD 0
  | none => 0

/-- The pixel (x, y) of the colour image. -/
def State.pixel (s : State) (x y : Nat) : Byte × Byte × Byte :=
  yccOp s.cfg (s.sample 0 x y) (s.sample 1 x y) (s.sample 2 x y)

/-- Byte j of the colour image, W columns wide (R76). -/
def State.colorByte (s : State) (j : Nat) : Byte :=
  let p := s.pixel (j / 3 % s.width.toNat) (j / 3 / s.width.toNat)
  if j % 3 = 0 then p.1 else if j % 3 = 1 then p.2.1 else p.2.2

/-- Sample (x, y) of component k has a value. -/
def State.hasSample (s : State) (k x y : Nat) : Prop :=
  ∃ c b, s.comps[k]? = some c ∧ c.pixels = some b ∧ b.has (sampleIndex c x y) = true

/-- COLOR finds its samples and its buffer. -/
def State.colorReady (s : State) : Prop :=
  (∀ x y, x < s.width.toNat → y < s.height.toNat →
    s.hasSample 0 x y ∧ s.hasSample 1 x y ∧ s.hasSample 2 x y) ∧
  ∃ b, s.rgb = some b ∧ 3 * (s.height.toNat * s.width.toNat) ≤ b.size

/-- t is s with the first n bytes of the RGB buffer those of the colour image. -/
structure Colors (n : Nat) (s t : State) : Prop where
  frame : t = { s with rgb := t.rgb }
  size : t.rgb.map Buffer.size = s.rgb.map Buffer.size
  byte : ∀ j, t.rgbByte j = if j < n then some (s.colorByte j) else s.rgbByte j
  memory : s.memoryWf = true → t.memoryWf = true

theorem Colors.zero (s : State) : Colors 0 s s :=
  ⟨rfl, rfl, by simp, id⟩

theorem sampleAt_post (k x y : Nat) (s : State) (ab : State → Prop) :
    Post (sampleAt k x y s) (fun v => v = s.sample k x y) ab (¬ s.hasSample k x y) := by
  unfold sampleAt
  rw [post_bind]
  refine Post.mono (getComp_post k s ab) (fun c hc => ?_) (fun _ h => h)
    (fun h ⟨c, _, hc, _⟩ => by rw [h] at hc; cases hc)
  refine Post.mono (planeRead_post k _ s ab) (fun v hv => ?_) (fun _ h => h) (fun h hs => h ?_)
  · simp [State.sample, hc, hv]
  · obtain ⟨c', b, hc', hb, hh⟩ := hs
    rw [hc] at hc'
    cases hc'
    exact ⟨c, b, hc, hb, hh⟩

/-- One more byte of the image. -/
theorem Colors.snoc {n : Nat} {s t u : State} {v : Byte} (h : Colors n s t) (hv : v = s.colorByte n)
    (hu : ∃ b, t.rgb = some b ∧ n < b.size ∧ u = { t with rgb := some { b with mem := b.mem.write n v } }) :
    Colors (n + 1) s u := by
  obtain ⟨b, hb, hn, rfl⟩ := hu
  refine ⟨?_, ?_, fun j => ?_, fun hm => ?_⟩
  · have := h.frame
    rw [this]
  · have := h.size
    rw [hb] at this
    simpa using this
  · have hj := h.byte j
    simp only [State.rgbByte, hb, Option.bind_some] at hj ⊢
    rw [Memory.read_write]
    by_cases hjn : j = n
    · simp [hjn, hv]
    · rw [if_neg hjn, hj]
      by_cases hlt : j < n
      · rw [if_pos hlt, if_pos (by omega)]
      · rw [if_neg hlt, if_neg (by omega)]
  · have := h.memory hm
    simp only [State.memoryWf, hb, optBufferWf, Bool.and_eq_true] at this ⊢
    exact ⟨this.1, Buffer.wf_put v this.2 hn⟩

theorem Colors.sample {n : Nat} {s t : State} (h : Colors n s t) (k x y : Nat) :
    t.sample k x y = s.sample k x y := by
  rw [h.frame]
  rfl

theorem Colors.cfg {n : Nat} {s t : State} (h : Colors n s t) : t.cfg = s.cfg := by rw [h.frame]
theorem Colors.width {n : Nat} {s t : State} (h : Colors n s t) : t.width = s.width := by rw [h.frame]

theorem Colors.hasBuffer {n m : Nat} {s t : State} (h : Colors n s t)
    (hs : ∃ b, s.rgb = some b ∧ m ≤ b.size) : ∃ b, t.rgb = some b ∧ m ≤ b.size := by
  obtain ⟨b, hb, hm⟩ := hs
  have := h.size
  rw [hb] at this
  cases ht : t.rgb with
  | none => rw [ht] at this; cases this
  | some b' =>
    rw [ht] at this
    simp only [Option.map_some, Option.some.injEq] at this
    exact ⟨b', rfl, by omega⟩

theorem colorPixel_post (y x : Nat) (s t : State) (ab : State → Prop) (hx : x < s.width.toNat)
    (hy : y < s.height.toNat) (h : Colors (3 * (y * s.width.toNat + x)) s t) :
    Post (colorPixel y x t) (Colors (3 * (y * s.width.toNat + (x + 1))) s) ab (¬ s.colorReady) := by
  have hdiv : ∀ r, r < 3 → (3 * (y * s.width.toNat + x) + r) / 3 = y * s.width.toNat + x := by
    intro r hr; omega
  have hmod : (y * s.width.toNat + x) % s.width.toNat = x := by
    rw [Nat.add_comm, Nat.add_mul_mod_self_right, Nat.mod_eq_of_lt hx]
  have hquo : (y * s.width.toNat + x) / s.width.toNat = y := by
    rw [Nat.add_comm, Nat.add_mul_div_right _ _ (by omega), Nat.div_eq_of_lt hx, Nat.zero_add]
  have hc0 : s.colorByte (3 * (y * s.width.toNat + x)) = (s.pixel x y).1 := by
    have := hdiv 0 (by omega)
    rw [Nat.add_zero] at this
    simp only [State.colorByte, this, hmod, hquo]
    rw [if_pos (by omega)]
  have hc1 : s.colorByte (3 * (y * s.width.toNat + x) + 1) = (s.pixel x y).2.1 := by
    simp only [State.colorByte, hdiv 1 (by omega), hmod, hquo]
    rw [if_neg (by omega), if_pos (by omega)]
  have hc2 : s.colorByte (3 * (y * s.width.toNat + x) + 2) = (s.pixel x y).2.2 := by
    simp only [State.colorByte, hdiv 2 (by omega), hmod, hquo]
    rw [if_neg (by omega), if_neg (by omega)]
  have hbound : s.colorReady → ∃ b, s.rgb = some b ∧ 3 * (y * s.width.toNat + x) + 3 ≤ b.size := by
    rintro ⟨_, b, hb, hn⟩
    have := index_lt hx hy
    exact ⟨b, hb, by omega⟩
  have hsamples : ∀ k, ∀ hk : s.colorReady → s.hasSample k x y,
      ¬ t.hasSample k x y → ¬ s.colorReady := by
    intro k hk hn hr
    refine hn ?_
    rw [h.frame]
    exact hk hr
  unfold colorPixel
  rw [post_bind]
  refine Post.mono (sampleAt_post 0 x y t ab) (fun l hl => ?_) (fun _ h => h)
    (hsamples 0 fun hr => (hr.1 x y hx hy).1)
  rw [post_bind]
  refine Post.mono (sampleAt_post 1 x y t ab) (fun cb hcb => ?_) (fun _ h => h)
    (hsamples 1 fun hr => (hr.1 x y hx hy).2.1)
  rw [post_bind]
  refine Post.mono (sampleAt_post 2 x y t ab) (fun cr hcr => ?_) (fun _ h => h)
    (hsamples 2 fun hr => (hr.1 x y hx hy).2.2)
  have hp : yccOp t.cfg l cb cr = s.pixel x y := by
    rw [hl, hcb, hcr, h.sample, h.sample, h.sample, h.cfg]
    rfl
  simp only [hp, h.width]
  have hfault : ∀ {n m : Nat} {u : State}, Colors n s u → m < 3 →
      (¬ ∃ b, u.rgb = some b ∧ 3 * (y * s.width.toNat + x) + m < b.size) → ¬ s.colorReady := by
    intro n m u hu hm hn hr
    obtain ⟨b, hb, hle⟩ := hu.hasBuffer (hbound hr)
    exact hn ⟨b, hb, by omega⟩
  rw [post_bind]
  refine Post.mono (outWrite_post _ _ t ab) (fun u1 hu1 => ?_) (fun _ h => h)
    (hfault (m := 0) h (by omega))
  have h1 := h.snoc hc0.symm hu1
  rw [post_bind]
  refine Post.mono (outWrite_post _ _ u1 ab) (fun u2 hu2 => ?_) (fun _ h => h)
    (hfault (m := 1) h1 (by omega))
  have h2 := h1.snoc hc1.symm hu2
  refine Post.mono (outWrite_post _ _ u2 ab) (fun u3 hu3 => ?_) (fun _ h => h)
    (hfault (m := 2) h2 (by omega))
  exact h2.snoc hc2.symm hu3

/-- COLOR writes every byte of the image and nothing else. -/
theorem color_post (s : State) (ab : State → Prop) :
    Post (colorOp s) (Colors (3 * (s.height.toNat * s.width.toNat)) s) ab (¬ s.colorReady) := by
  unfold colorOp
  have hloop := forUp_post (ab := ab) (ft := ¬ s.colorReady)
    (body := fun y t => forUp (colorPixel y) t.width.toNat 0 t)
    (P := fun y t => Colors (3 * (y * s.width.toNat)) s t) s.height.toNat 0 s
    (by simpa using Colors.zero s) (fun y t _ hy ht => ?_)
  · simpa using hloop
  · simp only [ht.width]
    have hrow := forUp_post (ab := ab) (ft := ¬ s.colorReady) (body := colorPixel y)
      (P := fun x t => Colors (3 * (y * s.width.toNat + x)) s t) s.width.toNat 0 t
      (by simpa using ht) (fun x u _ hx hu => colorPixel_post y x s u ab (by omega) (by omega) hu)
    refine hrow.imp fun u hu => ?_
    rw [Nat.add_mul, Nat.one_mul]
    simpa using hu

/-! ### COMPACT -/

/-- t is s with the bytes of component 0's plane moved so far. -/
structure Compacts (n : Nat) (c : Comp) (s t : State) : Prop where
  frame : t = { s with comps := t.comps }
  shapes : t.comps.map Comp.shape = s.comps.map Comp.shape
  predictors : t.comps.map Comp.dcpred = s.comps.map Comp.dcpred
  byte : ∀ k j, t.planeByte k j = if k = 0 ∧ c.width ≤ j ∧ j < n then
      s.planeByte 0 (j / c.width * c.stride + j % c.width) else s.planeByte k j
  memory : s.memoryWf = true → t.memoryWf = true
  plane : ∀ d, s.comps[0]? = some d → ∃ p, t.comps = s.comps.set 0 { d with pixels := p }

/-- Nothing moved yet. -/
theorem Compacts.none {n : Nat} {c : Comp} (s : State) (h : n ≤ c.width) : Compacts n c s s :=
  ⟨rfl, rfl, rfl, fun k j => by rw [if_neg (by omega)], id, (WritesBytes.refl 0 s).plane⟩

theorem compactByte_post (c : Comp) (y x : Nat) (s t : State) (ab : State → Prop) (hx : x < c.width)
    (hy : 1 ≤ y) (hs : c.width ≤ c.stride) (h : Compacts (y * c.width + x) c s t) :
    Post (compactByte c y x t) (Compacts (y * c.width + (x + 1)) c s) ab
      (¬ ∃ b, (s.comps[0]?).bind Comp.pixels = some b ∧ b.has (y * c.stride + x) = true) := by
  have hmod : (y * c.width + x) % c.width = x := by
    rw [Nat.add_comm, Nat.add_mul_mod_self_right, Nat.mod_eq_of_lt hx]
  have hquo : (y * c.width + x) / c.width = y := by
    rw [Nat.add_comm, Nat.add_mul_div_right _ _ (by omega), Nat.div_eq_of_lt hx, Nat.zero_add]
  have hle : y * c.width ≤ y * c.stride := Nat.mul_le_mul_left y hs
  have hone : c.width ≤ y * c.width := Nat.le_mul_of_pos_left _ hy
  have hsrc : t.planeByte 0 (y * c.stride + x) = s.planeByte 0 (y * c.stride + x) := by
    rw [h.byte, if_neg (by omega)]
  -- the plane of component 0 is as large as before
  have hsize : ∀ b, (s.comps[0]?).bind Comp.pixels = some b → ∃ d b', t.comps[0]? = some d ∧
      d.pixels = some b' ∧ b'.size = b.size := by
    intro b hb
    cases hs0 : s.comps[0]? with
    | none => rw [hs0] at hb; cases hb
    | some c0 =>
      rw [hs0] at hb
      simp only [Option.bind_some] at hb
      obtain ⟨d, hd, hsh⟩ := shape_at h.shapes hs0
      have hp : d.shape.pixels = c0.shape.pixels := congrArg Comp.pixels hsh
      simp only [Comp.shape, hb, Option.map_some] at hp
      cases hdp : d.pixels with
      | none => rw [hdp] at hp; cases hp
      | some b' =>
        rw [hdp] at hp
        simp only [Option.map_some, Option.some.injEq, Buffer.fresh, Buffer.mk.injEq, and_true] at hp
        exact ⟨d, b', hd, hdp, hp⟩
  unfold compactByte
  rw [post_bind]
  refine Post.mono (planeRead_post 0 _ t ab) (fun v hv => ?_) (fun _ h => h) (fun hn hh => hn ?_)
  · rw [hsrc] at hv
    refine Post.mono (planeWrite_post 0 (y * c.width + x) v t ab) (fun u hu => ?_) (fun _ h => h)
      (fun hn hh => hn ?_)
    · refine ⟨?_, hu.shapes.trans h.shapes, hu.predictors.trans h.predictors, fun k j => ?_,
        fun hm => hu.memory (h.memory hm), plane_trans h.plane hu.plane⟩
      · have := hu.frame
        rw [h.frame] at this
        exact this
      · rw [hu.byte, h.byte]
        by_cases hk : k = 0
        · subst hk
          by_cases hj : j = y * c.width + x
          · subst hj
            rw [if_pos ⟨rfl, rfl⟩, if_pos ⟨rfl, by omega, by omega⟩, hmod, hquo, hv]
          · rw [if_neg (by simp [hj])]
            by_cases hlt : c.width ≤ j ∧ j < y * c.width + x
            · rw [if_pos ⟨rfl, hlt⟩, if_pos ⟨rfl, hlt.1, by omega⟩]
            · rw [if_neg (by simp only [true_and]; exact hlt), if_neg (by omega)]
        · simp [hk]
    · obtain ⟨b, hb, hhas⟩ := hh
      obtain ⟨d, b', hd, hdb, hsz⟩ := hsize b hb
      simp only [Buffer.has, Bool.and_eq_true, decide_eq_true_eq] at hhas
      exact ⟨d, hd, b', hdb, by omega⟩
  · obtain ⟨b, hb, hhas⟩ := hh
    obtain ⟨d, b', hd, hdb, hsz⟩ := hsize b hb
    refine ⟨d, b', hd, hdb, ?_⟩
    simp only [Buffer.has, Bool.and_eq_true, decide_eq_true_eq] at hhas ⊢
    refine ⟨by omega, ?_⟩
    have h1 : t.planeByte 0 (y * c.stride + x) = b'.mem.read (y * c.stride + x) := by
      simp [State.planeByte, hd, hdb]
    have h2 : s.planeByte 0 (y * c.stride + x) = b.mem.read (y * c.stride + x) := by
      cases hs0 : s.comps[0]? with
      | none => rw [hs0] at hb; cases hb
      | some c0 =>
        rw [hs0] at hb
        simp only [Option.bind_some] at hb
        simp [State.planeByte, hs0, hb]
    rw [← h1, hsrc, h2]
    exact hhas.2

/-- The loop of COMPACT. -/
theorem compactLoop_post (c : Comp) (s : State) (ab : State → Prop) (hs : c.width ≤ c.stride) :
    Post (forUp (fun y s => forUp (compactByte c y) c.width 0 s) (c.height - 1) 1 s)
      (Compacts (c.height * c.width) c s) ab
      (¬ ∃ b, (s.comps[0]?).bind Comp.pixels = some b ∧
        ∀ y x, y < c.height → x < c.width → b.has (y * c.stride + x) = true) := by
  by_cases hh : c.height = 0
  · rw [hh]
    exact Compacts.none s (by omega)
  have hloop := forUp_post (ab := ab)
    (ft := ¬ ∃ b, (s.comps[0]?).bind Comp.pixels = some b ∧
      ∀ y x, y < c.height → x < c.width → b.has (y * c.stride + x) = true)
    (body := fun y s => forUp (compactByte c y) c.width 0 s)
    (P := fun y t => Compacts (y * c.width) c s t) (c.height - 1) 1 s
    (Compacts.none s (by omega)) (fun y t hy1 hy ht => ?_)
  · rwa [show 1 + (c.height - 1) = c.height by omega] at hloop
  · have hrow := forUp_post (ab := ab)
      (ft := ¬ ∃ b, (s.comps[0]?).bind Comp.pixels = some b ∧
        ∀ y x, y < c.height → x < c.width → b.has (y * c.stride + x) = true)
      (body := compactByte c y) (P := fun x t => Compacts (y * c.width + x) c s t) c.width 0 t
      (by simpa using ht) (fun x u _ hx hu => ?_)
    · refine hrow.imp fun u hu => ?_
      rw [Nat.succ_mul]
      simpa using hu
    · refine Post.mono (compactByte_post c y x s u ab (by omega) hy1 hs hu) (fun _ h => h) (fun _ h => h)
        (fun hn hr => hn ?_)
      obtain ⟨b, hb, hall⟩ := hr
      exact ⟨b, hb, hall y x (by omega) (by omega)⟩

/-! ### Upsampling to completion -/

theorem sum_set (f : Comp → Nat) (l : List Comp) (k : Nat) (c d : Comp) (h : l[k]? = some c) :
    ((l.set k d).map f).sum + f c = (l.map f).sum + f d := by
  induction l generalizing k with
  | nil => cases h
  | cons x l ih =>
    cases k with
    | zero =>
      simp only [List.getElem?_cons_zero, Option.some.injEq] at h
      subst h
      simp only [List.set_cons_zero, List.map_cons, List.sum_cons]
      omega
    | succ k =>
      have := ih k (by simpa using h)
      simp only [List.set_cons_succ, List.map_cons, List.sum_cons]
      omega

/-- t is s after some upsampler passes on component k. -/
structure Upsamples (k : Nat) (s t : State) : Prop where
  frame : t = { s with comps := t.comps, live := t.live }
  others : ∀ j, j ≠ k → t.comps[j]? = s.comps[j]?
  memory : s.memoryWf = true → t.memoryWf = true
  live : s.liveOk → t.liveOk

theorem Upsamples.refl (k : Nat) (s : State) : Upsamples k s s :=
  ⟨rfl, fun _ _ => rfl, id, id⟩

theorem Upsamples.trans {k : Nat} {s t u : State} (h1 : Upsamples k s t) (h2 : Upsamples k t u) :
    Upsamples k s u := by
  refine ⟨?_, fun j hj => (h2.others j hj).trans (h1.others j hj), fun h => h2.memory (h1.memory h),
    fun h => h2.live (h1.live h)⟩
  have := h2.frame
  rw [h1.frame] at this
  exact this

theorem Upsamples.width {k : Nat} {s t : State} (h : Upsamples k s t) : t.width = s.width := by rw [h.frame]
theorem Upsamples.height {k : Nat} {s t : State} (h : Upsamples k s t) : t.height = s.height := by rw [h.frame]

/-- A pass replaces a plane and counts its bytes. -/
theorem upsamples_replace {k : Nat} {s : State} {c d : Comp} {old : Buffer} {bytes : List Byte} {n : Nat}
    (hc : s.comps[k]? = some c) (hb : c.pixels = some old) (hn : bytes.length = n) :
    Upsamples k s (replacePlane k old d bytes { s with live := s.live + n }) := by
  refine ⟨rfl, fun j hj => replacePlane_other hj, fun hm => replacePlane_memory hm, fun hl => ?_⟩
  have hsum := sum_set (fun c => optBufferSize c.pixels) s.comps k c
    { d with pixels := some (Buffer.ofBytes bytes) } hc
  rw [show optBufferSize c.pixels = old.size by rw [hb]; rfl,
    show optBufferSize (some (Buffer.ofBytes bytes)) = n from hn] at hsum
  unfold State.liveOk State.bufferBytes at hl ⊢
  show s.live + n - old.size = ((s.comps.set k { d with pixels := some (Buffer.ofBytes bytes) }).map
    fun c => optBufferSize c.pixels).sum + optBufferSize s.rgb
  omega

/-- An abort while component k is upsampled: OUT_OF_MEMORY. -/
def UpsampleAborts (k : Nat) (s t : State) : Prop :=
  ∃ u, Upsamples k s u ∧ t = u.abort .outOfMemory

theorem UpsampleAborts.of {k : Nat} {s t u : State} (h : Upsamples k s t) (hu : UpsampleAborts k t u) :
    UpsampleAborts k s u := by
  obtain ⟨v, h1, h2⟩ := hu
  exact ⟨v, h.trans h1, h2⟩

/-- A plane a pass may widen or heighten. -/
def Comp.fit (c : Comp) (w h : Nat) : Prop :=
  c.full ∧ (c.width < w → 3 ≤ c.width) ∧ (c.height < h → 3 ≤ c.height)

theorem allocGrants_cases (cfg : Config) (n live : Nat) :
    allocGrants cfg n live = true ∨ allocGrants cfg n live = false := by
  cases allocGrants cfg n live <;> simp

theorem widen_post (k : Nat) (s : State) (c : Comp) (hc : s.comps[k]? = some c) (h : Nat) :
    Post (widen k s) (fun t => Upsamples k s t ∧ ∃ d, t.comps[k]? = some d ∧
      d.width = (if c.width < s.width.toNat then 2 * c.width else c.width) ∧ d.height = c.height ∧
      (c.fit s.width.toNat h → d.fit s.width.toNat h)) (UpsampleAborts k s)
      (¬ c.fit s.width.toNat h) := by
  unfold widen
  rw [post_bind, getComp_ok hc, post_ok]
  split
  · rename_i hlt
    by_cases hf : c.fit s.width.toNat h
    · obtain ⟨⟨hst, b, hb, hall⟩, h3, h4⟩ := hf
      rcases allocGrants_cases s.cfg (2 * c.width * c.height) s.live with hg | hg
      · rw [upsH_ok hc hb (h3 hlt) hst hall hg]
        have hlen : ((List.range c.height).map fun y => lineOf s.cfg
            (fun x => (b.mem.read (y * c.stride + x)).getD 0) c.width (rightEdge s.cfg c)).flatten.length =
            2 * c.width * c.height := by
          rw [length_flatten_of (m := 2 * c.width), List.length_map, List.length_range, Nat.mul_comm]
          intro l hl
          obtain ⟨y, _, rfl⟩ := List.mem_map.mp hl
          exact length_lineOf _ _ _ _ (h3 hlt)
        refine ⟨upsamples_replace hc hb hlen, _, replacePlane_comp (d := c) hc, ?_, rfl, fun _ => ?_⟩
        · rfl
        · refine ⟨full_ofBytes _ _ (by rw [hlen]; exact Nat.le_of_eq (Nat.mul_comm _ _)) (Nat.le_refl _),
            fun _ => ?_, h4⟩
          show 3 ≤ 2 * c.width
          have := h3 hlt
          omega
      · have : upsHOp k s = raise .outOfMemory s := by
          have h3 := h3 hlt
          simp only [upsHOp, getComp_ok hc, show ¬ c.width < 3 by omega, alloc, hg, if_false, bind, Except.bind,
            raise, Bool.false_eq_true]
        rw [this]
        exact ⟨s, Upsamples.refl k s, rfl⟩
    · refine Post.mono (upsH_post k s) (fun t ht => ?_) (fun t ht => ⟨s, Upsamples.refl k s, ht⟩) (fun _ => hf)
      obtain ⟨c', old, bytes, hc', hold, hlen, _, rfl⟩ := ht
      rw [hc] at hc'
      cases hc'
      exact ⟨upsamples_replace hc hold (by rw [hlen, Nat.mul_comm]), _, replacePlane_comp (d := c) hc, rfl, rfl,
        fun h => absurd h hf⟩
  · exact ⟨Upsamples.refl k s, c, hc, rfl, rfl, id⟩

theorem heighten_post (k : Nat) (s : State) (c : Comp) (hc : s.comps[k]? = some c) (w : Nat) :
    Post (heighten k s) (fun t => Upsamples k s t ∧ ∃ d, t.comps[k]? = some d ∧
      d.height = (if c.height < s.height.toNat then 2 * c.height else c.height) ∧ d.width = c.width ∧
      (c.fit w s.height.toNat → d.fit w s.height.toNat)) (UpsampleAborts k s)
      (¬ c.fit w s.height.toNat) := by
  unfold heighten
  rw [post_bind, getComp_ok hc, post_ok]
  split
  · rename_i hlt
    by_cases hf : c.fit w s.height.toNat
    · obtain ⟨⟨hst, b, hb, hall⟩, h3, h4⟩ := hf
      rcases allocGrants_cases s.cfg (c.width * (2 * c.height)) s.live with hg | hg
      · rw [upsV_ok hc hb (h4 hlt) hst hall hg]
        have hlen : (rowsOfColumns ((List.range c.width).map fun x => lineOf s.cfg
            (fun y => (b.mem.read (y * c.stride + x)).getD 0) c.height c.height) (2 * c.height)).length =
            c.width * (2 * c.height) := by
          rw [length_rowsOfColumns, List.length_map, List.length_range, Nat.mul_comm]
        refine ⟨upsamples_replace hc hb hlen, _, replacePlane_comp (d := c) hc, rfl, rfl, fun _ => ?_⟩
        refine ⟨full_ofBytes _ _ (by rw [hlen]; exact Nat.le_of_eq (Nat.mul_comm _ _)) (Nat.le_refl _), h3,
          fun _ => ?_⟩
        show 3 ≤ 2 * c.height
        have := h4 hlt
        omega
      · have : upsVOp k s = raise .outOfMemory s := by
          have h4 := h4 hlt
          simp only [upsVOp, getComp_ok hc, show ¬ c.height < 3 by omega, alloc, hg, if_false, bind, Except.bind,
            raise, Bool.false_eq_true]
        rw [this]
        exact ⟨s, Upsamples.refl k s, rfl⟩
    · refine Post.mono (upsV_post k s) (fun t ht => ?_) (fun t ht => ⟨s, Upsamples.refl k s, ht⟩) (fun _ => hf)
      obtain ⟨c', old, bytes, hc', hold, hlen, _, rfl⟩ := ht
      rw [hc] at hc'
      cases hc'
      exact ⟨upsamples_replace hc hold (by rw [hlen, Nat.mul_comm]), _, replacePlane_comp (d := c) hc, rfl, rfl,
        fun h => absurd h hf⟩
  · exact ⟨Upsamples.refl k s, c, hc, rfl, rfl, id⟩

/-- The convergence loop reaches the image's size: `fuel` turns suffice where each side, doubled that often,
reaches it. -/
theorem upsampleLoop_post (k fuel : Nat) (s : State) (c : Comp) (hc : s.comps[k]? = some c) :
    Post (upsampleLoop k fuel s) (fun t => Upsamples k s t ∧ ∃ d, t.comps[k]? = some d ∧
      s.width.toNat ≤ d.width ∧ s.height.toNat ≤ d.height ∧
      (c.fit s.width.toNat s.height.toNat → d.fit s.width.toNat s.height.toNat)) (UpsampleAborts k s)
      (¬ (c.fit s.width.toNat s.height.toNat ∧ 1 ≤ fuel ∧ s.width.toNat ≤ c.width * 2 ^ (fuel - 1) ∧
        s.height.toNat ≤ c.height * 2 ^ (fuel - 1))) := by
  induction fuel generalizing s c with
  | zero => simp [upsampleLoop, Post, stuck]
  | succ fuel ih =>
    simp only [upsampleLoop]
    rw [post_bind, getComp_ok hc, post_ok]
    split
    · rename_i hneed
      rw [post_bind]
      refine Post.mono (widen_post k s c hc s.height.toNat) (fun t ht => ?_) (fun _ h => h)
        (fun hn hi => hn hi.1)
      obtain ⟨hut, d, hd, hdw, hdh, hdf⟩ := ht
      rw [post_bind]
      have hwt : t.width = s.width := hut.width
      have hht : t.height = s.height := hut.height
      have hpost := heighten_post k t d hd s.width.toNat
      rw [hht] at hpost
      refine Post.mono hpost (fun u hu => ?_) (fun _ h => .of hut h) (fun hn hi => hn (hdf hi.1))
      obtain ⟨huu, e, he, heh, hew, hef⟩ := hu
      have hsu := hut.trans huu
      have hwu : u.width = s.width := hsu.width
      have hhu : u.height = s.height := hsu.height
      have hrec := ih u e he
      rw [hwu, hhu] at hrec
      refine Post.mono hrec (fun v hv => ?_) (fun _ h => .of hsu h) (fun hn hi => hn ?_)
      · obtain ⟨hv1, f, hf1, hf2, hf3, hf4⟩ := hv
        exact ⟨hsu.trans hv1, f, hf1, hf2, hf3, fun h => hf4 (hef (hdf h))⟩
      · obtain ⟨h1, h2, h3, h4⟩ := hi
        simp only [Nat.add_sub_cancel] at h3 h4
        have hpos : 1 ≤ fuel := by
          by_contra h0
          have : fuel = 0 := by omega
          subst this
          simp only [State.needsUpsampling, Bool.or_eq_true, decide_eq_true_eq] at hneed
          omega
        obtain ⟨g, rfl⟩ : ∃ g, fuel = g + 1 := ⟨fuel - 1, by omega⟩
        simp only [Nat.pow_succ] at h3 h4
        refine ⟨hef (hdf h1), hpos, ?_, ?_⟩
        · rw [hew, hdw, Nat.add_sub_cancel]
          split
          · calc s.width.toNat ≤ c.width * (2 ^ g * 2) := h3
              _ = 2 * c.width * 2 ^ g := by ring
          · exact Nat.le_trans (by omega) (Nat.le_mul_of_pos_right _ (Nat.pos_of_ne_zero (by positivity)))
        · rw [heh, hdh, Nat.add_sub_cancel]
          split
          · calc s.height.toNat ≤ c.height * (2 ^ g * 2) := h4
              _ = 2 * c.height * 2 ^ g := by ring
          · exact Nat.le_trans (by omega) (Nat.le_mul_of_pos_right _ (Nat.pos_of_ne_zero (by positivity)))
    · rename_i hneed
      simp only [State.needsUpsampling, Bool.or_eq_true, decide_eq_true_eq, not_or, Nat.not_lt] at hneed
      exact ⟨Upsamples.refl k s, c, hc, hneed.1, hneed.2, id⟩

/-- A component is upsampled until it covers the image; INTERNAL_ERROR never happens (R239, R277). -/
theorem upsampleComp_post (k : Nat) (s : State) (c : Comp) (hc : s.comps[k]? = some c) :
    Post (upsampleComp k s) (fun t => Upsamples k s t ∧ ∃ d, t.comps[k]? = some d ∧
      s.width.toNat ≤ d.width ∧ s.height.toNat ≤ d.height ∧
      (c.fit s.width.toNat s.height.toNat → d.fit s.width.toNat s.height.toNat)) (UpsampleAborts k s)
      (¬ c.fit s.width.toNat s.height.toNat) := by
  unfold upsampleComp
  rw [post_bind]
  refine Post.mono (upsampleLoop_post k 17 s c hc) (fun t ht => ?_) (fun _ h => h) (fun hn hf => hn ?_)
  · obtain ⟨hut, d, hd, h1, h2, h3⟩ := ht
    rw [post_bind, getComp_ok hd, post_ok]
    rw [if_neg (by
      simp only [State.needsUpsampling, hut.width, hut.height, Bool.or_eq_true, decide_eq_true_eq, not_or,
        Nat.not_lt]
      exact ⟨h1, h2⟩)]
    exact ⟨hut, d, hd, h1, h2, h3⟩
  · refine ⟨hf, by omega, ?_, ?_⟩
    · have := hf.2.1
      have := s.width.isLt
      simp only [Nat.reduceSub]
      omega
    · have := hf.2.2
      have := s.height.isLt
      simp only [Nat.reduceSub]
      omega

end Sys2Proof.Machine
end

