-- ==== Sys2Proof/Laws/Scan.lean ====
section
/-! SUPPORT. The scan: what it changes, that every block of every MCU gets written, and that it ends in CONVERT
or in SYNTAX_ERROR. -/

namespace Sys2Proof.Machine

/-- t is s after part of a scan. -/
structure Scans (s t : State) : Prop where
  frame : t =
    { s with
      pos := t.pos
      remaining := t.remaining
      acc := t.acc
      blk := t.blk
      comps := t.comps
      seq := t.seq
      mbx := t.mbx
      mby := t.mby
      rstCount := t.rstCount
      nextRst := t.nextRst
      phase := t.phase }
  shapes : t.comps.map Comp.shape = s.comps.map Comp.shape
  written : ∀ k j, (s.planeByte k j).isSome = true → (t.planeByte k j).isSome = true
  position : s.positionOk → t.positionOk
  acc : s.accOk → t.accOk
  memory : s.memoryWf = true → t.memoryWf = true

theorem Scans.refl (s : State) : Scans s s :=
  ⟨rfl, rfl, fun _ _ h => h, id, id, id⟩

theorem Scans.trans {s t u : State} (h1 : Scans s t) (h2 : Scans t u) : Scans s u := by
  refine ⟨?_, h2.shapes.trans h1.shapes, fun k j h => h2.written k j (h1.written k j h),
    fun h => h2.position (h1.position h), fun h => h2.acc (h1.acc h), fun h => h2.memory (h1.memory h)⟩
  have := h2.frame
  rw [h1.frame] at this
  exact this

theorem Blocks.scans {s t : State} (h : Blocks s t) : Scans s t :=
  ⟨by have := h.frame; rw [this], h.shapes, h.written, h.position, h.acc, h.memory⟩

theorem Scans.inp {s t : State} (h : Scans s t) : t.inp = s.inp := by rw [h.frame]
theorem Scans.cfg {s t : State} (h : Scans s t) : t.cfg = s.cfg := by rw [h.frame]
theorem Scans.error {s t : State} (h : Scans s t) : t.error = s.error := by rw [h.frame]
theorem Scans.ncomp {s t : State} (h : Scans s t) : t.ncomp = s.ncomp := by rw [h.frame]
theorem Scans.mbwidth {s t : State} (h : Scans s t) : t.mbwidth = s.mbwidth := by rw [h.frame]
theorem Scans.mbheight {s t : State} (h : Scans s t) : t.mbheight = s.mbheight := by rw [h.frame]

theorem Scans.inputOk {s t : State} (h : Scans s t) (hi : s.inputOk) : t.inputOk := by
  refine ⟨by rw [h.inp]; exact hi.1, ?_, h.position hi.2.2⟩
  unfold State.inputResident
  rw [h.inp]
  exact hi.2.1

theorem Scans.comp {s t : State} (h : Scans s t) {k : Nat} {c : Comp} (hc : s.comps[k]? = some c) :
    ∃ d, t.comps[k]? = some d ∧ d.shape = c.shape :=
  shape_at h.shapes hc

theorem Scans.comp_back {s t : State} (h : Scans s t) {k : Nat} {d : Comp} (hd : t.comps[k]? = some d) :
    ∃ c, s.comps[k]? = some c ∧ d.shape = c.shape := by
  obtain ⟨c, hc, hs⟩ := shape_at h.shapes.symm hd
  exact ⟨c, hc, hs.symm⟩

/-- An abort inside a scan: SYNTAX_ERROR. -/
def ScanAborts (s t : State) : Prop :=
  ∃ u, Scans s u ∧ t = u.abort .syntaxError

theorem ScanAborts.of {s t u : State} (h : Scans s t) (hu : ScanAborts t u) : ScanAborts s u := by
  obtain ⟨v, h1, h2⟩ := hu
  exact ⟨v, h.trans h1, h2⟩

theorem BlockAborts.scan {s t : State} (h : BlockAborts s t) : ScanAborts s t := by
  obtain ⟨u, h1, h2⟩ := h
  exact ⟨u, h1.scans, h2⟩

theorem blockWritten_of_scans {s t : State} (h : Scans s t) {k off : Nat} (hs : s.blockWritten k off) :
    t.blockWritten k off := by
  obtain ⟨c, hc, hw⟩ := hs
  obtain ⟨d, hd, hsh⟩ := h.comp hc
  refine ⟨d, hd, fun r x hr hx => ?_⟩
  rw [Comp.stride_of_shape hsh]
  exact h.written k _ (hw r x hr hx)

theorem blockFits_of_scans {s t : State} (h : Scans s t) {k off : Nat} (hs : s.blockFits k off) :
    t.blockFits k off := by
  obtain ⟨c, hc, hh⟩ := hs
  obtain ⟨d, hd, hsh⟩ := h.comp hc
  refine ⟨d, hd, ?_⟩
  rw [Comp.stride_of_shape hsh]
  exact Comp.holds_of_shape hsh.symm hh

/-! ### The restart check -/

/-- Every predictor set to one value, as the restart does. -/
theorem scans_restarted (s : State) : Scans s s.restarted := by
  have hcomp : ∀ k : Nat, s.restarted.comps[k]? = (s.comps[k]?).map fun c => { c with dcpred := 0 } := by
    intro k
    simp [State.restarted]
  refine ⟨rfl, ?_, fun k j hw => ?_, id, id, fun hm => ?_⟩
  · simp only [State.restarted, List.map_map]
    exact List.map_congr_left fun c _ => rfl
  · unfold State.planeByte at hw ⊢
    rw [hcomp]
    cases hc : s.comps[k]? with
    | none => rw [hc] at hw; exact hw
    | some c => rw [hc] at hw; exact hw
  · simp only [State.memoryWf, State.restarted, Bool.and_eq_true, List.all_eq_true, List.mem_map] at hm ⊢
    refine ⟨⟨hm.1.1, ?_⟩, hm.2⟩
    rintro _ ⟨c, hc, rfl⟩
    exact hm.1.2 c hc

/-- RESTART: aligned, sixteen bits read, an accepted marker or SYNTAX_ERROR. -/
theorem restart_post (s : State) :
    Post (restartOp s) (fun t => Scans s t ∧ t.phase = s.phase ∧ t.seq = s.seq ∧ t.mbx = s.mbx ∧
      t.mby = s.mby) (ScanAborts s) (¬ s.inputOk) := by
  unfold restartOp
  have ha : Reads s (alignOp s) := reads_dropBits s _
  have hacc : s.accOk → (alignOp s).accOk := by
    unfold State.accOk alignOp
    simp only [State.dropBits_acc, List.length_drop]
    omega
  rw [post_bind]
  refine Post.mono (read_post 16 (alignOp s) (by omega)) (fun r hr => ?_) (fun t ht => ?_)
    (fun hn hi => hn (ha.inputOk hi))
  · have hr' := ha.trans hr.1
    have hb : Blocks s r.2 := hr'.blocks fun h => by
      have := hacc h
      have := hr.2.1
      unfold State.accOk at *
      omega
    split
    · exact ⟨hb.scans.trans (scans_restarted _), hr'.phase, hr'.seq, hr'.mbx, hr'.mby⟩
    · exact ⟨r.2, hb.scans, rfl⟩
  · exact ((EntropyAborts.of_reads ha hacc (ht.entropy (by omega))).block).scan

/-! ### One MCU -/

/-- Every block of MCU (mx, my) fits in its plane. -/
def State.mcuFits (s : State) (mx my : Nat) : Prop :=
  ∀ k, k < s.ncomp.toNat → ∃ c, s.comps[k]? = some c ∧ ∀ sby sbx, sby < c.ssy.toNat → sbx < c.ssx.toNat →
    s.blockFits k (blockOffset c mx my sbx sby)

/-- Every block of MCU (mx, my) is written. -/
def State.mcuWritten (s : State) (mx my : Nat) : Prop :=
  ∀ k, k < s.ncomp.toNat → ∃ c, s.comps[k]? = some c ∧ ∀ sby sbx, sby < c.ssy.toNat → sbx < c.ssx.toNat →
    s.blockWritten k (blockOffset c mx my sbx sby)

theorem blockOffset_of_shape {c d : Comp} (h : c.shape = d.shape) (mx my sbx sby : Nat) :
    blockOffset c mx my sbx sby = blockOffset d mx my sbx sby := by
  show blockOffset c.shape mx my sbx sby = blockOffset d.shape mx my sbx sby
  rw [h]

theorem ssx_of_shape {c d : Comp} (h : c.shape = d.shape) : c.ssx = d.ssx :=
  show c.shape.ssx = d.shape.ssx by rw [h]

theorem ssy_of_shape {c d : Comp} (h : c.shape = d.shape) : c.ssy = d.ssy :=
  show c.shape.ssy = d.shape.ssy by rw [h]

theorem mcuFits_of {s t : State} (h : Scans s t) {mx my : Nat} (hs : s.mcuFits mx my) : t.mcuFits mx my := by
  intro k hk
  rw [h.ncomp] at hk
  obtain ⟨c, hc, hf⟩ := hs k hk
  obtain ⟨d, hd, hsh⟩ := h.comp hc
  refine ⟨d, hd, fun sby sbx h1 h2 => ?_⟩
  rw [ssy_of_shape hsh] at h1
  rw [ssx_of_shape hsh] at h2
  rw [blockOffset_of_shape hsh]
  exact blockFits_of_scans h (hf sby sbx h1 h2)

theorem mcuWritten_of {s t : State} (h : Scans s t) {mx my : Nat} (hs : s.mcuWritten mx my) :
    t.mcuWritten mx my := by
  intro k hk
  rw [h.ncomp] at hk
  obtain ⟨c, hc, hf⟩ := hs k hk
  obtain ⟨d, hd, hsh⟩ := h.comp hc
  refine ⟨d, hd, fun sby sbx h1 h2 => ?_⟩
  rw [ssy_of_shape hsh] at h1
  rw [ssx_of_shape hsh] at h2
  rw [blockOffset_of_shape hsh]
  exact blockWritten_of_scans h (hf sby sbx h1 h2)

theorem mcuComponent_post (k : Nat) (s : State) :
    Post (mcuComponent k s) (fun t => Blocks s t ∧ ∃ c, s.comps[k]? = some c ∧
      ∀ sby sbx, sby < c.ssy.toNat → sbx < c.ssx.toNat →
        t.blockWritten k (blockOffset c s.mbx s.mby sbx sby)) (BlockAborts s)
      (¬ (s.inputOk ∧ ∃ c, s.comps[k]? = some c ∧ ∀ sby sbx, sby < c.ssy.toNat → sbx < c.ssx.toNat →
        s.blockFits k (blockOffset c s.mbx s.mby sbx sby))) := by
  unfold mcuComponent
  rw [post_bind]
  refine Post.mono (getComp_post k s _) (fun c hc => ?_) (fun _ h => h)
    (fun h ⟨_, c, hc, _⟩ => by rw [h] at hc; cases hc)
  refine Post.imp (forUp_post (ab := BlockAborts s)
    (ft := ¬ (s.inputOk ∧ ∃ c, s.comps[k]? = some c ∧ ∀ sby sbx, sby < c.ssy.toNat → sbx < c.ssx.toNat →
        s.blockFits k (blockOffset c s.mbx s.mby sbx sby)))
    (P := fun n t => Blocks s t ∧ ∀ sby sbx, sby < n → sbx < c.ssx.toNat →
      t.blockWritten k (blockOffset c s.mbx s.mby sbx sby)) c.ssy.toNat 0 s
    ⟨Blocks.refl s, fun _ _ h => by omega⟩ (fun y t _ hy ht => ?_)) fun t ht => ?_
  · refine Post.imp (forUp_post (ab := BlockAborts s)
      (ft := ¬ (s.inputOk ∧ ∃ c, s.comps[k]? = some c ∧ ∀ sby sbx, sby < c.ssy.toNat →
        sbx < c.ssx.toNat → s.blockFits k (blockOffset c s.mbx s.mby sbx sby)))
      (P := fun n u => Blocks s u ∧ (∀ sby sbx, sby < y → sbx < c.ssx.toNat →
        u.blockWritten k (blockOffset c s.mbx s.mby sbx sby)) ∧ ∀ sbx, sbx < n →
        u.blockWritten k (blockOffset c s.mbx s.mby sbx y)) c.ssx.toNat 0 t
      ⟨ht.1, ht.2, fun _ h => by omega⟩ (fun x u _ hx hu => ?_)) fun u hu => ?_
    · have hmbx : u.mbx = s.mbx := by rw [hu.1.frame]
      have hmby : u.mby = s.mby := by rw [hu.1.frame]
      simp only [hmbx, hmby]
      refine Post.mono (decodeBlock_post k _ u) (fun v hv => ?_) (fun _ h => .of hu.1 h) (fun hn hi => hn ?_)
      · refine ⟨hu.1.trans hv.1, fun a b h1 h2 => blockWritten_of hv.1 (hu.2.1 a b h1 h2), fun b hb => ?_⟩
        by_cases hbx : b = x
        · subst hbx; exact hv.2
        · exact blockWritten_of hv.1 (hu.2.2 b (by omega))
      · obtain ⟨hin, c', hc', hf⟩ := hi
        rw [hc] at hc'
        cases hc'
        exact ⟨hu.1.inputOk hin, blockFits_of hu.1 (hf y x (by omega) (by omega))⟩
    · refine ⟨hu.1, fun a b h1 h2 => ?_⟩
      by_cases ha : a = y
      · subst ha; exact hu.2.2 b (by omega)
      · exact hu.2.1 a b (by omega) h2
  · exact ⟨ht.1, c, hc, fun sby sbx h1 h2 => ht.2 sby sbx (by omega) h2⟩

/-- One MCU is decoded and written, or the DECODE ends with SYNTAX_ERROR. -/
theorem mcu_post (s : State) :
    Post (mcuOp s) (fun t => Blocks s t ∧ t.mcuWritten s.mbx s.mby) (BlockAborts s)
      (¬ (s.inputOk ∧ s.mcuFits s.mbx s.mby)) := by
  unfold mcuOp
  refine Post.imp (forUp_post (ab := BlockAborts s) (ft := ¬ (s.inputOk ∧ s.mcuFits s.mbx s.mby))
    (P := fun n t => Blocks s t ∧ ∀ k, k < n → ∃ c, t.comps[k]? = some c ∧
      ∀ sby sbx, sby < c.ssy.toNat → sbx < c.ssx.toNat →
        t.blockWritten k (blockOffset c s.mbx s.mby sbx sby)) s.ncomp.toNat 0 s
    ⟨Blocks.refl s, fun _ h => by omega⟩ (fun k t _ hk ht => ?_)) fun t ht => ?_
  · have hmbx : t.mbx = s.mbx := by rw [ht.1.frame]
    have hmby : t.mby = s.mby := by rw [ht.1.frame]
    refine Post.mono (mcuComponent_post k t) (fun u hu => ?_) (fun _ h => .of ht.1 h) (fun hn hi => hn ?_)
    · rw [hmbx, hmby] at hu
      refine ⟨ht.1.trans hu.1, fun k' hk' => ?_⟩
      by_cases hkk : k' = k
      · subst hkk
        obtain ⟨c, hc, hw⟩ := hu.2
        obtain ⟨d, hd, hsh⟩ := hu.1.comp hc
        refine ⟨d, hd, fun a b h1 h2 => ?_⟩
        rw [ssy_of_shape hsh] at h1
        rw [ssx_of_shape hsh] at h2
        rw [blockOffset_of_shape hsh]
        exact hw a b h1 h2
      · obtain ⟨c, hc, hw⟩ := ht.2 k' (by omega)
        obtain ⟨d, hd, hsh⟩ := hu.1.comp hc
        refine ⟨d, hd, fun a b h1 h2 => ?_⟩
        rw [ssy_of_shape hsh] at h1
        rw [ssx_of_shape hsh] at h2
        rw [blockOffset_of_shape hsh]
        exact blockWritten_of hu.1 (hw a b h1 h2)
    · rw [hmbx, hmby]
      have := mcuFits_of ht.1.scans hi.2 k (by rw [ht.1.scans.ncomp]; omega)
      exact ⟨ht.1.inputOk hi.1, this⟩
  · refine ⟨ht.1, fun k hk => ?_⟩
    rw [ht.1.scans.ncomp] at hk
    exact ht.2 k (by omega)

/-! ### The loop -/

/-- A change of the sequencer alone. -/
theorem scans_seq {s t : State}
    (h : t = { s with seq := t.seq, mbx := t.mbx, mby := t.mby, rstCount := t.rstCount, nextRst := t.nextRst, phase := t.phase, blk := t.blk }) :
    Scans s t := by
  rw [h]
  exact ⟨rfl, rfl, fun _ _ h => h, id, id, id⟩

theorem afterMcu_last {s : State} (h : s.lastMcu = true) :
    s.afterMcu = { s with mbx := 0, mby := s.mby + 1, acc := [], phase := .convert, seq := Seq.start } := by
  have h1 : decide (s.mbwidth ≤ s.mbx + 1) = true := by
    simp only [State.lastMcu, Bool.and_eq_true] at h
    exact h.1
  unfold State.afterMcu
  simp only [h, h1, if_true]
  rfl

/-- Before the last MCU the sequencer moves one MCU on in raster order, in the same phase. -/
theorem afterMcu_more {s : State} (h : s.lastMcu = false) :
    s.afterMcu.mbx = (if s.mbwidth ≤ s.mbx + 1 then 0 else s.mbx + 1) ∧
    s.afterMcu.mby = (if s.mbwidth ≤ s.mbx + 1 then s.mby + 1 else s.mby) ∧ s.afterMcu.phase = s.phase := by
  unfold State.afterMcu
  simp only [h, Bool.false_eq_true, if_false, decide_eq_true_eq]
  split
  · exact ⟨rfl, rfl, rfl⟩
  · split
    · exact ⟨rfl, rfl, rfl⟩
    · exact ⟨rfl, rfl, rfl⟩

theorem scans_endScan (s : State) : Scans s s.endScan :=
  ⟨rfl, rfl, fun _ _ h => h, id, fun _ => Nat.zero_le 31, id⟩

theorem scans_afterMcu (s : State) : Scans s s.afterMcu := by
  unfold State.afterMcu
  simp only
  split
  · exact (scans_seq rfl).trans (scans_endScan _)
  · apply scans_seq
    split
    · rfl
    · split <;> rfl

/-- Every MCU of the image fits in the planes. -/
def State.scanFits (s : State) : Prop :=
  ∀ mx my, mx < max 1 s.mbwidth → my < max 1 s.mbheight → s.mcuFits mx my

theorem scanFits_of {s t : State} (h : Scans s t) (hs : s.scanFits) : t.scanFits := by
  intro mx my h1 h2
  rw [h.mbwidth] at h1
  rw [h.mbheight] at h2
  exact mcuFits_of h (hs mx my h1 h2)

theorem scanLoop_post (fuel : Nat) (s : State) (hx : s.mbx < max 1 s.mbwidth) (hy : s.mby < max 1 s.mbheight)
    (hf : fuel + (s.mby * max 1 s.mbwidth + s.mbx) = max 1 s.mbwidth * max 1 s.mbheight)
    (hw : ∀ mx my, mx < max 1 s.mbwidth → my * max 1 s.mbwidth + mx < s.mby * max 1 s.mbwidth + s.mbx →
      s.mcuWritten mx my) :
    Post (scanLoop fuel s) (fun t => Scans s t ∧ t.acc = [] ∧ t.phase = .convert ∧ t.seq = Seq.start ∧
      ∀ mx my, mx < max 1 s.mbwidth → my < max 1 s.mbheight → t.mcuWritten mx my) (ScanAborts s)
      (¬ (s.inputOk ∧ s.scanFits)) := by
  induction fuel generalizing s with
  | zero =>
    exfalso
    have h1 : s.mby * max 1 s.mbwidth + max 1 s.mbwidth ≤ max 1 s.mbwidth * max 1 s.mbheight := by
      rw [← Nat.succ_mul, Nat.mul_comm (max 1 s.mbwidth)]
      exact Nat.mul_le_mul_right _ hy
    omega
  | succ fuel ih =>
    simp only [scanLoop]
    rw [post_bind]
    refine Post.mono (mcu_post s) (fun m hm => ?_) (fun _ h => h.scan) (fun hn hi => hn ⟨hi.1, hi.2 _ _ hx hy⟩)
    have hs := hm.1.scans
    have hmx : m.mbx = s.mbx := by rw [hm.1.frame]
    have hmy : m.mby = s.mby := by rw [hm.1.frame]
    have hW : m.mbwidth = s.mbwidth := hs.mbwidth
    have hH : m.mbheight = s.mbheight := hs.mbheight
    -- the MCUs written once this one is
    have hnow : ∀ mx my, mx < max 1 s.mbwidth →
        my * max 1 s.mbwidth + mx ≤ s.mby * max 1 s.mbwidth + s.mbx → m.mcuWritten mx my := by
      intro mx my h1 h2
      by_cases heq : my * max 1 s.mbwidth + mx = s.mby * max 1 s.mbwidth + s.mbx
      · have hy' : my = s.mby := by
          rcases Nat.lt_trichotomy my s.mby with h | h | h
          · have := Nat.mul_le_mul_right (max 1 s.mbwidth) h
            rw [Nat.succ_mul] at this
            omega
          · exact h
          · have := Nat.mul_le_mul_right (max 1 s.mbwidth) h
            rw [Nat.succ_mul] at this
            omega
        subst hy'
        have : mx = s.mbx := by omega
        subst this
        exact hm.2
      · exact mcuWritten_of hs (hw mx my h1 (by omega))
    have hafter := hs.trans (scans_afterMcu m)
    split
    · rename_i hlast
      rw [afterMcu_last hlast]
      have hend := scans_afterMcu m
      rw [afterMcu_last hlast] at hafter hend
      refine ⟨hafter, rfl, rfl, rfl, fun mx my h1 h2 => ?_⟩
      refine mcuWritten_of hend (hnow mx my h1 ?_)
      simp only [State.lastMcu, Bool.and_eq_true, decide_eq_true_eq, hmx, hmy, hW, hH] at hlast
      have h3 : my ≤ s.mby := by omega
      have h4 := Nat.mul_le_mul_right (max 1 s.mbwidth) h3
      rcases Nat.lt_or_ge my s.mby with h | h
      · have := Nat.mul_le_mul_right (max 1 s.mbwidth) h
        rw [Nat.succ_mul] at this
        omega
      · omega
    · rename_i hlast
      have hlast : m.lastMcu = false := by simpa using hlast
      obtain ⟨ha, hb, hc⟩ := afterMcu_more hlast
      simp only [hmx, hmy, hW] at ha hb
      simp only [State.lastMcu, hmx, hmy, hW, hH, Bool.and_eq_false_iff, decide_eq_false_iff_not] at hlast
      -- the next MCU
      have hnext : ∀ t : State, Scans m t → t.mbx = m.afterMcu.mbx → t.mby = m.afterMcu.mby →
          Post (scanLoop fuel t) (fun u => Scans s u ∧ u.acc = [] ∧ u.phase = .convert ∧ u.seq = Seq.start ∧
            ∀ mx my, mx < max 1 s.mbwidth → my < max 1 s.mbheight → u.mcuWritten mx my) (ScanAborts s)
            (¬ (s.inputOk ∧ s.scanFits)) := by
        intro t ht h1 h2
        have hst := hs.trans ht
        have hWt : t.mbwidth = s.mbwidth := hst.mbwidth
        have hHt : t.mbheight = s.mbheight := hst.mbheight
        rw [ha] at h1
        rw [hb] at h2
        have hidx : t.mby * max 1 s.mbwidth + t.mbx = s.mby * max 1 s.mbwidth + s.mbx + 1 := by
          rw [h1, h2]
          split
          · rw [Nat.succ_mul]; omega
          · omega
        refine Post.mono (ih t ?_ ?_ ?_ ?_) (fun u hu => ?_) (fun _ h => .of hst h)
          (fun hn hi => hn ⟨hst.inputOk hi.1, scanFits_of hst hi.2⟩)
        · rw [hWt, h1]; split <;> omega
        · rw [hHt, h2]; split <;> omega
        · rw [hWt, hHt, hidx]; omega
        · intro mx my h3 h4
          rw [hWt] at h3 h4
          exact mcuWritten_of ht (hnow mx my h3 (by omega))
        · rw [hWt, hHt] at hu
          exact ⟨hst.trans hu.1, hu.2⟩
      split
      · rw [post_bind]
        refine Post.mono (restart_post m.afterMcu) (fun t ht => ?_) (fun _ h => .of hafter h)
          (fun hn hi => hn (hafter.inputOk hi.1))
        exact hnext t.startMcu ((scans_afterMcu m).trans (ht.1.trans (scans_seq rfl))) ht.2.2.2.1 ht.2.2.2.2
      · exact hnext m.afterMcu (scans_afterMcu m) rfl rfl

/-- SCAN ends in CONVERT with no bit held and every block of every MCU written, or in SYNTAX_ERROR. -/
theorem scan_post (s : State) :
    Post (scanOp s) (fun t => Scans s t ∧ t.acc = [] ∧ t.phase = .convert ∧ t.seq = Seq.start ∧
      ∀ mx my, mx < max 1 s.mbwidth → my < max 1 s.mbheight → t.mcuWritten mx my) (ScanAborts s)
      (¬ (s.inputOk ∧ s.scanFits)) := by
  have h0 : Scans s s.startScan := scans_seq rfl
  unfold scanOp
  refine Post.mono (scanLoop_post s.mcuCount s.startScan ?_ ?_ ?_ ?_) (fun t ht => ⟨h0.trans ht.1, ht.2⟩)
    (fun _ h => .of h0 h) (fun hn hi => hn ⟨h0.inputOk hi.1, scanFits_of h0 hi.2⟩)
  · show 0 < max 1 s.mbwidth
    omega
  · show 0 < max 1 s.mbheight
    omega
  · show s.mcuCount + (0 * _ + 0) = max 1 s.mbwidth * max 1 s.mbheight
    simp [State.mcuCount]
  · intro mx my _ h
    have : s.startScan.mby = 0 := rfl
    have h2 : s.startScan.mbx = 0 := rfl
    rw [this, h2] at h
    omega

end Sys2Proof.Machine
end

