-- ==== Sys2Proof/Laws/Convert.lean ====
section
/-! SUPPORT. A laid out frame: its blocks fit its planes, a scan fills them, and the conversion then finds every
sample it reads and leaves a complete output. -/

namespace Sys2Proof.Machine

/-! ### Arithmetic of the geometry -/

theorem ceilDiv_le {a b n : Nat} (h : a ≤ b * n) : ceilDiv a b ≤ n := by
  unfold ceilDiv
  rcases Nat.eq_zero_or_pos b with rfl | hb
  · simp
  · rw [Nat.div_le_iff_le_mul hb]
    rw [Nat.mul_comm n b]
    omega

theorem le_mul_ceilDiv (a b : Nat) (hb : 0 < b) : a ≤ b * ceilDiv a b := by
  unfold ceilDiv
  have h := Nat.div_add_mod (a + b - 1) b
  have := Nat.mod_lt (a + b - 1) hb
  omega

theorem ceilDiv_pos {a b : Nat} (ha : 0 < a) (hb : 0 < b) : 0 < ceilDiv a b := by
  have := le_mul_ceilDiv a b hb
  rcases Nat.eq_zero_or_pos (ceilDiv a b) with h | h
  · rw [h] at this; omega
  · exact h

theorem ceilDiv_mul_self (a b : Nat) (hb : 0 < b) : ceilDiv (a * b) b = a := by
  unfold ceilDiv
  rw [show a * b + b - 1 = b * a + (b - 1) by rw [Nat.mul_comm]; omega, Nat.mul_add_div hb,
    Nat.div_eq_of_lt (by omega), Nat.add_zero]

/-- A plane side is covered by its share of the MCUs. -/
theorem side_le (w f m : Nat) (hm : 0 < m) : ceilDiv (w * f) m ≤ 8 * f * ceilDiv w (8 * m) := by
  apply ceilDiv_le
  have := Nat.mul_le_mul_right f (le_mul_ceilDiv w (8 * m) (by omega))
  calc w * f ≤ 8 * m * ceilDiv w (8 * m) * f := this
    _ = m * (8 * f * ceilDiv w (8 * m)) := by ring

theorem powerOfTwo_pos {f : Nibble} (h : powerOfTwo f = true) : 0 < f.toNat := by
  have : ∀ f : Nibble, powerOfTwo f = true → 0 < f.toNat := by decide
  exact this f h

/-- A block of an MCU inside the image lies in its plane. -/
theorem block_bound {ssx ssy mbw mbh mx my sbx sby : Nat} (hx : mx < mbw) (hy : my < mbh) (hsx : sbx < ssx)
    (hsy : sby < ssy) :
    ((my * ssy + sby) * (8 * ssx * mbw) + mx * ssx + sbx) * 8 + 7 * (8 * ssx * mbw) + 8 ≤
      8 * ssx * mbw * 8 * ssy * mbh := by
  have h1 : my * ssy + sby + 1 ≤ ssy * mbh := by
    have := Nat.mul_le_mul_right ssy hy
    rw [Nat.succ_mul] at this
    rw [Nat.mul_comm ssy]; omega
  have h2 : mx * ssx + sbx + 1 ≤ ssx * mbw := by
    have := Nat.mul_le_mul_right ssx hx
    rw [Nat.succ_mul] at this
    rw [Nat.mul_comm ssx]; omega
  have h3 := Nat.mul_le_mul_left (8 * (8 * ssx * mbw)) h1
  calc ((my * ssy + sby) * (8 * ssx * mbw) + mx * ssx + sbx) * 8 + 7 * (8 * ssx * mbw) + 8
      = 8 * ((my * ssy + sby) * (8 * ssx * mbw)) + 8 * (mx * ssx + sbx + 1) + 7 * (8 * ssx * mbw) := by ring
    _ ≤ 8 * ((my * ssy + sby) * (8 * ssx * mbw)) + 8 * (ssx * mbw) + 7 * (8 * ssx * mbw) := by omega
    _ = 8 * (8 * ssx * mbw) * (my * ssy + sby + 1) := by ring
    _ ≤ 8 * (8 * ssx * mbw) * (ssy * mbh) := h3
    _ = 8 * ssx * mbw * 8 * ssy * mbh := by ring

/-- Every byte of a plane is a sample of a block of some MCU. -/
theorem byte_in_block {ssx ssy mbw mbh j : Nat} (hj : j < 8 * ssx * mbw * 8 * ssy * mbh) :
    ∃ mx my sbx sby r x, mx < mbw ∧ my < mbh ∧ sbx < ssx ∧ sby < ssy ∧ r < 8 ∧ x < 8 ∧
      j = ((my * ssy + sby) * (8 * ssx * mbw) + mx * ssx + sbx) * 8 + r * (8 * ssx * mbw) + x := by
  have hpos : 0 < 8 * ssx * mbw * 8 * ssy * mbh := by omega
  have hssx : 0 < ssx := by rcases Nat.eq_zero_or_pos ssx with rfl | h <;> simp_all
  have hssy : 0 < ssy := by rcases Nat.eq_zero_or_pos ssy with rfl | h <;> simp_all
  have hmbw : 0 < mbw := by rcases Nat.eq_zero_or_pos mbw with rfl | h <;> simp_all
  have hst : 0 < 8 * ssx * mbw := by positivity
  -- row and column of the byte, then block row and column
  obtain ⟨row, col, hcol, rfl⟩ : ∃ row col, col < 8 * ssx * mbw ∧ j = row * (8 * ssx * mbw) + col :=
    ⟨j / (8 * ssx * mbw), j % (8 * ssx * mbw), Nat.mod_lt _ hst, by
      rw [Nat.mul_comm]; exact (Nat.div_add_mod ..).symm⟩
  have hrow : row < 8 * ssy * mbh := by
    by_contra hn
    have := Nat.mul_le_mul_right (8 * ssx * mbw) (Nat.le_of_not_lt hn)
    have e : 8 * ssy * mbh * (8 * ssx * mbw) = 8 * ssx * mbw * 8 * ssy * mbh := by ring
    omega
  have hby : row / 8 < ssy * mbh := by
    rw [Nat.div_lt_iff_lt_mul (by omega)]
    calc row < 8 * ssy * mbh := hrow
      _ = ssy * mbh * 8 := by ring
  have hbx : col / 8 < ssx * mbw := by
    rw [Nat.div_lt_iff_lt_mul (by omega)]
    calc col < 8 * ssx * mbw := hcol
      _ = ssx * mbw * 8 := by ring
  refine ⟨col / 8 / ssx, row / 8 / ssy, col / 8 % ssx, row / 8 % ssy, row % 8, col % 8, ?_, ?_,
    Nat.mod_lt _ hssx, Nat.mod_lt _ hssy, Nat.mod_lt _ (by omega), Nat.mod_lt _ (by omega), ?_⟩
  · rw [Nat.div_lt_iff_lt_mul hssx, Nat.mul_comm mbw]; exact hbx
  · rw [Nat.div_lt_iff_lt_mul hssy, Nat.mul_comm mbh]; exact hby
  · have e1 : row / 8 / ssy * ssy + row / 8 % ssy = row / 8 := by
      rw [Nat.mul_comm]; exact Nat.div_add_mod ..
    have e2 : col / 8 / ssx * ssx + col / 8 % ssx = col / 8 := by
      rw [Nat.mul_comm]; exact Nat.div_add_mod ..
    rw [e1]
    have e5 : row / 8 * (8 * ssx * mbw) + col / 8 / ssx * ssx + col / 8 % ssx =
        row / 8 * (8 * ssx * mbw) + col / 8 := by omega
    rw [e5]
    have e3 := Nat.div_add_mod row 8
    have e4 := Nat.div_add_mod col 8
    calc row * (8 * ssx * mbw) + col
        = (8 * (row / 8) + row % 8) * (8 * ssx * mbw) + (8 * (col / 8) + col % 8) := by rw [e3, e4]
      _ = (row / 8 * (8 * ssx * mbw) + col / 8) * 8 + row % 8 * (8 * ssx * mbw) + col % 8 := by ring

/-! ### A laid out frame -/

theorem laidOut_pos {s : State} (h : s.frameLaidOut) {c : Comp} (hc : c ∈ s.comps) :
    0 < c.ssx.toNat ∧ 0 < c.ssy.toNat ∧ 0 < s.hmax.toNat ∧ 0 < s.vmax.toNat := by
  obtain ⟨h1, h2, h3, h4, _⟩ := h.2.2.2.2.2.2.1 c hc
  have := powerOfTwo_pos h1
  have := powerOfTwo_pos h2
  have : c.ssx.toNat ≤ s.hmax.toNat := h3
  have : c.ssy.toNat ≤ s.vmax.toNat := h4
  omega

theorem comp_exists {s : State} (h : s.frameLaidOut) {k : Nat} (hk : k < s.ncomp.toNat) :
    ∃ c, s.comps[k]? = some c ∧ c ∈ s.comps := by
  have hlt : k < s.comps.length := by rw [h.2.1]; exact hk
  exact ⟨s.comps[k], List.getElem?_eq_getElem hlt, List.getElem_mem hlt⟩

theorem mcus_pos {s : State} (h : s.frameLaidOut) : 1 ≤ s.mbwidth ∧ 1 ≤ s.mbheight := by
  have hn : 0 < s.ncomp.toNat := by rcases h.1 with h | h <;> rw [h] <;> decide
  obtain ⟨c, _, hc⟩ := comp_exists h hn
  obtain ⟨_, _, hh, hv⟩ := laidOut_pos h hc
  have hw : 0 < s.width.toNat := Nat.pos_of_ne_zero fun e => h.2.2.1 (BitVec.eq_of_toNat_eq (by simpa using e))
  have hht : 0 < s.height.toNat :=
    Nat.pos_of_ne_zero fun e => h.2.2.2.1 (BitVec.eq_of_toNat_eq (by simpa using e))
  rw [h.2.2.2.2.1, h.2.2.2.2.2.1]
  exact ⟨ceilDiv_pos hw (by omega), ceilDiv_pos hht (by omega)⟩

/-- Every block of a laid out frame lies in its plane. -/
theorem scanFits_of_laidOut {s : State} (h : s.frameLaidOut) : s.scanFits := by
  have hp := mcus_pos h
  intro mx my hx hy k hk
  obtain ⟨c, hc, hm⟩ := comp_exists h hk
  refine ⟨c, hc, fun sby sbx h1 h2 => ⟨c, hc, ?_⟩⟩
  obtain ⟨_, _, _, _, _, _, hst, _, _, b, hb, hsz⟩ := h.2.2.2.2.2.2.1 c hm
  refine ⟨b, hb, ?_⟩
  rw [hsz, blockOffset, hst]
  exact block_bound (by omega) (by omega) h2 h1

/-- A frame stays laid out where only predictors and plane bytes change. -/
theorem laidOut_of_scans {s t : State} (hs : Scans s t) (h : s.frameLaidOut) : t.frameLaidOut := by
  have hlen : t.comps.length = s.comps.length := by
    have := congrArg List.length hs.shapes
    simpa using this
  have hf := hs.frame
  have e1 : t.ncomp = s.ncomp := hs.ncomp
  have e2 : t.width = s.width := by rw [hf]
  have e3 : t.height = s.height := by rw [hf]
  have e4 : t.hmax = s.hmax := by rw [hf]
  have e5 : t.vmax = s.vmax := by rw [hf]
  have e6 : t.mbwidth = s.mbwidth := hs.mbwidth
  have e7 : t.mbheight = s.mbheight := hs.mbheight
  have e8 : t.rgb = s.rgb := by rw [hf]
  unfold State.frameLaidOut
  rw [e1, e2, e3, e4, e5, e6, e7, e8, hlen]
  refine ⟨h.1, h.2.1, h.2.2.1, h.2.2.2.1, h.2.2.2.2.1, h.2.2.2.2.2.1, fun d hd => ?_, h.2.2.2.2.2.2.2⟩
  obtain ⟨k, hk⟩ := List.getElem?_of_mem hd
  obtain ⟨c, hc, hsh⟩ := hs.comp_back hk
  have hl := h.2.2.2.2.2.2.1 c (List.mem_of_getElem? hc)
  unfold State.laidOut at hl ⊢
  rw [e2, e3, e4, e5, e6, e7]
  have a1 : d.ssx = c.ssx := ssx_of_shape hsh
  have a2 : d.ssy = c.ssy := ssy_of_shape hsh
  have a3 : d.width = c.width := show d.shape.width = c.shape.width by rw [hsh]
  have a4 : d.height = c.height := show d.shape.height = c.shape.height by rw [hsh]
  have a5 : d.stride = c.stride := Comp.stride_of_shape hsh
  rw [a1, a2, a3, a4, a5]
  refine ⟨hl.1, hl.2.1, hl.2.2.1, hl.2.2.2.1, hl.2.2.2.2.1, hl.2.2.2.2.2.1, hl.2.2.2.2.2.2.1,
    hl.2.2.2.2.2.2.2.1, hl.2.2.2.2.2.2.2.2.1, ?_⟩
  obtain ⟨b, hb, hsz⟩ := hl.2.2.2.2.2.2.2.2.2
  have hp : d.shape.pixels = c.shape.pixels := congrArg Comp.pixels hsh
  simp only [Comp.shape, hb, Option.map_some] at hp
  cases hdp : d.pixels with
  | none => rw [hdp] at hp; cases hp
  | some b' =>
    rw [hdp] at hp
    simp only [Option.map_some, Option.some.injEq, Buffer.fresh, Buffer.mk.injEq, and_true] at hp
    exact ⟨b', rfl, by rw [hp, hsz]⟩

/-- A component ready for the conversion, in an image of the state's size. -/
def State.compReady (s : State) (k : Nat) : Prop :=
  ∃ c, s.comps[k]? = some c ∧ c.fit s.width.toNat s.height.toNat

/-- What the conversion needs of a state. -/
def State.convertReady (s : State) : Prop :=
  (∀ k, k < s.ncomp.toNat → s.compReady k) ∧
  (s.ncomp = 3 → ∃ b, s.rgb = some b ∧ 3 * (s.height.toNat * s.width.toNat) ≤ b.size) ∧
  (s.ncomp ≠ 3 → 0 < s.ncomp.toNat)

/-- A laid out frame with every block written is ready for the conversion. -/
theorem convertReady_of {s : State} (h : s.frameLaidOut)
    (hw : ∀ mx my, mx < max 1 s.mbwidth → my < max 1 s.mbheight → s.mcuWritten mx my) : s.convertReady := by
  have hp := mcus_pos h
  refine ⟨fun k hk => ?_, fun h3 => ?_, fun h3 => ?_⟩
  · obtain ⟨c, hc, hm⟩ := comp_exists h hk
    obtain ⟨hsx, hsy, hh, hv⟩ := laidOut_pos h hm
    obtain ⟨_, _, _, _, hwd, hht, hst, hws, hhs, b, hb, hsz⟩ := h.2.2.2.2.2.2.1 c hm
    have hside : c.width ≤ c.stride := by
      rw [hwd, hst, h.2.2.2.2.1]
      exact side_le _ _ _ hh
    have hrows : c.height ≤ 8 * c.ssy.toNat * s.mbheight := by
      rw [hht, h.2.2.2.2.2.1]
      exact side_le _ _ _ hv
    refine ⟨c, hc, ⟨hside, b, hb, fun j hj => ?_⟩, fun hlt => ?_, fun hlt => ?_⟩
    · have hjs : j < c.stride * 8 * c.ssy.toNat * s.mbheight := by
        have := Nat.mul_le_mul_right c.stride hrows
        calc j < c.height * c.stride := hj
          _ ≤ 8 * c.ssy.toNat * s.mbheight * c.stride := this
          _ = c.stride * 8 * c.ssy.toNat * s.mbheight := by ring
      have hjs' := hjs
      rw [hst] at hjs'
      obtain ⟨mx, my, sbx, sby, r, x, h1, h2, h3, h4, h5, h6, h7⟩ := byte_in_block hjs'
      obtain ⟨c', hc', hblk⟩ := hw mx my (by omega) (by omega) k hk
      rw [hc] at hc'
      cases hc'
      obtain ⟨c', hc', hbyte⟩ := hblk sby sbx h4 h3
      rw [hc] at hc'
      cases hc'
      have := hbyte r x h5 h6
      rw [blockOffset, hst, ← h7] at this
      simp only [State.planeByte, hc, hb, Option.bind_some] at this
      simp [Buffer.has, hsz, hjs, this]
    · by_contra hn
      have := hws (by omega)
      rw [this, ceilDiv_mul_self _ _ hh] at hwd
      omega
    · by_contra hn
      have := hhs (by omega)
      rw [this, ceilDiv_mul_self _ _ hv] at hht
      omega
  · obtain ⟨b, hb, hsz⟩ := h.2.2.2.2.2.2.2.2 h3
    refine ⟨b, hb, ?_⟩
    rw [hsz, Nat.mul_assoc, Nat.mul_comm s.width.toNat]
  · rcases h.1 with h1 | h1
    · rw [h1]; decide
    · exact absurd h1 h3

/-! ### The conversion -/

/-- t is s after the conversion, or part of it. -/
structure Converts (s t : State) : Prop where
  frame : t = { s with comps := t.comps, live := t.live, rgb := t.rgb }
  memory : s.memoryWf = true → t.memoryWf = true
  live : s.liveOk → t.liveOk

theorem Converts.refl (s : State) : Converts s s :=
  ⟨rfl, id, id⟩

theorem Converts.trans {s t u : State} (h1 : Converts s t) (h2 : Converts t u) : Converts s u := by
  refine ⟨?_, fun h => h2.memory (h1.memory h), fun h => h2.live (h1.live h)⟩
  have := h2.frame
  rw [h1.frame] at this
  exact this

theorem Upsamples.converts {k : Nat} {s t : State} (h : Upsamples k s t) : Converts s t :=
  ⟨by have := h.frame; rw [this], h.memory, h.live⟩

theorem bufferBytes_of_shapes {s t : State} (h : t.comps.map Comp.shape = s.comps.map Comp.shape)
    (hr : optBufferSize t.rgb = optBufferSize s.rgb) : t.bufferBytes = s.bufferBytes := by
  have key : ∀ l : List Comp, (l.map fun c => optBufferSize c.pixels) =
      (l.map Comp.shape).map fun c => optBufferSize c.pixels := by
    intro l
    rw [List.map_map]
    refine List.map_congr_left fun c _ => ?_
    simp only [Function.comp, Comp.shape]
    cases c.pixels <;> rfl
  unfold State.bufferBytes
  rw [key t.comps, key s.comps, h, hr]

theorem Colors.converts {n : Nat} {s t : State} (h : Colors n s t) : Converts s t := by
  refine ⟨by have := h.frame; rw [this], h.memory, fun hl => ?_⟩
  have hr : optBufferSize t.rgb = optBufferSize s.rgb := by
    have := h.size
    cases ht : t.rgb <;> cases hs : s.rgb <;> rw [ht, hs] at this <;> simp_all [optBufferSize]
  have hb : t.bufferBytes = s.bufferBytes := bufferBytes_of_shapes (by rw [h.frame]) hr
  have he : t.live = s.live := by rw [h.frame]
  unfold State.liveOk at hl ⊢
  rw [hb, he]
  exact hl

theorem Compacts.converts {n : Nat} {c : Comp} {s t : State} (h : Compacts n c s t) : Converts s t := by
  refine ⟨by have := h.frame; rw [this], h.memory, fun hl => ?_⟩
  have hb : t.bufferBytes = s.bufferBytes := bufferBytes_of_shapes h.shapes (by rw [h.frame])
  have he : t.live = s.live := by rw [h.frame]
  unfold State.liveOk at hl ⊢
  rw [hb, he]
  exact hl

/-- An abort of the conversion: OUT_OF_MEMORY. -/
def ConvertAborts (s t : State) : Prop :=
  ∃ u, Converts s u ∧ t = u.abort .outOfMemory

theorem ConvertAborts.of {s t u : State} (h : Converts s t) (hu : ConvertAborts t u) : ConvertAborts s u := by
  obtain ⟨v, h1, h2⟩ := hu
  exact ⟨v, h.trans h1, h2⟩

/-- Component k covers the image and its plane is full. -/
def State.covers (s : State) (k : Nat) : Prop :=
  ∃ c, s.comps[k]? = some c ∧ c.full ∧ s.width.toNat ≤ c.width ∧ s.height.toNat ≤ c.height

/-- The first bytes of component 0's plane are the image. -/
def State.grayDone (s : State) : Prop :=
  ∃ c b, s.comps[0]? = some c ∧ c.pixels = some b ∧
    ∀ j, j < s.height.toNat * s.width.toNat → b.has j = true

theorem upsampleAll_post (n : Nat) (s : State) :
    Post (forUp upsampleComp n 0 s) (fun t => Converts s t ∧ t.rgb = s.rgb ∧
      ((∀ k, k < n → s.compReady k) → ∀ k, k < n → t.covers k)) (ConvertAborts s)
      (¬ ∀ k, k < n → s.compReady k) := by
  have hloop := forUp_post (ab := ConvertAborts s) (ft := ¬ ∀ k, k < n → s.compReady k) (body := upsampleComp)
    (P := fun i t => Converts s t ∧ t.rgb = s.rgb ∧ (∀ k, i ≤ k → t.comps[k]? = s.comps[k]?) ∧
      ((∀ k, k < n → s.compReady k) → ∀ k, k < i → t.covers k)) n 0 s
    ⟨Converts.refl s, rfl, fun _ _ => rfl, fun _ _ h => by omega⟩ (fun i t _ hi ht => ?_)
  · refine hloop.imp fun t ht => ⟨ht.1, ht.2.1, fun hr k hk => ht.2.2.2 hr k (by omega)⟩
  · obtain ⟨h1, h2, h3, h4⟩ := ht
    have hw : t.width = s.width := by rw [h1.frame]
    have hh : t.height = s.height := by rw [h1.frame]
    cases hc : t.comps[i]? with
    | none =>
      have hnone : upsampleComp i t = stuck .noComponent := by
        simp [upsampleComp, upsampleLoop, getComp, hc, bind, Except.bind, stuck]
      rw [hnone]
      intro hr
      obtain ⟨c, hc', _⟩ := hr i (by omega)
      rw [← h3 i (Nat.le_refl _), hc] at hc'
      cases hc'
    | some c =>
      refine Post.mono (upsampleComp_post i t c hc) (fun u hu => ?_) (fun u hu => ?_) (fun hn hr => hn ?_)
      · obtain ⟨hu1, d, hd, hd1, hd2, hd3⟩ := hu
        rw [hw] at hd1
        rw [hh] at hd2
        rw [hw, hh] at hd3
        refine ⟨h1.trans hu1.converts, ?_, fun k hk => ?_, fun hr k hk => ?_⟩
        · rw [hu1.frame]; exact h2
        · rw [hu1.others k (by omega), h3 k (by omega)]
        · have huw : u.width = s.width := by rw [hu1.width, hw]
          have huh : u.height = s.height := by rw [hu1.height, hh]
          by_cases hki : k = i
          · subst hki
            obtain ⟨c', hc', hfit⟩ := hr k (by omega)
            rw [← h3 k (Nat.le_refl _), hc] at hc'
            cases hc'
            exact ⟨d, hd, (hd3 hfit).1, by rw [huw]; exact hd1, by rw [huh]; exact hd2⟩
          · obtain ⟨e, he, hef, he1, he2⟩ := h4 hr k (by omega)
            refine ⟨e, by rw [hu1.others k hki]; exact he, hef, ?_, ?_⟩
            · rw [huw, ← hw]; exact he1
            · rw [huh, ← hh]; exact he2
      · obtain ⟨v, hv1, hv2⟩ := hu
        exact ⟨v, h1.trans hv1.converts, hv2⟩
      · obtain ⟨c', hc', hfit⟩ := hr i (by omega)
        rw [← h3 i (Nat.le_refl _), hc] at hc'
        cases hc'
        rw [hw, hh]
        exact hfit

theorem WritesByte.converts {k i : Nat} {v : Byte} {s t : State} (h : WritesByte k i v s t) : Converts s t := by
  refine ⟨by have := h.frame; rw [this], h.memory, fun hl => ?_⟩
  have hb : t.bufferBytes = s.bufferBytes := bufferBytes_of_shapes h.shapes (by rw [h.frame])
  have he : t.live = s.live := by rw [h.frame]
  unfold State.liveOk at hl ⊢
  rw [hb, he]
  exact hl

/-- A change of component k that keeps its plane. -/
theorem converts_setComp {s : State} {k : Nat} {c d : Comp} (hc : s.comps[k]? = some c)
    (hd : d.pixels = c.pixels) : Converts s (s.setComp k d) := by
  refine ⟨rfl, fun hm => ?_, fun hl => ?_⟩
  · refine State.memoryWf_setComp hm ?_
    rw [hd]
    simp only [State.memoryWf, Bool.and_eq_true, List.all_eq_true] at hm
    exact hm.1.2 c (List.mem_of_getElem? hc)
  · have hsum := sum_set (fun c => optBufferSize c.pixels) s.comps k c d hc
    rw [hd] at hsum
    unfold State.liveOk State.bufferBytes at hl ⊢
    show s.live = ((s.comps.set k d).map fun c => optBufferSize c.pixels).sum + optBufferSize s.rgb
    omega

/-- COMPACT leaves the image in the first bytes of the plane, where the plane is the image's size. -/
theorem compact_post (s : State) (ab : State → Prop) :
    Post (compactOp s) (fun t => Converts s t ∧ (s.covers 0 → t.grayDone)) ab (¬ s.covers 0) := by
  unfold compactOp
  rw [post_bind]
  refine Post.mono (getComp_post 0 s ab) (fun c hc => ?_) (fun _ h => h)
    (fun h ⟨c, hc, _⟩ => by rw [h] at hc; cases hc)
  -- the image lies in the first height * width bytes
  have himage : s.covers 0 → s.height.toNat * s.width.toNat ≤ c.height * c.width := by
    rintro ⟨c', hc', _, h1, h2⟩
    rw [hc] at hc'
    cases hc'
    exact Nat.mul_le_mul h2 h1
  split
  · rename_i heq
    refine ⟨Converts.refl s, fun hcov => ?_⟩
    have him := himage hcov
    obtain ⟨c', hc', ⟨_, b, hb, hall⟩, _⟩ := hcov
    rw [hc] at hc'
    cases hc'
    exact ⟨c, b, hc, hb, fun j hj => hall j (by rw [← heq]; omega)⟩
  · rename_i hne
    rw [post_bind]
    by_cases hlt : c.width ≤ c.stride
    · refine Post.mono (compactLoop_post c s ab hlt) (fun t ht => ?_) (fun _ h => h) (fun hn hcov => hn ?_)
      · obtain ⟨d, hd, hdsh⟩ := shape_at ht.shapes hc
        rw [post_bind, getComp_ok hd, post_ok]
        refine ⟨ht.converts.trans (converts_setComp hd rfl), fun hcov => ?_⟩
        have him := himage hcov
        obtain ⟨c', hc', ⟨_, b, hb, hall⟩, _⟩ := hcov
        rw [hc] at hc'
        cases hc'
        have hp : d.shape.pixels = c.shape.pixels := congrArg Comp.pixels hdsh
        simp only [Comp.shape, hb, Option.map_some] at hp
        cases hdp : d.pixels with
        | none => rw [hdp] at hp; cases hp
        | some b' =>
          rw [hdp] at hp
          simp only [Option.map_some, Option.some.injEq, Buffer.fresh, Buffer.mk.injEq, and_true] at hp
          have h0 : 0 < t.comps.length := (List.getElem?_eq_some_iff.mp hd).1
          refine ⟨{ d with stride := c.width }, b', ?_, hdp, fun j hj => ?_⟩
          · rw [State.getElem_setComp, if_pos ⟨rfl, h0⟩, hdp]
          · have hjw : j < c.height * c.width := by
              have hw : t.width = s.width := by rw [ht.frame]
              have hh : t.height = s.height := by rw [ht.frame]
              have hj' : j < t.height.toNat * t.width.toNat := hj
              rw [hw, hh] at hj'
              omega
            have hwpos : 0 < c.width := by
              rcases Nat.eq_zero_or_pos c.width with h | h
              · rw [h] at hjw; omega
              · exact h
            have hrow : j / c.width < c.height := by rwa [Nat.div_lt_iff_lt_mul hwpos]
            have hsource : j / c.width * c.stride + j % c.width < c.height * c.stride :=
              index_lt (Nat.lt_of_lt_of_le (Nat.mod_lt _ hwpos) hlt) hrow
            have hbyte := ht.byte 0 j
            have hjs : j < c.height * c.stride :=
              Nat.lt_of_lt_of_le hjw (Nat.mul_le_mul_left _ hlt)
            have hread : ∀ i, s.planeByte 0 i = b.mem.read i := by
              intro i; simp [State.planeByte, hc, hb]
            have hsome : (t.planeByte 0 j).isSome = true := by
              rw [hbyte]
              split
              · have := hall _ hsource
                simp only [Buffer.has, Bool.and_eq_true] at this
                rw [hread]; exact this.2
              · have := hall _ hjs
                simp only [Buffer.has, Bool.and_eq_true] at this
                rw [hread]; exact this.2
            simp only [State.planeByte, hd, hdp, Option.bind_some] at hsome
            have hsz := hall _ hjs
            simp only [Buffer.has, Bool.and_eq_true, decide_eq_true_eq] at hsz ⊢
            exact ⟨by omega, hsome⟩
      · obtain ⟨c', hc', ⟨_, b, hb, hall⟩, _⟩ := hcov
        rw [hc] at hc'
        cases hc'
        exact ⟨b, by simp [hc, hb], fun y x hy hx => hall _ (index_lt (by omega) hy)⟩
    · have hnot : ¬ s.covers 0 := by
        rintro ⟨c', hc', ⟨h, _⟩, _⟩
        rw [hc] at hc'
        cases hc'
        exact hlt h
      refine Post.mono (forUp_keeps (P := Converts s) (ab := ab) (ft := ¬ s.covers 0) _ _ s (Converts.refl s)
        fun y t ht => forUp_keeps _ _ t ht fun x u hu => ?_) (fun t ht => ?_) (fun _ h => h) (fun _ => hnot)
      · unfold compactByte
        rw [post_bind]
        refine Post.mono (planeRead_post 0 _ u ab) (fun v _ => ?_) (fun _ h => h) (fun _ => hnot)
        exact Post.mono (planeWrite_post 0 _ v u ab) (fun w hw => hu.trans hw.converts) (fun _ h => h)
          (fun _ => hnot)
      · rw [post_bind]
        refine Post.mono (getComp_post 0 t ab) (fun d hd => ?_) (fun _ h => h) (fun _ => hnot)
        exact ⟨ht.trans (converts_setComp hd rfl), fun h => absurd h hnot⟩

/-- The bytes of the colour image are all in the RGB buffer. -/
def State.colorDone (s : State) : Prop :=
  ∃ b, s.rgb = some b ∧ ∀ j, j < 3 * (s.height.toNat * s.width.toNat) → b.has j = true

/-- CONVERT ends in a complete output, or in OUT_OF_MEMORY. -/
theorem convert_post (s : State) :
    Post (convertOp s) (fun t => Converts s t ∧
      (s.convertReady → if s.ncomp = 3 then t.colorDone else t.grayDone)) (ConvertAborts s)
      (¬ s.convertReady) := by
  unfold convertOp
  rw [post_bind]
  refine Post.mono (upsampleAll_post s.ncomp.toNat s) (fun t ht => ?_) (fun _ h => h) (fun hn hr => hn hr.1)
  obtain ⟨hst, hrgb, hcov⟩ := ht
  have hn : t.ncomp = s.ncomp := by rw [hst.frame]
  have hw : t.width = s.width := by rw [hst.frame]
  have hh : t.height = s.height := by rw [hst.frame]
  rw [hn]
  split
  · rename_i h3
    have h3' : s.ncomp.toNat = 3 := by rw [h3]; rfl
    have hready : s.convertReady → t.colorReady := by
      intro hr
      have hc := hcov hr.1
      refine ⟨fun x y hx hy => ?_, ?_⟩
      · have hs : ∀ k, k < 3 → t.hasSample k x y := by
          intro k hk
          obtain ⟨c, hck, ⟨hst, b, hb, hall⟩, hcw, hch⟩ := hc k (by omega)
          exact ⟨c, b, hck, hb, hall _ (index_lt (by omega) (by omega))⟩
        exact ⟨hs 0 (by omega), hs 1 (by omega), hs 2 (by omega)⟩
      · obtain ⟨b, hb, hsz⟩ := hr.2.1 h3
        exact ⟨b, by rw [hrgb]; exact hb, by rw [hw, hh]; exact hsz⟩
    refine Post.mono (color_post t _) (fun u hu => ?_) (fun _ h => h) (fun hn hr => hn (hready hr))
    refine ⟨hst.trans hu.converts, fun hr => ?_⟩
    obtain ⟨_, b, hb, hsz⟩ := hready hr
    have hbuf := hu.hasBuffer ⟨b, hb, hsz⟩
    obtain ⟨b', hb', hsz'⟩ := hbuf
    have hwu : u.width = t.width := by rw [hu.frame]
    have hhu : u.height = t.height := by rw [hu.frame]
    refine ⟨b', hb', fun j hj => ?_⟩
    rw [hwu, hhu] at hj
    have hbyte := hu.byte j
    rw [if_pos hj] at hbyte
    simp only [State.rgbByte, hb', Option.bind_some] at hbyte
    simp [Buffer.has, hbyte, show j < b'.size by omega]
  · rename_i h3
    have hcover : s.convertReady → t.covers 0 := fun hr => hcov hr.1 0 (hr.2.2 h3)
    refine Post.mono (compact_post t _) (fun u hu => ?_) (fun _ h => h) (fun hn hr => hn (hcover hr))
    exact ⟨hst.trans hu.1, fun hr => hu.2 (hcover hr)⟩

end Sys2Proof.Machine
end

