-- ==== Sys2Proof/Laws/Encoding.lean ====
section
/-! SUPPORT. The fields and payload layouts of 30_encoding.md: what is packed comes apart again, and every
parser reads back what its encoder wrote. -/

namespace Sys2Proof

/-! ### Fields -/

@[simp] theorem be16_split (x : Half) : be16 (hiByte x) (loByte x) = x := by
  simp only [be16, hiByte, loByte]
  ext i hi
  simp only [BitVec.getElem_append, BitVec.getElem_extractLsb']
  split
  · simp [BitVec.getLsbD_eq_getElem hi]
  · rw [show 8 + (i - 8) = i by omega, BitVec.getLsbD_eq_getElem hi]

@[simp] theorem hiByte_be16 (a b : Byte) : hiByte (be16 a b) = a := by
  refine BitVec.eq_of_getLsbD_eq fun i hi => ?_
  show ((a ++ b : BitVec (8 + 8)).extractLsb' 8 8).getLsbD i = _
  rw [BitVec.getLsbD_extractLsb', BitVec.getLsbD_append]
  simp [hi]

@[simp] theorem loByte_be16 (a b : Byte) : loByte (be16 a b) = b := by
  refine BitVec.eq_of_getLsbD_eq fun i hi => ?_
  show ((a ++ b : BitVec (8 + 8)).extractLsb' 0 8).getLsbD i = _
  rw [BitVec.getLsbD_extractLsb', BitVec.getLsbD_append]
  simp [hi]

@[simp] theorem hiNibble_pack (a b : Nibble) : hiNibble (pack a b) = a := by
  refine BitVec.eq_of_getLsbD_eq fun i hi => ?_
  show ((a ++ b : BitVec (4 + 4)).extractLsb' 4 4).getLsbD i = _
  rw [BitVec.getLsbD_extractLsb', BitVec.getLsbD_append]
  simp [hi]

@[simp] theorem loNibble_pack (a b : Nibble) : loNibble (pack a b) = b := by
  refine BitVec.eq_of_getLsbD_eq fun i hi => ?_
  show ((a ++ b : BitVec (4 + 4)).extractLsb' 0 4).getLsbD i = _
  rw [BitVec.getLsbD_extractLsb', BitVec.getLsbD_append]
  simp [hi]

@[simp] theorem pack_split (x : Byte) : pack (hiNibble x) (loNibble x) = x := by
  simp only [pack, hiNibble, loNibble]
  ext i hi
  simp only [BitVec.getElem_append, BitVec.getElem_extractLsb']
  split
  · simp [BitVec.getLsbD_eq_getElem hi]
  · rw [show 4 + (i - 4) = i by omega, BitVec.getLsbD_eq_getElem hi]

/-! ### Payloads -/

theorem parseSofComps_encode (comps : List SofComp) (n : Nat) (extra : List Byte)
    (h : comps.length = n ∨ (comps.length < n ∧ extra.length < 3)) :
    parseSofComps n (comps.flatMap encodeSofComp ++ extra) = (comps, extra) := by
  induction comps generalizing n with
  | nil =>
    rcases h with rfl | ⟨hn, he⟩
    · rfl
    · cases n with
      | zero => simp at hn
      | succ n =>
        match extra, he with
        | [], _ => rfl
        | [_], _ => rfl
        | [_, _], _ => rfl
  | cons c comps ih =>
    obtain ⟨m, rfl⟩ : ∃ m, n = m + 1 := ⟨n - 1, by simp only [List.length_cons] at h; omega⟩
    have := ih m (by simp only [List.length_cons] at h; omega)
    simp [List.flatMap_cons, encodeSofComp, parseSofComps, this]

theorem parseSof_encode (b : SofBody) (h : b.wf = true) : parseSof (encodeSof b) = b := by
  cases b with
  | short bytes =>
    simp only [SofBody.wf, decide_eq_true_eq] at h
    match bytes, h with
    | [], _ => rfl
    | [_], _ => rfl
    | [_, _], _ => rfl
    | [_, _, _], _ => rfl
    | [_, _, _, _], _ => rfl
    | [_, _, _, _, _], _ => rfl
  | full p y x nf comps extra =>
    simp only [SofBody.wf, Bool.or_eq_true, Bool.and_eq_true, decide_eq_true_eq] at h
    simp [encodeSof, parseSof, parseSofComps_encode comps nf.toNat extra h]

theorem length_encodeSof (b : SofBody) : (encodeSof b).length = b.size := by
  cases b with
  | short bytes => rfl
  | full p y x nf comps extra =>
    have : (comps.flatMap encodeSofComp).length = 3 * comps.length := by
      induction comps with
      | nil => rfl
      | cons c comps ih => simp only [List.flatMap_cons, List.length_append, ih, encodeSofComp,
          List.length_cons, List.length_nil]; omega
    simp only [encodeSof, SofBody.size, List.length_append, this, List.length_cons, List.length_nil]

theorem length_encodeDhtTable (t : DhtTable) : (encodeDhtTable t).length = t.size := by
  simp only [encodeDhtTable, DhtTable.size, List.length_cons, List.length_append]; omega

theorem length_encodeDht (b : DhtBody) : (encodeDht b).length = b.size := by
  obtain ⟨tables, tail⟩ := b
  simp only [encodeDht, DhtBody.size, List.length_append]
  congr 1
  induction tables with
  | nil => rfl
  | cons t ts ih => simp [List.flatMap_cons, length_encodeDhtTable, ih]

theorem parseDhtTables_short (fuel : Nat) (bs : List Byte) (h : bs.length < 17) :
    parseDhtTables fuel bs = ⟨[], bs⟩ := by
  cases fuel with
  | zero => rfl
  | succ fuel =>
    cases bs with
    | nil => rfl
    | cons b bs =>
      simp only [List.length_cons] at h
      simp [parseDhtTables, show bs.length < 16 by omega]

/-- One turn of the DHT parser on a table with its 16 counts. -/
theorem parseDhtTables_turn (fuel : Nat) (t : DhtTable) (more : List Byte) (hc : t.counts.length = 16)
    (hs : t.syms.length = countSum t.counts ∨ (t.syms.length < countSum t.counts ∧ more = [])) :
    parseDhtTables (fuel + 1) (encodeDhtTable t ++ more) =
      ⟨t :: (parseDhtTables fuel more).tables, (parseDhtTables fuel more).tail⟩ := by
  obtain ⟨tc, th, counts, syms⟩ := t
  simp only at hc hs
  have h16 : (counts ++ (syms ++ more)).take 16 = counts := by
    rw [← hc]; simp
  have hd : (counts ++ (syms ++ more)).drop 16 = syms ++ more := by
    rw [← hc]; simp
  simp only [encodeDhtTable, List.cons_append, List.append_assoc, parseDhtTables, h16, hd]
  rw [if_neg (by simp only [List.length_append, hc]; omega)]
  rcases hs with hs | ⟨hs, rfl⟩
  · rw [← hs]; simp
  · simp only [List.append_nil]
    rw [List.take_of_length_le (by omega), List.drop_of_length_le (by omega)]
    simp

theorem parseDhtTables_encode (tables : List DhtTable) (tail : List Byte) (fuel : Nat)
    (h : dhtWf tables tail = true) (hf : tables.length ≤ fuel) :
    parseDhtTables fuel (tables.flatMap encodeDhtTable ++ tail) = ⟨tables, tail⟩ := by
  induction tables generalizing fuel with
  | nil => exact parseDhtTables_short fuel tail (by simpa [dhtWf] using h)
  | cons t ts ih =>
    obtain ⟨f, rfl⟩ : ∃ f, fuel = f + 1 := ⟨fuel - 1, by simp only [List.length_cons] at hf; omega⟩
    simp only [List.flatMap_cons, List.append_assoc]
    cases ts with
    | nil =>
      simp only [dhtWf, Bool.and_eq_true, Bool.or_eq_true, decide_eq_true_eq, List.isEmpty_iff] at h
      obtain ⟨hc, ⟨hs, ht⟩ | ⟨hs, rfl⟩⟩ := h
      · rw [List.flatMap_nil, List.nil_append, parseDhtTables_turn f t tail hc (.inl hs),
          parseDhtTables_short f tail ht]
      · rw [List.flatMap_nil, List.nil_append, parseDhtTables_turn f t [] hc (.inr ⟨hs, rfl⟩),
          parseDhtTables_short f [] (by simp)]
    | cons u us =>
      simp only [dhtWf, Bool.and_eq_true, decide_eq_true_eq] at h
      rw [parseDhtTables_turn f t _ h.1.1 (.inl h.1.2),
        ih f h.2 (by simp only [List.length_cons] at hf ⊢; omega)]

theorem parseDht_encode (b : DhtBody) (h : b.wf = true) : parseDht (encodeDht b) = b := by
  have hlen : b.tables.length ≤ (encodeDht b).length := by
    rw [length_encodeDht]
    simp only [DhtBody.size]
    have : b.tables.length ≤ (b.tables.map DhtTable.size).sum := by
      induction b.tables with
      | nil => simp
      | cons t ts ih => simp only [List.length_cons, List.map_cons, List.sum_cons, DhtTable.size]; omega
    omega
  exact parseDhtTables_encode b.tables b.tail _ h hlen

theorem length_encodeDqt (b : DqtBody) : (encodeDqt b).length = b.size := by
  obtain ⟨tables, tail⟩ := b
  simp only [encodeDqt, DqtBody.size, List.length_append]
  congr 1
  induction tables with
  | nil => rfl
  | cons t ts ih =>
    simp only [List.flatMap_cons, List.length_append, ih, List.map_cons, List.sum_cons, encodeDqtTable,
      List.length_cons]
    omega

theorem parseDqtTables_short (fuel : Nat) (bs : List Byte) (h : bs.length < 65) :
    parseDqtTables fuel bs = ⟨[], bs⟩ := by
  cases fuel with
  | zero => rfl
  | succ fuel =>
    cases bs with
    | nil => rfl
    | cons b bs =>
      simp only [List.length_cons] at h
      simp [parseDqtTables, show bs.length < 64 by omega]

theorem parseDqtTables_encode (tables : List DqtTable) (tail : List Byte) (fuel : Nat)
    (h : ∀ t ∈ tables, t.steps.length = 64) (ht : tail.length < 65) (hf : tables.length ≤ fuel) :
    parseDqtTables fuel (tables.flatMap encodeDqtTable ++ tail) = ⟨tables, tail⟩ := by
  induction tables generalizing fuel with
  | nil => exact parseDqtTables_short fuel tail ht
  | cons t ts ih =>
    obtain ⟨f, rfl⟩ : ∃ f, fuel = f + 1 := ⟨fuel - 1, by simp only [List.length_cons] at hf; omega⟩
    have h64 := h t (List.mem_cons_self ..)
    have := ih f (fun u hu => h u (List.mem_cons_of_mem _ hu))
      (by simp only [List.length_cons] at hf; omega)
    simp only [List.flatMap_cons, encodeDqtTable, List.cons_append, List.append_assoc, parseDqtTables]
    rw [if_neg (by simp only [List.length_append, h64]; omega), ← h64, List.drop_left, List.take_left,
      this]
    simp

theorem parseDqt_encode (b : DqtBody) (h : b.wf = true) : parseDqt (encodeDqt b) = b := by
  simp only [DqtBody.wf, Bool.and_eq_true, List.all_eq_true, decide_eq_true_eq] at h
  have hlen : b.tables.length ≤ (encodeDqt b).length := by
    rw [length_encodeDqt]
    simp only [DqtBody.size]
    have : b.tables.length ≤ (b.tables.map fun t => 1 + t.steps.length).sum := by
      induction b.tables with
      | nil => simp
      | cons t ts ih => simp only [List.length_cons, List.map_cons, List.sum_cons]; omega
    omega
  exact parseDqtTables_encode b.tables b.tail _ h.1 h.2 hlen

theorem parseDri_encode (b : DriBody) (h : b.wf = true) : parseDri (encodeDri b) = b := by
  cases b with
  | short bytes =>
    simp only [DriBody.wf, decide_eq_true_eq] at h
    match bytes, h with
    | [], _ => rfl
    | [_], _ => rfl
  | full ri extra => simp [encodeDri, parseDri]

theorem length_encodeDri (b : DriBody) : (encodeDri b).length = b.size := by
  cases b with
  | short bytes => rfl
  | full ri extra => simp only [encodeDri, DriBody.size, List.length_append, List.length_cons,
      List.length_nil]

theorem parseSosSels_encode (sels : List SosSel) (more : List Byte) :
    parseSosSels sels.length (sels.flatMap encodeSosSel ++ more) = (sels, more) := by
  induction sels with
  | nil => rfl
  | cons s sels ih => simp [List.flatMap_cons, encodeSosSel, parseSosSels, ih]

theorem length_parseSosSels (n : Nat) (bs : List Byte) :
    2 * (parseSosSels n bs).1.length + (parseSosSels n bs).2.length = bs.length := by
  fun_induction parseSosSels n bs with
  | case1 => simp
  | case2 n cs t bs rest ih =>
    simp only [show rest = parseSosSels n bs from rfl, List.length_cons]
    omega
  | case3 => simp

theorem parseSos_encode (b : SosBody) (h : b.wf = true) : parseSos (encodeSos b) = b := by
  cases b with
  | short bytes =>
    cases bytes with
    | nil => rfl
    | cons ns rest =>
      simp only [SosBody.wf, decide_eq_true_eq] at h
      have hl := length_parseSosSels ns.toNat rest
      simp only [encodeSos, parseSos]
      split
      · rename_i ss se a extra heq
        rw [heq] at hl
        simp only [List.length_cons] at hl
        rw [if_neg (by omega)]
      · rfl
  | full sels ss se ah al extra =>
    simp only [SosBody.wf, decide_eq_true_eq] at h
    have hn : (BitVec.ofNat 8 sels.length).toNat = sels.length := by
      simp only [BitVec.toNat_ofNat]; omega
    simp [encodeSos, parseSos, hn, parseSosSels_encode]

theorem length_encodeSos (b : SosBody) : (encodeSos b).length = b.size := by
  cases b with
  | short bytes => rfl
  | full sels ss se ah al extra =>
    have : (sels.flatMap encodeSosSel).length = 2 * sels.length := by
      induction sels with
      | nil => rfl
      | cons c sels ih => simp only [List.flatMap_cons, List.length_append, ih, encodeSosSel,
          List.length_cons, List.length_nil]; omega
    simp only [encodeSos, SosBody.size, List.length_append, this, List.length_cons, List.length_nil]
    omega

/-! ### Segments -/

/-- A segment is read back from the bytes the encoder writes for it. -/
theorem parseFrame_encode {α : Type} {size : α → Nat} {body : α → Bool} {parse : List Byte → α}
    {enc : α → List Byte} (hp : ∀ a, body a = true → parse (enc a) = a)
    (hl : ∀ a, (enc a).length = size a) (seg : Framed α) (h : seg.wf size body = true) :
    parseFrame parse (encodeFrame enc seg) = (seg, []) := by
  cases seg with
  | noLength left =>
    simp only [Framed.wf, decide_eq_true_eq] at h
    match left, h with
    | [], _ => rfl
    | [_], _ => rfl
  | badLength l =>
    simp only [Framed.wf, decide_eq_true_eq] at h
    simp only [encodeFrame, parseFrame, be16_split, List.length_nil]
    rw [if_pos (by omega)]
  | ok a =>
    simp only [Framed.wf, Bool.and_eq_true, decide_eq_true_eq] at h
    have hn : (BitVec.ofNat 16 ((enc a).length + 2)).toNat = (enc a).length + 2 := by
      simp only [BitVec.toNat_ofNat, hl]; omega
    simp only [encodeFrame, parseFrame, be16_split, hn]
    rw [if_neg (by omega)]
    simp [hp a h.1]

/-! ### What the parsers answer -/

theorem encode_parseSofComps (n : Nat) (bs : List Byte) :
    (parseSofComps n bs).1.flatMap encodeSofComp ++ (parseSofComps n bs).2 = bs ∧
    ((parseSofComps n bs).1.length = n ∨
      ((parseSofComps n bs).1.length < n ∧ (parseSofComps n bs).2.length < 3)) := by
  induction n generalizing bs with
  | zero => simp [parseSofComps]
  | succ n ih =>
    match bs with
    | [] => simp [parseSofComps]
    | [_] => simp [parseSofComps]
    | [_, _] => simp [parseSofComps]
    | c :: hv :: tq :: bs =>
      obtain ⟨h1, h2⟩ := ih bs
      refine ⟨by simp [parseSofComps, List.flatMap_cons, encodeSofComp, h1], ?_⟩
      simp only [parseSofComps, List.length_cons]
      omega

theorem parseSof_wf (bs : List Byte) : (parseSof bs).wf = true ∧ encodeSof (parseSof bs) = bs := by
  match bs with
  | [] => exact ⟨rfl, rfl⟩
  | [_] => exact ⟨rfl, rfl⟩
  | [_, _] => exact ⟨rfl, rfl⟩
  | [_, _, _] => exact ⟨rfl, rfl⟩
  | [_, _, _, _] => exact ⟨rfl, rfl⟩
  | [_, _, _, _, _] => exact ⟨rfl, rfl⟩
  | p :: y1 :: y0 :: x1 :: x0 :: nf :: bs =>
    obtain ⟨h1, h2⟩ := encode_parseSofComps nf.toNat bs
    refine ⟨?_, ?_⟩
    · simp only [parseSof, SofBody.wf, Bool.or_eq_true, Bool.and_eq_true, decide_eq_true_eq]
      exact h2
    · simp [parseSof, encodeSof, h1]

theorem parseDhtTables_wf (fuel : Nat) (bs : List Byte) (h : bs.length ≤ fuel) :
    (parseDhtTables fuel bs).wf = true ∧ encodeDht (parseDhtTables fuel bs) = bs := by
  induction fuel generalizing bs with
  | zero =>
    have : bs = [] := List.eq_nil_of_length_eq_zero (by omega)
    subst this
    exact ⟨rfl, rfl⟩
  | succ fuel ih =>
    cases bs with
    | nil => exact ⟨rfl, rfl⟩
    | cons t after =>
      simp only [List.length_cons] at h
      simp only [parseDhtTables]
      split
      · exact ⟨by simp [DhtBody.wf, dhtWf]; omega, by simp [encodeDht]⟩
      · rename_i h16
        obtain ⟨h1, h2⟩ := ih ((after.drop 16).drop (countSum (after.take 16))) (by simp; omega)
        generalize hmore : parseDhtTables fuel ((after.drop 16).drop (countSum (after.take 16))) = more at h1 h2
        have hcounts : (after.take 16).length = 16 := by simp; omega
        have hsyms : ((after.drop 16).take (countSum (after.take 16))).length =
            min (countSum (after.take 16)) (after.length - 16) := by simp
        refine ⟨?_, ?_⟩
        · simp only [DhtBody.wf] at h1 ⊢
          cases hts : more.tables with
          | nil =>
            rw [hts] at h1
            simp only [dhtWf, decide_eq_true_eq] at h1
            simp only [dhtWf, Bool.and_eq_true, Bool.or_eq_true, decide_eq_true_eq, List.isEmpty_iff]
            refine ⟨hcounts, ?_⟩
            rcases Nat.lt_or_ge (after.length - 16) (countSum (after.take 16)) with hlt | hge
            · right
              refine ⟨by omega, ?_⟩
              have hl := congrArg List.length h2
              rw [encodeDht, hts] at hl
              simp only [List.flatMap_nil, List.nil_append, List.length_drop] at hl
              exact List.eq_nil_of_length_eq_zero (by omega)
            · left
              exact ⟨by omega, h1⟩
          | cons u us =>
            rw [hts] at h1
            simp only [dhtWf, Bool.and_eq_true, decide_eq_true_eq]
            refine ⟨⟨hcounts, ?_⟩, h1⟩
            have hl := congrArg List.length h2
            rw [encodeDht, hts] at hl
            simp only [List.flatMap_cons, encodeDhtTable, List.length_append, List.length_cons,
              List.length_drop] at hl
            omega
        · simp only [encodeDht, List.flatMap_cons, encodeDhtTable, pack_split, List.cons_append,
            List.append_assoc] at h2 ⊢
          rw [h2, List.take_append_drop, List.take_append_drop]

theorem parseDht_wf (bs : List Byte) : (parseDht bs).wf = true ∧ encodeDht (parseDht bs) = bs :=
  parseDhtTables_wf bs.length bs (Nat.le_refl _)

theorem parseDqtTables_wf (fuel : Nat) (bs : List Byte) (h : bs.length ≤ fuel) :
    (parseDqtTables fuel bs).wf = true ∧ encodeDqt (parseDqtTables fuel bs) = bs := by
  induction fuel generalizing bs with
  | zero =>
    have : bs = [] := List.eq_nil_of_length_eq_zero (by omega)
    subst this
    exact ⟨rfl, rfl⟩
  | succ fuel ih =>
    cases bs with
    | nil => exact ⟨rfl, rfl⟩
    | cons t after =>
      simp only [List.length_cons] at h
      simp only [parseDqtTables]
      split
      · exact ⟨by simp [DqtBody.wf]; omega, by simp [encodeDqt]⟩
      · rename_i h64
        obtain ⟨h1, h2⟩ := ih (after.drop 64) (by simp; omega)
        refine ⟨?_, ?_⟩
        · simp only [DqtBody.wf, Bool.and_eq_true, List.all_cons, decide_eq_true_eq] at h1 ⊢
          exact ⟨⟨by simp; omega, h1.1⟩, h1.2⟩
        · simp only [encodeDqt, List.flatMap_cons, encodeDqtTable, pack_split, List.cons_append,
            List.append_assoc] at h2 ⊢
          rw [h2, List.take_append_drop]

theorem parseDqt_wf (bs : List Byte) : (parseDqt bs).wf = true ∧ encodeDqt (parseDqt bs) = bs :=
  parseDqtTables_wf bs.length bs (Nat.le_refl _)

theorem parseDri_wf (bs : List Byte) : (parseDri bs).wf = true ∧ encodeDri (parseDri bs) = bs := by
  match bs with
  | [] => exact ⟨rfl, rfl⟩
  | [_] => exact ⟨rfl, rfl⟩
  | _ :: _ :: _ => exact ⟨rfl, by simp [parseDri, encodeDri]⟩

theorem encode_parseSosSels (n : Nat) (bs : List Byte) :
    (parseSosSels n bs).1.flatMap encodeSosSel ++ (parseSosSels n bs).2 = bs ∧
    ((parseSosSels n bs).1.length = n ∨
      ((parseSosSels n bs).1.length < n ∧ (parseSosSels n bs).2.length < 2)) := by
  induction n generalizing bs with
  | zero => simp [parseSosSels]
  | succ n ih =>
    match bs with
    | [] => simp [parseSosSels]
    | [_] => simp [parseSosSels]
    | cs :: t :: bs =>
      obtain ⟨h1, h2⟩ := ih bs
      refine ⟨by simp [parseSosSels, List.flatMap_cons, encodeSosSel, h1], ?_⟩
      simp only [parseSosSels, List.length_cons]
      omega

theorem parseSos_wf (bs : List Byte) : (parseSos bs).wf = true ∧ encodeSos (parseSos bs) = bs := by
  match bs with
  | [] => exact ⟨rfl, rfl⟩
  | ns :: bs =>
    obtain ⟨h1, h2⟩ := encode_parseSosSels ns.toNat bs
    have hl := length_parseSosSels ns.toNat bs
    have hns := ns.isLt
    simp only [parseSos]
    split
    · rename_i ss se a extra heq
      split
      · rename_i hn
        refine ⟨by simp only [SosBody.wf, decide_eq_true_eq]; omega, ?_⟩
        rw [heq] at h1
        simp only [encodeSos, hn, pack_split]
        have : BitVec.ofNat 8 ns.toNat = ns := by simp
        rw [this]
        exact congrArg (ns :: ·) h1
      · refine ⟨?_, rfl⟩
        rw [heq] at h2
        simp only [List.length_cons] at h2
        omega
    · rename_i hno
      refine ⟨?_, rfl⟩
      simp only [SosBody.wf, decide_eq_true_eq]
      rcases h2 with h2 | h2
      · -- all selectors there, so fewer than three bytes follow them
        have : (parseSosSels ns.toNat bs).2.length < 3 := by
          match hrest : (parseSosSels ns.toNat bs).2 with
          | [] => simp
          | [_] => simp
          | [_, _] => simp
          | ss :: se :: a :: extra => exact absurd hrest (hno ss se a extra)
        omega
      · omega

/-- The frame a parser answers is well formed, and its bytes are the ones it took. -/
theorem parseFrame_wf {α : Type} {size : α → Nat} {body : α → Bool} {parse : List Byte → α}
    {enc : α → List Byte} (hp : ∀ bs, body (parse bs) = true ∧ enc (parse bs) = bs)
    (hl : ∀ a, (enc a).length = size a) (bs : List Byte) :
    (parseFrame parse bs).1.wf size body = true ∧
    encodeFrame enc (parseFrame parse bs).1 ++ (parseFrame parse bs).2 = bs ∧
    ∀ a, (parseFrame parse bs).1 = .ok a → size a + 2 + (parseFrame parse bs).2.length = bs.length := by
  match bs with
  | [] => exact ⟨rfl, rfl, fun a h => by cases h⟩
  | [_] => exact ⟨rfl, rfl, fun a h => by cases h⟩
  | l1 :: l0 :: rest =>
    have hb : (be16 l1 l0).toNat < 65536 := (be16 l1 l0).isLt
    simp only [parseFrame]
    split
    · rename_i h
      refine ⟨by simp only [Framed.wf, decide_eq_true_eq]; omega, by simp [encodeFrame], fun a h => by cases h⟩
    · rename_i h
      have hsz : size (parse (rest.take ((be16 l1 l0).toNat - 2))) = (be16 l1 l0).toNat - 2 := by
        rw [← hl, (hp _).2, List.length_take]; omega
      refine ⟨?_, ?_, ?_⟩
      · simp only [Framed.wf, (hp _).1, Bool.true_and, decide_eq_true_eq, hsz]; omega
      · have he : BitVec.ofNat 16 ((enc (parse (rest.take ((be16 l1 l0).toNat - 2)))).length + 2) =
            be16 l1 l0 := by
          rw [hl, hsz]
          refine BitVec.eq_of_toNat_eq ?_
          simp only [BitVec.toNat_ofNat]; omega
        simp only [encodeFrame]
        rw [he, hiByte_be16, loByte_be16, (hp _).2, List.cons_append, List.cons_append,
          List.take_append_drop]
      · rintro a ⟨⟩
        rw [hsz]
        simp only [List.length_drop, List.length_cons]; omega

end Sys2Proof
end

