-- ==== Sys2Proof/Laws/Markers.lean ====
section
/-! SUPPORT. The marker parser: what a segment can change, how far it moves in the stream, and what SOF0 and SOS
leave. -/

namespace Sys2Proof.Machine

/-- t is s after parsing d bytes or more of a marker: the input, the accumulator, the sticky error, the
result and the host registers are as before. -/
structure Parses (d : Nat) (s t : State) : Prop where
  frame : s =
    { t with
      pos := s.pos
      remaining := s.remaining
      phase := s.phase
      frame := s.frame
      width := s.width
      height := s.height
      ncomp := s.ncomp
      hmax := s.hmax
      vmax := s.vmax
      mcuW := s.mcuW
      mcuH := s.mcuH
      mbwidth := s.mbwidth
      mbheight := s.mbheight
      qt := s.qt
      qtAvail := s.qtAvail
      qtUsed := s.qtUsed
      ht := s.ht
      restartInterval := s.restartInterval
      comps := s.comps
      mbx := s.mbx
      mby := s.mby
      rstCount := s.rstCount
      nextRst := s.nextRst
      seq := s.seq
      blk := s.blk
      rgb := s.rgb
      live := s.live }
  pos : t.pos = s.pos + d
  remaining : t.remaining = s.remaining - d
  memory : s.memoryWf = true → t.memoryWf = true

theorem Parses.refl (s : State) : Parses 0 s s :=
  ⟨rfl, by simp, by simp, id⟩

theorem Parses.trans {a b : Nat} {s t u : State} (h1 : Parses a s t) (h2 : Parses b t u) :
    Parses (a + b) s u := by
  refine ⟨?_, by rw [h2.pos, h1.pos]; omega, by rw [h2.remaining, h1.remaining]; push_cast; omega,
    fun h => h2.memory (h1.memory h)⟩
  have e1 := h1.frame
  rw [h2.frame] at e1
  exact e1

theorem Parses.inp {d : Nat} {s t : State} (h : Parses d s t) : t.inp = s.inp := by rw [h.frame]
theorem Parses.acc {d : Nat} {s t : State} (h : Parses d s t) : t.acc = s.acc := by rw [h.frame]
theorem Parses.error {d : Nat} {s t : State} (h : Parses d s t) : t.error = s.error := by rw [h.frame]
theorem Parses.cfg {d : Nat} {s t : State} (h : Parses d s t) : t.cfg = s.cfg := by rw [h.frame]
theorem Parses.cmd {d : Nat} {s t : State} (h : Parses d s t) : t.cmd = s.cmd := by rw [h.frame]
theorem Parses.result {d : Nat} {s t : State} (h : Parses d s t) : t.result = s.result := by rw [h.frame]

theorem Parses.position {d : Nat} {s t : State} (h : Parses d s t) (hd : (d : Int) ≤ s.remaining)
    (hp : s.positionOk) : t.positionOk := by
  unfold State.positionOk at hp ⊢
  rw [h.pos, h.remaining, h.inp]
  push_cast
  omega

theorem Parses.inputOk {d : Nat} {s t : State} (h : Parses d s t) (hd : (d : Int) ≤ s.remaining)
    (hi : s.inputOk) : t.inputOk := by
  refine ⟨by rw [h.inp]; exact hi.1, ?_, h.position hd hi.2.2⟩
  unfold State.inputResident
  rw [h.inp]
  exact hi.2.1

theorem parses_skip (n : Nat) (s : State) : Parses n s (s.skip n) :=
  ⟨rfl, rfl, rfl, id⟩

/-- A parse that stops: after at most n bytes, with some code. -/
def ParseAborts (n : Nat) (s t : State) : Prop :=
  ∃ u d code, d ≤ n ∧ Parses d s u ∧ code ≠ .ok ∧ t = u.abort code

theorem ParseAborts.of {a n : Nat} {s t u : State} (h : Parses a s t) (hu : ParseAborts n t u) :
    ParseAborts (a + n) s u := by
  obtain ⟨v, d, code, h1, h2, h3, h4⟩ := hu
  exact ⟨v, a + d, code, by omega, h.trans h2, h3, h4⟩

theorem ParseAborts.mono {n m : Nat} {s t : State} (h : ParseAborts n s t) (hm : n ≤ m) :
    ParseAborts m s t := by
  obtain ⟨v, d, code, h1, h2⟩ := h
  exact ⟨v, d, code, by omega, h2⟩

theorem parseAborts_here {n : Nat} {s : State} {code : Code} (h : code ≠ .ok) :
    ParseAborts n s (s.abort code) :=
  ⟨s, 0, code, by omega, Parses.refl s, h, rfl⟩

/-- A segment: four bytes of marker and length, then the body over its payload. -/
theorem segment_post {α : Type} {seg : Framed α} {size : α → Nat} {body : α → State → Eng State} {s : State}
    {yes : State → Prop} {ft : Prop}
    (hb : ∀ a t, seg = .ok a → Parses 4 s t → t = (s.skip 2).skip 2 → (size a : Int) ≤ t.remaining →
      Post (body a t) yes (ParseAborts (size a) t) ft) :
    Post (segmentOp seg size body s) yes
      (fun t => ∃ n : Nat, (2 ≤ s.remaining → (n : Int) ≤ s.remaining) ∧ ParseAborts n s t) ft := by
  have h2 : ParseAborts 2 s ((s.skip 2).abort .syntaxError) :=
    ⟨s.skip 2, 2, _, by omega, parses_skip 2 s, by simp, rfl⟩
  unfold segmentOp
  simp only
  split
  · exact ⟨2, fun h => h, h2⟩
  · split
    · exact ⟨2, fun h => h, h2⟩
    · exact ⟨2, fun h => h, h2⟩
    · rename_i a
      split
      · exact ⟨2, fun h => h, h2⟩
      · rename_i h3
        simp only [State.skip_remaining] at h3
        have hp : Parses 4 s ((s.skip 2).skip 2) := (parses_skip 2 s).trans (parses_skip 2 _)
        refine Post.mono (hb a _ rfl hp rfl ?_) (fun _ h => h) (fun t ht => ⟨4 + size a, fun _ => ?_, ht.of hp⟩)
          id
        · simp only [State.skip_remaining]; push_cast at h3 ⊢; omega
        · push_cast at h3 ⊢; omega

/-! ### Tables -/

/-- What a table segment or a restart interval leaves alone: the frame. -/
def SameFrame (s t : State) : Prop :=
  t.frame = s.frame ∧ t.phase = s.phase ∧ t.width = s.width ∧ t.height = s.height ∧ t.ncomp = s.ncomp ∧
  t.hmax = s.hmax ∧ t.vmax = s.vmax ∧ t.mbwidth = s.mbwidth ∧ t.mbheight = s.mbheight ∧ t.comps = s.comps ∧
  t.rgb = s.rgb ∧ t.live = s.live

theorem SameFrame.refl (s : State) : SameFrame s s := by simp [SameFrame]

theorem SameFrame.trans {s t u : State} (h1 : SameFrame s t) (h2 : SameFrame t u) : SameFrame s u := by
  unfold SameFrame at *
  obtain ⟨a1, a2, a3, a4, a5, a6, a7, a8, a9, a10, a11, a12⟩ := h1
  obtain ⟨b1, b2, b3, b4, b5, b6, b7, b8, b9, b10, b11, b12⟩ := h2
  exact ⟨b1.trans a1, b2.trans a2, b3.trans a3, b4.trans a4, b5.trans a5, b6.trans a6, b7.trans a7, b8.trans a8,
    b9.trans a9, b10.trans a10, b11.trans a11, b12.trans a12⟩

theorem sameFrame_skip (n : Nat) (s : State) : SameFrame s (s.skip n) := by simp [SameFrame]

/-- BUILD_HT in a payload with `syms` left of it: all the symbols its counts ask for are taken. -/
theorem buildHt_post (h : Fin 4) (counts syms : List Byte) (s : State) :
    Post (buildHtOp h counts syms s) (fun t => Parses (countSum counts) s t ∧ SameFrame s t ∧
      countSum counts ≤ syms.length ∧ t = { s.skip (countSum counts) with ht := t.ht })
      (ParseAborts syms.length s) False := by
  unfold buildHtOp
  by_cases hok : countSum counts ≤ syms.length ∧ (codeWindows (codeLengths 1 counts) : Int) ≤ 65536
  · rw [buildSpans_ok 1 counts syms 65536 s hok.1 hok.2]
    exact ⟨⟨rfl, rfl, rfl, id⟩, by simp [SameFrame], hok.1, rfl⟩
  · obtain ⟨k, h1, h2, h3⟩ := buildSpans_fails 1 counts syms 65536 s (by omega) (by omega)
    rw [h3]
    exact ⟨s.skip k, k, _, h2, parses_skip k s, by simp, rfl⟩

/-- The size of a list of table definitions and the bytes after them. -/
def dhtSize (ts : List DhtTable) (tail : List Byte) : Nat :=
  (ts.map DhtTable.size).sum + tail.length

theorem dhtTable_post (t : DhtTable) (s : State) (hc : t.counts.length = 16) :
    Post (dhtTableOp t s) (fun u => Parses (17 + countSum t.counts) s u ∧ SameFrame s u ∧
      countSum t.counts ≤ t.syms.length) (ParseAborts t.size s) False := by
  unfold dhtTableOp
  split
  · exact parseAborts_here (by simp)
  · split
    · exact parseAborts_here (by simp)
    · refine Post.mono (buildHt_post _ t.counts t.syms (s.skip 17)) (fun u hu => ?_) (fun u hu => ?_) id
      · exact ⟨(parses_skip 17 s).trans hu.1, (sameFrame_skip 17 s).trans hu.2.1, hu.2.2.1⟩
      · exact (hu.of (parses_skip 17 s)).mono (by simp only [DhtTable.size, hc]; omega)

theorem dhtTables_post (ts : List DhtTable) (tail : List Byte) (s : State) (hw : dhtWf ts tail = true) :
    Post (dhtTablesOp ts tail s) (fun t => Parses (dhtSize ts tail) s t ∧ SameFrame s t)
      (ParseAborts (dhtSize ts tail) s) False := by
  induction ts generalizing s with
  | nil =>
    simp only [dhtTablesOp]
    split
    · rename_i h
      simp only [dhtSize, List.map_nil, List.sum_nil, h]
      exact ⟨Parses.refl s, SameFrame.refl s⟩
    · exact parseAborts_here (by simp)
  | cons t ts ih =>
    have hc : t.counts.length = 16 := by
      cases ts with
      | nil => simp only [dhtWf, Bool.and_eq_true, decide_eq_true_eq] at hw; exact hw.1
      | cons u us => simp only [dhtWf, Bool.and_eq_true, decide_eq_true_eq] at hw; exact hw.1.1
    have hsize : dhtSize (t :: ts) tail = t.size + dhtSize ts tail := by
      simp only [dhtSize, List.map_cons, List.sum_cons]; omega
    simp only [dhtTablesOp]
    rw [post_bind]
    refine Post.mono (dhtTable_post t s hc) (fun u hu => ?_) (fun u hu => hu.mono (by omega)) id
    obtain ⟨h1, h2, h3⟩ := hu
    -- with symbols enough, the table is whole and what follows is well formed
    have hwhole : t.syms.length = countSum t.counts ∧ dhtWf ts tail = true := by
      cases ts with
      | nil =>
        simp only [dhtWf, Bool.and_eq_true, Bool.or_eq_true, decide_eq_true_eq] at hw ⊢
        omega
      | cons u us => simp only [dhtWf, Bool.and_eq_true, decide_eq_true_eq] at hw ⊢; exact ⟨hw.1.2, hw.2⟩
    have hts : 17 + countSum t.counts = t.size := by simp only [DhtTable.size, hc, hwhole.1]
    rw [hts] at h1
    refine Post.mono (ih u hwhole.2) (fun v hv => ?_) (fun v hv => ?_) id
    · rw [hsize]; exact ⟨h1.trans hv.1, h2.trans hv.2⟩
    · rw [hsize]; exact hv.of h1

theorem dht_post (b : DhtBody) (hb : b.wf = true) (s : State) :
    Post (dhtTablesOp b.tables b.tail s) (fun t => Parses b.size s t ∧ SameFrame s t)
      (ParseAborts b.size s) False :=
  dhtTables_post b.tables b.tail s hb

theorem dqtTables_post (ts : List DqtTable) (tail : List Byte) (s : State)
    (hw : ∀ t ∈ ts, t.steps.length = 64) :
    Post (dqtTablesOp ts tail s) (fun t => Parses ((ts.map fun t => 1 + t.steps.length).sum + tail.length) s t ∧
      SameFrame s t) (ParseAborts ((ts.map fun t => 1 + t.steps.length).sum + tail.length) s) False := by
  induction ts generalizing s with
  | nil =>
    simp only [dqtTablesOp]
    split
    · rename_i h
      simp only [List.map_nil, List.sum_nil, h]
      exact ⟨Parses.refl s, SameFrame.refl s⟩
    · exact parseAborts_here (by simp)
  | cons t ts ih =>
    simp only [dqtTablesOp]
    rw [post_bind]
    have h64 := hw t (List.mem_cons_self ..)
    unfold dqtTableOp
    split
    · exact parseAborts_here (by simp)
    · split
      · exact parseAborts_here (by simp)
      · have hp : ∀ q a, Parses 65 s ({ s with qt := q, qtAvail := a }.skip 65) := fun q a => ⟨rfl, rfl, rfl, id⟩
        have hf : ∀ q a, SameFrame s ({ s with qt := q, qtAvail := a }.skip 65) := fun q a => by
          simp [SameFrame]
        simp only [post_ok]
        refine Post.mono (ih _ fun u hu => hw u (List.mem_cons_of_mem _ hu)) (fun v hv => ?_) (fun v hv => ?_) id
        · have := (hp _ _).trans hv.1
          simp only [List.map_cons, List.sum_cons, h64]
          rw [show 1 + 64 + (ts.map fun t => 1 + t.steps.length).sum + tail.length =
            65 + ((ts.map fun t => 1 + t.steps.length).sum + tail.length) by omega]
          exact ⟨this, (hf _ _).trans hv.2⟩
        · have := hv.of (hp _ _)
          simp only [List.map_cons, List.sum_cons, h64]
          exact this.mono (by omega)

theorem dqt_post (b : DqtBody) (hb : b.wf = true) (s : State) :
    Post (dqtTablesOp b.tables b.tail s) (fun t => Parses b.size s t ∧ SameFrame s t)
      (ParseAborts b.size s) False := by
  simp only [DqtBody.wf, Bool.and_eq_true, List.all_eq_true, decide_eq_true_eq] at hb
  exact dqtTables_post b.tables b.tail s hb.1

theorem dri_post (b : DriBody) (s : State) :
    Post (driBodyOp b s) (fun t => Parses b.size s t ∧ SameFrame s t) (ParseAborts b.size s) False := by
  cases b with
  | short bytes => exact parseAborts_here (by simp)
  | full ri extra => exact ⟨⟨rfl, rfl, rfl, id⟩, by simp [SameFrame]⟩

theorem skipSeg_post (p : List Byte) (s : State) :
    Post (skipSegOp p s) (fun t => Parses p.length s t ∧ SameFrame s t) (ParseAborts p.length s) False :=
  ⟨parses_skip _ s, sameFrame_skip _ s⟩

/-! ### SOF0 -/

/-- A component as R148 leaves it: legal factors, no plane. -/
def NewComp (c : Comp) : Prop :=
  powerOfTwo c.ssx = true ∧ powerOfTwo c.ssy = true ∧ c.pixels = none

theorem parses_comps (s : State) (l : List Comp) (u : BitVec 4) (h : ∀ c ∈ l, c.pixels = none) :
    Parses 0 s { s with comps := s.comps ++ l, qtUsed := u } := by
  refine ⟨rfl, by simp, by simp, fun hm => ?_⟩
  simp only [State.memoryWf, Bool.and_eq_true, List.all_eq_true] at hm ⊢
  refine ⟨⟨hm.1.1, fun c hc => ?_⟩, hm.2⟩
  rcases List.mem_append.mp hc with hc | hc
  · exact hm.1.2 c hc
  · rw [h c hc]; rfl

theorem sofComp_post (c : SofComp) (s : State) :
    Post (sofCompOp c s) (fun t => Parses 0 s t ∧ ∃ d, NewComp d ∧
      t = { s with comps := s.comps ++ [d], qtUsed := t.qtUsed }) (ParseAborts 0 s) False := by
  have hab : ∀ code : Code, code ≠ .ok →
      ParseAborts 0 s (State.abort code { s with comps := s.comps ++ [newComp c.cid] }) := fun code h =>
    ⟨_, 0, code, Nat.le_refl _, parses_comps s [newComp c.cid] s.qtUsed (by simp [newComp]), h, rfl⟩
  unfold sofCompOp
  simp only
  split
  · exact hab _ (by simp)
  · split
    · exact hab _ (by simp)
    · split
      · exact hab _ (by simp)
      · split
        · exact hab _ (by simp)
        · split
          · exact hab _ (by simp)
          · rename_i h1 h2 h3 h4 h5
            exact ⟨parses_comps s _ _ (by simp [newComp]), _, ⟨by simpa using h2, by simpa using h4, rfl⟩, rfl⟩

theorem sofComps_post (cs : List SofComp) (s : State) :
    Post (sofCompsOp cs s) (fun t => Parses (3 * cs.length) s t ∧ ∃ l : List Comp, l.length = cs.length ∧
      (∀ d ∈ l, NewComp d) ∧
      t = { s with comps := s.comps ++ l, qtUsed := t.qtUsed, pos := t.pos, remaining := t.remaining })
      (ParseAborts (3 * cs.length) s) False := by
  induction cs generalizing s with
  | nil => exact ⟨Parses.refl s, [], rfl, by simp, by simp⟩
  | cons c cs ih =>
    simp only [sofCompsOp]
    rw [post_bind]
    refine Post.mono (sofComp_post c s) (fun t ht => ?_) (fun t ht => ht.mono (by omega)) id
    obtain ⟨hp, d, hd, ht⟩ := ht
    have hp3 : Parses 3 s (t.skip 3) := by simpa using hp.trans (parses_skip 3 t)
    refine Post.mono (ih (t.skip 3)) (fun u hu => ?_) (fun u hu => ?_) id
    · obtain ⟨hu1, l, hl, hl2, hu2⟩ := hu
      have hlen : 3 * (c :: cs).length = 3 + 3 * cs.length := by simp only [List.length_cons]; omega
      refine ⟨by rw [hlen]; exact hp3.trans hu1, d :: l, by simp [hl], ?_, ?_⟩
      · intro x hx
        rcases List.mem_cons.mp hx with rfl | hx
        · exact hd
        · exact hl2 x hx
      · rw [ht] at hu2
        rw [hu2]
        simp [State.skip]
    · refine (hu.of hp3).mono ?_
      simp only [List.length_cons]; omega

theorem largest_fold_ge (fs : List Nibble) (m : Nibble) :
    m ≤ fs.foldl (fun m f => if m < f then f else m) m ∧
      ∀ f ∈ fs, f ≤ fs.foldl (fun m f => if m < f then f else m) m := by
  induction fs generalizing m with
  | nil => simp
  | cons f fs ih =>
    obtain ⟨h1, h2⟩ := ih (if m < f then f else m)
    simp only [List.foldl_cons]
    have hm : m ≤ (if m < f then f else m) ∧ f ≤ (if m < f then f else m) := by
      split
      · rename_i h
        exact ⟨by rw [BitVec.le_def]; rw [BitVec.lt_def] at h; omega, by rw [BitVec.le_def]⟩
      · rename_i h
        exact ⟨by rw [BitVec.le_def], by rw [BitVec.le_def]; rw [BitVec.lt_def] at h; omega⟩
    rw [BitVec.le_def, BitVec.le_def] at hm
    rw [BitVec.le_def] at h1
    refine ⟨by rw [BitVec.le_def]; omega, fun g hg => ?_⟩
    rcases List.mem_cons.mp hg with rfl | hg
    · rw [BitVec.le_def]; omega
    · exact h2 g hg

theorem le_largest {fs : List Nibble} {f : Nibble} (h : f ∈ fs) : f ≤ largest fs :=
  (largest_fold_ge fs 0).2 f h

/-- The components of a frame whose geometry is set and whose planes are not yet allocated. -/
def State.sized (s : State) (c : Comp) : Prop :=
  powerOfTwo c.ssx = true ∧ powerOfTwo c.ssy = true ∧ c.ssx ≤ s.hmax ∧ c.ssy ≤ s.vmax ∧
  c.width = ceilDiv (s.width.toNat * c.ssx.toNat) s.hmax.toNat ∧
  c.height = ceilDiv (s.height.toNat * c.ssy.toNat) s.vmax.toNat ∧
  c.stride = 8 * c.ssx.toNat * s.mbwidth ∧ c.pixels = none

theorem geometry_sized (s : State) (h : ∀ c ∈ s.comps, NewComp c) :
    (∀ c ∈ s.geometry.comps, s.geometry.sized c) ∧ s.geometry.comps.length = s.comps.length ∧
    s.geometry.mbwidth = ceilDiv s.width.toNat (8 * s.geometry.hmax.toNat) ∧
    s.geometry.mbheight = ceilDiv s.height.toNat (8 * s.geometry.vmax.toNat) := by
  have hnew : ∀ c ∈ (if s.ncomp = 1 then s.comps.map fun c => { c with ssx := 1, ssy := 1 } else s.comps),
      NewComp c := by
    intro c hc
    split at hc
    · obtain ⟨d, hd, rfl⟩ := List.mem_map.mp hc
      exact ⟨(by decide : powerOfTwo 1 = true), (by decide : powerOfTwo 1 = true), (h d hd).2.2⟩
    · exact h c hc
  refine ⟨fun c hc => ?_, ?_, rfl, rfl⟩
  · simp only [State.geometry, List.mem_map] at hc
    obtain ⟨d, hd, rfl⟩ := hc
    have hn := hnew d hd
    refine ⟨hn.1, hn.2.1, le_largest (List.mem_map.mpr ⟨d, hd, rfl⟩), le_largest (List.mem_map.mpr ⟨d, hd, rfl⟩),
      rfl, rfl, rfl, hn.2.2⟩
  · simp only [State.geometry, List.length_map]
    split <;> simp

theorem geometry_parses (s : State) : Parses 0 s s.geometry := by
  refine ⟨rfl, by simp [State.geometry], by simp [State.geometry], fun hm => ?_⟩
  simp only [State.memoryWf, Bool.and_eq_true, List.all_eq_true] at hm ⊢
  refine ⟨⟨hm.1.1, fun c hc => ?_⟩, hm.2⟩
  simp only [State.geometry, List.mem_map] at hc
  obtain ⟨d, hd, rfl⟩ := hc
  split at hd
  · obtain ⟨e, he, rfl⟩ := List.mem_map.mp hd
    exact hm.1.2 e he
  · exact hm.1.2 d hd

/-- The frame's planes are allocated up to component i. -/
structure Allocates (i : Nat) (s t : State) : Prop where
  frame : t = { s with comps := t.comps, live := t.live }
  length : t.comps.length = s.comps.length
  done : ∀ k c, k < i → s.comps[k]? = some c → t.comps[k]? =
    some { c with pixels := some (Buffer.fresh (planeBytes c s.mbheight)) } ∧
    ¬ ((c.width < 3 ∧ c.ssx ≠ s.hmax) ∨ (c.height < 3 ∧ c.ssy ≠ s.vmax))
  todo : ∀ k, i ≤ k → t.comps[k]? = s.comps[k]?
  memory : s.memoryWf = true → t.memoryWf = true
  live : (∀ c ∈ s.comps, c.pixels = none) → s.liveOk → t.liveOk

theorem Allocates.parses {i : Nat} {s t : State} (h : Allocates i s t) : Parses 0 s t := by
  have := h.frame
  exact ⟨by rw [this], by rw [this]; simp, by rw [this]; simp, h.memory⟩

theorem allocPlane_post (i : Nat) (s t : State) (h : Allocates i s t) (hi : i < s.comps.length) :
    Post (allocPlane i t) (Allocates (i + 1) s) (ParseAborts 0 s) False := by
  have hp := h.parses
  unfold allocPlane
  rw [post_bind]
  have hc : t.comps[i]? = some s.comps[i] := by rw [h.todo i (Nat.le_refl _)]; exact List.getElem?_eq_getElem hi
  generalize hcd : s.comps[i] = c at hc
  have hcs : s.comps[i]? = some c := by rw [← hcd]; exact List.getElem?_eq_getElem hi
  rw [getComp_ok hc, post_ok]
  split
  · exact ⟨t, 0, _, Nat.le_refl _, hp, by simp, rfl⟩
  · rename_i hsmall
    rw [post_bind]
    refine Post.mono (alloc_post _ t False) (fun r hr => ?_)
      (fun u hu => ⟨t, 0, _, Nat.le_refl _, hp, by simp, hu.1⟩) id
    have hmb : t.mbheight = s.mbheight := by rw [h.frame]
    have hhm : t.hmax = s.hmax := by rw [h.frame]
    have hvm : t.vmax = s.vmax := by rw [h.frame]
    rw [hhm, hvm] at hsmall
    rw [hr.1, hmb]
    simp only [post_pure]
    have hit : i < t.comps.length := by rw [h.length]; exact hi
    refine ⟨?_, ?_, fun k d hk hd => ?_, fun k hk => ?_, fun hm => ?_, fun hnone hl => ?_⟩
    · have := h.frame
      simp only [State.setComp]
      rw [this]
    · simp [State.setComp, h.length]
    · rw [State.getElem_setComp]
      by_cases hki : k = i
      · subst hki
        rw [hcs] at hd
        cases hd
        rw [if_pos ⟨rfl, hit⟩]
        exact ⟨rfl, hsmall⟩
      · rw [if_neg (by simp [hki])]
        exact h.done k d (by omega) hd
    · rw [State.getElem_setComp, if_neg (by omega)]
      exact h.todo k (by omega)
    · exact State.memoryWf_setComp (s := { t with live := t.live + planeBytes c s.mbheight }) (h.memory hm)
        (Buffer.wf_fresh _)
    · have hlive := h.live hnone hl
      have hsum := sum_set (fun c => optBufferSize c.pixels) t.comps i c
        { c with pixels := some (Buffer.fresh (planeBytes c s.mbheight)) } hc
      have hc0 : c.pixels = none := hnone c (List.mem_of_getElem? hcs)
      rw [show optBufferSize c.pixels = 0 by rw [hc0]; rfl,
        show optBufferSize (some (Buffer.fresh (planeBytes c s.mbheight))) = planeBytes c s.mbheight from rfl]
        at hsum
      unfold State.liveOk State.bufferBytes at hlive ⊢
      show t.live + planeBytes c s.mbheight = ((t.comps.set i
        { c with pixels := some (Buffer.fresh (planeBytes c s.mbheight)) }).map
          fun c => optBufferSize c.pixels).sum + optBufferSize t.rgb
      omega

theorem allocPlanes_post (n : Nat) (s : State) (hn : n ≤ s.comps.length) :
    Post (forUp allocPlane n 0 s) (Allocates n s) (ParseAborts 0 s) False := by
  have := forUp_post (body := allocPlane) (ab := ParseAborts 0 s) (ft := False)
    (P := fun i t => Allocates i s t) n 0 s
    ⟨rfl, rfl, fun _ _ h => by omega, fun _ _ => rfl, id, fun _ h => h⟩
    (fun i t _ hi ht => allocPlane_post i s t ht (by omega))
  simpa using this

/-- SOF0's body: a laid out frame, or an abort inside the payload. -/
theorem sofBody_post (b : SofBody) (hb : b.wf = true) (s : State) :
    Post (sofBodyOp b s) (fun t => Parses b.size s t ∧ s.frame = false ∧ t.frame = true ∧ t.phase = s.phase ∧
      (s.noFrame → t.frameLaidOut ∧ (s.liveOk → t.liveOk))) (ParseAborts b.size s) (¬ s.noFrame) := by
  unfold sofBodyOp
  split
  · exact parseAborts_here (by simp)
  · rename_i hframe
    have hframe : s.frame = false := by simpa using hframe
    cases b with
    | short bytes => exact parseAborts_here (by simp)
    | full prec height width nf comps extra =>
      simp only [SofBody.wf, Bool.or_eq_true, Bool.and_eq_true, decide_eq_true_eq] at hb
      have hsize : (SofBody.full prec height width nf comps extra).size = 6 + 3 * comps.length + extra.length :=
        rfl
      simp only [hsize]
      split
      · exact parseAborts_here (by simp)
      · split
        · exact parseAborts_here (by simp)
        · have hdims : Parses 0 s { s with height := height, width := width } :=
            ⟨rfl, by simp, by simp, id⟩
          split
          · exact ⟨_, 0, _, by omega, hdims, by simp, rfl⟩
          · rename_i hnz
            have h6 : Parses 6 s ({ s with height := height, width := width, ncomp := nf.setWidth 2 }.skip 6) :=
              ⟨rfl, rfl, rfl, id⟩
            split
            · exact ⟨_, 6, _, by omega, h6, by simp, rfl⟩
            · rename_i hnf
              split
              · exact ⟨_, 6, _, by omega, h6, by simp, rfl⟩
              · rename_i hroom
                have hlen : comps.length = nf.toNat := by omega
                rw [post_bind]
                refine Post.mono (sofComps_post comps _) (fun t ht => ?_)
                  (fun t ht => (ht.of h6).mono (by omega)) False.elim
                obtain ⟨ht1, l, hl, hl2, hteq⟩ := ht
                have hpt : Parses (6 + 3 * comps.length) s t := h6.trans ht1
                have hpg : Parses (6 + 3 * comps.length) s t.geometry := by
                  simpa using hpt.trans (geometry_parses t)
                have htc : t.comps = s.comps ++ l := by rw [hteq]; rfl
                have htn : t.ncomp = nf.setWidth 2 := by rw [hteq]; rfl
                have hgl : t.geometry.comps.length = t.comps.length := by
                  simp only [State.geometry, List.length_map]
                  split <;> simp
                rw [post_bind]
                refine Post.mono (allocPlanes_post nf.toNat t.geometry (by
                  rw [hgl, htc, List.length_append]; omega)) (fun u hu => ?_)
                  (fun u hu => (hu.of hpg).mono (by omega)) False.elim
                have hpu : Parses (6 + 3 * comps.length) s u := by simpa using hpg.trans hu.parses
                -- the RGB buffer
                have hun : u.ncomp = nf.setWidth 2 := by rw [hu.frame]; exact htn
                have huw : u.width = width := by rw [hu.frame, hteq]; rfl
                have huh : u.height = height := by rw [hu.frame, hteq]; rfl
                have hur : u.rgb = s.rgb := by rw [hu.frame]; show t.rgb = _; rw [hteq]; rfl
                have huph : u.phase = s.phase := by rw [hu.frame]; show t.phase = _; rw [hteq]; rfl
                have hrgb : Post (allocRgb u) (fun v => Parses 0 u v ∧ v.phase = u.phase ∧
                    v = { u with rgb := v.rgb, live := v.live } ∧
                    (u.ncomp = 3 → ∃ b, v.rgb = some b ∧ b.size = 3 * u.width.toNat * u.height.toNat) ∧
                    (u.ncomp ≠ 3 → v = u) ∧ (u.rgb = none → u.liveOk → v.liveOk))
                    (ParseAborts 0 u) (¬ s.noFrame) := by
                  unfold allocRgb
                  split
                  · rename_i h3
                    rw [post_bind]
                    refine Post.mono (alloc_post _ u _) (fun r hr => ?_)
                      (fun v hv => ⟨u, 0, _, Nat.le_refl _, Parses.refl u, by simp, hv.1⟩) id
                    rw [hr.1]
                    refine ⟨⟨rfl, by simp, by simp, fun hm => ?_⟩, rfl, rfl, fun _ => ⟨_, rfl, rfl⟩,
                      fun h => absurd h3 h, fun hnone hlv => ?_⟩
                    · simp only [State.memoryWf, Bool.and_eq_true] at hm ⊢
                      exact ⟨hm.1, Buffer.wf_fresh _⟩
                    · unfold State.liveOk State.bufferBytes at hlv ⊢
                      rw [hnone] at hlv
                      show u.live + _ = _ + optBufferSize (some (Buffer.fresh _))
                      simp only [optBufferSize, Buffer.size_fresh] at hlv ⊢
                      omega
                  · rename_i h3
                    exact ⟨Parses.refl u, rfl, rfl, fun h => absurd h h3, fun _ => rfl, fun _ h => h⟩
                rw [post_bind]
                refine Post.mono hrgb (fun v hv => ?_) (fun v hv => (hv.of hpu).mono (by omega)) id
                obtain ⟨hv1, hv2, hv3, hv4, hv5, hv6⟩ := hv
                have hpv : Parses (6 + 3 * comps.length) s v := by simpa using hpu.trans hv1
                have hlast : Parses extra.length v ({ v with frame := true }.skip extra.length) :=
                  ⟨rfl, rfl, rfl, id⟩
                refine ⟨hpv.trans hlast, hframe, rfl, hv2.trans huph, fun hno => ?_⟩
                obtain ⟨hno1, hno2⟩ := hno
                have htc' : t.comps = l := by rw [htc, hno1]; rfl
                obtain ⟨hsz, _, hmbw, hmbh⟩ := geometry_sized t (by rw [htc']; exact hl2)
                have hncomp : nf.setWidth 2 = 1 ∨ nf.setWidth 2 = (3 : BitVec 2) := by
                  have : nf = 1 ∨ nf = 3 := by
                    by_cases h1 : nf = 1
                    · exact .inl h1
                    · exact .inr (by by_contra h3; exact hnf ⟨h1, h3⟩)
                  rcases this with rfl | rfl
                  · left; decide
                  · right; decide
                have hnfn : (nf.setWidth 2 : BitVec 2).toNat = nf.toNat := by
                  have : nf = 1 ∨ nf = 3 := by
                    by_cases h1 : nf = 1
                    · exact .inl h1
                    · exact .inr (by by_contra h3; exact hnf ⟨h1, h3⟩)
                  rcases this with rfl | rfl <;> decide
                have hvc : v.comps = u.comps := by rw [hv3]
                have hulen : u.comps.length = nf.toNat := by
                  rw [hu.length, hgl, htc', hl, hlen]
                have hnone : ∀ c ∈ t.geometry.comps, c.pixels = none := fun c hc => (hsz c hc).2.2.2.2.2.2.2
                have hrgbnone : u.rgb = none := by rw [hur, hno2]
                have hlaid : ∀ c ∈ u.comps, u.laidOut c := by
                  intro c hc
                  obtain ⟨k, hk⟩ := List.getElem?_of_mem hc
                  have hklt : k < u.comps.length := (List.getElem?_eq_some_iff.mp hk).1
                  have hkg : k < t.geometry.comps.length := by rw [← hu.length]; exact hklt
                  obtain ⟨hd1, hd2⟩ := hu.done k t.geometry.comps[k] (by omega) (List.getElem?_eq_getElem hkg)
                  rw [hk] at hd1
                  simp only [Option.some.injEq] at hd1
                  obtain ⟨e1, e2, e3, e4, e5, e6, e7, _⟩ := hsz _ (List.getElem_mem hkg)
                  have gw : u.width = t.geometry.width := by rw [hu.frame]
                  have gh : u.height = t.geometry.height := by rw [hu.frame]
                  have ghm : u.hmax = t.geometry.hmax := by rw [hu.frame]
                  have gvm : u.vmax = t.geometry.vmax := by rw [hu.frame]
                  have gmw : u.mbwidth = t.geometry.mbwidth := by rw [hu.frame]
                  have gmh : u.mbheight = t.geometry.mbheight := by rw [hu.frame]
                  unfold State.laidOut
                  rw [gw, gh, ghm, gvm, gmw, gmh, hd1]
                  refine ⟨e1, e2, e3, e4, e5, e6, e7, fun h => ?_, fun h => ?_, _, rfl, rfl⟩
                  · by_contra hne; exact hd2 (.inl ⟨h, hne⟩)
                  · by_contra hne; exact hd2 (.inr ⟨h, hne⟩)
                have hUL : u.liveOk → v.liveOk := hv6 hrgbnone
                refine ⟨?_, fun hl => ?_⟩
                · have w1 : v.ncomp = u.ncomp := by rw [hv3]
                  have w2 : v.width = u.width := by rw [hv3]
                  have w3 : v.height = u.height := by rw [hv3]
                  have w4 : v.hmax = u.hmax := by rw [hv3]
                  have w5 : v.vmax = u.vmax := by rw [hv3]
                  have w6 : v.mbwidth = u.mbwidth := by rw [hv3]
                  have w7 : v.mbheight = u.mbheight := by rw [hv3]
                  show v.frameLaidOut
                  unfold State.frameLaidOut
                  rw [w1, w2, w3, w4, w5, w6, w7, hvc, hun, huw, huh, hulen]
                  rw [hun] at hv4 hv5
                  rw [huw, huh] at hv4
                  refine ⟨hncomp, hnfn.symm, fun h => hnz (.inl h), fun h => hnz (.inr h), ?_, ?_, fun c hc => ?_,
                    fun h1 => ?_, hv4⟩
                  · have gmw : u.mbwidth = t.geometry.mbwidth := by rw [hu.frame]
                    have ghm : u.hmax = t.geometry.hmax := by rw [hu.frame]
                    have tw : t.width = width := by rw [hteq]; rfl
                    rw [gmw, ghm, hmbw, tw]
                  · have gmh : u.mbheight = t.geometry.mbheight := by rw [hu.frame]
                    have gvm : u.vmax = t.geometry.vmax := by rw [hu.frame]
                    have th : t.height = height := by rw [hteq]; rfl
                    rw [gmh, gvm, hmbh, th]
                  · have := hlaid c hc
                    unfold State.laidOut at this ⊢
                    rw [w2, w3, w4, w5, w6, w7]
                    exact this
                  · rw [hv5 (by rw [h1]; decide)]; exact hrgbnone
                · show v.liveOk
                  refine hUL (hu.live hnone ?_)
                  have hglive : t.geometry.live = s.live := by
                    show t.live = s.live
                    rw [hteq]; rfl
                  have hgrgb : t.geometry.rgb = s.rgb := by
                    show t.rgb = s.rgb
                    rw [hteq]; rfl
                  have hzero : (t.geometry.comps.map fun c => optBufferSize c.pixels).sum = 0 := by
                    refine List.sum_eq_zero fun x hx => ?_
                    obtain ⟨c, hc, rfl⟩ := List.mem_map.mp hx
                    rw [hnone c hc]; rfl
                  unfold State.liveOk State.bufferBytes at hl ⊢
                  rw [hno1] at hl
                  rw [hglive, hgrgb, hzero, hl]
                  rfl

/-! ### SOS -/

/-- Component selectors change only which tables a component uses. -/
theorem sosSel_post (k : Nat) (sel : SosSel) (s : State) :
    Post (sosSelOp k sel s) (fun t => Parses 2 s t ∧ ∃ c, s.comps[k]? = some c ∧
      t = (s.setComp k { c with dcsel := dcSlot sel.td, acsel := acSlot sel.ta }).skip 2) (ParseAborts 0 s)
      (s.comps[k]? = none) := by
  unfold sosSelOp
  rw [post_bind]
  refine Post.mono (getComp_post k s _) (fun c hc => ?_) (fun _ h => h) id
  split
  · exact parseAborts_here (by simp)
  · split
    · exact parseAborts_here (by simp)
    · refine ⟨⟨rfl, rfl, rfl, fun hm => ?_⟩, c, hc, rfl⟩
      exact (converts_setComp (d := { c with dcsel := dcSlot sel.td, acsel := acSlot sel.ta }) hc rfl).memory hm

/-- What of the components SOS leaves alone. -/
def Comp.unselected (c : Comp) : Comp :=
  { c with dcsel := 0, acsel := 0 }

theorem laidOut_of_unselected {s t : State} (h : s.frameLaidOut)
    (hc : t.comps.map Comp.unselected = s.comps.map Comp.unselected) (h1 : t.ncomp = s.ncomp)
    (h2 : t.width = s.width) (h3 : t.height = s.height) (h4 : t.hmax = s.hmax) (h5 : t.vmax = s.vmax)
    (h6 : t.mbwidth = s.mbwidth) (h7 : t.mbheight = s.mbheight) (h8 : t.rgb = s.rgb) : t.frameLaidOut := by
  have hlen : t.comps.length = s.comps.length := by simpa using congrArg List.length hc
  unfold State.frameLaidOut
  rw [h1, h2, h3, h4, h5, h6, h7, h8, hlen]
  refine ⟨h.1, h.2.1, h.2.2.1, h.2.2.2.1, h.2.2.2.2.1, h.2.2.2.2.2.1, fun d hd => ?_, h.2.2.2.2.2.2.2⟩
  have hm : d.unselected ∈ s.comps.map Comp.unselected := by rw [← hc]; exact List.mem_map_of_mem hd
  obtain ⟨c, hcm, hcd⟩ := List.mem_map.mp hm
  have hl : s.laidOut d.unselected := by
    rw [← hcd]
    exact h.2.2.2.2.2.2.1 c hcm
  unfold State.laidOut at hl ⊢
  rw [h2, h3, h4, h5, h6, h7]
  exact hl

theorem bufferBytes_of_unselected {s t : State} (hc : t.comps.map Comp.unselected = s.comps.map Comp.unselected)
    (hr : t.rgb = s.rgb) : t.bufferBytes = s.bufferBytes := by
  have key : ∀ l : List Comp, (l.map fun c => optBufferSize c.pixels) =
      (l.map Comp.unselected).map fun c => optBufferSize c.pixels := by
    intro l
    rw [List.map_map]
    rfl
  unfold State.bufferBytes
  rw [key t.comps, key s.comps, hc, hr]

theorem sosSels_post (sels : List SosSel) (k : Nat) (s : State) :
    Post (sosSelsOp sels k s) (fun t => Parses (2 * sels.length) s t ∧
      t.comps.map Comp.unselected = s.comps.map Comp.unselected ∧
      t = { s with comps := t.comps, pos := t.pos, remaining := t.remaining })
      (ParseAborts (2 * sels.length) s) (s.comps.length < k + sels.length) := by
  induction sels generalizing k s with
  | nil => exact ⟨Parses.refl s, rfl, rfl⟩
  | cons sel sels ih =>
    simp only [sosSelsOp]
    rw [post_bind]
    refine Post.mono (sosSel_post k sel s) (fun t ht => ?_) (fun t ht => ht.mono (by omega)) (fun h => ?_)
    · obtain ⟨hp, c, hc, rfl⟩ := ht
      have hmap : ((s.setComp k { c with dcsel := dcSlot sel.td, acsel := acSlot sel.ta }).skip 2).comps.map
          Comp.unselected = s.comps.map Comp.unselected := by
        apply List.ext_getElem?
        intro j
        rw [List.getElem?_map, List.getElem?_map]
        show ((s.setComp k { c with dcsel := dcSlot sel.td, acsel := acSlot sel.ta }).comps[j]?).map _ = _
        rw [State.getElem_setComp]
        split
        · obtain ⟨rfl, _⟩ := ‹_ ∧ _›
          rw [hc]; rfl
        · rfl
      refine Post.mono (ih (k + 1) _) (fun u hu => ?_) (fun u hu => ?_) (fun h => ?_)
      · have hlen : 2 * (sel :: sels).length = 2 + 2 * sels.length := by simp only [List.length_cons]; omega
        rw [hlen]
        exact ⟨hp.trans hu.1, hu.2.1.trans hmap, by have := hu.2.2; rw [this]; rfl⟩
      · refine (hu.of hp).mono ?_
        simp only [List.length_cons]; omega
      · have hl : ((s.setComp k { c with dcsel := dcSlot sel.td, acsel := acSlot sel.ta }).skip 2).comps.length =
            s.comps.length := by simp
        rw [hl] at h
        simp only [List.length_cons]; omega
    · have : s.comps.length ≤ k := by
        by_contra hlt
        rw [List.getElem?_eq_getElem (by omega)] at h
        cases h
      simp only [List.length_cons]; omega

/-- SOS's body: the scan started over the same frame, or an abort inside the payload. -/
theorem sosBody_post (b : SosBody) (s : State) :
    Post (sosBodyOp b s) (fun t => Parses b.size s t ∧ s.frame = true ∧ t.frame = true ∧ t.phase = .scan ∧
      t.comps.map Comp.unselected = s.comps.map Comp.unselected ∧ t.live = s.live ∧ t.rgb = s.rgb ∧
      t.ncomp = s.ncomp ∧ t.width = s.width ∧ t.height = s.height ∧ t.hmax = s.hmax ∧ t.vmax = s.vmax ∧
      t.mbwidth = s.mbwidth ∧ t.mbheight = s.mbheight) (ParseAborts b.size s)
      (s.comps.length < s.ncomp.toNat) := by
  unfold sosBodyOp
  split
  · exact parseAborts_here (by simp)
  · rename_i hframe
    have hframe : s.frame = true := by simpa using hframe
    split
    · exact parseAborts_here (by simp)
    · cases b with
      | short bytes => exact parseAborts_here (by simp)
      | full sels ss se ah al extra =>
        have hsize : (SosBody.full sels ss se ah al extra).size = 4 + 2 * sels.length + extra.length := rfl
        simp only
        split
        · exact parseAborts_here (by simp)
        · rename_i hlen
          have hlen : sels.length = s.ncomp.toNat := by simpa using hlen
          rw [post_bind]
          refine Post.mono (sosSels_post sels 0 (s.skip 1)) (fun t ht => ?_)
            (fun t ht => (ht.of (parses_skip 1 s)).mono (by rw [hsize]; omega)) (fun h => ?_)
          · obtain ⟨hp, hmap, hteq⟩ := ht
            have hpt : Parses (1 + 2 * sels.length) s t := (parses_skip 1 s).trans hp
            split
            · exact ⟨t, _, _, by rw [hsize]; omega, hpt, by simp, rfl⟩
            · split
              · exact ⟨t, _, _, by rw [hsize]; omega, hpt, by simp, rfl⟩
              · have hlast : Parses (3 + extra.length) t
                    ({ t.skip (3 + extra.length) with phase := .scan }.startScan) := ⟨rfl, rfl, rfl, id⟩
                have hall := hpt.trans hlast
                rw [show 1 + 2 * sels.length + (3 + extra.length) = 4 + 2 * sels.length + extra.length by omega]
                  at hall
                refine ⟨by rw [hsize]; exact hall, hframe, ?_, rfl, ?_, ?_, ?_, ?_, ?_, ?_, ?_, ?_, ?_, ?_⟩
                · show t.frame = true; rw [hteq]; exact hframe
                · exact hmap
                all_goals
                  show _ = _
                  first
                  | (show t.live = _; rw [hteq]; rfl)
                  | (show t.rgb = _; rw [hteq]; rfl)
                  | (show t.ncomp = _; rw [hteq]; rfl)
                  | (show t.width = _; rw [hteq]; rfl)
                  | (show t.height = _; rw [hteq]; rfl)
                  | (show t.hmax = _; rw [hteq]; rfl)
                  | (show t.vmax = _; rw [hteq]; rfl)
                  | (show t.mbwidth = _; rw [hteq]; rfl)
                  | (show t.mbheight = _; rw [hteq]; rfl)
          · simp only [State.skip_comps, Nat.zero_add] at h
            omega

end Sys2Proof.Machine
end

