-- ==== Sys2Proof/Laws/PerInstr.lean ====
section
/-! SUPPORT. The per-instruction family `Encoding`: the decoder reads a well-formed instruction back from
the bytes the encoder writes for it, at the level it is written for. One lemma per constructor. -/

namespace Sys2Proof.Laws

/-- Decoding what the encoder writes for i gives i back, and leaves nothing. -/
def Encoding.Statement (i : Instr) : Prop :=
  i.wf = true → ∀ level bs, encode i = some (level, bs) → decode level bs = .ok (i, [])

/-- An instruction with no encoding (R17). -/
theorem encoding_of_none {i : Instr} (h : encode i = none) : Encoding.Statement i := by
  intro _ level bs he
  rw [h] at he
  cases he

/-- An instruction whose one encoding decodes to it. -/
theorem encoding_of_decode {i : Instr} {level : Level} {bs : List Byte} (h : encode i = some (level, bs))
    (hd : i.wf = true → decode level bs = .ok (i, [])) : Encoding.Statement i := by
  intro hw level' bs' he
  rw [h] at he
  cases he
  exact hd hw

/-- The marker level reads `0xFF`, a code byte and what follows. -/
theorem decode_top_marker (c : Byte) (rest : List Byte) :
    decode .top (0xFF :: c :: rest) = .ok (decodeMarker c rest) := rfl

theorem marker_codes : ∀ c : Byte,
    (codeIn 0xC1 0xC3 c = true →
      decodeMarker c [] = (.unsupportedSof1Sof3 c, [])) ∧
    (codeIn 0xC5 0xC7 c = true →
      decodeMarker c [] = (.unsupportedSof5Sof7 c, [])) ∧
    (codeIn 0xC8 0xCB c = true →
      decodeMarker c [] = (.unsupportedJpgSof9Sof11 c, [])) ∧
    (codeIn 0xCC 0xCF c = true →
      decodeMarker c [] = (.unsupportedDacSof13Sof15 c, [])) := by
  decide +kernel

theorem marker_codes' : ∀ c : Byte,
    (codeIn 0xDE 0xDF c = true →
      decodeMarker c [] = (.unsupportedDhpExp c, [])) ∧
    (codeIn 0xF0 0xFD c = true →
      decodeMarker c [] = (.unsupportedJpgn c, [])) ∧
    (reservedCode c = true →
      decodeMarker c [] = (.unsupportedReserved00Bf c, [])) ∧
    (otherMarkerCode c = true →
      decodeEscape c = .ecsOtherMarker c) := by
  decide +kernel

theorem Encoding.soi : Encoding.Statement .soi :=
  encoding_of_decode rfl fun _ => rfl

theorem Encoding.sof0 (seg : Framed SofBody) : Encoding.Statement (.sof0 seg) := by
  refine encoding_of_decode rfl fun h => ?_
  have := parseFrame_encode parseSof_encode length_encodeSof seg h
  rw [decode_top_marker]
  simp [decodeMarker, framedInstr, this]

theorem Encoding.dht (seg : Framed DhtBody) : Encoding.Statement (.dht seg) := by
  refine encoding_of_decode rfl fun h => ?_
  have := parseFrame_encode parseDht_encode length_encodeDht seg h
  rw [decode_top_marker]
  simp [decodeMarker, framedInstr, this]

theorem Encoding.dqt (seg : Framed DqtBody) : Encoding.Statement (.dqt seg) := by
  refine encoding_of_decode rfl fun h => ?_
  have := parseFrame_encode parseDqt_encode length_encodeDqt seg h
  rw [decode_top_marker]
  simp [decodeMarker, framedInstr, this]

theorem Encoding.dri (seg : Framed DriBody) : Encoding.Statement (.dri seg) := by
  refine encoding_of_decode rfl fun h => ?_
  have := parseFrame_encode parseDri_encode length_encodeDri seg h
  rw [decode_top_marker]
  simp [decodeMarker, framedInstr, this]

theorem Encoding.sos (seg : Framed SosBody) : Encoding.Statement (.sos seg) := by
  refine encoding_of_decode rfl fun h => ?_
  have := parseFrame_encode parseSos_encode length_encodeSos seg h
  rw [decode_top_marker]
  simp [decodeMarker, framedInstr, this]

theorem Encoding.appn (n : Nibble) (seg : Framed (List Byte)) : Encoding.Statement (.appn n seg) := by
  refine encoding_of_decode rfl fun h => ?_
  have := parseFrame_encode (parse := id) (enc := id) (fun _ _ => rfl) (fun _ => rfl) seg h
  have hc : ∀ k : Fin 16, pack 0xE (BitVec.ofFin k) ≠ 0xC0 ∧ pack 0xE (BitVec.ofFin k) ≠ 0xC4 ∧
      pack 0xE (BitVec.ofFin k) ≠ 0xDB ∧ pack 0xE (BitVec.ofFin k) ≠ 0xDD ∧
      pack 0xE (BitVec.ofFin k) ≠ 0xDA := by decide
  obtain ⟨h1, h2, h3, h4, h5⟩ := hc n.toFin
  simp only [BitVec.ofFin_toFin] at h1 h2 h3 h4 h5
  rw [decode_top_marker]
  unfold decodeMarker
  rw [if_neg h1, if_neg h2, if_neg h3, if_neg h4, if_neg h5, if_pos (hiNibble_pack ..)]
  simp [framedInstr, this]

theorem Encoding.com (seg : Framed (List Byte)) : Encoding.Statement (.com seg) := by
  refine encoding_of_decode rfl fun h => ?_
  have := parseFrame_encode (parse := id) (enc := id) (fun _ _ => rfl) (fun _ => rfl) seg h
  rw [decode_top_marker]
  simp [decodeMarker, framedInstr, hiNibble, this]

theorem Encoding.eoiTop : Encoding.Statement .eoiTop :=
  encoding_of_decode rfl fun _ => rfl

theorem Encoding.rstmTop (m : BitVec 3) : Encoding.Statement (.rstmTop m) := by
  refine encoding_of_decode rfl fun _ => ?_
  have hc : ∀ k : Fin 8, decodeMarker (rstCode (BitVec.ofFin k)) [] = (.rstmTop (BitVec.ofFin k), []) := by
    decide
  rw [decode_top_marker]
  exact congrArg Except.ok (hc m.toFin)

theorem Encoding.unsupportedSof1Sof3 (c : Byte) : Encoding.Statement (.unsupportedSof1Sof3 c) := by
  refine encoding_of_decode rfl fun h => ?_
  rw [decode_top_marker, (marker_codes c).1 h]

theorem Encoding.unsupportedSof5Sof7 (c : Byte) : Encoding.Statement (.unsupportedSof5Sof7 c) := by
  refine encoding_of_decode rfl fun h => ?_
  rw [decode_top_marker, (marker_codes c).2.1 h]

theorem Encoding.unsupportedJpgSof9Sof11 (c : Byte) :
    Encoding.Statement (.unsupportedJpgSof9Sof11 c) := by
  refine encoding_of_decode rfl fun h => ?_
  rw [decode_top_marker, (marker_codes c).2.2.1 h]

theorem Encoding.unsupportedDacSof13Sof15 (c : Byte) :
    Encoding.Statement (.unsupportedDacSof13Sof15 c) := by
  refine encoding_of_decode rfl fun h => ?_
  rw [decode_top_marker, (marker_codes c).2.2.2 h]

theorem Encoding.unsupportedDnl : Encoding.Statement .unsupportedDnl :=
  encoding_of_decode rfl fun _ => rfl

theorem Encoding.unsupportedDhpExp (c : Byte) : Encoding.Statement (.unsupportedDhpExp c) := by
  refine encoding_of_decode rfl fun h => ?_
  rw [decode_top_marker, (marker_codes' c).1 h]

theorem Encoding.unsupportedJpgn (c : Byte) : Encoding.Statement (.unsupportedJpgn c) := by
  refine encoding_of_decode rfl fun h => ?_
  rw [decode_top_marker, (marker_codes' c).2.1 h]

theorem Encoding.unsupportedSoiAgain : Encoding.Statement .unsupportedSoiAgain :=
  encoding_of_decode rfl fun _ => rfl

theorem Encoding.unsupportedReserved00Bf (c : Byte) :
    Encoding.Statement (.unsupportedReserved00Bf c) := by
  refine encoding_of_decode rfl fun h => ?_
  rw [decode_top_marker, (marker_codes' c).2.2.1 h]

theorem Encoding.unsupportedFillTop : Encoding.Statement .unsupportedFillTop :=
  encoding_of_decode rfl fun _ => rfl

theorem Encoding.notAMarker (b0 b1 : Byte) : Encoding.Statement (.notAMarker b0 b1) := by
  refine encoding_of_decode rfl fun h => ?_
  simp only [Instr.wf, decide_eq_true_eq] at h
  show Except.ok (if b0 = 0xFF then _ else _) = _
  rw [if_neg h]

theorem Encoding.ecsData (b : Byte) : Encoding.Statement (.ecsData b) := by
  refine encoding_of_decode rfl fun h => ?_
  simp only [Instr.wf, decide_eq_true_eq] at h
  show Except.ok (decodeEcs [b]) = _
  rw [decodeEcs, if_neg h]

theorem Encoding.ecsStuff : Encoding.Statement .ecsStuff :=
  encoding_of_decode rfl fun _ => rfl

theorem Encoding.ecsFill : Encoding.Statement .ecsFill :=
  encoding_of_decode rfl fun _ => rfl

theorem Encoding.ecsRstm (m : BitVec 3) : Encoding.Statement (.ecsRstm m) := by
  refine encoding_of_decode rfl fun _ => ?_
  have hc : ∀ k : Fin 8, decodeEscape (rstCode (BitVec.ofFin k)) = .ecsRstm (BitVec.ofFin k) := by decide
  have := hc m.toFin
  simp only [BitVec.ofFin_toFin] at this
  simp [decode, decodeEcs, this]

theorem Encoding.ecsEoi : Encoding.Statement .ecsEoi :=
  encoding_of_decode rfl fun _ => rfl

theorem Encoding.ecsOtherMarker (c : Byte) : Encoding.Statement (.ecsOtherMarker c) := by
  refine encoding_of_decode rfl fun h => ?_
  simp [decode, decodeEcs, (marker_codes' c).2.2.2 h]

theorem Encoding.ecsFfLast : Encoding.Statement .ecsFfLast :=
  encoding_of_decode rfl fun _ => rfl

theorem Encoding.ecsFiller : Encoding.Statement .ecsFiller :=
  encoding_of_decode rfl fun _ => rfl

theorem Encoding.dcCat (ignored : Nibble) (s : Nibble) : Encoding.Statement (.dcCat ignored s) := by
  refine encoding_of_decode rfl fun _ => ?_
  simp [decode, decodeDcSymbol]

theorem Encoding.acEob : Encoding.Statement .acEob :=
  encoding_of_decode rfl fun _ => rfl

theorem Encoding.acZrl : Encoding.Statement .acZrl :=
  encoding_of_decode rfl fun _ => rfl

theorem Encoding.acRuncat (r s : Nibble) : Encoding.Statement (.acRuncat r s) := by
  refine encoding_of_decode rfl fun h => ?_
  simp only [Instr.wf, decide_eq_true_eq] at h
  have h0 : pack r s ≠ 0x00 := fun e => h (by rw [← loNibble_pack r s, e]; rfl)
  have h1 : pack r s ≠ 0xF0 := fun e => h (by rw [← loNibble_pack r s, e]; rfl)
  show Except.ok (decodeAcSymbol (pack r s), []) = _
  rw [decodeAcSymbol, if_neg h0, if_neg h1, if_neg (by simpa using h)]
  simp

theorem Encoding.acIllegal (r : Nibble) : Encoding.Statement (.acIllegal r) := by
  refine encoding_of_decode rfl fun h => ?_
  simp only [Instr.wf, Bool.and_eq_true, decide_eq_true_eq] at h
  have h0 : pack r 0 ≠ 0x00 := fun e => h.1 (by rw [← hiNibble_pack r 0, e]; rfl)
  have h1 : pack r 0 ≠ 0xF0 := fun e => h.2 (by rw [← hiNibble_pack r 0, e]; rfl)
  show Except.ok (decodeAcSymbol (pack r 0), []) = _
  rw [decodeAcSymbol, if_neg h0, if_neg h1, if_pos (loNibble_pack ..)]
  simp

theorem Encoding.huffMiss (w : Half) : Encoding.Statement (.huffMiss w) :=
  encoding_of_none rfl

theorem Encoding.decode (buf : List Byte) (len : Nat) : Encoding.Statement (.decode buf len) :=
  encoding_of_none rfl

theorem Encoding.toploop : Encoding.Statement .toploop :=
  encoding_of_none rfl

theorem Encoding.seglen : Encoding.Statement .seglen :=
  encoding_of_none rfl

theorem Encoding.skip (n : Nat) : Encoding.Statement (.skip n) :=
  encoding_of_none rfl

theorem Encoding.refill : Encoding.Statement .refill :=
  encoding_of_none rfl

theorem Encoding.align : Encoding.Statement .align :=
  encoding_of_none rfl

theorem Encoding.peek (n : Fin 17) : Encoding.Statement (.peek n) :=
  encoding_of_none rfl

theorem Encoding.consume (n : Fin 17) : Encoding.Statement (.consume n) :=
  encoding_of_none rfl

theorem Encoding.read (n : Fin 17) : Encoding.Statement (.read n) :=
  encoding_of_none rfl

theorem Encoding.buildHt (h : Fin 4) (counts : List Byte) (syms : List Byte) :
    Encoding.Statement (.buildHt h counts syms) :=
  encoding_of_none rfl

theorem Encoding.decodeVlc (h : Fin 4) : Encoding.Statement (.decodeVlc h) :=
  encoding_of_none rfl

theorem Encoding.decodeBlock (k off : Nat) : Encoding.Statement (.decodeBlock k off) :=
  encoding_of_none rfl

theorem Encoding.scan : Encoding.Statement .scan :=
  encoding_of_none rfl

theorem Encoding.restart : Encoding.Statement .restart :=
  encoding_of_none rfl

theorem Encoding.idctBlock (k off : Nat) : Encoding.Statement (.idctBlock k off) :=
  encoding_of_none rfl

theorem Encoding.idctRow (b : Oct Word) : Encoding.Statement (.idctRow b) :=
  encoding_of_none rfl

theorem Encoding.idctCol (b : Oct Word) : Encoding.Statement (.idctCol b) :=
  encoding_of_none rfl

theorem Encoding.upsH (k : Nat) : Encoding.Statement (.upsH k) :=
  encoding_of_none rfl

theorem Encoding.upsV (k : Nat) : Encoding.Statement (.upsV k) :=
  encoding_of_none rfl

theorem Encoding.convert : Encoding.Statement .convert :=
  encoding_of_none rfl

theorem Encoding.ycc2rgb (y cb cr : Byte) : Encoding.Statement (.ycc2rgb y cb cr) :=
  encoding_of_none rfl

theorem Encoding.color : Encoding.Statement .color :=
  encoding_of_none rfl

theorem Encoding.compact : Encoding.Statement .compact :=
  encoding_of_none rfl

end Sys2Proof.Laws
end

