-- ==== Sys2Proof/Tests/Slice0.lean ====
section
/-! SUPPORT. Tests. Expected results come from spec/: the layouts of 30_encoding.md, the vectors of
95_test_vectors.md, or a hand computation from the rule named. The last part gives, for every statement with
hypotheses, states and operands that meet them. -/

namespace Sys2Proof.Tests
open Sys2Proof Sys2Proof.Machine
set_option Elab.async false

/-! ### Helpers -/

/-- The next state, if there is one. -/
def nextOf : Host.Outcome State Fault Refusal → Option State
  | .next t => some t
  | _ => none

/-- The refusal, if there is one. -/
def refusalOf : Host.Outcome State Fault Refusal → Option Refusal
  | .refused r => some r
  | _ => none

/-- A field of the next state. -/
def after {α : Type} (i : Instr) (s : State) (field : State → α) : Option α :=
  (nextOf (exec i s)).map field

/-- The result an aborted command leaves. -/
def aborts (i : Instr) (s : State) : Option (ResultReg × Phase) :=
  after i s fun t => (t.result, t.phase)

/-- A bit reader at the first byte of an entropy-coded segment. -/
def reader (bytes : List Byte) : State :=
  { State.reset with phase := .scan, inp := Buffer.ofBytes bytes, remaining := bytes.length }

/-- A reader that holds bits and no input. -/
def holding (bits : List Bool) : State :=
  { State.reset with phase := .scan, acc := bits }

/-- Component 1 of an 8 by 8 gray frame with the plane given. -/
def grayComp (plane : Buffer) : Comp :=
  ⟨1, 1, 1, 8, 8, 8, 0, 0, 2, 0, some plane⟩

/-- The DC table of programs P1 to P4: codes 00, 01, 10 for the categories 0, 5, 7 (95, section 3). -/
def dcTable : HuffTable :=
  [⟨2, 0x00⟩, ⟨2, 0x05⟩, ⟨2, 0x07⟩]

/-- Their AC table: codes 0, 10, 110, 1110, 11110. -/
def acTable : HuffTable :=
  [⟨1, 0x00⟩, ⟨2, 0x01⟩, ⟨3, 0xF0⟩, ⟨4, 0x11⟩, ⟨5, 0x03⟩]

/-- An 8 by 8 gray frame after its headers, steps 1, with the tables given in slots 0 and 2. -/
def gray (dc ac : HuffTable) (plane : Buffer) : State :=
  { State.reset with
    phase := .headers
    frame := true
    width := 8
    height := 8
    ncomp := 1
    hmax := 1
    vmax := 1
    mcuW := 8
    mcuH := 8
    mbwidth := 1
    mbheight := 1
    qt := Vector.replicate 4 (Vector.replicate 64 1)
    qtAvail := 1
    qtUsed := 1
    ht := #v[dc, [], ac, []]
    comps := [grayComp plane]
    live := 64 }

/-- A plane or buffer of n equal bytes. -/
def flatBuffer (n : Nat) (v : Byte) : Buffer :=
  Buffer.ofBytes (List.replicate n v)

/-- Program P1's frame, its plane not yet written. -/
def p1 : State :=
  gray dcTable acTable (Buffer.fresh 64)

/-- Components of one size with constant planes. -/
def flatComp (w h : Nat) (v : Byte) : Comp :=
  ⟨1, 1, 1, w, h, w, 0, 0, 2, 0, some (flatBuffer (w * h) v)⟩

/-- A colour image of w by h pixels, no sub-sampling, planes of Y, Cb and Cr constant. -/
def colour (w h : Nat) (y cb cr : Byte) : State :=
  { State.reset with
    phase := .convert
    frame := true
    width := BitVec.ofNat 16 w
    height := BitVec.ofNat 16 h
    ncomp := 3
    hmax := 1
    vmax := 1
    comps := [flatComp w h y, flatComp w h cb, flatComp w h cr]
    rgb := some (Buffer.fresh (3 * w * h))
    live := 6 * w * h }

/-- A DHT segment of one table. -/
def tableSegment (header : Byte) (counts syms : List Byte) : List Byte :=
  [0xFF, 0xC4, 0x00, BitVec.ofNat 8 (19 + syms.length), header] ++
    (counts ++ List.replicate (16 - counts.length) 0) ++ syms

/-- The stream of program P1 (95, section 11.1). -/
def p1Stream : List Byte :=
  [0xFF, 0xD8] ++ ([0xFF, 0xDB, 0x00, 0x43, 0x00] ++ List.replicate 64 1) ++
    [0xFF, 0xC0, 0x00, 0x0B, 0x08, 0x00, 0x08, 0x00, 0x08, 0x01, 0x01, 0x11, 0x00] ++
    tableSegment 0x00 [0, 3] [0x00, 0x05, 0x07] ++
    tableSegment 0x10 [1, 1, 1, 1, 1] [0x00, 0x01, 0xF0, 0x11, 0x03] ++
    [0xFF, 0xDA, 0x00, 0x08, 0x01, 0x01, 0x00, 0x00, 0x3F, 0x00] ++ [0xA8, 0x3F] ++ [0xFF, 0xD9]

/-! ### Well-formedness: each check refuses a term -/

theorem test_wf_noLength : (Instr.com (.noLength [0, 0])).wf = false := by decide
theorem test_wf_badLength : (Instr.com (.badLength 2)).wf = false := by decide
theorem test_wf_payload_too_long : (Instr.com (.ok (List.replicate 65534 0))).wf = false := by
  simp only [Instr.wf, Framed.wf, List.length_replicate]; decide
theorem test_wf_appn : (Instr.appn 0 (.noLength [0, 0])).wf = false := by decide
theorem test_wf_sof_short : (Instr.sof0 (.ok (.short [8, 0, 8, 0, 8, 1]))).wf = false := by decide
theorem test_wf_sof_more_than_nf :
    (Instr.sof0 (.ok (.full 8 8 8 1 [⟨1, 1, 1, 0⟩, ⟨2, 1, 1, 0⟩] []))).wf = false := by decide
theorem test_wf_sof_fewer_than_nf :
    (Instr.sof0 (.ok (.full 8 8 8 2 [⟨1, 1, 1, 0⟩] [1, 2, 3]))).wf = false := by decide
theorem test_wf_dht_counts : (Instr.dht (.ok ⟨[⟨0, 0, [0], []⟩], []⟩)).wf = false := by decide
theorem test_wf_dht_tail : (Instr.dht (.ok ⟨[], List.replicate 17 0⟩)).wf = false := by decide
theorem test_wf_dht_cut_with_tail :
    (Instr.dht (.ok ⟨[⟨0, 0, 2 :: List.replicate 15 0, [0]⟩], [0]⟩)).wf = false := by decide
theorem test_wf_dht_cut_before_last : (Instr.dht (.ok
    ⟨[⟨0, 0, 2 :: List.replicate 15 0, [0]⟩, ⟨0, 0, List.replicate 16 0, []⟩], []⟩)).wf = false := by decide
theorem test_wf_dht_too_many_symbols :
    (Instr.dht (.ok ⟨[⟨0, 0, List.replicate 16 0, [0]⟩], []⟩)).wf = false := by decide
theorem test_wf_dqt_steps : (Instr.dqt (.ok ⟨[⟨0, 0, [1]⟩], []⟩)).wf = false := by decide
theorem test_wf_dqt_tail : (Instr.dqt (.ok ⟨[], List.replicate 65 0⟩)).wf = false := by decide +kernel
theorem test_wf_dri : (Instr.dri (.ok (.short [0, 0]))).wf = false := by decide
theorem test_wf_sos_short : (Instr.sos (.ok (.short [0, 0, 63, 0]))).wf = false := by decide
theorem test_wf_sos_many :
    (Instr.sos (.ok (.full (List.replicate 256 ⟨0, 0, 0⟩) 0 63 0 0 []))).wf = false := by
  simp only [Instr.wf, Framed.wf, SosBody.wf, List.length_replicate]; decide
theorem test_wf_sof1 : (Instr.unsupportedSof1Sof3 0xC0).wf = false ∧
    (Instr.unsupportedSof1Sof3 0xC4).wf = false := by decide
theorem test_wf_sof5 : (Instr.unsupportedSof5Sof7 0xC4).wf = false ∧
    (Instr.unsupportedSof5Sof7 0xC8).wf = false := by decide
theorem test_wf_sof9 : (Instr.unsupportedJpgSof9Sof11 0xC7).wf = false ∧
    (Instr.unsupportedJpgSof9Sof11 0xCC).wf = false := by decide
theorem test_wf_sof13 : (Instr.unsupportedDacSof13Sof15 0xCB).wf = false ∧
    (Instr.unsupportedDacSof13Sof15 0xD0).wf = false := by decide
theorem test_wf_dhp : (Instr.unsupportedDhpExp 0xDD).wf = false ∧
    (Instr.unsupportedDhpExp 0xE0).wf = false := by decide
theorem test_wf_jpgn : (Instr.unsupportedJpgn 0xEF).wf = false ∧
    (Instr.unsupportedJpgn 0xFE).wf = false := by decide
theorem test_wf_reserved : (Instr.unsupportedReserved00Bf 0xC0).wf = false := by decide
theorem test_wf_notAMarker : (Instr.notAMarker 0xFF 0).wf = false := by decide
theorem test_wf_ecsData : (Instr.ecsData 0xFF).wf = false := by decide
theorem test_wf_otherMarker : (Instr.ecsOtherMarker 0x00).wf = false ∧ (Instr.ecsOtherMarker 0xD0).wf = false ∧
    (Instr.ecsOtherMarker 0xD7).wf = false ∧ (Instr.ecsOtherMarker 0xD9).wf = false ∧
    (Instr.ecsOtherMarker 0xFF).wf = false := by decide
theorem test_wf_acRuncat : (Instr.acRuncat 3 0).wf = false := by decide
theorem test_wf_acIllegal : (Instr.acIllegal 0).wf = false ∧ (Instr.acIllegal 15).wf = false := by decide
theorem test_wf_decode : (Instr.decode [0xFF] 2).wf = false := by decide
theorem test_wf_buildHt : (Instr.buildHt 0 [0] []).wf = false := by decide
theorem test_wf_decodeBlock : (Instr.decodeBlock 3 0).wf = false := by decide
theorem test_wf_idctBlock : (Instr.idctBlock 3 0).wf = false := by decide
theorem test_wf_upsH : (Instr.upsH 3).wf = false := by decide
theorem test_wf_upsV : (Instr.upsV 3).wf = false := by decide

/-! ### Decoding: words written from the layouts of R81 to R93 -/

theorem test_dec_soi : decode .start [0xFF, 0xD8] = .ok (.soi, []) := by decide
theorem test_dec_start_refused : decode .start [0xFF, 0xD9] = .error .notSoi ∧
    decode .start [0xFF] = .error .needTwoBytes := by decide
/-- R83: P C(hi) C(lo) ... `FF C0 00 0B 08 00 08 00 10 01 | 01 11 00`: height 8, width 16 (P2). -/
theorem test_dec_sof0 :
    decode .top [0xFF, 0xC0, 0x00, 0x0B, 0x08, 0x00, 0x08, 0x00, 0x10, 0x01, 0x01, 0x21, 0x02] =
      .ok (.sof0 (.ok (.full 8 8 16 1 [⟨1, 2, 1, 2⟩] [])), []) := by decide
/-- R84: class 1, identifier 0, counts [0, 1], one symbol. -/
theorem test_dec_dht :
    decode .top [0xFF, 0xC4, 0x00, 0x14, 0x10, 0, 1, 0, 0, 0, 0, 0, 0, 0, 0, 0, 0, 0, 0, 0, 0, 0x23] =
      .ok (.dht (.ok ⟨[⟨1, 0, [0, 1, 0, 0, 0, 0, 0, 0, 0, 0, 0, 0, 0, 0, 0, 0], [0x23]⟩], []⟩), []) := by decide
/-- R85: slot 3, 64 steps. -/
theorem test_dec_dqt :
    decode .top ([0xFF, 0xDB, 0x00, 0x43, 0x03] ++ List.replicate 64 9) =
      .ok (.dqt (.ok ⟨[⟨0, 3, List.replicate 64 9⟩], []⟩), []) := by decide +kernel
theorem test_dec_dri : decode .top [0xFF, 0xDD, 0x00, 0x04, 0x12, 0x34] =
    .ok (.dri (.ok (.full 0x1234 [])), []) := by decide
/-- R87: one selector, Td 1, Ta 0, Ss 0, Se 63. -/
theorem test_dec_sos : decode .top [0xFF, 0xDA, 0x00, 0x08, 0x01, 0x05, 0x10, 0x00, 0x3F, 0x00] =
    .ok (.sos (.ok (.full [⟨5, 1, 0⟩] 0 63 0 0 [])), []) := by decide
theorem test_dec_appn : decode .top [0xFF, 0xE1, 0x00, 0x04, 0xAA, 0xBB] =
    .ok (.appn 1 (.ok [0xAA, 0xBB]), []) := by decide
theorem test_dec_com : decode .top [0xFF, 0xFE, 0x00, 0x02, 0x55] = .ok (.com (.ok []), [0x55]) := by decide
theorem test_dec_lengths : decode .top [0xFF, 0xDD, 0x00, 0x01] = .ok (.dri (.badLength 1), []) ∧
    decode .top [0xFF, 0xDD, 0x00, 0x09, 0x00, 0x01] = .ok (.dri (.badLength 9), [0x00, 0x01]) ∧
    decode .top [0xFF, 0xC0] = .ok (.sof0 (.noLength []), []) := by decide
theorem test_dec_eoiTop : decode .top [0xFF, 0xD9] = .ok (.eoiTop, []) := by decide
theorem test_dec_rstmTop : decode .top [0xFF, 0xD5] = .ok (.rstmTop 5, []) := by decide
theorem test_dec_sof1 : decode .top [0xFF, 0xC2] = .ok (.unsupportedSof1Sof3 0xC2, []) := by decide
theorem test_dec_sof5 : decode .top [0xFF, 0xC5] = .ok (.unsupportedSof5Sof7 0xC5, []) := by decide
theorem test_dec_sof9 : decode .top [0xFF, 0xCB] = .ok (.unsupportedJpgSof9Sof11 0xCB, []) := by decide
theorem test_dec_sof13 : decode .top [0xFF, 0xCC] = .ok (.unsupportedDacSof13Sof15 0xCC, []) := by decide
theorem test_dec_dnl : decode .top [0xFF, 0xDC] = .ok (.unsupportedDnl, []) := by decide
theorem test_dec_dhp : decode .top [0xFF, 0xDE] = .ok (.unsupportedDhpExp 0xDE, []) := by decide
theorem test_dec_jpgn : decode .top [0xFF, 0xFD] = .ok (.unsupportedJpgn 0xFD, []) := by decide
theorem test_dec_soiAgain : decode .top [0xFF, 0xD8] = .ok (.unsupportedSoiAgain, []) := by decide
theorem test_dec_reserved : decode .top [0xFF, 0xBF] = .ok (.unsupportedReserved00Bf 0xBF, []) := by decide
theorem test_dec_fillTop : decode .top [0xFF, 0xFF] = .ok (.unsupportedFillTop, []) := by decide
theorem test_dec_notAMarker : decode .top [0x00, 0xD8] = .ok (.notAMarker 0x00 0xD8, []) := by decide
theorem test_dec_top_refused : decode .top [0xFF] = .error .needTwoBytes := by decide
theorem test_dec_ecsData : decode .ecs [0xA8, 0x3F] = .ok (.ecsData 0xA8, [0x3F]) := by decide
theorem test_dec_ecsStuff : decode .ecs [0xFF, 0x00] = .ok (.ecsStuff, []) := by decide
theorem test_dec_ecsFill : decode .ecs [0xFF, 0xFF] = .ok (.ecsFill, []) := by decide
theorem test_dec_ecsRstm : decode .ecs [0xFF, 0xD6] = .ok (.ecsRstm 6, []) := by decide
theorem test_dec_ecsEoi : decode .ecs [0xFF, 0xD9] = .ok (.ecsEoi, []) := by decide
theorem test_dec_ecsOther : decode .ecs [0xFF, 0xC4] = .ok (.ecsOtherMarker 0xC4, []) := by decide
theorem test_dec_ecsFfLast : decode .ecs [0xFF] = .ok (.ecsFfLast, []) := by decide
theorem test_dec_ecsFiller : decode .ecs [] = .ok (.ecsFiller, []) := by decide
theorem test_dec_dcCat : decode .dcSymbol [0xA7] = .ok (.dcCat 0xA 7, []) := by decide
theorem test_dec_acEob : decode .acSymbol [0x00] = .ok (.acEob, []) := by decide
theorem test_dec_acZrl : decode .acSymbol [0xF0] = .ok (.acZrl, []) := by decide
theorem test_dec_acRuncat : decode .acSymbol [0xF3] = .ok (.acRuncat 15 3, []) := by decide
theorem test_dec_acIllegal : decode .acSymbol [0x20] = .ok (.acIllegal 2, []) := by decide
/-- The words of the table are numbered as 16-bit big-endian words (log 15). -/
theorem test_dec_tableWord : decodeTableWord 16 0xFFC2 = some (.unsupportedSof1Sof3 0xC2) ∧
    decodeTableWord 16 0xFFD8 = some .soi ∧ decodeTableWord 8 0x23 = some (.acRuncat 2 3) := by decide

/-! ### One instruction at a time -/

theorem test_soi : after .soi (State.reset.atStart [0xFF, 0xD8, 0xFF]) (fun t => (t.pos, t.remaining)) =
    some (2, 1) := by decide +kernel
theorem test_soi_refused : aborts .soi (State.reset.atStart [0xFF, 0xD9]) = some (.ended .notAJpeg, .done) := by
  decide +kernel
/-- R149 by hand: 10 by 8 gray with factors 2 by 2 is two blocks wide, stride 16, whatever the factors. -/
theorem test_sof0 : after (.sof0 (.ok (.full 8 8 10 1 [⟨1, 2, 2, 3⟩] []))) (State.reset.atMarker
      (List.replicate 13 0)) (fun t => (t.comps, t.live, t.qtUsed, t.mbwidth, t.mbheight, t.remaining)) =
    some ([⟨1, 1, 1, 10, 8, 16, 3, 0, 2, 0, some ⟨128, []⟩⟩], 128, 8, 2, 1, 0) := by decide +kernel
/-- P3 (95, 11.3): 4:2:0, planes 16 by 16 and 8 by 8, the RGB buffer 768 bytes. -/
theorem test_sof0_colour : after (.sof0 (.ok (.full 8 16 16 3 [⟨1, 2, 2, 0⟩, ⟨2, 1, 1, 1⟩, ⟨3, 1, 1, 1⟩] [])))
      (State.reset.atMarker (List.replicate 19 0))
      (fun t => (t.comps.map (fun c => (c.width, c.height, c.stride)), t.live, t.rgb, t.hmax, t.mcuH)) =
    some ([(16, 16, 16), (8, 8, 8), (8, 8, 8)], 256 + 64 + 64 + 768, some ⟨768, []⟩, 2, 16) := by decide +kernel
/-- 95, section 3: counts [0, 3], symbols 00 05 07. -/
theorem test_dht : after (.dht (.ok ⟨[⟨0, 1, [0, 3] ++ List.replicate 14 0, [0x00, 0x05, 0x07]⟩], []⟩))
      (State.reset.atMarker (List.replicate 24 0)) (fun t => (t.ht.get 1, t.ht.get 0)) =
    some (dcTable, []) := by decide +kernel
theorem test_dht_class_2 : aborts (.dht (.ok ⟨[⟨2, 0, List.replicate 16 0, []⟩], []⟩))
    (State.reset.atMarker (List.replicate 21 0)) = some (.ended .syntaxError, .done) := by decide +kernel
theorem test_dqt : after (.dqt (.ok ⟨[⟨0, 2, 7 :: List.replicate 63 9⟩], []⟩))
      (State.reset.atMarker (List.replicate 69 0))
      (fun t => ((t.qt.get 2).get 0, (t.qt.get 2).get 63, (t.qt.get 1).get 0, t.qtAvail)) =
    some (7, 9, 0, 4) := by decide +kernel
theorem test_dqt_16_bit : aborts (.dqt (.ok ⟨[⟨1, 0, List.replicate 64 9⟩], []⟩))
    (State.reset.atMarker (List.replicate 69 0)) = some (.ended .unsupported, .done) := by decide +kernel
theorem test_dri : after (.dri (.ok (.full 0x0102 [])))
      (State.reset.atMarker (List.replicate 6 0)) (fun t => (t.restartInterval, t.pos, t.remaining)) =
    some (0x0102, 8, 0) := by decide +kernel
theorem test_dri_short : aborts (.dri (.ok (.short [0])))
    (State.reset.atMarker (List.replicate 5 0)) = some (.ended .syntaxError, .done) := by decide +kernel
theorem test_sos : after (.sos (.ok (.full [⟨1, 1, 0⟩] 0 63 0 0 [])))
      { p1 with restartInterval := 5, remaining := 10 }
      (fun t => (t.phase, t.rstCount, t.comps.map (fun c => (c.dcsel, c.acsel)), t.seq)) =
    some (.scan, 5, [(1, 2)], ⟨0, 0, 0, 0, .dc⟩) := by decide +kernel
theorem test_sos_no_frame : aborts (.sos (.ok (.full [⟨1, 0, 0⟩] 0 63 0 0 [])))
    (State.reset.atMarker (List.replicate 10 0)) = some (.ended .syntaxError, .done) := by decide +kernel
theorem test_appn : after (.appn 1 (.ok [0xAA, 0xBB])) (State.reset.atMarker (List.replicate 8 0))
    (fun t => (t.pos, t.remaining)) = some (8, 2) := by decide +kernel
theorem test_com : after (.com (.ok [])) (State.reset.atMarker (List.replicate 8 0))
    (fun t => (t.pos, t.remaining)) = some (6, 4) := by decide +kernel
theorem test_eoiTop : aborts .eoiTop (State.reset.atMarker [0xFF, 0xD9]) =
    some (.ended .syntaxError, .done) := by decide +kernel
theorem test_rstmTop : aborts (.rstmTop 0) (State.reset.atMarker [0xFF, 0xD0]) =
    some (.ended .unsupported, .done) := by decide +kernel
theorem test_sof2 : aborts (.unsupportedSof1Sof3 0xC2) (State.reset.atMarker [0xFF, 0xC2, 0x00, 0x02]) =
    some (.ended .unsupported, .done) := by decide +kernel
theorem test_notAMarker : aborts (.notAMarker 0 0) (State.reset.atMarker [0, 0]) =
    some (.ended .syntaxError, .done) := by decide +kernel
theorem test_refused_codes :
    [Instr.unsupportedSof5Sof7 0xC5, .unsupportedJpgSof9Sof11 0xC9, .unsupportedDacSof13Sof15 0xCD,
      .unsupportedDnl, .unsupportedDhpExp 0xDE, .unsupportedJpgn 0xF0, .unsupportedSoiAgain,
      .unsupportedReserved00Bf 0x01, .unsupportedFillTop].all (fun i =>
        aborts i (State.reset.atMarker [0xFF, 0xFF]) = some (.ended .unsupported, .done)) = true := by
  decide +kernel

/-- 95, section 2, `FF FF D0`: the first FF is data, the second is dropped. -/
theorem test_ecsFill : after .ecsFill (reader [0xFF, 0xFF, 0xD0]) (fun t => (bitsNat t.acc, t.acc.length, t.pos)) =
    some (0xFF, 8, 2) := by decide +kernel
theorem test_ecsStuff : after .ecsStuff (reader [0xFF, 0x00, 0x34]) (fun t => (bitsNat t.acc, t.acc.length, t.pos)) =
    some (0xFF, 8, 2) := by decide +kernel
theorem test_ecsData : after (.ecsData 0x12) (reader [0x12]) (fun t => (bitsNat t.acc, t.pos, t.remaining)) =
    some (0x12, 1, 0) := by decide +kernel
/-- `FF D3 55`: a restart marker arrives as the two data bytes. -/
theorem test_ecsRstm : after (.ecsRstm 3) (reader [0xFF, 0xD3, 0x55]) (fun t => (bitsNat t.acc, t.acc.length, t.pos)) =
    some (0xFFD3, 16, 2) := by decide +kernel
/-- `FF D9 77`: the byte 77 is never read. -/
theorem test_ecsEoi : after .ecsEoi (reader [0xFF, 0xD9, 0x77]) (fun t => (bitsNat t.acc, t.pos, t.remaining)) =
    some (0xFF, 2, 0) := by decide +kernel
theorem test_ecsOther : after (.ecsOtherMarker 1) (reader [0xFF, 0x01])
    (fun t => (t.error, t.pos, t.remaining, t.acc.length)) = some (.syntaxError, 2, 0, 8) := by decide +kernel
theorem test_ecsFfLast : after .ecsFfLast (reader [0xFF])
    (fun t => (t.error, t.pos, t.remaining, t.acc.length)) = some (.syntaxError, 1, 0, 8) := by decide +kernel
theorem test_ecsFiller : after .ecsFiller (reader []) (fun t => (bitsNat t.acc, t.acc.length, t.pos)) =
    some (0xFF, 8, 0) := by decide +kernel
theorem test_refill : after .refill (reader [0xFF, 0xD3, 0x55]) (fun t => (bitsNat t.acc, t.acc.length, t.pos)) =
    some (0xFFD3, 16, 2) := by decide +kernel
/-- `A8 FF D1` after READ(5): ALIGN drops the 3 bits left of A8. -/
theorem test_align : after .align (holding [false, false, false]) (fun t => t.acc) = some [] := by decide +kernel
/-- `A8 3F FF D9`: PEEK(16) = 0xA83F. -/
theorem test_peek : after (.peek 16) (reader [0xA8, 0x3F, 0xFF, 0xD9]) (fun t => (t.ret, t.pos, t.acc.length)) =
    some (.nat 0xA83F, 2, 16) := by decide +kernel
/-- `5A`: PEEK(0) = 0 with no refill. -/
theorem test_peek_0 : after (.peek 0) (reader [0x5A]) (fun t => (t.ret, t.pos, t.remaining)) =
    some (.nat 0, 0, 1) := by decide +kernel
theorem test_consume : after (.consume 3) (reader [0xA8]) (fun t => (bitsNat t.acc, t.acc.length)) =
    some (0x08, 5) := by decide +kernel
/-- `A8 3F FF C4`: READ(9) = 0x150. -/
theorem test_read : after (.read 9) (reader [0xA8, 0x3F, 0xFF, 0xC4]) (fun t => (t.ret, t.acc.length)) =
    some (.nat 0x150, 7) := by decide +kernel
/-- `AB FF`: the last byte FF is an error. -/
theorem test_read_error : after (.read 16) (reader [0xAB, 0xFF]) (fun t => (t.error, t.acc.length, t.pos)) =
    some (.syntaxError, 16, 2) := by decide +kernel

/-- 95, section 3: counts [1, 0, 2]. -/
theorem test_buildHt : after (.buildHt 3 ([1, 0, 2] ++ List.replicate 13 0) [0x10, 0x20, 0x30]) State.reset
      (fun t => [0x0000, 0x7FFF, 0x8000, 0x9FFF, 0xA000, 0xBFFF, 0xC000, 0xFFFF].map
        fun w => HuffTable.lookup (t.ht.get 3) w) =
    some [⟨1, 0x10⟩, ⟨1, 0x10⟩, ⟨3, 0x20⟩, ⟨3, 0x20⟩, ⟨3, 0x30⟩, ⟨3, 0x30⟩, ⟨0, 0⟩, ⟨0, 0⟩] := by decide +kernel
/-- 95, section 3: counts [1, 3] have too little code space. -/
theorem test_buildHt_space : aborts (.buildHt 0 ([1, 3] ++ List.replicate 14 0) [1, 2, 3, 4]) State.reset =
    some (.ended .syntaxError, .done) := by decide +kernel
/-- P1's first symbol: code 10, category 7, magnitude 1010000 = +80. -/
theorem test_decodeVlc : after (.decodeVlc 0) { p1 with acc := bits8 0xA8 ++ bits8 0x3F } (fun t => (t.ret, t.acc.length)) =
    some (.symbol 0x07 80, 7) := by decide +kernel
theorem test_huffMiss : aborts (.huffMiss 0xFFFF) p1 = some (.ended .syntaxError, .done) := by decide +kernel
/-- R94: instances of `extend` from 95, section 1.1. -/
theorem test_extend : extend 0 1 = -1 ∧ extend 1 1 = 1 ∧ extend 0 2 = -3 ∧ extend 2 2 = 2 ∧ extend 47 7 = -80 ∧
    extend 80 7 = 80 ∧ extend 0 15 = -32767 ∧ extend 32767 15 = 32767 := by decide
/-- P2's block 1: category 5, magnitude 01011 = -20. -/
theorem test_dcCat : after (.dcCat 0 5) { p1 with acc := [false, true, false, true, true, true] }
      (fun t => (t.comps.map (·.dcpred), t.blk.get 0, t.acc, t.seq.stage)) =
    some ([-20], -20, [true], .ac) := by decide +kernel
theorem test_acEob : after .acEob p1 (fun t => t.seq.stage) = some .idct := by decide +kernel
/-- P2's block 1: ZRL moves to position 16. -/
theorem test_acZrl : after .acZrl p1 (fun t => (t.seq.kz, t.seq.stage)) = some (16, .ac) := by decide +kernel
theorem test_acZrl_past_63 : aborts .acZrl { p1 with seq := ⟨0, 0, 0, 48, .ac⟩ } =
    some (.ended .syntaxError, .done) := by decide +kernel
/-- P2's block 1: 0x11 from position 16 is -1 at position 18, natural position 26. -/
theorem test_acRuncat : after (.acRuncat 1 1) { p1 with seq := ⟨0, 0, 0, 16, .ac⟩, acc := [false] }
    (fun t => (t.seq.kz, t.blk.get 26)) = some (18, -1) := by decide +kernel
theorem test_acIllegal : aborts (.acIllegal 1) p1 = some (.ended .syntaxError, .done) := by decide +kernel
/-- P1's block: 64 bytes 8A. -/
theorem test_decodeBlock : after (.decodeBlock 0 0) { p1 with inp := Buffer.ofBytes [0xA8, 0x3F], remaining := 2 }
      (fun t => (t.comps.map (·.pixels), t.blk.get 0)) =
    some ([some (flatBuffer 64 0x8A)], 640) := by decide +kernel
/-- P1's scan; the 6 bits of padding left (R195) are dropped (R194). -/
theorem test_scan : after .scan { p1 with inp := Buffer.ofBytes [0xA8, 0x3F], remaining := 2 }
      (fun t => (t.comps.map (·.pixels), t.phase, t.mby, t.acc)) =
    some ([some (flatBuffer 64 0x8A)], .convert, 1, []) := by decide +kernel
/-- P2: RST0 is accepted, the predictor is 0 again, RST1 comes next. -/
theorem test_restart : after .restart { p1 with
      inp := Buffer.ofBytes [0xFF, 0xD0]
      remaining := 2
      acc := [true]
      comps := [{ grayComp (Buffer.fresh 64) with dcpred := 80 }]
      restartInterval := 1 }
      (fun t => (t.nextRst, t.rstCount, t.comps.map (·.dcpred), t.acc)) = some (1, 1, [0], []) := by decide +kernel
theorem test_restart_wrong : aborts .restart { p1 with inp := Buffer.ofBytes [0xFF, 0xD1], remaining := 2 } =
    some (.ended .syntaxError, .done) := by decide +kernel

/-- 95, section 7.3: DC -1024, all 00. -/
theorem test_idctBlock : after (.idctBlock 0 0) { p1 with blk := (Vector.replicate 64 0).set 0 (-1024) }
    (fun t => t.comps.map (·.pixels)) = some [some (flatBuffer 64 0x00)] := by decide +kernel
/-- 95, section 7.1. -/
theorem test_idctRow : after (.idctRow ⟨1, 2, 3, 4, 5, 6, 7, 8⟩) State.reset (fun t => t.ret) =
    some (.words ⟨225, -199, 85, -67, 39, -29, 15, -6⟩) := by decide +kernel
theorem test_idctRow_wraps : after (.idctRow ⟨1048576, 0, 0, 0, 0, 0, 0, 0⟩) State.reset (fun t => t.ret) =
    some (.words ⟨-8388608, -8388608, -8388608, -8388608, -8388608, -8388608, -8388608, -8388608⟩) := by
  decide +kernel
/-- 95, section 7.2. -/
theorem test_idctCol : after (.idctCol ⟨8, 16, 24, 32, 40, 48, 56, 64⟩) State.reset (fun t => t.ret) =
    some (.samples ⟨132, 125, 129, 127, 129, 128, 128, 128⟩) := by decide +kernel
theorem test_idctCol_clamps : after (.idctCol ⟨-8192, 0, 0, 0, 0, 0, 0, 0⟩) State.reset (fun t => t.ret) =
    some (.samples ⟨0, 0, 0, 0, 0, 0, 0, 0⟩) := by decide +kernel

/-- 95, section 8: [0, 128, 255]. -/
theorem test_upsH : after (.upsH 0) { State.reset with
      comps := [⟨1, 1, 1, 3, 1, 3, 0, 0, 2, 0, some (Buffer.ofBytes [0, 128, 255])⟩]
      live := 3 }
      (fun t => (t.comps, t.live)) =
    some ([⟨1, 1, 1, 6, 1, 6, 0, 0, 2, 0, some (Buffer.ofBytes [0, 21, 91, 165, 234, 255])⟩], 6) := by
  decide +kernel
/-- 95, section 8: width 3 in a stride of 8, the right edge read from the stride. -/
theorem test_upsH_edge : after (.upsH 0) { State.reset with
      comps := [⟨1, 1, 1, 3, 1, 8, 0, 0, 2, 0, some (Buffer.ofBytes [100, 100, 100, 0, 0, 0, 0, 0])⟩]
      live := 8 }
      (fun t => t.comps.map (·.pixels)) = some [some (Buffer.ofBytes [100, 100, 100, 0, 0, 0])] := by decide +kernel
theorem test_upsV : after (.upsV 0) { State.reset with
      comps := [⟨1, 1, 1, 1, 6, 1, 0, 0, 2, 0, some (Buffer.ofBytes [0, 0, 0, 255, 255, 255])⟩]
      live := 6 }
      (fun t => t.comps.map (·.pixels)) =
    some [some (Buffer.ofBytes [0, 0, 0, 0, 0, 52, 203, 255, 255, 255, 255, 255])] := by decide +kernel
/-- 95, section 9. -/
theorem test_ycc2rgb : after (.ycc2rgb 100 200 50) State.reset (fun t => t.ret) = some (.rgb 0 131 228) := by
  decide +kernel
theorem test_ycc2rgb_black : after (.ycc2rgb 0 0 0) State.reset (fun t => t.ret) = some (.rgb 0 136 0) := by
  decide +kernel
theorem test_color : after .color (colour 2 1 100 200 50) (fun t => t.rgb) =
    some (some (Buffer.ofBytes [0, 131, 228, 0, 131, 228])) := by decide +kernel
/-- R254 by hand: two rows of two samples in a stride of three. -/
theorem test_compact : after .compact { State.reset with
      ncomp := 1
      comps := [⟨1, 1, 1, 2, 2, 3, 0, 0, 2, 0, some (Buffer.ofBytes [1, 2, 9, 3, 4, 9])⟩] }
      (fun t => t.comps.map (fun c => (c.stride, c.pixels))) =
    some [(2, some (Buffer.ofBytes [1, 2, 3, 4, 4, 9]))] := by decide +kernel
theorem test_convert : after .convert { p1 with phase := .convert, comps := [grayComp (flatBuffer 64 0x8A)] }
    (fun t => (t.phase, t.comps.map (·.pixels))) = some (.convert, [some (flatBuffer 64 0x8A)]) := by decide +kernel
theorem test_seglen : after .seglen { State.reset with inp := Buffer.ofBytes [0x00, 0x03, 0x55], remaining := 3 }
    (fun t => (t.ret, t.pos, t.remaining)) = some (.nat 1, 2, 1) := by decide +kernel
theorem test_skip : after (.skip 5) State.reset (fun t => (t.pos, t.remaining)) = some (5, -5) := by decide +kernel
theorem test_toploop : aborts .toploop (State.reset.atMarker [0xFF]) = some (.ended .syntaxError, .done) := by
  decide +kernel
theorem test_decode_not_a_jpeg : aborts (.decode [0xFF] 1) State.reset = some (.ended .notAJpeg, .done) := by
  decide +kernel
/-- 95, section 11.1: P1, 148 bytes, is OK, 8 by 8, gray, 64 bytes 8A. -/
theorem test_decode_p1 : after (.decode p1Stream 148) State.reset (fun t =>
      decide (t.result = .ended .ok) && decide (t.regWidth = 8) && decide (t.regHeight = 8) && !t.regIsColor &&
        decide (t.regOutSize = 64) && (List.range 64).all fun i => outputByte i t = some 0x8A) = some true := by
  decide +kernel
theorem test_decode_duty : refusalOf (exec (.decode [0xFF] 2) State.reset) = some .hostDuty := by decide +kernel

/-! ### Witnesses: states and operands that meet the hypotheses of each statement -/

/-- An input held whole, with what is left of it ahead of the position. -/
theorem inputOk_of {s : State} (bytes : List Byte) (hi : s.inp = Buffer.ofBytes bytes)
    (hp : s.pos ≤ bytes.length) (hr : s.remaining ≤ 0 ∨ s.remaining = (bytes.length : Int) - s.pos) : s.inputOk := by
  refine ⟨by rw [hi]; exact Buffer.wf_ofBytes bytes, fun i h => ?_, ?_⟩
  · rw [hi] at h ⊢
    exact ⟨bytes[i]'h, by rw [Buffer.read_ofBytes]; exact List.getElem?_eq_getElem h⟩
  · rw [State.positionOk, hi]
    exact ⟨hp, hr⟩

theorem gray_laidOut (dc ac : HuffTable) (plane : Buffer) (h : plane.size = 64) :
    (gray dc ac plane).frameLaidOut := by
  refine ⟨.inl rfl, rfl, show (8 : Half) ≠ 0 by decide, show (8 : Half) ≠ 0 by decide,
    show 1 = ceilDiv 8 8 by decide, show 1 = ceilDiv 8 8 by decide, fun c hc => ?_, fun _ => rfl,
    fun h3 => absurd (show (1 : BitVec 2) = 3 from h3) (by decide)⟩
  cases List.mem_singleton.mp hc
  exact ⟨show powerOfTwo 1 = true by decide, show powerOfTwo 1 = true by decide, show (1 : Nibble) ≤ 1 by decide,
    show (1 : Nibble) ≤ 1 by decide, show 8 = ceilDiv 8 1 by decide, show 8 = ceilDiv 8 1 by decide,
    show 8 = 8 * 1 * 1 by decide, fun _ => rfl, fun _ => rfl, plane, rfl, h⟩

theorem flatBuffer_has (n : Nat) (v : Byte) (j : Nat) (h : j < n) : (flatBuffer n v).has j = true := by
  simp [Buffer.has, flatBuffer, h]

theorem witness_DecodeReadsBackEncoded :
    ((Instr.dri (.ok (.full 0x1234 [0x55]))).wf = true ∧
      encode (.dri (.ok (.full 0x1234 [0x55]))) = some (.top, [0xFF, 0xDD, 0x00, 0x05, 0x12, 0x34, 0x55]) ∧
      (Instr.dri (.ok (.full 0x1234 [0x55]))).endsItself = true) ∧
    (Instr.ecsFfLast.wf = true ∧ encode .ecsFfLast = some (.ecs, [0xFF]) ∧ Instr.ecsFfLast.endsItself = false) ∧
    ((Instr.com (.badLength 1)).wf = true ∧ encode (.com (.badLength 1)) = some (.top, [0xFF, 0xFE, 0x00, 0x01]) ∧
      (Instr.com (.badLength 1)).endsItself = false) := by decide

theorem witness_DecodedTakesItsBytes :
    decode .top [0xFF, 0xDD, 0x00, 0x04, 0x12, 0x34, 0x77] = .ok (.dri (.ok (.full 0x1234 [])), [0x77]) ∧
    decode .ecs [0xFF] = .ok (.ecsFfLast, []) := by decide

/-- The ends of every run of refused codes. -/
theorem witness_RefusedMarkersAbort :
    ∀ c ∈ ([0x00, 0xBF, 0xC1, 0xC3, 0xC5, 0xCF, 0xD0, 0xD7, 0xD8, 0xDC, 0xDE, 0xDF, 0xF0, 0xFD, 0xFF] : List Byte),
      c ≠ 0xC0 ∧ c ≠ 0xC4 ∧ c ≠ 0xDB ∧ c ≠ 0xDD ∧ c ≠ 0xDA ∧ ¬ (0xE0 ≤ c ∧ c ≤ 0xEF) ∧ c ≠ 0xFE ∧ c ≠ 0xD9 := by
  decide

theorem witness_AbortEntry : Code.syntaxError ≠ .ok ∧ State.reset.error = .ok ∧
    (State.reset.abort .syntaxError).error ≠ .ok := by decide +kernel

/-- A command of one byte, in a configuration in which that is the longest one. -/
def commanded : State :=
  { State.reset with cmd := some ⟨[0xFF], 1⟩, cfg := { defaultConfig with inLenMax := 1 } }

theorem witness_PerDecodeReset : (commanded.phase = .idle ∨ commanded.phase = .done) ∧
    commanded.cmd = some ⟨[0xFF], [(0xFF : Byte)].length⟩ ∧ [(0xFF : Byte)].length ≤ commanded.cfg.inLenMax := by
  decide

theorem witness_StepRunsMarker :
    (∀ s ∈ [State.reset.atStart [0xFF, 0xD8], State.reset.atMarker [0xFF, 0xD9], State.reset.atMarker [0xFF]],
      s.phase = .headers ∧ s.cmd = none) ∧
    (State.reset.atStart [0xFF, 0xD8]).pos = 0 ∧
    ((State.reset.atMarker [0xFF, 0xD9]).pos ≠ 0 ∧
      decode .top (State.reset.atMarker [0xFF, 0xD9]).bytesLeft = .ok (.eoiTop, [])) ∧
    ((State.reset.atMarker [0xFF]).pos ≠ 0 ∧ (State.reset.atMarker [0xFF]).bytesLeft.length < 2) ∧
    (State.reset.atMarker [0xFF, 0xD9]).inputOk :=
  ⟨by decide +kernel, rfl, by decide +kernel, by decide +kernel,
    inputOk_of [0xFF, 0xD8, 0xFF, 0xD9] rfl (by decide) (.inr rfl)⟩

/-- Program P1's frame in its scan, at a stage. -/
def scanning (stage : Stage) (bits : List Bool) (bytes : List Byte) : State :=
  { p1 with
    phase := .scan
    seq := { Seq.start with stage := stage }
    acc := bits
    inp := Buffer.ofBytes bytes
    remaining := bytes.length }

theorem witness_StepRunsScan_escape : ∀ stage ∈ [Stage.dc, Stage.ac],
    (scanning stage [] [0xA8, 0x3F]).phase = .scan ∧ (scanning stage [] [0xA8, 0x3F]).cmd = none ∧
    (scanning stage [] [0xA8, 0x3F]).comps[(scanning stage [] [0xA8, 0x3F]).seq.k]? = some (grayComp (Buffer.fresh 64)) ∧
    (scanning stage [] [0xA8, 0x3F]).acc.length < 16 ∧
    decode .ecs ((scanning stage [] [0xA8, 0x3F]).inp.mem.bytesAt 0 2) = .ok (.ecsData 0xA8, [0x3F]) := by
  decide +kernel

/-- Sixteen bits that start with a code of either table, and sixteen that match none. -/
theorem witness_StepRunsScan_symbol :
    (∀ h ∈ [(0 : Fin 4), 2], (HuffTable.lookup (p1.ht.get h) (bitsNat (bits8 0x80 ++ bits8 0x00))).len ≠ 0 ∧
      (HuffTable.lookup (p1.ht.get h) (bitsNat (bits8 0xFF ++ bits8 0xFF))).len = 0) ∧
    decode .dcSymbol [0x07] = .ok (.dcCat 0 7, []) ∧ decode .acSymbol [0x01] = .ok (.acRuncat 0 1, []) := by
  decide +kernel

theorem witness_StepRunsScan_idct : after (.idctBlock 0 0) (scanning .idct [] [])
    (fun t => (t.phase, t.comps[(0 : Nat)]?.isSome)) = some (.scan, true) := by decide +kernel

theorem witness_StepRunsScan_restart :
    after .restart (scanning .restart [] [0xFF, 0xD0]) (fun t => t.phase) = some .scan ∧
    after .restart (scanning .restart [] [0xFF, 0xD1]) (fun t => t.phase) = some .done := by decide +kernel

theorem witness_StepBetweenDecodes :
    (State.reset.phase = .idle ∧ State.reset.cmd = none ∧ State.reset.ready = true) ∧
    (commanded.phase = .idle ∧ commanded.cmd = some ⟨[0xFF], 1⟩ ∧ 1 ≤ commanded.cfg.inLenMax) ∧
    ((1 : Nat) ≠ ([] : List Byte).length ∧ commanded.cfg.inLenMax < 2) ∧
    ({ p1 with cmd := some ⟨[], 0⟩ }.phase = .headers ∧ p1.ready = false) ∧
    after .convert { p1 with phase := .convert, comps := [grayComp (flatBuffer 64 0)] } (fun t => t.phase) =
      some .convert := by decide +kernel

theorem witness_EscapesTaken : (reader []).remaining ≤ 0 := by decide

/-- The neighbours of the codes the other rules take, and reserved AC runs. -/
theorem witness_EntropyErrors :
    (∀ c ∈ ([0x01, 0xCF, 0xD8, 0xDA, 0xFE] : List Byte),
      c ≠ 0x00 ∧ ¬ (0xD0 ≤ c ∧ c ≤ 0xD7) ∧ c ≠ 0xD9 ∧ c ≠ 0xFF) ∧
    ∀ r ∈ ([1, 14] : List Nibble), r ≠ 0 ∧ r ≠ 15 := by decide

theorem witness_RefillFollowsTheBytes :
    ((reader []).remaining ≤ 0) ∧
    (0 < (reader [0xFE]).remaining ∧ (reader [0xFE]).pos < (reader [0xFE]).inp.size ∧
      (reader [0xFE]).inp.mem.read 0 = some 0xFE) ∧
    ((reader [0xFF]).remaining = 1 ∧ (reader [0xFF]).inp.mem.read 0 = some 0xFF) ∧
    ∀ m ∈ ([0x00, 0xFF, 0xD9, 0xD0, 0xD7, 0xCF, 0xD8, 0x01] : List Byte),
      2 ≤ (reader [0xFF, m]).remaining ∧ (reader [0xFF, m]).pos + 1 < (reader [0xFF, m]).inp.size ∧
      (reader [0xFF, m]).inp.mem.read 1 = some m := by decide +kernel

theorem witness_RefillIsTheNextEscape : (reader [0xFF, 0xD3]).inputOk ∧
    decode .ecs ((reader [0xFF, 0xD3]).inp.mem.bytesAt 0 2) = .ok (.ecsRstm 3, []) :=
  ⟨inputOk_of [0xFF, 0xD3] rfl (by decide) (.inr rfl), by decide +kernel⟩

theorem witness_PeekReadsBits :
    ((16 : Fin 17).val ≤ (holding (bits8 1 ++ bits8 2)).acc.length) ∧
    ((reader [0x55]).acc.length < (1 : Fin 17).val ∧ ∃ u, refillOp (reader [0x55]) = .ok u) ∧
    ((reader [0xFF]).acc.length < (1 : Fin 17).val ∧ ∃ u, refillOp (reader [0xFF]) = .error (.aborted u)) :=
  ⟨by decide, ⟨by decide, _, rfl⟩, by decide, _, rfl⟩

theorem witness_AlignConsumeRead :
    ((16 : Fin 17).val ≤ (holding (bits8 1 ++ bits8 2)).acc.length) ∧
    (∃ v u, peekOp (16 : Fin 17).val (reader [0x55]) = .ok (v, u)) ∧
    (∃ u, peekOp (16 : Fin 17).val (reader [0xFF]) = .error (.aborted u)) ∧
    (holding (bits8 1 ++ [true])).acc.length % 8 ≠ 0 ∧ (holding (bits8 1)).acc.length % 8 = 0 :=
  ⟨by decide, ⟨_, _, rfl⟩, ⟨_, rfl⟩, by decide, by decide⟩

/-- Counts [1, 0, 2] of 95, section 3: the second of its codes fills windows 0x8000 to 0x9FFF. -/
theorem witness_BuildHtFillsTable (counts : List Byte) (h : counts = [1, 0, 2] ++ List.replicate 13 0) :
    counts.length = 16 ∧ countSum counts ≤ [(0x10 : Byte), 0x20, 0x30].length ∧
    codeWindows (codeLengths 1 counts) ≤ 65536 ∧ (codeLengths 1 counts)[(1 : Nat)]? = some 3 ∧
    codeWindows ((codeLengths 1 counts).take 1) ≤ 0x8000 ∧
    0x9FFF < codeWindows ((codeLengths 1 counts).take 1) + 2 ^ (16 - 3) ∧
    codeWindows (codeLengths 1 counts) ≤ 0xC000 := by subst h; decide +kernel

/-- Code space used to the last window, and one code too many; one symbol byte too few. -/
theorem witness_BuildHtFillsTable_limits :
    codeWindows (codeLengths 1 (2 :: List.replicate 15 0)) = 65536 ∧
    65536 < codeWindows (codeLengths 1 (2 :: (List.replicate 14 0 ++ [1]))) ∧
    [(0x10 : Byte)].length < countSum (2 :: List.replicate 15 0) := by decide +kernel

theorem witness_DecodeVlcSymbol :
    ((reader [0x55]).acc.length < 16 ∧ ∃ u, refillOp (reader [0x55]) = .ok u) ∧
    ((reader [0xFF]).acc.length < 16 ∧ ∃ u, refillOp (reader [0xFF]) = .error (.aborted u)) ∧
    (HuffTable.lookup dcTable (bitsNat (bits8 0xFF ++ bits8 0xFF))).len = 0 ∧
    HuffTable.lookup dcTable (bitsNat (bits8 0x00 ++ bits8 0xFF)) = ⟨2, 0x00⟩ ∧
    HuffTable.lookup dcTable (bitsNat (bits8 0xA8 ++ bits8 0x3F)) = ⟨2, 0x07⟩ ∧
    (∃ v u, readOp 7 (holding [true]) = .ok (v, u)) ∧
    (∃ u, readOp 7 { holding [true] with inp := Buffer.ofBytes [0xFF], remaining := 1 } = .error (.aborted u)) :=
  ⟨⟨by decide, _, rfl⟩, ⟨by decide, _, rfl⟩, by decide +kernel, by decide +kernel, by decide +kernel, ⟨_, _, rfl⟩,
    _, rfl⟩

/-- The ends of category 15 and both values of category 1. -/
theorem witness_ExtendSigned : ((0 : Nat) < 2 ^ 1 ∧ 1 < 2 ^ 1) ∧ (32767 : Nat) < 2 ^ 15 ∧
    ((16383 : Nat) < 2 ^ (15 - 1) ∧ ¬ (16384 : Nat) < 2 ^ (15 - 1)) := by decide

theorem witness_DcCoefficient : p1.comps[p1.seq.k]? = some (grayComp (Buffer.fresh 64)) ∧
    (5 : Nibble).toNat ≤ (holding (bits8 0x55)).acc.length ∧ (0 : Nibble).toNat ≤ p1.acc.length ∧
    (∃ v u, readOp (5 : Nibble).toNat p1 = .ok (v, u)) ∧
    (∃ u, readOp (5 : Nibble).toNat { p1 with inp := Buffer.ofBytes [0xFF], remaining := 1 } =
      .error (.aborted u)) :=
  ⟨rfl, by decide, by decide, ⟨_, _, rfl⟩, _, rfl⟩

/-- Positions 63 and 64, reached by a ZRL and by a run. -/
theorem witness_AcCoefficients : p1.comps[p1.seq.k]? = some (grayComp (Buffer.fresh 64)) ∧
    ((47 : Nat) + 16 ≤ 63 ∧ 63 < (48 : Nat) + 16) ∧ (14 : Nibble) ≠ 0 ∧
    (47 + (15 : Nibble).toNat + 1 ≤ 63 ∧ 63 < 48 + (15 : Nibble).toNat + 1) ∧
    (∃ v u, readOp (14 : Nibble).toNat p1 = .ok (v, u)) ∧
    (∃ u, readOp (14 : Nibble).toNat { p1 with inp := Buffer.ofBytes [0xFF], remaining := 1 } =
      .error (.aborted u)) :=
  ⟨rfl, by decide, by decide, by decide, ⟨_, _, rfl⟩, _, rfl⟩

/-- The last block of a plane, which ends where the plane ends. -/
theorem witness_DecodeBlockWritesItsBlock : (scanning .dc [] [0xA8, 0x3F]).inputOk ∧
    (scanning .dc [] [0xA8, 0x3F]).comps[(0 : Nat)]? = some (grayComp (Buffer.fresh 64)) ∧
    (grayComp (Buffer.fresh 64)).pixels = some (Buffer.fresh 64) ∧
    0 + 7 * (grayComp (Buffer.fresh 64)).stride + 8 ≤ (Buffer.fresh 64).size :=
  ⟨inputOk_of [0xA8, 0x3F] rfl (by decide) (.inr rfl), rfl, rfl, by decide⟩

/-- P1's tables: DC code 00, AC code 0, eighteen bits 0 held. -/
theorem witness_DecodeBlockFlat (s : State) (h : s = { p1 with acc := List.replicate 18 false }) :
    s.comps[(0 : Nat)]? = some (grayComp (Buffer.fresh 64)) ∧
    HuffTable.lookup (s.ht.get (grayComp (Buffer.fresh 64)).dcsel.toFin) (bitsNat (s.acc.take 16)) = ⟨2, 0x00⟩ ∧
    16 + 2 ≤ s.acc.length ∧
    HuffTable.lookup (s.ht.get (grayComp (Buffer.fresh 64)).acsel.toFin) (bitsNat ((s.acc.drop 2).take 16)) =
      ⟨1, 0x00⟩ := by subst h; decide +kernel

/-- The shortcut off, and the shortcut on with an entry that is not 0; the other premises name values. -/
theorem witness_IdctRowFormula : State.reset.cfg.idctShortcutLiteral = false ∧
    { defaultConfig with idctShortcutLiteral := true }.idctShortcutLiteral = true ∧
    (⟨1, 0, 0, 0, 0, 0, 0, 1⟩ : Oct Word).a7 ≠ 0 := by decide

theorem witness_IdctColFormula : State.reset.cfg.idctShortcutLiteral = false ∧
    (⟨1, 1, 0, 0, 0, 0, 0, 0⟩ : Oct Word).a1 ≠ 0 := by decide

/-- The ends of both ranges of R217. -/
theorem witness_ShortcutIdentity : State.reset.cfg = defaultConfig ∧
    (∀ d ∈ ([-1048576, 1048575] : List Word), -2 ^ 20 ≤ d.toInt ∧ d.toInt ≤ 2 ^ 20 - 1) ∧
    (∀ e ∈ ([-8388608, 8388575] : List Word), -2 ^ 23 ≤ e.toInt ∧ e.toInt ≤ 2 ^ 23 - 33) := by
  refine ⟨rfl, fun d hd => ?_, fun e he => ?_⟩
  · simp only [List.mem_cons, List.not_mem_nil, or_false] at hd
    obtain rfl | rfl := hd
    · rw [show (-1048576 : Word).toInt = -1048576 by decide]; norm_num
    · rw [show (1048575 : Word).toInt = 1048575 by decide]; norm_num
  · simp only [List.mem_cons, List.not_mem_nil, or_false] at he
    obtain rfl | rfl := he
    · rw [show (-8388608 : Word).toInt = -8388608 by decide]; norm_num
    · rw [show (8388575 : Word).toInt = 8388575 by decide]; norm_num

theorem witness_IdctBlockWrites : p1.comps[(0 : Nat)]? = some (grayComp (Buffer.fresh 64)) ∧
    (grayComp (Buffer.fresh 64)).pixels = some (Buffer.fresh 64) ∧ 8 ≤ (grayComp (Buffer.fresh 64)).stride ∧
    0 + 7 * (grayComp (Buffer.fresh 64)).stride + 8 ≤ (Buffer.fresh 64).size :=
  ⟨rfl, rfl, by decide, by decide⟩

/-- A component of 2 by 2 blocks at each of its ends, and the four ends of a row of MCUs. -/
theorem witness_NextBlockOrder (c : Comp) (s : Nat → Nat → State)
    (hc : c = { grayComp (Buffer.fresh 64) with ssx := 2, ssy := 2 })
    (hs : ∀ x y, s x y = { colour 8 8 0 0 0 with seq := ⟨2, y, x, 63, .idct⟩, mbwidth := 2, mbheight := 2 }) :
    (s 0 0).seq.sbx + 1 < c.ssx.toNat ∧ (c.ssx.toNat ≤ (s 1 0).seq.sbx + 1 ∧ (s 1 0).seq.sby + 1 < c.ssy.toNat) ∧
    (c.ssx.toNat ≤ (s 1 1).seq.sbx + 1 ∧ c.ssy.toNat ≤ (s 1 1).seq.sby + 1 ∧
      (s 1 1).ncomp.toNat ≤ (s 1 1).seq.k + 1 ∧ 1 + 1 < (s 1 1).ncomp.toNat) ∧
    ((s 1 1).mbx + 1 < (s 1 1).mbwidth ∧ (s 1 1).mbwidth ≤ 1 + 1 ∧ (s 1 1).mby + 1 < (s 1 1).mbheight ∧
      (s 1 1).mbheight ≤ 1 + 1) ∧
    ((s 1 1).restartInterval = 0 ∧ (2 : Half) ≠ 0 ∧ (2 : Nat) - 1 ≠ 0 ∧ (1 : Nat) - 1 = 0) := by
  subst hc; simp only [hs]; decide +kernel

/-- The expected marker, a marker with another number, and a word that is no restart marker. -/
theorem witness_RestartCheck :
    (16 ≤ (bits8 0xFF ++ bits8 0xD0).length ∧
      (BitVec.ofNat 16 (bitsNat ((bits8 0xFF ++ bits8 0xD0).take 16)) &&& 0xFFF8 : Half) = 0xFFD0 ∧
      (BitVec.ofNat 16 (bitsNat ((bits8 0xFF ++ bits8 0xD0).take 16)) : Half).extractLsb' 0 3 = p1.nextRst) ∧
    (0xFFD1 : Half).extractLsb' 0 3 ≠ p1.nextRst ∧ (0xFFD8 : Half) &&& 0xFFF8 ≠ 0xFFD0 ∧
    (∃ v u, readOp 16 (reader [0xFF, 0xD0]) = .ok (v, u)) ∧
    (∃ u, readOp 16 (reader [0xFF, 0xC0]) = .error (.aborted u)) :=
  ⟨by decide +kernel, by decide, by decide, ⟨_, _, rfl⟩, _, rfl⟩

theorem witness_ScanAnswers : (scanning .dc [] [0xA8, 0x3F]).inputOk ∧ (scanning .dc [] [0xA8, 0x3F]).frameLaidOut :=
  ⟨inputOk_of [0xA8, 0x3F] rfl (by decide) (.inr rfl), gray_laidOut dcTable acTable (Buffer.fresh 64) rfl⟩

/-- Tables of two codes of one bit, both for the symbol 0: the all-ones window has a symbol. -/
def zeroTable : HuffTable :=
  [⟨1, 0x00⟩, ⟨1, 0x00⟩]

theorem witness_ScanCompletes (s : State) (h : s = gray zeroTable zeroTable (Buffer.fresh 64)) :
    s.frameLaidOut ∧ s.restartInterval = 0 ∧ s.acc = [] ∧ s.remaining ≤ 0 ∧
    ∀ c ∈ s.comps, HuffTable.lookup (s.ht.get c.dcsel.toFin) 0xFFFF = ⟨1, 0x00⟩ ∧
      HuffTable.lookup (s.ht.get c.acsel.toFin) 0xFFFF = ⟨1, 0x00⟩ := by
  subst h
  exact ⟨gray_laidOut zeroTable zeroTable (Buffer.fresh 64) rfl, rfl, rfl, by decide, by decide +kernel⟩

theorem witness_SoiChecked :
    (State.reset.atStart [0xFF]).inp.size < 2 ∧
    ∀ b1 ∈ ([0xD8, 0xD9] : List Byte), 2 ≤ (State.reset.atStart [0xFF, b1]).inp.size ∧
      (State.reset.atStart [0xFF, b1]).inp.mem.read 0 = some 0xFF ∧
      (State.reset.atStart [0xFF, b1]).inp.mem.read 1 = some b1 := by decide +kernel

/-- Lengths 1, 2, the whole of what is left (3), and one more than that. -/
theorem witness_SeglenAndSkip : (reader [0x00]).remaining < 2 ∧
    ∀ l ∈ ([1, 2, 3, 4] : List Byte), 2 ≤ (reader [0x00, l, 0x55]).remaining ∧
      (reader [0x00, l, 0x55]).pos + 1 < (reader [0x00, l, 0x55]).inp.size ∧
      (reader [0x00, l, 0x55]).inp.mem.read 0 = some 0x00 ∧ (reader [0x00, l, 0x55]).inp.mem.read 1 = some l := by
  decide +kernel

theorem witness_SegmentFramingErrors :
    ((Instr.com (.noLength [])).segment = some none) ∧ (Instr.dri (.badLength 1)).segment = some none ∧
    (Instr.com (.ok [0x55])).segment = some (some 1) ∧
    (State.reset.atMarker [0xFF, 0xFE, 0x00]).remaining < 4 ∧
    (State.reset.atMarker [0xFF, 0xFE, 0x00, 0x03]).remaining < (1 : Int) + 4 := by decide +kernel

theorem witness_SkippedSegmentsAndDri :
    ([0xAA] : List Byte).length + 4 ≤ (State.reset.atMarker (List.replicate 5 0)).remaining ∧
    ([] : List Byte).length + 6 ≤ (State.reset.atMarker (List.replicate 6 0)).remaining ∧
    (([0x55] : List Byte).length < 2 ∧ ([0x55] : List Byte).length + 4 ≤ (State.reset.atMarker (List.replicate 5 0)).remaining) := by
  decide +kernel

/-- A table for slot 3, one of 16-bit steps, one for slot 4, and a byte that is no table. -/
theorem witness_DqtLoads (good : DqtTable) (hg : good = ⟨0, 3, List.replicate 64 9⟩) (body : List DqtTable → DqtBody)
    (hb : ∀ ts, body ts = ⟨ts, []⟩) :
    (∀ ts ∈ [[good, good], [good, { good with pq := 1 }], [good, { good with tq := 4 }]],
      (body ts).wf = true ∧ ((body ts).size : Int) + 4 ≤ (State.reset.atMarker (List.replicate 134 0)).remaining) ∧
    (good.pq = 0 ∧ good.tq.toNat ≤ 3) ∧ 3 < (4 : Nibble).toNat ∧
    ((⟨[good], [0x00]⟩ : DqtBody).wf = true ∧ ([0x00] : List Byte) ≠ []) ∧
    [good, good].reverse.find? (fun u => decide (u.tq.toNat = 3)) = some good ∧
    [good, good].reverse.find? (fun u => decide (u.tq.toNat = 2)) = none := by
  subst hg; simp only [hb]; decide +kernel

theorem witness_DhtLoads (good : DhtTable) (hg : good = ⟨1, 1, 2 :: List.replicate 15 0, [0x10, 0x20]⟩)
    (body : List DhtTable → DhtBody) (hb : ∀ ts, body ts = ⟨ts, []⟩) :
    (∀ ts ∈ [[good, good], [good, { good with tc := 2 }], [good, { good with th := 2 }], [good, { good with th := 4 }],
        [good, { good with syms := [0x10] }],
        [good, { good with counts := 3 :: List.replicate 15 0, syms := [1, 2, 3] }]],
      (body ts).wf = true ∧ ((body ts).size : Int) + 4 ≤ (State.reset.atMarker (List.replicate 43 0)).remaining) ∧
    (good.tc.toNat ≤ 1 ∧ good.th.toNat ≤ 1 ∧ countSum good.counts ≤ good.syms.length ∧
      codeWindows (codeLengths 1 good.counts) ≤ 65536) ∧
    65536 < codeWindows (codeLengths 1 (3 :: List.replicate 15 0)) ∧
    (⟨[good], [0x00]⟩ : DhtBody).wf = true ∧
    [good].reverse.find? (fun u => decide (2 * u.tc.toNat + u.th.toNat = 3)) = some good ∧
    [good].reverse.find? (fun u => decide (2 * u.tc.toNat + u.th.toNat = 0)) = none := by
  subst hg; simp only [hb]; decide +kernel

/-- Each check of SOF0 at its first failing value, after the ones before it pass. -/
theorem witness_SofChecks (body : Byte → Half → Byte → List SofComp → SofBody)
    (hb : ∀ p h nf cs, body p h nf cs = .full p h 16 nf cs []) :
    (∀ b ∈ [body 12 8 1 [⟨1, 1, 1, 0⟩], body 8 0 1 [⟨1, 1, 1, 0⟩], body 8 8 2 [⟨1, 1, 1, 0⟩, ⟨2, 1, 1, 0⟩],
        body 8 8 3 [⟨1, 1, 1, 0⟩, ⟨2, 1, 1, 0⟩], body 8 8 1 [⟨1, 0, 1, 0⟩], body 8 8 1 [⟨1, 3, 1, 0⟩],
        body 8 8 1 [⟨1, 8, 0, 0⟩], body 8 8 1 [⟨1, 8, 15, 0⟩], body 8 8 1 [⟨1, 1, 8, 4⟩]],
      9 ≤ b.size ∧ (b.size : Int) + 4 ≤ (State.reset.atMarker (List.replicate 16 0)).remaining) ∧
    ((SofBody.short [8]).size < 9 ∧ State.reset.frame = false ∧ p1.frame = true) ∧
    ((body 8 8 3 [⟨1, 1, 1, 0⟩, ⟨2, 1, 1, 0⟩]).size < 6 + 3 * (3 : Byte).toNat) := by
  simp only [hb]; decide +kernel

theorem witness_SofGrayFrame (s : State) (hs : s = State.reset.atMarker (List.replicate 13 0)) :
    s.frame = false ∧ s.comps = [] ∧ (8 : Nibble) ∈ ([1, 2, 4, 8] : List Nibble) ∧ (3 : Byte).toNat ≤ 3 ∧
    (([] : List Byte).length : Int) + 13 ≤ s.remaining ∧
    allocGrants s.cfg (64 * (((65535 : Half).toNat + 7) / 8) * (((1 : Half).toNat + 7) / 8)) s.live = true ∧
    allocGrants { s.cfg with memBytes := 63 } 64 s.live = false := by subst hs; decide +kernel

/-- P3's frame, 4:2:0; the same at width 2, where the first chroma plane is 1 sample wide; and limits at which
each of the four requests is the first refused. -/
theorem witness_SofColourFrame (s : State) (hs : s = State.reset.atMarker (List.replicate 19 0)) :
    s.frame = false ∧ s.comps = [] ∧ ((([] : List Byte).length : Int) + 19 ≤ s.remaining) ∧
    (∀ c ∈ ([⟨1, 2, 2, 0⟩, ⟨2, 1, 1, 1⟩, ⟨3, 1, 1, 1⟩] : List SofComp),
      c.h ∈ ([1, 2, 4, 8] : List Nibble) ∧ c.v ∈ ([1, 2, 4, 8] : List Nibble) ∧ c.tq.toNat ≤ 3 ∧ c.h ≤ 2 ∧ c.v ≤ 2) ∧
    (ceilDiv (16 * 1) 2 = 8 ∧ ceilDiv (2 * 1) 2 < 3 ∧ (1 : Nibble) ≠ 2) ∧
    ([256, 64, 64, 768].map fun n => decide (n ≤ 1152)) = [true, true, true, true] ∧
    (∀ j, j < 4 → allocGrants s.cfg ([256, 64, 64, 768].getD j 0) (s.live + ([256, 64, 64, 768].take j).sum) = true) ∧
    (∀ m ∈ [(0, 255), (1, 319), (2, 383), (3, 1151)],
      allocGrants { s.cfg with memBytes := m.2 } ([256, 64, 64, 768].getD m.1 0)
        (s.live + ([256, 64, 64, 768].take m.1).sum) = false ∧
      ∀ i, i < m.1 → allocGrants { s.cfg with memBytes := m.2 } ([256, 64, 64, 768].getD i 0)
        (s.live + ([256, 64, 64, 768].take i).sum) = true) := by subst hs; decide +kernel

theorem witness_SosStartsScan (s : State) (hs : s = { p1 with remaining := 10 }) :
    s.frame = true ∧ s.comps.length = s.ncomp.toNat ∧ [(⟨1, 1, 1⟩ : SosSel)].length = s.ncomp.toNat ∧
    (∀ c ∈ s.comps, (⟨1, 1, 1⟩ : SosSel).cs = c.cid ∧ (⟨1, 1, 1⟩ : SosSel).td.toNat ≤ 1) ∧
    s.qtUsed &&& ~~~ s.qtAvail = 0 ∧
    ((2 * [(⟨1, 1, 1⟩ : SosSel)].length + ([] : List Byte).length : Int) + 8 ≤ s.remaining) := by
  subst hs; decide +kernel

/-- Each check of SOS at its first failing value: no frame, a short payload, a count, an identifier, a table
selector, the spectral fields, a step table not loaded. -/
theorem witness_SosChecks (s : State) (hs : s = { p1 with remaining := 12 }) :
    State.reset.frame = false ∧ s.frame = true ∧ s.comps.length = s.ncomp.toNat ∧
    (SosBody.short []).size < 4 + 2 * s.ncomp.toNat ∧
    (∀ b ∈ [SosBody.short [2, 1, 0, 0, 63, 0], .full [⟨1, 0, 0⟩, ⟨1, 0, 0⟩] 0 63 0 0 [], .full [⟨2, 0, 0⟩] 0 63 0 0 [],
        .full [⟨1, 2, 0⟩] 0 63 0 0 [], .full [⟨1, 0, 2⟩] 0 63 0 0 [], .full [⟨1, 0, 0⟩] 1 63 0 0 [],
        .full [⟨1, 0, 0⟩] 0 62 0 0 [], .full [⟨1, 0, 0⟩] 0 63 1 0 [], .full [⟨1, 0, 0⟩] 0 63 0 1 []],
      4 + 2 * s.ncomp.toNat ≤ b.size ∧ (b.size : Int) + 4 ≤ s.remaining) ∧
    { s with qtAvail := 0 }.qtUsed &&& ~~~ { s with qtAvail := 0 }.qtAvail ≠ 0 := by subst hs; decide +kernel

/-- The stream at P1's SOS with nothing after it, and tables that decode the filler. -/
def lastSos : State :=
  { gray zeroTable zeroTable (Buffer.fresh 64) with
    inp := Buffer.ofBytes [0xFF, 0xD8, 0xFF, 0xDA, 0x00, 0x08, 0x01, 0x01, 0x00, 0x00, 0x3F, 0x00]
    pos := 2
    remaining := 10 }

theorem witness_TopLoopTurns : lastSos.phase = .headers ∧ lastSos.inputOk ∧ lastSos.frame = true ∧ lastSos.ncomp = 1 ∧
    lastSos.frameLaidOut ∧ lastSos.comps = [grayComp (Buffer.fresh 64)] ∧
    lastSos.qtUsed &&& ~~~ lastSos.qtAvail = 0 ∧ lastSos.restartInterval = 0 ∧ lastSos.acc = [] ∧
    lastSos.bytesLeft = [0xFF, 0xDA, 0x00, 0x08, 0x01, 0x01, 0x00, 0x00, 0x3F, 0x00] ∧
    HuffTable.lookup (lastSos.ht.get 0) 0xFFFF = ⟨1, 0x00⟩ ∧ HuffTable.lookup (lastSos.ht.get 2) 0xFFFF = ⟨1, 0x00⟩ :=
  ⟨rfl, inputOk_of [0xFF, 0xD8, 0xFF, 0xDA, 0x00, 0x08, 0x01, 0x01, 0x00, 0x00, 0x3F, 0x00] rfl (by decide) (.inr rfl),
    rfl, rfl, gray_laidOut zeroTable zeroTable (Buffer.fresh 64) rfl, rfl, by decide +kernel, rfl, rfl,
    by decide +kernel, by decide +kernel, by decide +kernel⟩

/-- A marker that ends the command, one after which the headers go on, and one that starts the scan. -/
theorem witness_TopLoopTurns_next : (State.reset.atMarker [0xFF]).remaining < 2 ∧
    after .eoiTop (State.reset.atMarker [0xFF, 0xD9]) (fun t => t.phase) = some .done ∧
    after (.com (.ok [])) (State.reset.atMarker [0xFF, 0xFE, 0x00, 0x02]) (fun t => t.phase) = some .headers ∧
    after (.sos (.ok (.full [⟨1, 0, 0⟩] 0 63 0 0 []))) lastSos (fun t => t.phase) = some .scan := by decide +kernel

/-- The smallest plane, 3 samples in a stride of 3; and the right edge at either index. -/
theorem witness_UpsHFormula (c : Comp) (s : Nat → State) (hc : c = flatComp 3 1 7)
    (hs : ∀ m, s m = { State.reset with comps := [c], live := 3, cfg := { defaultConfig with memBytes := m } }) :
    (s 0).comps[(0 : Nat)]? = some c ∧ c.pixels = some (flatBuffer 3 7) ∧ 3 ≤ c.width ∧ c.width ≤ c.stride ∧
    (∀ j, j < c.height * c.stride → (flatBuffer 3 7).has j = true) ∧
    (∃ L : Nat → Nat → Word, ∀ y x v, (flatBuffer 3 7).mem.read (y * c.stride + x) = some v →
      L y x = v.setWidth 32) ∧
    allocGrants (s 9).cfg (2 * c.width * c.height) (s 9).live = true ∧
    allocGrants (s 8).cfg (2 * c.width * c.height) (s 8).live = false ∧ (s 0).cfg.upsHEdge = .stride := by
  subst hc; simp only [hs]
  refine ⟨rfl, rfl, by decide, by decide, fun j hj => flatBuffer_has 3 7 j hj, ⟨fun _ _ => 7, fun y x v h => ?_⟩,
    by decide, by decide, rfl⟩
  simp only [flatBuffer, Buffer.read_ofBytes] at h
  rw [List.eq_of_mem_replicate (List.mem_of_getElem? h)]; rfl

theorem witness_UpsVFormula (c : Comp) (s : Nat → State) (hc : c = flatComp 1 3 7)
    (hs : ∀ m, s m = { State.reset with comps := [c], live := 3, cfg := { defaultConfig with memBytes := m } }) :
    (s 0).comps[(0 : Nat)]? = some c ∧ c.pixels = some (flatBuffer 3 7) ∧ 3 ≤ c.height ∧ c.width ≤ c.stride ∧
    (∀ j, j < c.height * c.stride → (flatBuffer 3 7).has j = true) ∧
    (∃ P : Nat → Nat → Word, ∀ x r v, (flatBuffer 3 7).mem.read (r * c.stride + x) = some v →
      P x r = v.setWidth 32) ∧
    allocGrants (s 9).cfg (c.width * (2 * c.height)) (s 9).live = true ∧
    allocGrants (s 8).cfg (c.width * (2 * c.height)) (s 8).live = false := by
  subst hc; simp only [hs]
  refine ⟨rfl, rfl, by decide, by decide, fun j hj => flatBuffer_has 3 7 j hj, ⟨fun _ _ => 7, fun x r v h => ?_⟩,
    by decide, by decide⟩
  simp only [flatBuffer, Buffer.read_ofBytes] at h
  rw [List.eq_of_mem_replicate (List.mem_of_getElem? h)]; rfl

theorem witness_PixelFormula : State.reset.cfg = defaultConfig ∧
    after (.ycc2rgb 255 255 255) State.reset (fun t => t.ret) = some (.rgb 255 121 255) := by decide +kernel

/-- An image of one pixel. -/
theorem witness_ColorWritesRgb (s : State) (hs : s = colour 1 1 100 200 50) :
    s.width.toNat = 1 ∧ s.height.toNat = 1 ∧ s.rgb = some (Buffer.fresh 3) ∧ 3 * 1 * 1 ≤ (Buffer.fresh 3).size ∧
    (∀ k, k < 3 → (s.comps[k]?).isSome = true ∧ (s.planeByte k 0).isSome = true) ∧
    s.planeByte 1 0 = some 200 ∧ 3 * 1 * 1 ≤ 3 := by subst hs; decide +kernel

/-- Stride and width equal, and a plane with a padding column. -/
theorem witness_CompactMovesRows (c : Nat → Comp)
    (hc : ∀ w, c w = ⟨1, 1, 1, w, 2, 3, 0, 0, 2, 0, some (flatBuffer 6 1)⟩) :
    ((c 3).width = (c 3).stride ∧ (c 2).width ≠ (c 2).stride ∧ (c 2).width ≤ (c 2).stride) ∧
    ∀ x y, x < (c 2).width → y < (c 2).height → (flatBuffer 6 1).has (y * (c 2).stride + x) = true := by
  simp only [hc]
  exact ⟨by decide, fun x y hx hy => flatBuffer_has 6 1 _ (by omega)⟩

/-- A gray image of 8 by 8 whose plane is 4 by 4: both passes are due, and run. -/
def narrow : State :=
  { gray [] [] (Buffer.fresh 64) with phase := .convert, comps := [flatComp 4 4 9], live := 16 }

theorem witness_ConvertRunsPasses : narrow.phase = .convert ∧ 0 < narrow.ncomp.toNat ∧
    narrow.comps[(0 : Nat)]? = some (flatComp 4 4 9) ∧ 3 ≤ (flatComp 4 4 9).width ∧ 3 ≤ (flatComp 4 4 9).height ∧
    (flatComp 4 4 9).width < narrow.width.toNat ∧ (flatComp 4 4 9).height < narrow.height.toNat ∧
    after (.upsH 0) narrow (fun t => (t.phase, (nextOf (exec (.upsV 0) t)).map (·.phase))) =
      some (.convert, some .convert) ∧
    after (.upsH 0) { narrow with cfg := { defaultConfig with memBytes := 16 } } (fun t => t.phase) = some .done := by
  decide +kernel

theorem witness_ConvertAnswers (s : State) (hs : s = gray [] [] (flatBuffer 64 9)) :
    s.ncomp = 1 ∧ s.frameLaidOut ∧
    (∀ k, k < s.ncomp.toNat → ∃ c, s.comps[k]? = some c ∧ s.width.toNat ≤ c.width ∧ s.height.toNat ≤ c.height) ∧
    ∀ c ∈ s.comps, ∀ b, c.pixels = some b → ∀ j, j < b.size → b.has j = true := by
  subst hs
  refine ⟨rfl, gray_laidOut [] [] (flatBuffer 64 9) rfl, fun k hk => ?_, fun c hc b hb j hj => ?_⟩
  · have : k = 0 := by change k < 1 at hk; omega
    subst this
    exact ⟨grayComp (flatBuffer 64 9), rfl, by decide, by decide⟩
  · cases List.mem_singleton.mp hc
    cases hb
    exact flatBuffer_has 64 9 j hj

theorem witness_DecodeRunsItsParts : State.reset.ready = true ∧ p1Stream.length ≤ State.reset.cfg.inLenMax ∧
    ([] : List Byte).length ≤ State.reset.cfg.inLenMax ∧
    after .soi (State.reset.decodeReset p1Stream) (fun t => t.phase) = some .headers ∧
    after .soi (State.reset.decodeReset []) (fun t => t.phase) = some .done := by decide +kernel

theorem witness_DecodeEndsDone : State.reset.ready = true ∧ ([] : List Byte).length ≤ State.reset.cfg.inLenMax ∧
    after (.decode p1Stream 148) State.reset (fun t => t.error) = some .ok := by decide +kernel

theorem witness_DecodeCompletes : State.reset.ready = true ∧ (List.replicate 64 (1 : Byte)).length = 64 ∧
    allocGrants State.reset.cfg (64 * (((65535 : Half).toNat + 7) / 8) * (((65535 : Half).toNat + 7) / 8)) 0 = true ∧
    152 ≤ State.reset.cfg.inLenMax := by decide +kernel

theorem witness_DecodeIsItsEngineSteps : State.reset.ready = true ∧
    ([0xFF] : List Byte).length ≤ State.reset.cfg.inLenMax ∧
    after (.decode [0xFF] 1) State.reset (fun t => t.phase) = some .done := by decide +kernel

theorem witness_HostRegisters : State.reset.cmd = none ∧ (8 : Nat) * 8 * 3 < 2 ^ 32 ∧
    State.reset.result ≠ .ended .ok ∧ p1.ready = false := by decide

/-- A command taken up, an instruction between markers, one in the scan, and a conversion: every invariant holds
before, and a next state follows. -/
theorem witness_StepKeepsMemoryForm :
    [commanded, lastSos, scanning .dc [] [0xA8, 0x3F], narrow].all (fun s =>
      s.memoryWf && (nextOf (step s)).isSome) = true := by decide +kernel

theorem witness_StepKeepsReaderBounds : lastSos.inputOk ∧ lastSos.accOk ∧
    (scanning .dc [] [0xA8, 0x3F]).inputOk ∧ (scanning .dc [] [0xA8, 0x3F]).accOk :=
  ⟨witness_TopLoopTurns.2.1, show (0 : Nat) ≤ 31 by decide, inputOk_of [0xA8, 0x3F] rfl (by decide) (.inr rfl),
    show (0 : Nat) ≤ 31 by decide⟩

theorem witness_StepKeepsFrame : lastSos.frameOk ∧ (scanning .dc [] [0xA8, 0x3F]).frameOk := by
  have h1 := gray_laidOut zeroTable zeroTable (Buffer.fresh 64) rfl
  have h2 := gray_laidOut dcTable acTable (Buffer.fresh 64) rfl
  exact ⟨⟨fun _ => .inr ⟨rfl, h1⟩, fun _ => h1, rfl⟩, ⟨fun h => absurd (show Phase.scan = .headers from h) (by decide), fun _ => h2, rfl⟩⟩

theorem witness_StepKeepsOwnedState : lastSos.cmd = none ∧ (State.reset.abort .syntaxError).error ≠ .ok ∧
    (scanning .dc [] []).phase = .scan ∧ ¬ (lastSos.phase = .convert ∧ lastSos.result = .ended .ok) := by
  decide +kernel

end Sys2Proof.Tests
end

/-! ### The escape the bit reader takes next (R89, R111) -/

namespace Sys2Proof.Machine

/-- A byte of a run of the input is the byte InByte reads there. -/
theorem inByte_of_bytesAt {s : State} {i n j : Nat} {v : Byte} (hw : s.inp.wf = true)
    (hj : (s.inp.mem.bytesAt i n)[j]? = some v) : inByte (i + j) s = .ok v := by
  simp only [Buffer.wf, Bool.and_eq_true] at hw
  have hr := Memory.read_of_bytesAt hw.1 hj
  exact Buffer.get_ok .input (Memory.lt_of_read hw.2 hr) hr

/-- On a resident input a run from `S.pos` within `S.remaining` has every byte asked for (R22, R73). -/
theorem length_bytesAt_pos {s : State} (h : s.inputOk) {n : Nat} (hn : n ≤ s.remaining.toNat) :
    (s.inp.mem.bytesAt s.pos n).length = n := by
  obtain ⟨hw, hres, hpos, hrem⟩ := h
  simp only [Buffer.wf, Bool.and_eq_true] at hw
  refine Memory.length_bytesAt_of_resident hw.1 fun j hj => ?_
  obtain ⟨b, hb⟩ := hres (s.pos + j) (by omega)
  rw [hb]
  rfl

/-- The code of a restart marker is its fixed five bits and its number (R82). -/
theorem rstCode_extract {c : Byte} (h : codeIn 0xD0 0xD7 c = true) :
    (0b11010 : BitVec 5) ++ c.extractLsb' 0 3 = c := by
  have key : ∀ c : Byte, codeIn 0xD0 0xD7 c = true → (0b11010 : BitVec 5) ++ c.extractLsb' 0 3 = c := by
    decide
  exact key c h

/-- REFILL past the end of the input is the filler (R111). -/
theorem refill_ended {s : State} (h : s.remaining ≤ 0) : conclude (refillOp s) = exec .ecsFiller s := by
  simp [refillOp, h, conclude, exec, execEcsFiller]

/-- REFILL on a byte other than 0xFF takes it as data (R111). -/
theorem refill_data {s : State} {b : Byte} (h : 0 < s.remaining) (hb : inByte s.pos s = .ok b) (hne : b ≠ 0xFF) :
    conclude (refillOp s) = exec (.ecsData b) s := by
  have hop : refillOp s = .ok (dataByte b s) := by
    simp only [refillOp, Int.not_le.mpr h, hb, hne, if_true, if_false, ne_eq, not_false_eq_true, bind, Except.bind,
      pure, Except.pure]
  rw [hop]
  rfl

/-- REFILL on a final 0xFF (R116). -/
theorem refill_ffLast {s : State} (h : s.remaining = 1) (hb : inByte s.pos s = .ok 0xFF) :
    conclude (refillOp s) = exec .ecsFfLast s := by
  simp [refillOp, h, hb, dataByte, bind, Except.bind, exec, execEcsFfLast]

/-- REFILL on 0xFF and a second byte is the escape of the two (R89, R111 to R115). -/
theorem refill_escape {s : State} {c : Byte} (h : 2 ≤ s.remaining) (hb : inByte s.pos s = .ok 0xFF)
    (hc : inByte (s.pos + 1) s = .ok c) : conclude (refillOp s) = exec (decodeEscape c) s := by
  have hop : refillOp s = if c = 0x00 then .ok (takeEscape s) else if c = 0xFF then .ok (takeEscape s)
      else if c = 0xD9 then .ok (eoiEscape s) else if codeIn 0xD0 0xD7 c then .ok (rstEscape c s)
      else otherMarker s := by
    simp [refillOp, show ¬ s.remaining ≤ 0 by omega, hb, hc, dataByte, show ¬ s.remaining ≤ 1 by omega, bind,
      Except.bind, pure, Except.pure]
  rw [hop]
  unfold decodeEscape
  split
  · rfl
  split
  · rfl
  split
  · rfl
  split
  · rename_i hrst
    show Host.Outcome.next (rstEscape c s) = Host.Outcome.next (rstEscape _ s)
    rw [rstCode_extract hrst]
  · rfl

/-- REFILL is the escape the decoder reads from the bytes that remain at `S.pos`, two at most (R17, R111). -/
theorem exec_nextEscape {s : State} (h : s.inputOk) : exec (nextEscape s) s = conclude (refillOp s) := by
  have hlen := length_bytesAt_pos h (Nat.min_le_left s.remaining.toNat 2)
  have hbyte : ∀ {j v}, (s.inp.mem.bytesAt s.pos (min s.remaining.toNat 2))[j]? = some v →
      inByte (s.pos + j) s = .ok v := inByte_of_bytesAt h.1
  unfold nextEscape
  revert hlen hbyte
  generalize s.inp.mem.bytesAt s.pos (min s.remaining.toNat 2) = bytes
  intro hlen hbyte
  match bytes with
  | [] =>
    rw [List.length_nil] at hlen
    exact (refill_ended (by omega)).symm
  | b :: rest =>
    rw [List.length_cons] at hlen
    have hb : inByte s.pos s = .ok b := hbyte (j := 0) rfl
    by_cases hff : b = 0xFF
    · subst hff
      match rest with
      | [] =>
        rw [List.length_nil] at hlen
        exact (refill_ffLast (by omega) hb).symm
      | c :: after =>
        rw [List.length_cons] at hlen
        exact (refill_escape (by omega) hb (hbyte (j := 1) rfl)).symm
    · simp only [refill_data (by omega) hb hff, decodeEcs, hff, if_false]

/-- Settles O14: by cases on the bytes left at `S.pos`, none, one or two. -/
theorem refillIsTheNextEscape : Obligations.RefillIsTheNextEscape := by
  intro s i rest hin hdec
  have hi : nextEscape s = i := by
    simp only [decode, Except.ok.injEq] at hdec
    rw [nextEscape, hdec]
  rw [← hi, exec_nextEscape hin]
  rfl

end Sys2Proof.Machine

/-! ### What a step runs (R13, R25, R31, R141, R182, R190) -/

namespace Sys2Proof.Machine

/-- After an instruction that ends no loop turn the step adds nothing. -/
theorem settled_of_settle {i : Instr} (h : ∀ t, settle i t = t) (o : Host.Outcome State Fault Refusal) :
    settled i o = o := by
  cases o with
  | next t => exact congrArg Host.Outcome.next (h t)
  | fault f => rfl
  | refused r => rfl

/-- What the step adds after an operation is an operation of its own; an aborted one ends as it is. -/
theorem settled_conclude {i : Instr} {m : Eng State} {f : State → Eng State}
    (h : Post m (fun t => conclude (f t) = .next (settle i t)) (fun t => settle i t = t) True) :
    settled i (conclude m) = conclude (m >>= f) := by
  match m, h with
  | .ok t, h => exact h.symm
  | .error (.aborted t), h => exact congrArg Host.Outcome.next h
  | .error (.fault r), _ => rfl

/-! #### Between markers -/

/-- What the decoder answers at the marker level (R82, R97, R141): a segment, a payload of tables or of a
frame well formed, or an instruction that ends the command. -/
inductive TopInstr : Instr → Prop where
  | sof0 {seg : Framed SofBody} (h : seg.wf SofBody.size SofBody.wf = true) : TopInstr (.sof0 seg)
  | dht {seg : Framed DhtBody} (h : seg.wf DhtBody.size DhtBody.wf = true) : TopInstr (.dht seg)
  | dqt {seg : Framed DqtBody} (h : seg.wf DqtBody.size DqtBody.wf = true) : TopInstr (.dqt seg)
  | dri (seg : Framed DriBody) : TopInstr (.dri seg)
  | sos (seg : Framed SosBody) : TopInstr (.sos seg)
  | appn (n : Nibble) (seg : Framed (List Byte)) : TopInstr (.appn n seg)
  | com (seg : Framed (List Byte)) : TopInstr (.com seg)
  | eoiTop : TopInstr .eoiTop
  | notAMarker (b0 b1 : Byte) : TopInstr (.notAMarker b0 b1)
  | unsupported {i : Instr} (hsos : isSos i = false) (hsettle : ∀ t, settle i t = t)
      (hop : ∀ s, markerOp i s = refusedMarker .unsupported s)
      (hexec : ∀ s, exec i s = conclude (refusedMarker .unsupported s)) : TopInstr i

theorem TopInstr.ite {p : Prop} [Decidable p] {a b : Instr × List Byte} (ha : TopInstr a.1) (hb : TopInstr b.1) :
    TopInstr (if p then a else b).1 := by
  split
  · exact ha
  · exact hb

theorem topInstr_decodeMarker (c : Byte) (rest : List Byte) : TopInstr (decodeMarker c rest).1 := by
  unfold decodeMarker
  refine .ite (.sof0 (parseFrame_wf parseSof_wf length_encodeSof rest).1) ?_
  refine .ite (.dht (parseFrame_wf parseDht_wf length_encodeDht rest).1) ?_
  refine .ite (.dqt (parseFrame_wf parseDqt_wf length_encodeDqt rest).1) ?_
  refine .ite (.dri _) (.ite (.sos _) (.ite (.appn _ _) (.ite (.com _) (.ite .eoiTop ?_))))
  repeat' refine TopInstr.ite ?_ ?_
  all_goals exact .unsupported rfl (fun _ => rfl) (fun _ => rfl) fun _ => rfl

theorem topInstr_of_decodeTop {bs : List Byte} {r : Instr × List Byte} (h : decodeTop bs = .ok r) :
    TopInstr r.1 := by
  match bs with
  | [] => cases h
  | [_] => cases h
  | b0 :: b1 :: rest =>
    simp only [decodeTop, Except.ok.injEq] at h
    subst h
    split
    · exact topInstr_decodeMarker b1 rest
    · exact .notAMarker b0 b1

/-- An instruction of the marker level is the case of TOPLOOP it stands for. -/
theorem TopInstr.exec_eq {i : Instr} (h : TopInstr i) (s : State) : exec i s = conclude (markerOp i s) := by
  cases h with
  | unsupported _ _ hop hexec => rw [hop, hexec]
  | _ => rfl

theorem TopInstr.settle_eq {i : Instr} (h : TopInstr i) (t : State) : settle i t = t := by
  cases h with
  | unsupported _ hsettle _ _ => exact hsettle t
  | _ => rfl

theorem fetch_headers {s : State} (hp : s.phase = .headers) (hc : s.cmd = none) : fetch s = fetchMarker s := by
  simp [fetch, hp, hc]

/-- At the start of the stream a step is the SOI check. -/
theorem step_soi {s : State} (hp : s.phase = .headers) (hc : s.cmd = none) (hpos : s.pos = 0) :
    step s = conclude (soiOp s) := by
  have hf : fetch s = .run .soi := by rw [fetch_headers hp hc, fetchMarker, if_pos hpos]
  rw [step, hf]
  exact settled_of_settle (fun _ => rfl) _

/-- Past it a step is one turn of TOPLOOP. -/
theorem step_marker {s : State} {r : Instr × List Byte} (hp : s.phase = .headers) (hc : s.cmd = none)
    (hpos : s.pos ≠ 0) (hd : decodeTop s.bytesLeft = .ok r) : step s = conclude (markerOp r.1 s) := by
  have hf : fetch s = .run r.1 := by simp only [fetch_headers hp hc, fetchMarker, if_neg hpos, hd]
  have ht := topInstr_of_decodeTop hd
  rw [step, hf, ← ht.exec_eq]
  exact settled_of_settle ht.settle_eq _

theorem step_noMarker {s : State} {e : DecodeError} (hp : s.phase = .headers) (hc : s.cmd = none)
    (hpos : s.pos ≠ 0) (hd : decodeTop s.bytesLeft = .error e) : step s = conclude (raise .syntaxError s) := by
  have hf : fetch s = .noMarker := by simp only [fetch_headers hp hc, fetchMarker, if_neg hpos, hd]
  rw [step, hf]
  rfl

/-! #### In the scan -/

/-- A symbol whose code is consumed: its magnitude bits, then what `use` makes of symbol and value (R180). -/
def symbolOp (use : Byte → Word → State → Eng State) (sym : Byte) (s : State) : Eng State := do
  let m ← magnitudeOp (sym.toNat % 16) s
  use sym m.1 m.2

/-- The symbol at the head of sixteen or more bits, read with slot h; a window with no code is a miss (R180). -/
def headSymbolOp (h : Fin 4) (use : Byte → Word → State → Eng State) (s : State) : Eng State :=
  let e := HuffTable.lookup (s.ht.get h) (bitsNat (s.acc.take 16))
  if e.len = 0 then raise .syntaxError s else symbolOp use e.sym (s.dropBits e.len.val)

theorem toNat_loNibble (b : Byte) : (loNibble b).toNat = b.toNat % 16 := by
  simp [loNibble]

theorem toNat_hiNibble (b : Byte) : (hiNibble b).toNat = b.toNat / 16 := by
  have := b.isLt
  simp only [hiNibble, BitVec.extractLsb'_toNat, Nat.shiftRight_eq_div_pow]
  omega

/-- The instruction of a DC symbol is DECODE_BLOCK's DC step (R185). -/
theorem exec_dcSymbol (sym : Byte) (s : State) :
    exec (decodeDcSymbol sym) s = conclude (symbolOp (fun _ v t => dcValueOp v t) sym s) := by
  rw [symbolOp, ← toNat_loNibble]
  rfl

/-- The instruction of an AC symbol is a turn of the AC loop (R182, R186, R187). -/
theorem exec_acSymbol (sym : Byte) (s : State) :
    exec (decodeAcSymbol sym) s = conclude (symbolOp acSymbolOp sym s) := by
  unfold decodeAcSymbol
  split
  · subst sym
    rfl
  · rename_i hne
    split
    · subst sym
      rfl
    · rename_i hzrl
      split
      · rename_i hlo
        have hmod : sym.toNat % 16 = 0 := by rw [← toNat_loNibble, hlo]; rfl
        have hop : symbolOp acSymbolOp sym s = raise .syntaxError s := by
          simp only [symbolOp, magnitudeOp, hmod, if_true, bind, Except.bind, acSymbolOp, hne, hzrl, if_false,
            ne_eq, not_false_eq_true, and_self]
        rw [hop]
        rfl
      · rename_i hlo
        have hmod : sym.toNat % 16 ≠ 0 := fun h => hlo (BitVec.eq_of_toNat_eq (by rw [toNat_loNibble, h]; rfl))
        have hop : ∀ v t, acSymbolOp sym v t = acRunOp (hiNibble sym).toNat v t := fun v t => by
          simp only [acSymbolOp, hne, hmod, if_false, false_and, toNat_hiNibble]
        simp only [symbolOp, hop, ← toNat_loNibble]
        rfl

/-- The engine reads a symbol with slot h next, and `use` says what the symbol does. -/
structure ReadsSymbol (h : Fin 4) (use : Byte → Word → State → Eng State) (s : State) : Prop where
  fetched : ∃ read : Byte → Instr, fetch s = nextSymbol h read s ∧
    ∀ sym t, exec (read sym) t = conclude (symbolOp use sym t) ∧ settle (read sym) t = t

theorem fetch_scan {s : State} (hp : s.phase = .scan) (hc : s.cmd = none) : fetch s = fetchScan s := by
  simp [fetch, hp, hc]

theorem settle_acSymbol (sym : Byte) (t : State) : settle (decodeAcSymbol sym) t = t := by
  unfold decodeAcSymbol
  repeat' split
  all_goals rfl

theorem readsSymbol_dc {s : State} {c : Comp} (hp : s.phase = .scan) (hc : s.cmd = none)
    (hst : s.seq.stage = .dc) (hk : s.comps[s.seq.k]? = some c) :
    ReadsSymbol c.dcsel.toFin (fun _ v t => dcValueOp v t) s :=
  ⟨decodeDcSymbol, by simp only [fetch_scan hp hc, fetchScan, hst, hk], fun sym t => ⟨exec_dcSymbol sym t, rfl⟩⟩

theorem readsSymbol_ac {s : State} {c : Comp} (hp : s.phase = .scan) (hc : s.cmd = none)
    (hst : s.seq.stage = .ac) (hk : s.comps[s.seq.k]? = some c) : ReadsSymbol c.acsel.toFin acSymbolOp s :=
  ⟨decodeAcSymbol, by simp only [fetch_scan hp hc, fetchScan, hst, hk],
    fun sym t => ⟨exec_acSymbol sym t, settle_acSymbol sym t⟩⟩

theorem settle_nextEscape (s t : State) : settle (nextEscape s) t = t := by
  unfold nextEscape decodeEcs decodeEscape
  repeat' split
  all_goals rfl

/-- With fewer than sixteen bits held the step takes the next escape. -/
theorem ReadsSymbol.step_escape {h : Fin 4} {use : Byte → Word → State → Eng State} {s : State}
    (hr : ReadsSymbol h use s) (hacc : s.acc.length < 16) : step s = exec (nextEscape s) s := by
  obtain ⟨read, hf, _⟩ := hr.fetched
  rw [nextSymbol, if_pos hacc] at hf
  rw [step, hf]
  exact settled_of_settle (settle_nextEscape s) _

/-- With sixteen or more it runs the symbol at their head. -/
theorem ReadsSymbol.step_symbol {h : Fin 4} {use : Byte → Word → State → Eng State} {s : State}
    (hr : ReadsSymbol h use s) (hacc : 16 ≤ s.acc.length) : step s = conclude (headSymbolOp h use s) := by
  obtain ⟨read, hf, hrun⟩ := hr.fetched
  rw [nextSymbol, if_neg (Nat.not_lt.mpr hacc)] at hf
  simp only at hf
  unfold headSymbolOp
  simp only
  split at hf
  · rename_i hmiss
    rw [if_pos hmiss, step, hf]
    rfl
  · rename_i hcode
    rw [if_neg hcode, step, hf, ← (hrun _ _).1]
    exact settled_of_settle (fun t => (hrun _ t).2) _

/-- A block's IDCT, after which the sequencer moves on to the next block (R189, R190). -/
def idctNextOp (k off : Nat) (s : State) : Eng State := do
  let t ← idctBlockOp k off s
  let c ← getComp k t
  return t.nextBlock c

theorem step_idct {s : State} {c : Comp} (hp : s.phase = .scan) (hc : s.cmd = none)
    (hst : s.seq.stage = .idct) (hk : s.comps[s.seq.k]? = some c) :
    step s = conclude (idctNextOp s.seq.k (blockOffset c s.mbx s.mby s.seq.sbx s.seq.sby) s) := by
  have hf : fetch s = .run (.idctBlock s.seq.k (blockOffset c s.mbx s.mby s.seq.sbx s.seq.sby)) := by
    simp only [fetch_scan hp hc, fetchScan, hst, hk]
  rw [step, hf]
  refine settled_conclude (Post.mono (idctBlock_post _ _ s fun _ => False) (fun t ht => ?_) (fun _ h => h.elim)
    fun _ => trivial)
  obtain ⟨_, _, hw⟩ := ht
  have hphase : t.phase = .scan := by rw [hw.frame]; exact hp
  obtain ⟨d, hd, _⟩ := hw.blocks.comp hk
  simp only [getComp_ok hd, bind, Except.bind, pure, Except.pure, conclude, settle, hphase, hd]

theorem step_restart {s : State} (hp : s.phase = .scan) (hc : s.cmd = none) (hst : s.seq.stage = .restart) :
    step s = conclude (do let t ← restartOp s; return t.startMcu) := by
  have hf : fetch s = .run .restart := by simp only [fetch_scan hp hc, fetchScan, hst]
  rw [step, hf]
  refine settled_conclude (Post.mono (restart_post s) (fun t ht => ?_) (fun t ht => ?_) fun _ => trivial)
  · obtain ⟨_, hphase, _⟩ := ht
    simp [settle, hphase, hp, conclude, pure, Except.pure]
  · obtain ⟨u, _, rfl⟩ := ht
    simp [settle]

/-- A step between scan and completion is CONVERT and the completion (R250, R255). -/
theorem step_convert {s : State} (hp : s.phase = .convert) (hc : s.cmd = none) :
    step s = conclude (do let t ← convertOp s; return t.finish) := by
  have hf : fetch s = .run .convert := by simp [fetch, hp, hc]
  rw [step, hf]
  refine settled_conclude (Post.mono (convert_post s) (fun t ht => ?_) (fun t ht => ?_) fun _ => trivial)
  · have hphase : t.phase = .convert := by rw [ht.1.frame]; exact hp
    simp [settle, hphase, conclude, pure, Except.pure]
  · obtain ⟨u, _, rfl⟩ := ht
    simp [settle]

end Sys2Proof.Machine

/-! ### What an instruction of the marker level leaves (R141 to R170) -/

namespace Sys2Proof.Machine

/-- The frame between markers: none, or a laid out one (R38, R40, R170). -/
def State.headerFrame (s : State) : Prop :=
  (s.frame = false ∧ s.noFrame) ∨ (s.frame = true ∧ s.frameLaidOut)

theorem SameFrame.headerFrame {s t : State} (h : SameFrame s t) (hs : s.headerFrame) : t.headerFrame := by
  obtain ⟨hframe, _, hw, hh, hn, hhm, hvm, hmw, hmh, hcomps, hrgb, _⟩ := h
  simp only [State.headerFrame, State.noFrame, State.frameLaidOut, State.laidOut] at hs ⊢
  rw [hframe, hw, hh, hn, hhm, hvm, hmw, hmh, hcomps, hrgb]
  exact hs

/-- What a marker other than SOS leaves: the phase, and a frame as it stands between markers. -/
def KeepsHeaders (s t : State) : Prop :=
  t.phase = s.phase ∧ (s.headerFrame → t.headerFrame)

theorem SameFrame.keepsHeaders {s t : State} (h : SameFrame s t) : KeepsHeaders s t :=
  ⟨h.2.1, h.headerFrame⟩

/-- What SOS leaves: the scan at its first block, over a laid out frame. -/
def StartsScan (s t : State) : Prop :=
  t.phase = .scan ∧ t.startScan = t ∧ (s.headerFrame → t.frameLaidOut)

/-- t is s after a marker that lies in the input, and Q holds of the two. -/
def Takes (Q : State → State → Prop) (s t : State) : Prop :=
  ∃ d : Nat, 0 < d ∧ (d : Int) ≤ s.remaining ∧ Parses d s t ∧ Q s t

/-- An aborted marker. -/
def MarkerAborts (s t : State) : Prop :=
  ∃ n, ParseAborts n s t

/-- A segment whose body stays in its payload stays in the input. -/
theorem segment_takes {α : Type} {seg : Framed α} {size : α → Nat} {body : α → State → Eng State} {s : State}
    {Q : State → State → Prop}
    (hb : ∀ a, seg = .ok a → Post (body a ((s.skip 2).skip 2))
      (fun u => Parses (size a) ((s.skip 2).skip 2) u ∧ Q s u) (ParseAborts (size a) ((s.skip 2).skip 2)) True) :
    Post (segmentOp seg size body s) (Takes Q s) (MarkerAborts s) True := by
  refine Post.mono (segment_post (yes := Takes Q s) (ft := True) fun a t hseg hp ht hsize => ?_) (fun _ h => h)
    (fun t ht => ?_) id
  · subst ht
    refine (hb a hseg).imp fun u hu => ⟨4 + size a, by omega, ?_, hp.trans hu.1, hu.2⟩
    have := hp.remaining
    push_cast at this ⊢
    omega
  · obtain ⟨n, _, hn⟩ := ht
    exact ⟨n, hn⟩

/-- A segment whose body leaves the frame alone. -/
theorem segment_sameFrame {α : Type} {seg : Framed α} {size : α → Nat} {body : α → State → Eng State} (s : State)
    (hb : ∀ a t, seg = .ok a → Post (body a t) (fun u => Parses (size a) t u ∧ SameFrame t u)
      (ParseAborts (size a) t) False) :
    Post (segmentOp seg size body s) (Takes KeepsHeaders s) (MarkerAborts s) True :=
  segment_takes fun a hseg => (hb a _ hseg).mono
    (fun _ hu => ⟨hu.1, (((sameFrame_skip 2 s).trans (sameFrame_skip 2 _)).trans hu.2).keepsHeaders⟩)
    (fun _ h => h) False.elim

theorem Framed.wf_ok {α : Type} {size : α → Nat} {body : α → Bool} {seg : Framed α} {a : α}
    (h : seg.wf size body = true) (ha : seg = .ok a) : body a = true := by
  subst ha
  simp only [Framed.wf, Bool.and_eq_true] at h
  exact h.1

theorem headerFrame_skip {s : State} {n : Nat} (h : s.headerFrame) : (s.skip n).headerFrame :=
  (sameFrame_skip n s).headerFrame h

theorem sof0_post {seg : Framed SofBody} (hseg : seg.wf SofBody.size SofBody.wf = true) (s : State) :
    Post (sof0Op seg s) (Takes KeepsHeaders s) (MarkerAborts s) True := by
  refine segment_takes fun b hb => (sofBody_post b (Framed.wf_ok hseg hb) _).mono (fun t ht => ?_) (fun _ h => h)
    fun _ => trivial
  obtain ⟨hp, hno, hframe, hphase, hlaid⟩ := ht
  refine ⟨hp, hphase, fun hs => .inr ⟨hframe, ?_⟩⟩
  rcases headerFrame_skip (n := 2) (headerFrame_skip (n := 2) hs) with ⟨_, hnone⟩ | ⟨hyes, _⟩
  · exact (hlaid hnone).1
  · rw [hno] at hyes
    cases hyes

/-- SOS ends with the scan at its start (R160, R190). -/
theorem sosBody_startScan (b : SosBody) (s : State) :
    Post (sosBodyOp b s) (fun t => t.startScan = t) (fun _ => True) True := by
  unfold sosBodyOp
  split
  · trivial
  split
  · trivial
  split
  · trivial
  split
  · trivial
  rw [post_bind]
  refine Post.mono (sosSels_post _ 0 (s.skip 1)) (fun t _ => ?_) (fun _ _ => trivial) fun _ => trivial
  split
  · trivial
  split
  · trivial
  · rfl

theorem sos_post (seg : Framed SosBody) (s : State) :
    Post (sosOp seg s) (Takes StartsScan s) (MarkerAborts s) True := by
  refine segment_takes fun b hb => ((sosBody_post b _).and (sosBody_startScan b _)).mono (fun t ht => ?_)
    (fun _ h => h.1) fun _ => trivial
  obtain ⟨⟨hp, hframe, _, hphase, hcomps, _, hrgb, hn, hw, hh, hhm, hvm, hmw, hmh⟩, hstart⟩ := ht
  refine ⟨hp, hphase, hstart, fun hs => ?_⟩
  rcases headerFrame_skip (n := 2) (headerFrame_skip (n := 2) hs) with ⟨hno, _⟩ | ⟨_, hlaid⟩
  · rw [hframe] at hno
    cases hno
  · exact laidOut_of_unselected hlaid hcomps hn hw hh hhm hvm hmw hmh hrgb

theorem refusedMarker_aborts {code : Code} (hcode : code ≠ .ok) (s : State) (yes : State → Prop) :
    Post (refusedMarker code s) yes (MarkerAborts s) True :=
  ⟨2, s.skip 2, 2, code, Nat.le_refl 2, parses_skip 2 s, hcode, rfl⟩

/-- A marker parses some of the input and leaves the frame as the next one finds it, SOS the scan started. -/
theorem marker_post {i : Instr} (h : TopInstr i) (s : State) :
    Post (markerOp i s) (Takes (if isSos i then StartsScan else KeepsHeaders) s) (MarkerAborts s) True := by
  cases h with
  | sof0 hseg => exact sof0_post hseg s
  | dht hseg => exact segment_sameFrame s fun b t hb => dht_post b (Framed.wf_ok hseg hb) t
  | dqt hseg => exact segment_sameFrame s fun b t hb => dqt_post b (Framed.wf_ok hseg hb) t
  | dri seg => exact segment_sameFrame s fun b t _ => dri_post b t
  | sos seg => exact sos_post seg s
  | appn n seg => exact segment_sameFrame s fun p t _ => skipSeg_post p t
  | com seg => exact segment_sameFrame s fun p t _ => skipSeg_post p t
  | eoiTop => exact refusedMarker_aborts (by decide) s _
  | notAMarker b0 b1 => exact ⟨0, parseAborts_here (by decide)⟩
  | unsupported hsos hsettle hop hexec =>
    rw [hop]
    exact refusedMarker_aborts (by decide) s _

/-- The SOI check takes two bytes, or ends the command with NOT_A_JPEG (R140). -/
theorem soi_post (s : State) :
    Post (soiOp s) (fun t => t = s.skip 2 ∧ 2 ≤ s.inp.size) (fun t => t = s.abort .notAJpeg) True := by
  unfold soiOp
  split
  · rfl
  · rw [post_bind]
    refine (Buffer.get_any s.inp .input 0 _).imp fun b0 _ => ?_
    rw [post_bind]
    refine (Buffer.get_any s.inp .input 1 _).imp fun b1 _ => ?_
    split
    · rfl
    · exact ⟨rfl, by omega⟩

end Sys2Proof.Machine

/-! ### The canonical form of memory (R12, R60, R69) -/

namespace Sys2Proof.Machine

theorem memoryWf_abort {s : State} (code : Code) (h : s.memoryWf = true) : (s.abort code).memoryWf = true := by
  simp only [State.memoryWf, Bool.and_eq_true] at h
  simp [State.memoryWf, h.1.1, optBufferWf]

theorem memoryWf_decodeReset (buf : List Byte) (s : State) : (s.decodeReset buf).memoryWf = true := by
  simp [State.memoryWf, Buffer.wf_ofBytes, optBufferWf, State.reset]

/-- The operation leaves memory in canonical form, whether it answers or aborts. -/
def LeavesMemoryWf (m : Eng State) : Prop :=
  Post m (fun t => t.memoryWf = true) (fun t => t.memoryWf = true) True

theorem LeavesMemoryWf.keeps {m : Eng State} (h : LeavesMemoryWf m) :
    Keeps (conclude m) fun t => t.memoryWf = true :=
  keeps_of_post h

theorem leavesMemoryWf_raise {s : State} (code : Code) (h : s.memoryWf = true) :
    LeavesMemoryWf (raise code s) :=
  memoryWf_abort code h

theorem EntropyAborts.memory {s t : State} (h : EntropyAborts s t) (hm : s.memoryWf = true) :
    t.memoryWf = true := by
  obtain ⟨u, hu, _, rfl⟩ := h
  exact memoryWf_abort _ (hu.memory hm)

theorem BlockAborts.memory {s t : State} (h : BlockAborts s t) (hm : s.memoryWf = true) : t.memoryWf = true := by
  obtain ⟨u, hu, rfl⟩ := h
  exact memoryWf_abort _ (hu.memory hm)

theorem ScanAborts.memory {s t : State} (h : ScanAborts s t) (hm : s.memoryWf = true) : t.memoryWf = true := by
  obtain ⟨u, hu, rfl⟩ := h
  exact memoryWf_abort _ (hu.memory hm)

theorem MarkerAborts.memory {s t : State} (h : MarkerAborts s t) (hm : s.memoryWf = true) : t.memoryWf = true := by
  obtain ⟨n, u, d, code, _, hu, _, rfl⟩ := h
  exact memoryWf_abort _ (hu.memory hm)

theorem ConvertAborts.memory {s t : State} (h : ConvertAborts s t) (hm : s.memoryWf = true) :
    t.memoryWf = true := by
  obtain ⟨u, hu, rfl⟩ := h
  exact memoryWf_abort _ (hu.memory hm)

/-! #### Between markers -/

theorem soi_memory {s : State} (h : s.memoryWf = true) : LeavesMemoryWf (soiOp s) :=
  (soi_post s).mono (fun _ ht => ht.1 ▸ h) (fun _ ha => ha ▸ memoryWf_abort _ h) id

theorem marker_memory {i : Instr} (hi : TopInstr i) {s : State} (h : s.memoryWf = true) :
    LeavesMemoryWf (markerOp i s) :=
  (marker_post hi s).mono (fun _ ⟨_, _, _, hp, _⟩ => hp.memory h) (fun _ ha => ha.memory h) id

theorem step_headers_memory {s : State} (hp : s.phase = .headers) (hc : s.cmd = none) (h : s.memoryWf = true) :
    Keeps (step s) fun t => t.memoryWf = true := by
  by_cases hpos : s.pos = 0
  · rw [step_soi hp hc hpos]
    exact (soi_memory h).keeps
  · cases hd : decodeTop s.bytesLeft with
    | error e =>
      rw [step_noMarker hp hc hpos hd]
      exact (leavesMemoryWf_raise _ h).keeps
    | ok r =>
      rw [step_marker hp hc hpos hd]
      exact (marker_memory (topInstr_of_decodeTop hd) h).keeps

/-! #### In the scan -/

/-- An escape moves the reader, or aborts: it touches no buffer. -/
theorem exec_decodeEcs_memory (bytes : List Byte) {s : State} (h : s.memoryWf = true) :
    Keeps (exec (decodeEcs bytes).1 s) fun t => t.memoryWf = true := by
  have hescape : ∀ c, Keeps (exec (decodeEscape c) s) fun t => t.memoryWf = true := by
    intro c t ht
    unfold decodeEscape at ht
    split at ht
    · cases ht; exact h
    split at ht
    · cases ht; exact h
    split at ht
    · cases ht; exact h
    split at ht
    · cases ht; exact h
    · cases ht; exact memoryWf_abort (s := takeEscape s) _ h
  match bytes with
  | [] => intro t ht; cases ht; exact h
  | b :: rest =>
    by_cases hff : b = 0xFF
    · subst hff
      match rest with
      | [] => intro t ht; cases ht; exact memoryWf_abort (s := dataByte 0xFF s) _ h
      | c :: after => exact hescape c
    · intro t ht
      simp only [decodeEcs, hff, if_false] at ht
      cases ht
      exact h

theorem headSymbol_memory {h : Fin 4} {use : Byte → Word → State → Eng State} {s : State}
    (huse : ∀ sym v t, t.memoryWf = true → LeavesMemoryWf (use sym v t)) (hm : s.memoryWf = true) :
    LeavesMemoryWf (headSymbolOp h use s) := by
  unfold headSymbolOp
  simp only
  split
  · exact leavesMemoryWf_raise _ hm
  · refine (post_bind _ _ _ _ _).mpr ((magnitude_post _ _ (by omega)).mono (fun m hr => ?_)
      (fun t ha => ha.memory hm) fun _ => trivial)
    exact huse _ _ _ (hr.1.memory hm)

theorem ReadsSymbol.step_memory {h : Fin 4} {use : Byte → Word → State → Eng State} {s : State}
    (hr : ReadsSymbol h use s) (huse : ∀ sym v t, t.memoryWf = true → LeavesMemoryWf (use sym v t))
    (hm : s.memoryWf = true) : Keeps (step s) fun t => t.memoryWf = true := by
  rcases Nat.lt_or_ge s.acc.length 16 with hacc | hacc
  · rw [hr.step_escape hacc]
    exact exec_decodeEcs_memory _ hm
  · rw [hr.step_symbol hacc]
    exact (headSymbol_memory huse hm).keeps

theorem dcValue_memory (d : Word) {s : State} (h : s.memoryWf = true) : LeavesMemoryWf (dcValueOp d s) :=
  (dcValue_post d s _).mono (fun _ ht => ht.1.memory h) (fun _ ha => ha) fun _ => trivial

theorem acSymbol_memory (sym : Byte) (v : Word) {s : State} (h : s.memoryWf = true) :
    LeavesMemoryWf (acSymbolOp sym v s) :=
  (acSymbol_post sym v s).mono (fun _ ht => ht.1.memory h) (fun _ ha => ha.memory h) fun _ => trivial

theorem scans_nextBlock (c : Comp) (s : State) : Scans s (s.nextBlock c) := by
  unfold State.nextBlock
  simp only
  split
  · exact (blocks_scratch s _ _).scans
  split
  · exact (blocks_scratch s _ _).scans
  split
  · exact (blocks_scratch s _ _).scans
  · exact scans_afterMcu s

theorem idctNext_memory (k off : Nat) {s : State} (h : s.memoryWf = true) :
    LeavesMemoryWf (idctNextOp k off s) := by
  unfold idctNextOp LeavesMemoryWf
  rw [post_bind]
  refine (idctBlock_post k off s _).mono (fun t ht => ?_) (fun _ ha => ha) fun _ => trivial
  obtain ⟨_, _, hw⟩ := ht
  have hmem : t.memoryWf = true := hw.memory (memoryWf_of_buffers (s := s) rfl rfl rfl h)
  rw [post_bind]
  exact (getComp_post k t _).mono (fun c _ => (scans_nextBlock c t).memory hmem) (fun _ ha => ha) fun _ => trivial

theorem restart_memory {s : State} (h : s.memoryWf = true) :
    LeavesMemoryWf (do let t ← restartOp s; return t.startMcu) :=
  (post_bind _ _ _ _ _).mpr
    ((restart_post s).mono (fun _ ht => ht.1.memory h) (fun _ ha => ha.memory h) fun _ => trivial)

theorem step_scan_memory {s : State} (hp : s.phase = .scan) (hc : s.cmd = none) (h : s.memoryWf = true) :
    Keeps (step s) fun t => t.memoryWf = true := by
  cases hk : s.comps[s.seq.k]? with
  | none =>
    cases hst : s.seq.stage with
    | restart =>
      rw [step_restart hp hc hst]
      exact (restart_memory h).keeps
    | _ =>
      have hf : fetch s = .broken .noComponent := by simp only [fetch_scan hp hc, fetchScan, hst, hk]
      intro t ht
      rw [step, hf] at ht
      cases ht
  | some c =>
    cases hst : s.seq.stage with
    | dc => exact (readsSymbol_dc hp hc hst hk).step_memory (fun _ v _ => dcValue_memory v) h
    | ac => exact (readsSymbol_ac hp hc hst hk).step_memory (fun sym v _ => acSymbol_memory sym v) h
    | idct =>
      rw [step_idct hp hc hst hk]
      exact (idctNext_memory _ _ h).keeps
    | restart =>
      rw [step_restart hp hc hst]
      exact (restart_memory h).keeps

/-! #### Every phase -/

theorem convertFinish_memory {s : State} (h : s.memoryWf = true) :
    LeavesMemoryWf (do let t ← convertOp s; return t.finish) :=
  (post_bind _ _ _ _ _).mpr
    ((convert_post s).mono (fun _ ht => ht.1.memory h) (fun _ ha => ha.memory h) fun _ => trivial)

/-- With no DECODE in progress and none issued a step does nothing (R287). -/
theorem step_quiet {s : State} (hp : s.phase = .idle ∨ s.phase = .done) (hc : s.cmd = none) : step s = .next s := by
  rcases hp with hp | hp <;> simp [step, fetch, hp, hc]

/-- With none in progress it takes up the command the host has issued (R300). -/
theorem step_accept {s : State} {c : Command} (hp : s.phase = .idle ∨ s.phase = .done) (hc : s.cmd = some c) :
    step s = acceptCommand c s := by
  rcases hp with hp | hp <;> simp [step, fetch, hp, hc]

theorem acceptCommand_memory (c : Command) (s : State) : Keeps (acceptCommand c s) fun t => t.memoryWf = true := by
  intro t ht
  unfold acceptCommand at ht
  split at ht
  · cases ht
    exact memoryWf_decodeReset _ _
  · cases ht

theorem step_ready_memory {s : State} (hp : s.phase = .idle ∨ s.phase = .done) (h : s.memoryWf = true) :
    Keeps (step s) fun t => t.memoryWf = true := by
  cases hc : s.cmd with
  | none =>
    intro t ht
    rw [step_quiet hp hc] at ht
    cases ht
    exact h
  | some c =>
    rw [step_accept hp hc]
    exact acceptCommand_memory c s

/-- A second command while one is in progress is refused (R72). -/
theorem step_overlap {s : State} {c : Command} (hp : ¬ (s.phase = .idle ∨ s.phase = .done))
    (hc : s.cmd = some c) : step s = .refused .overlappingDecode := by
  cases hphase : s.phase <;> simp_all [step, fetch]

/-- Settles O56, phase by phase: each operation a step runs writes the byte spaces through the canonical writes,
replaces a plane by a canonical one, or leaves them alone. -/
theorem stepKeepsMemoryForm : Obligations.StepKeepsMemoryForm := by
  intro s h
  by_cases hready : s.phase = .idle ∨ s.phase = .done
  · exact step_ready_memory hready h
  cases hc : s.cmd with
  | some c =>
    intro t ht
    rw [step_overlap hready hc] at ht
    cases ht
  | none =>
    cases hp : s.phase with
    | idle => exact absurd (.inl hp) hready
    | done => exact absurd (.inr hp) hready
    | headers => exact step_headers_memory hp hc h
    | scan => exact step_scan_memory hp hc h
    | convert =>
      rw [step_convert hp hc]
      exact (convertFinish_memory h).keeps

end Sys2Proof.Machine

/-! ### A block's position in its MCU matters to no operation of the block (R182, log 10) -/

namespace Sys2Proof.Machine

/-- The sequencer at block (x, y) of its component. -/
def State.onBlock (y x : Nat) (s : State) : State :=
  { s with seq := { s.seq with sby := y, sbx := x } }

section
variable (y x : Nat)

theorem getComp_onBlock (k : Nat) (s : State) : getComp k (s.onBlock y x) = getComp k s := rfl

theorem refill_onBlock (s : State) : refillOp (s.onBlock y x) = State.onBlock y x <$> refillOp s := by
  unfold refillOp
  simp only [apply_ite (State.onBlock y x <$> ·), map_bind]
  rfl

theorem fill_onBlock (n fuel : Nat) (s : State) :
    fillOp n fuel (s.onBlock y x) = State.onBlock y x <$> fillOp n fuel s := by
  induction fuel generalizing s with
  | zero =>
    simp only [fillOp, apply_ite (State.onBlock y x <$> ·)]
    rfl
  | succ fuel ih =>
    simp only [fillOp, apply_ite (State.onBlock y x <$> ·), map_bind, refill_onBlock, bind_map_left, ih]
    rfl

theorem peek_onBlock (n : Nat) (s : State) :
    peekOp n (s.onBlock y x) = (fun r => (r.1, r.2.onBlock y x)) <$> peekOp n s := by
  simp only [peekOp, apply_ite ((fun r : Nat × State => (r.1, r.2.onBlock y x)) <$> ·), map_bind, fill_onBlock,
    bind_map_left]
  rfl

theorem consume_onBlock (n : Nat) (s : State) :
    consumeOp n (s.onBlock y x) = State.onBlock y x <$> consumeOp n s := by
  simp only [consumeOp, apply_ite (State.onBlock y x <$> ·), map_bind, peek_onBlock, bind_map_left]
  rfl

theorem read_onBlock (n : Nat) (s : State) :
    readOp n (s.onBlock y x) = (fun r => (r.1, r.2.onBlock y x)) <$> readOp n s := by
  simp only [readOp, map_bind, peek_onBlock, bind_map_left, consume_onBlock]
  rfl

theorem magnitude_onBlock (c : Nat) (s : State) :
    magnitudeOp c (s.onBlock y x) = (fun r => (r.1, r.2.onBlock y x)) <$> magnitudeOp c s := by
  simp only [magnitudeOp, apply_ite ((fun r : Word × State => (r.1, r.2.onBlock y x)) <$> ·), map_bind,
    read_onBlock, bind_map_left]
  rfl

theorem decodeVlc_onBlock (h : Fin 4) (s : State) :
    decodeVlcOp h (s.onBlock y x) = (fun r => (r.1, r.2.1, r.2.2.onBlock y x)) <$> decodeVlcOp h s := by
  simp only [decodeVlcOp, map_bind, peek_onBlock, bind_map_left,
    apply_ite ((fun r : Byte × Word × State => (r.1, r.2.1, r.2.2.onBlock y x)) <$> ·)]
  refine bind_congr fun r => ?_
  have hht : (r.2.onBlock y x).ht = r.2.ht := rfl
  simp only [hht, consume_onBlock, bind_map_left, magnitude_onBlock]
  rfl

theorem dcValue_onBlock (d : Word) (s : State) :
    dcValueOp d (s.onBlock y x) = State.onBlock y x <$> dcValueOp d s := by
  simp only [dcValueOp, map_bind]
  rfl

theorem acRun_onBlock (r : Nat) (v : Word) (s : State) :
    acRunOp r v (s.onBlock y x) = State.onBlock y x <$> acRunOp r v s := by
  simp only [acRunOp, apply_ite (State.onBlock y x <$> ·), map_bind]
  rfl

theorem acSymbol_onBlock (sym : Byte) (v : Word) (s : State) :
    acSymbolOp sym v (s.onBlock y x) = State.onBlock y x <$> acSymbolOp sym v s := by
  simp only [acSymbolOp, apply_ite (State.onBlock y x <$> ·), acRun_onBlock]
  rfl

theorem acLoop_onBlock (fuel : Nat) (s : State) :
    acLoop fuel (s.onBlock y x) = State.onBlock y x <$> acLoop fuel s := by
  induction fuel generalizing s with
  | zero =>
    simp only [acLoop, apply_ite (State.onBlock y x <$> ·)]
    rfl
  | succ fuel ih =>
    have hseq : (s.onBlock y x).seq.stage = s.seq.stage ∧ (s.onBlock y x).seq.k = s.seq.k := ⟨rfl, rfl⟩
    simp only [acLoop, apply_ite (State.onBlock y x <$> ·), map_bind, hseq, getComp_onBlock, decodeVlc_onBlock,
      acSymbol_onBlock, bind_map_left, ih]
    rfl

theorem planeWrite_onBlock (k i : Nat) (v : Byte) (s : State) :
    planeWrite k i v (s.onBlock y x) = State.onBlock y x <$> planeWrite k i v s := by
  simp only [planeWrite, map_bind]
  rfl

theorem storeColumn_onBlock (k off stride c : Nat) (vs : List Byte) (r : Nat) (s : State) :
    storeColumn k off stride c vs r (s.onBlock y x) = State.onBlock y x <$> storeColumn k off stride c vs r s := by
  induction vs generalizing r s with
  | nil => rfl
  | cons v vs ih => simp only [storeColumn, map_bind, planeWrite_onBlock, bind_map_left, ih]

theorem idctColumn_onBlock (k off stride c : Nat) (s : State) :
    idctColumn k off stride c (s.onBlock y x) = State.onBlock y x <$> idctColumn k off stride c s :=
  storeColumn_onBlock y x k off stride c _ 0 s

theorem forUp_onBlock {body : Nat → State → Eng State}
    (hb : ∀ i s, body i (s.onBlock y x) = State.onBlock y x <$> body i s) (n i : Nat) (s : State) :
    forUp body n i (s.onBlock y x) = State.onBlock y x <$> forUp body n i s := by
  induction n generalizing i s with
  | zero => rfl
  | succ n ih => simp only [forUp, map_bind, hb, bind_map_left, ih]

theorem idctBlock_onBlock (k off : Nat) (s : State) :
    idctBlockOp k off (s.onBlock y x) = State.onBlock y x <$> idctBlockOp k off s := by
  simp only [idctBlockOp, map_bind, getComp_onBlock]
  refine bind_congr fun c => ?_
  exact forUp_onBlock y x (idctColumn_onBlock y x k off c.stride) 8 0 { s with blk := idctRows s.cfg s.blk }

/-- The state at the first symbol of block (x, y) of component k (R184, R190). -/
def State.atBlock (k y x : Nat) (s : State) : State :=
  (s.startBlock k).onBlock y x

/-- DECODE_BLOCK from the first symbol of a block is DECODE_BLOCK from anywhere, at that block. -/
theorem decodeBlock_atBlock (k off : Nat) (s : State) :
    decodeBlockOp k off (s.atBlock k y x) = State.onBlock y x <$> decodeBlockOp k off s := by
  have hstart : (s.atBlock k y x).startBlock k = (s.startBlock k).onBlock y x := rfl
  have hcomp : getComp k (s.atBlock k y x) = getComp k s := rfl
  simp only [decodeBlockOp, coefficientsOp, hstart, hcomp, bind_assoc, map_bind, decodeVlc_onBlock,
    bind_map_left, dcValue_onBlock, acLoop_onBlock, idctBlock_onBlock]

end

end Sys2Proof.Machine

/-! ### Runs: what the steps from a state reach -/

namespace Sys2Proof.Machine

/-- Finitely many steps lead from s to t. -/
def Reaches (s t : State) : Prop :=
  ∃ n, stepsTo n s t

theorem Reaches.refl (s : State) : Reaches s s :=
  ⟨0, rfl⟩

theorem Reaches.head {s t u : State} (h : step s = .next t) (ht : Reaches t u) : Reaches s u := by
  obtain ⟨n, hn⟩ := ht
  exact ⟨n + 1, t, h, hn⟩

theorem Reaches.trans {s t u : State} (h1 : Reaches s t) (h2 : Reaches t u) : Reaches s u := by
  obtain ⟨n, hn⟩ := h1
  induction n generalizing s with
  | zero => cases hn; exact h2
  | succ n ih =>
    obtain ⟨v, hstep, hv⟩ := hn
    exact .head hstep (ih hv)

/-- The steps from s do what the operation m does: where m answers a, they reach the state `at_ a` and Q holds of a;
where m aborts they reach the abort's state. A fault claims nothing. -/
def Runs {α : Type} (s : State) (m : Eng α) (at_ : α → State) (Q : α → Prop) : Prop :=
  Post m (fun a => Reaches s (at_ a) ∧ Q a) (Reaches s) True

theorem runs_pure {α : Type} {s : State} {a : α} {at_ : α → State} {Q : α → Prop} (h : at_ a = s) (hq : Q a) :
    Runs s (pure a) at_ Q :=
  ⟨h ▸ Reaches.refl _, hq⟩

theorem Runs.imp {α : Type} {s : State} {m : Eng α} {at_ : α → State} {Q Q' : α → Prop} (h : Runs s m at_ Q)
    (hq : ∀ a, Q a → Q' a) : Runs s m at_ Q' :=
  Post.imp h fun a ha => ⟨ha.1, hq a ha.2⟩

/-- A run, and what else is known of the operation. -/
theorem Runs.and {α : Type} {s : State} {m : Eng α} {at_ : α → State} {Q Q' : α → Prop} {ab : State → Prop}
    {ft : Prop} (h : Runs s m at_ Q) (hp : Post m Q' ab ft) : Runs s m at_ fun a => Q a ∧ Q' a :=
  (Post.and h hp).mono (fun _ ha => ⟨ha.1.1, ha.1.2, ha.2⟩) (fun _ ha => ha.1) fun _ => trivial

/-- Operations in sequence: the second runs from where the first ended. -/
theorem Runs.bind {α β : Type} {s : State} {m : Eng α} {f : α → Eng β} {at1 : α → State} {at2 : β → State}
    {Q1 : α → Prop} {Q2 : β → Prop} (h : Runs s m at1 Q1) (hf : ∀ a, Q1 a → Runs (at1 a) (f a) at2 Q2) :
    Runs s (m >>= f) at2 Q2 :=
  (post_bind _ _ _ _ _).mpr (Post.imp h fun a ha =>
    (hf a ha.2).mono (fun _ hb => ⟨ha.1.trans hb.1, hb.2⟩) (fun _ hu => ha.1.trans hu) id)

/-- Reading a component takes no step. -/
theorem runs_getComp {β : Type} {s u : State} {k : Nat} {f : Comp → Eng β} {at_ : β → State} {Q : β → Prop}
    (hf : ∀ c, u.comps[k]? = some c → Runs s (f c) at_ Q) : Runs s (getComp k u >>= f) at_ Q :=
  (post_bind _ _ _ _ _).mpr ((getComp_post k u _).mono hf (fun _ h => h) fun _ => trivial)

/-- An operation after a change of its answers. -/
theorem runs_map {α β : Type} {s : State} {m : Eng α} {f : α → β} {at_ : β → State} {Q : β → Prop} :
    Runs s (f <$> m) at_ Q ↔ Runs s m (fun a => at_ (f a)) (fun a => Q (f a)) := by
  match m with
  | .ok _ => exact Iff.rfl
  | .error (.aborted _) => exact Iff.rfl
  | .error (.fault _) => exact Iff.rfl

theorem post_true {α : Type} (m : Eng α) : Post m (fun _ => True) (fun _ => True) True := by
  match m with
  | .ok _ => trivial
  | .error (.aborted _) => trivial
  | .error (.fault _) => trivial

/-- One step, of which the operation is the first part and `at_` the rest. -/
theorem runs_of_step {α : Type} {s : State} {m : Eng α} {at_ : α → State} {Q : α → Prop} {ab : State → Prop}
    {ft : Prop} (hstep : step s = conclude (m >>= fun a => pure (at_ a))) (hq : Post m Q ab ft) :
    Runs s m at_ Q := by
  match m with
  | .ok a => exact ⟨.head hstep (.refl _), hq⟩
  | .error (.aborted _) => exact Reaches.head hstep (.refl _)
  | .error (.fault _) => trivial

/-- One step that is the whole operation. -/
theorem runs_of_step_eq {s : State} {m : Eng State} {Q ab : State → Prop} {ft : Prop}
    (hstep : step s = conclude m) (hq : Post m Q ab ft) : Runs s m id Q :=
  runs_of_step (by rw [hstep]; exact congrArg conclude (bind_pure m).symm) hq

/-- A counted loop whose turns each run from where the turn before left off. -/
theorem forUp_runs {body : Nat → State → Eng State} {enter : Nat → State → State} {leave : State → State}
    {I : State → Prop} {N : Nat}
    (hb : ∀ j s, j < N → I s →
      Runs (enter j s) (body j s) (fun t => if j + 1 < N then enter (j + 1) t else leave t) I)
    (n i : Nat) (s : State) (hI : I s) (hN : i + (n + 1) = N) :
    Runs (enter i s) (forUp body (n + 1) i s) leave I := by
  induction n generalizing i s with
  | zero =>
    refine (hb i s (by omega) hI).bind fun t ht => ?_
    rw [if_neg (by omega)]
    exact runs_pure rfl ht
  | succ n ih =>
    refine (hb i s (by omega) hI).bind fun t ht => ?_
    rw [if_pos (by omega)]
    exact ih (i + 1) t ht (by omega)

/-! ### Symbols (R180) -/

/-- The engine inside a scan, over a resident input. -/
structure Scanning (s : State) : Prop where
  phase : s.phase = .scan
  cmd : s.cmd = none
  input : s.inputOk

theorem Reads.scanning {s t : State} (h : Reads s t) (hs : Scanning s) : Scanning t :=
  ⟨h.phase.trans hs.phase, by rw [h.frame]; exact hs.cmd, h.inputOk hs.input⟩

theorem Blocks.scanning {s t : State} (h : Blocks s t) (hs : Scanning s) : Scanning t :=
  ⟨by rw [h.frame]; exact hs.phase, by rw [h.frame]; exact hs.cmd, h.inputOk hs.input⟩

/-- The engine fills the accumulator an escape a step. -/
theorem fill_runs {h : Fin 4} {use : Byte → Word → State → Eng State} (fuel : Nat) {s : State} (hin : s.inputOk)
    (hr : ∀ t, Reads s t → ReadsSymbol h use t) : Runs s (fillOp 16 fuel s) id (Reads s) := by
  induction fuel generalizing s with
  | zero =>
    simp only [fillOp]
    split
    · trivial
    · exact runs_pure rfl (Reads.refl s)
  | succ fuel ih =>
    simp only [fillOp]
    split
    · rename_i hacc
      have hstep : step s = conclude (refillOp s) := by
        rw [(hr s (Reads.refl s)).step_escape hacc, exec_nextEscape hin]
      refine (runs_of_step_eq hstep (refill_post s)).bind fun t ht => ?_
      exact (ih (ht.1.inputOk hin) fun u hu => hr u (ht.1.trans hu)).imp fun u hu => ht.1.trans hu
    · exact runs_pure rfl (Reads.refl s)

/-- Two refills give the sixteen bits of a window (R117, R119). -/
theorem fill_full (s : State) : Post (fillOp 16 2 s) (fun t => 16 ≤ t.acc.length) (fun _ => True) True :=
  (fill_post 16 2 s (by omega)).mono (fun _ ht => ht.2.2.1) (fun _ _ => trivial) fun _ => trivial

/-- DECODE_VLC and the use of its symbol: fill the accumulator, then run the symbol at its head. -/
theorem decodeVlc_use (h : Fin 4) (use : Byte → Word → State → Eng State) (s : State) :
    (decodeVlcOp h s >>= fun r => use r.1 r.2.1 r.2.2) = fillOp 16 2 s >>= headSymbolOp h use := by
  simp only [decodeVlcOp, peekOp, show ¬ 16 = 0 by omega, if_false, bind_assoc]
  have hfull := fill_full s
  revert hfull
  cases fillOp 16 2 s with
  | error e => exact fun _ => rfl
  | ok t =>
    intro hfull
    have hlen : 16 ≤ t.acc.length := hfull
    have hok : (Except.ok t : Eng State) = pure t := rfl
    simp only [hok, pure_bind, headSymbolOp, symbolOp]
    split
    · rfl
    · rw [consume_held (by omega)]
      simp only [bind_assoc]
      rfl

/-- A symbol and its use, an escape or a symbol a step. -/
theorem symbol_runs {h : Fin 4} {use : Byte → Word → State → Eng State} {s : State} (hin : s.inputOk)
    (hr : ∀ t, Reads s t → ReadsSymbol h use t) :
    Runs s (decodeVlcOp h s >>= fun r => use r.1 r.2.1 r.2.2) id fun _ => True := by
  rw [decodeVlc_use]
  exact ((fill_runs 2 hin hr).and (fill_full s)).bind fun t ht =>
    runs_of_step_eq ((hr t ht.1).step_symbol ht.2) (post_true _)

/-! ### Blocks (R182, R189) -/

/-- t is s after some symbols of one block: the sequencer stands at the same block. -/
structure Symbols (s t : State) : Prop where
  blocks : Blocks s t
  sameBlock : t.seq = { s.seq with kz := t.seq.kz, stage := t.seq.stage }

theorem Symbols.refl (s : State) : Symbols s s :=
  ⟨Blocks.refl s, rfl⟩

theorem Symbols.trans {s t u : State} (h1 : Symbols s t) (h2 : Symbols t u) : Symbols s u := by
  refine ⟨h1.blocks.trans h2.blocks, ?_⟩
  have := h2.sameBlock
  rw [h1.sameBlock] at this
  exact this

theorem Symbols.k {s t : State} (h : Symbols s t) : t.seq.k = s.seq.k := by rw [h.sameBlock]

/-- An AC symbol goes on with the block or ends its coefficients. -/
theorem acSymbol_symbols (sym : Byte) (v : Word) (s : State) :
    Post (acSymbolOp sym v s) (fun t => Symbols s t ∧ (t.seq.stage = .ac ∨ t.seq.stage = .idct))
      (fun _ => True) True := by
  have hseq : Post (acSymbolOp sym v s) (fun t => t.seq = { s.seq with kz := t.seq.kz, stage := t.seq.stage } ∧
      (t.seq.stage = .ac ∨ t.seq.stage = .idct)) (fun _ => True) True := by
    unfold acSymbolOp acRunOp
    split
    · exact ⟨rfl, .inr rfl⟩
    split
    · trivial
    simp only
    split
    · trivial
    · rw [post_bind]
      refine (getComp_post _ s _).mono (fun c _ => ⟨rfl, ?_⟩) (fun _ h => h) fun _ => trivial
      simp only [State.storeCoef_seq]
      split
      · exact .inl rfl
      · exact .inr rfl
  exact ((acSymbol_post sym v s).and hseq).mono (fun t ht => ⟨⟨ht.1.1, ht.2.1⟩, ht.2.2⟩) (fun _ _ => trivial)
    fun _ => trivial

theorem dcValue_symbols (d : Word) (s : State) :
    Post (dcValueOp d s) (fun t => Symbols s t ∧ t.seq.stage = .ac) (fun _ => True) True := by
  have hseq : Post (dcValueOp d s) (fun t => t.seq = { s.seq with kz := t.seq.kz, stage := t.seq.stage } ∧
      t.seq.stage = .ac) (fun _ => True) True := by
    unfold dcValueOp
    rw [post_bind]
    exact (getComp_post _ s _).mono (fun c _ => ⟨rfl, rfl⟩) (fun _ h => h) fun _ => trivial
  exact ((dcValue_post d s fun _ => True).and hseq).mono (fun t ht => ⟨⟨ht.1.1, ht.2.1⟩, ht.2.2⟩) (fun _ _ => trivial)
    fun _ => trivial

theorem Reads.symbols {s t u : State} (h : Reads s t) (ha : s.accOk → t.accOk) (hu : Symbols t u) : Symbols s u :=
  ⟨(h.blocks ha).trans hu.blocks, by rw [← h.seq]; exact hu.sameBlock⟩

/-- A symbol and its use stay in the block where the use does. -/
theorem symbol_symbols {use : Byte → Word → State → Eng State} {P : State → Prop} (h : Fin 4) (s : State)
    (huse : ∀ sym v t, Post (use sym v t) (fun u => Symbols t u ∧ P u) (fun _ => True) True) :
    Post (decodeVlcOp h s >>= fun r => use r.1 r.2.1 r.2.2) (fun u => Symbols s u ∧ P u) (fun _ => True) True :=
  (post_bind _ _ _ _ _).mpr ((vlc_post h s).mono
    (fun r hr => (huse r.1 r.2.1 r.2.2).imp fun _ hu => ⟨hr.1.symbols hr.2 hu.1, hu.2⟩) (fun _ _ => trivial)
    fun _ => trivial)

end Sys2Proof.Machine

namespace Sys2Proof.Machine

/-- The AC loop, symbol by symbol: at its end the block's IDCT comes next. -/
theorem acLoop_runs (fuel : Nat) {s : State} (hs : Scanning s) (hst : s.seq.stage = .ac ∨ s.seq.stage = .idct) :
    Runs s (acLoop fuel s) id (fun t => Symbols s t ∧ t.seq.stage = .idct) := by
  induction fuel generalizing s with
  | zero =>
    simp only [acLoop]
    split
    · trivial
    · exact runs_pure rfl ⟨.refl s, hst.resolve_left ‹_›⟩
  | succ fuel ih =>
    simp only [acLoop]
    split
    · rename_i hac
      refine runs_getComp fun c hc => ?_
      rw [← bind_assoc (f := fun r : Byte × Word × State => acSymbolOp r.1 r.2.1 r.2.2)]
      have hr : ∀ t, Reads s t → ReadsSymbol c.acsel.toFin acSymbolOp t := fun t ht =>
        readsSymbol_ac (ht.scanning hs).phase (ht.scanning hs).cmd (by rw [ht.seq]; exact hac)
          (by rw [ht.seq, ht.comps]; exact hc)
      refine ((symbol_runs hs.input hr).and (symbol_symbols _ s acSymbol_symbols)).bind fun t ht => ?_
      obtain ⟨_, hsym, hstage⟩ := ht
      exact (ih (hsym.blocks.scanning hs) hstage).imp fun u hu => ⟨hsym.trans hu.1, hu.2⟩
    · exact runs_pure rfl ⟨.refl s, hst.resolve_left ‹_›⟩

/-- A state at the first symbol of a block. -/
def State.blockStart (s : State) : Prop :=
  s.startBlock s.seq.k = s

/-- The coefficients of a block, symbol by symbol. -/
theorem coefficients_runs {s : State} (hs : Scanning s) (hstart : s.blockStart) :
    Runs s (coefficientsOp s.seq.k s) id (fun t => Symbols s t ∧ t.seq.stage = .idct) := by
  have hdc : s.seq.stage = .dc := by rw [← hstart]; rfl
  unfold coefficientsOp
  rw [hstart]
  refine runs_getComp fun c hc => ?_
  rw [← bind_assoc (f := fun r : Byte × Word × State => dcValueOp r.2.1 r.2.2)]
  have hr : ∀ t, Reads s t → ReadsSymbol c.dcsel.toFin (fun _ v u => dcValueOp v u) t := fun t ht =>
    readsSymbol_dc (ht.scanning hs).phase (ht.scanning hs).cmd (by rw [ht.seq]; exact hdc)
      (by rw [ht.seq, ht.comps]; exact hc)
  refine ((symbol_runs hs.input hr).and (symbol_symbols _ s fun _ v t => dcValue_symbols v t)).bind fun t ht => ?_
  obtain ⟨_, hsym, hstage⟩ := ht
  exact (acLoop_runs 63 (hsym.blocks.scanning hs) (.inl hstage)).imp fun u hu => ⟨hsym.trans hu.1, hu.2⟩

/-- The next block depends on the component's factors alone. -/
theorem nextBlock_of_shape {c d : Comp} (h : d.shape = c.shape) (s : State) : s.nextBlock d = s.nextBlock c := by
  simp only [State.nextBlock, ssx_of_shape h, ssy_of_shape h]

/-- A block's IDCT is the step after which the sequencer stands at the next block. -/
theorem idct_runs {s : State} {c d : Comp} (hs : Scanning s) (hst : s.seq.stage = .idct)
    (hd : s.comps[s.seq.k]? = some d) (hshape : d.shape = c.shape) :
    Runs s (idctBlockOp s.seq.k (blockOffset c s.mbx s.mby s.seq.sbx s.seq.sby) s) (State.nextBlock c)
      (fun t => t.seq = s.seq) := by
  have hstep := step_idct hs.phase hs.cmd hst hd
  rw [blockOffset_of_shape hshape] at hstep
  generalize hoff : blockOffset c s.mbx s.mby s.seq.sbx s.seq.sby = off at hstep ⊢
  have hpost := idctBlock_post s.seq.k off s fun _ => True
  refine runs_of_step (Q := fun t => t.seq = s.seq) (hstep.trans ?_)
    (hpost.mono (fun t ht => ?_) (fun _ h => h) fun _ => trivial)
  · unfold idctNextOp
    revert hpost
    cases idctBlockOp s.seq.k off s with
    | error e => exact fun _ => rfl
    | ok t =>
      rintro ⟨_, _, hw⟩
      obtain ⟨e, he, heshape⟩ := hw.blocks.comp hd
      show conclude (getComp s.seq.k t >>= fun c => pure (t.nextBlock c)) = .next (t.nextBlock c)
      rw [getComp_ok he, ← nextBlock_of_shape (heshape.trans hshape)]
      rfl
  · obtain ⟨_, _, hw⟩ := ht
    rw [hw.frame]

/-- DECODE_BLOCK from the first symbol of a block, a step an escape, a symbol or the IDCT; the sequencer then
stands at the next block. -/
theorem decodeBlock_runs {s : State} {c d : Comp} (hs : Scanning s) (hstart : s.blockStart)
    (hd : s.comps[s.seq.k]? = some d) (hshape : d.shape = c.shape) :
    Runs s (decodeBlockOp s.seq.k (blockOffset c s.mbx s.mby s.seq.sbx s.seq.sby) s) (State.nextBlock c)
      (fun t => t.seq.k = s.seq.k) := by
  refine (coefficients_runs hs hstart).bind fun t ht => ?_
  obtain ⟨hsym, hst⟩ := ht
  obtain ⟨e, he, heshape⟩ := hsym.blocks.comp hd
  have hpos : s.mbx = t.mbx ∧ s.mby = t.mby ∧ s.seq.sbx = t.seq.sbx ∧ s.seq.sby = t.seq.sby := by
    rw [hsym.sameBlock, hsym.blocks.frame]
    exact ⟨rfl, rfl, rfl, rfl⟩
  rw [hpos.1, hpos.2.1, hpos.2.2.1, hpos.2.2.2, ← hsym.k]
  rw [← hsym.k] at he
  exact (idct_runs (hsym.blocks.scanning hs) hst he (heshape.trans hshape)).imp fun u hu => by rw [hu]

/-! ### MCUs (R190) -/

/-- The block after block (x, y) of component k in the order of R190, or the MCU's end. -/
def State.afterBlock (c : Comp) (k y x : Nat) (s : State) : State :=
  if x + 1 < c.ssx.toNat then s.atBlock k y (x + 1)
  else if y + 1 < c.ssy.toNat then s.atBlock k (y + 1) 0
  else if k + 1 < s.ncomp.toNat then s.atBlock (k + 1) 0 0
  else s.afterMcu

theorem afterMcu_onBlock (y x : Nat) (s : State) : (s.onBlock y x).afterMcu = s.afterMcu := rfl

theorem nextBlock_onBlock {c : Comp} {k y x : Nat} {s : State} (h : s.seq.k = k) :
    (s.onBlock y x).nextBlock c = s.afterBlock c k y x := by
  subst h
  unfold State.nextBlock State.afterBlock
  simp only [afterMcu_onBlock]
  rfl

/-- Block (x, y) of component k, run from its first symbol. -/
theorem block_runs {s : State} {c d : Comp} {k : Nat} (y x : Nat) (hs : Scanning s)
    (hd : s.comps[k]? = some d) (hshape : d.shape = c.shape) :
    Runs (s.atBlock k y x) (decodeBlockOp k (blockOffset c s.mbx s.mby x y) s) (State.afterBlock c k y x)
      (Blocks s) := by
  have hblock : Post (decodeBlockOp k (blockOffset c s.mbx s.mby x y) s) (Blocks s) (fun _ => True) True :=
    (decodeBlock_post k _ s).mono (fun _ ht => ht.1) (fun _ _ => trivial) fun _ => trivial
  have hruns := decodeBlock_runs (s := s.atBlock k y x) (c := c) (d := d) ⟨hs.phase, hs.cmd, hs.input⟩ rfl hd hshape
  have hop : decodeBlockOp k (blockOffset c s.mbx s.mby x y) (s.atBlock k y x) =
      State.onBlock y x <$> decodeBlockOp k (blockOffset c s.mbx s.mby x y) s := decodeBlock_atBlock y x k _ s
  have hboth := (runs_map.mp (hop ▸ hruns)).and hblock
  exact Post.imp hboth fun t ht => ⟨nextBlock_onBlock (c := c) (s := t) ht.2.1 ▸ ht.1, ht.2.2⟩

theorem Blocks.ncomp {s t : State} (h : Blocks s t) : t.ncomp = s.ncomp := by rw [h.frame]

/-- The blocks of component k in one MCU, row by row. -/
theorem mcuComponent_runs {s : State} {k : Nat} (hs : Scanning s) (hl : s.frameLaidOut) :
    Runs (s.atBlock k 0 0) (mcuComponent k s)
      (fun t => if k + 1 < s.ncomp.toNat then t.atBlock (k + 1) 0 0 else t.afterMcu) (Blocks s) := by
  refine runs_getComp fun c hc => ?_
  obtain ⟨hx, hy, _, _⟩ := laidOut_pos hl (List.mem_of_getElem? hc)
  obtain ⟨nx, hnx⟩ : ∃ n, c.ssx.toNat = n + 1 := ⟨c.ssx.toNat - 1, by omega⟩
  obtain ⟨ny, hny⟩ : ∃ n, c.ssy.toNat = n + 1 := ⟨c.ssy.toNat - 1, by omega⟩
  rw [hny]
  refine forUp_runs (enter := fun y t => t.atBlock k y 0) (N := c.ssy.toNat) (fun y t hyN ht => ?_) ny 0 s
    (Blocks.refl s) (by omega)
  rw [hnx]
  refine forUp_runs (enter := fun x t => t.atBlock k y x) (N := c.ssx.toNat) (fun x u hxN hu => ?_) nx 0 t ht
    (by omega)
  obtain ⟨d, hd, hshape⟩ := hu.comp hc
  have hrun := (block_runs y x (hu.scanning hs) hd hshape).imp fun v hv => hu.trans hv
  refine Post.imp hrun fun v hv => ⟨?_, hv.2⟩
  have hat := hv.1
  rw [State.afterBlock, hv.2.ncomp] at hat
  exact hat

/-- One MCU from its first symbol: the sequencer then stands where R190's loop ends its turn. -/
theorem mcu_runs {s : State} (hs : Scanning s) (hl : s.frameLaidOut) :
    Runs s.startMcu (mcuOp s) State.afterMcu (Blocks s) := by
  have hn : 0 < s.ncomp.toNat := by rcases hl.1 with h | h <;> rw [h] <;> decide
  obtain ⟨n, hn⟩ : ∃ n, s.ncomp.toNat = n + 1 := ⟨s.ncomp.toNat - 1, by omega⟩
  unfold mcuOp
  rw [hn]
  refine forUp_runs (enter := fun k t => t.atBlock k 0 0) (N := s.ncomp.toNat) (fun k t _ ht => ?_) n 0 s
    (Blocks.refl s) (by omega)
  have hrun := (mcuComponent_runs (k := k) (ht.scanning hs) (laidOut_of_scans ht.scans hl)).imp
    fun u hu => ht.trans hu
  rw [ht.ncomp] at hrun
  exact hrun

/-! ### The scan -/

/-- What SCAN leaves: the conversion comes next. -/
def ScanDone (t : State) : Prop :=
  t.phase = .convert ∧ t.cmd = none

theorem Scans.scanning {s t : State} (h : Scans s t) (hs : Scanning s) (hp : t.phase = s.phase) : Scanning t :=
  ⟨hp.trans hs.phase, by rw [h.frame]; exact hs.cmd, h.inputOk hs.input⟩

/-- Where no restart marker is due the next MCU has begun. -/
theorem startMcu_afterMcu {s : State} (hlast : s.lastMcu = false) (hst : s.afterMcu.seq.stage ≠ .restart) :
    s.afterMcu.startMcu = s.afterMcu := by
  revert hst
  simp only [State.afterMcu, hlast, Bool.false_eq_true, if_false]
  split
  · exact fun _ => rfl
  split
  · exact fun h => absurd rfl h
  · exact fun _ => rfl

theorem restart_runs {s : State} (hs : Scanning s) (hst : s.seq.stage = .restart) :
    Runs s (restartOp s) State.startMcu fun t => Scans s t ∧ t.phase = s.phase :=
  runs_of_step (step_restart hs.phase hs.cmd hst)
    ((restart_post s).imp fun _ ht => ⟨ht.1, ht.2.1⟩)

/-- SCAN's loop from the first symbol of an MCU. -/
theorem scanLoop_runs (fuel : Nat) {s : State} (hs : Scanning s) (hl : s.frameLaidOut) :
    Runs s.startMcu (scanLoop fuel s) id ScanDone := by
  induction fuel generalizing s with
  | zero => trivial
  | succ fuel ih =>
    simp only [scanLoop]
    refine (mcu_runs hs hl).bind fun m hm => ?_
    have hscan : Scans s m.afterMcu := hm.scans.trans (scans_afterMcu m)
    split
    · rename_i hlast
      refine runs_pure rfl ⟨by rw [afterMcu_last hlast], ?_⟩
      rw [hscan.frame]
      exact hs.cmd
    · rename_i hlast
      have hlast : m.lastMcu = false := by simpa using hlast
      have hs' : Scanning m.afterMcu :=
        (scans_afterMcu m).scanning (hm.scanning hs) (afterMcu_more hlast).2.2
      have hl' := laidOut_of_scans hscan hl
      split
      · rename_i hst
        refine (restart_runs hs' hst).bind fun t ht => ?_
        have hscan' : Scans m.afterMcu t.startMcu := ht.1.trans (scans_seq rfl)
        exact ih (s := t.startMcu) (hscan'.scanning hs' ht.2) (laidOut_of_scans hscan' hl')
      · rename_i hst
        have hrun := ih hs' hl'
        rwa [startMcu_afterMcu hlast hst] at hrun

/-- SCAN where the scan is at its start. -/
theorem scan_runs {s : State} (hs : Scanning s) (hl : s.frameLaidOut) (hstart : s.startScan = s) :
    Runs s (scanOp s) id ScanDone := by
  have hmcu : s.startMcu = s := by
    rw [← hstart]
    rfl
  unfold scanOp
  rw [hstart]
  have hrun := scanLoop_runs s.mcuCount hs hl
  rwa [hmcu] at hrun

end Sys2Proof.Machine

/-! ### A whole DECODE (R36, R140, R141) -/

namespace Sys2Proof.Machine

/-- The engine between markers: past SOI, over a resident input, with no frame or a laid out one. -/
structure BetweenMarkers (s : State) : Prop where
  phase : s.phase = .headers
  cmd : s.cmd = none
  pos : s.pos ≠ 0
  input : s.inputOk
  frame : s.headerFrame

/-- A marker other than SOS leaves the engine between markers. -/
theorem Takes.betweenMarkers {s t : State} (h : Takes KeepsHeaders s t) (hs : BetweenMarkers s) :
    BetweenMarkers t := by
  obtain ⟨d, hd, hle, hp, hphase, hframe⟩ := h
  refine ⟨hphase.trans hs.phase, hp.cmd.trans hs.cmd, ?_, hp.inputOk hle hs.input, hframe hs.frame⟩
  have := hp.pos
  omega

/-- SOS leaves it in the scan. -/
theorem Takes.scanning {s t : State} (h : Takes StartsScan s t) (hs : BetweenMarkers s) :
    Scanning t ∧ t.frameLaidOut ∧ t.startScan = t := by
  obtain ⟨d, hd, hle, hp, hphase, hstart, hlaid⟩ := h
  exact ⟨⟨hphase, hp.cmd.trans hs.cmd, hp.inputOk hle hs.input⟩, hlaid hs.frame, hstart⟩

/-- TOPLOOP, a marker a step, and the scan that SOS starts. -/
theorem topLoop_runs (fuel : Nat) {s : State} (hs : BetweenMarkers s) : Runs s (topLoop fuel s) id ScanDone := by
  induction fuel generalizing s with
  | zero => trivial
  | succ fuel ih =>
    simp only [topLoop]
    cases hd : decodeTop s.bytesLeft with
    | error e =>
      exact runs_of_step_eq (Q := ScanDone) (ab := fun _ => True) (ft := True)
        (step_noMarker hs.phase hs.cmd hs.pos hd) trivial
    | ok r =>
      refine (runs_of_step_eq (step_marker hs.phase hs.cmd hs.pos hd)
        (marker_post (topInstr_of_decodeTop hd) s)).bind fun t ht => ?_
      split
      · rename_i hsos
        rw [if_pos hsos] at ht
        obtain ⟨hscan, hlaid, hstart⟩ := ht.scanning hs
        exact scan_runs hscan hlaid hstart
      · rename_i hsos
        rw [if_neg hsos] at ht
        exact ih (ht.betweenMarkers hs)

/-- The input as the per-decode reset leaves it: resident, with the stream position at its start (R38). -/
theorem inputOk_decodeReset (buf : List Byte) (s : State) : (s.decodeReset buf).inputOk := by
  refine ⟨Buffer.wf_ofBytes buf, fun i hi => ?_, Nat.zero_le _, .inr ?_⟩
  · have hlt : i < buf.length := hi
    exact ⟨buf[i], by simp [hlt]⟩
  · simp [State.reset]

theorem betweenMarkers_of_soi {s : State} {buf : List Byte} (h : 2 ≤ (s.decodeReset buf).inp.size) :
    BetweenMarkers ((s.decodeReset buf).skip 2) := by
  have hlen : 2 ≤ buf.length := h
  refine ⟨rfl, rfl, by simp, (parses_skip 2 _).inputOk ?_ (inputOk_decodeReset buf s), .inl ⟨rfl, rfl, rfl⟩⟩
  simpa using hlen

/-- DECODE after its reset: SOI, the marker loop with its scan, and the conversion with the completion, each a run
of steps. -/
theorem decodeRun_runs (buf : List Byte) (s : State) :
    Runs (s.decodeReset buf) (decodeRun (s.decodeReset buf)) id fun _ => True := by
  unfold decodeRun
  refine (runs_of_step_eq (step_soi rfl rfl rfl) (soi_post _)).bind fun t ht => ?_
  obtain ⟨rfl, hsize⟩ := ht
  refine (topLoop_runs _ (betweenMarkers_of_soi hsize)).bind fun u hu => ?_
  exact runs_of_step_eq (step_convert hu.1 hu.2) (post_true _)

theorem Runs.reaches {s t : State} {m : Eng State} {Q : State → Prop} (h : Runs s m id Q)
    (ht : conclude m = .next t) : Reaches s t := by
  match m with
  | .ok _ => cases ht; exact h.1
  | .error (.aborted _) => cases ht; exact h
  | .error (.fault _) => cases ht

/-- The engine takes up a command whose duty the host kept with the per-decode reset. -/
theorem step_dutyKept {s : State} {buf : List Byte} (hp : s.phase = .idle ∨ s.phase = .done)
    (hc : s.cmd = some ⟨buf, buf.length⟩) (hlen : buf.length ≤ s.cfg.inLenMax) :
    step s = .next (s.decodeReset buf) := by
  rw [step_accept hp hc, acceptCommand, if_pos (by simp [dutyKept, hlen])]

/-- Settles O54: after the per-decode reset each part of DECODE is a run of steps, by induction on the loops' turns;
inside a scan the steps hold the block's place in `seq`, which DECODE_BLOCK does not read. -/
theorem decodeIsItsEngineSteps : Obligations.DecodeIsItsEngineSteps := by
  intro s t buf hready hlen hexec
  have hp : s.phase = .idle ∨ s.phase = .done := by
    simp only [State.ready, Bool.and_eq_true, Bool.or_eq_true, decide_eq_true_eq] at hready
    exact hready.1
  have hrun : conclude (decodeRun (s.decodeReset buf)) = .next t := by
    rw [← hexec]
    simp [exec, execDecode, decodeOp, hready, dutyKept, hlen]
  exact Reaches.head (s := { s with cmd := some ⟨buf, buf.length⟩ }) (step_dutyKept hp rfl hlen)
    ((decodeRun_runs buf s).reaches hrun)

end Sys2Proof.Machine

/-! ### What one step can do (R13, R25) -/

namespace Sys2Proof.Machine

/-! #### Between markers -/

/-- t is s after taking input between markers: the stream position stays inside the input. -/
def Parsed (s t : State) : Prop :=
  ∃ d, Parses d s t ∧ (s.positionOk → t.positionOk)

theorem Parsed.refl (s : State) : Parsed s s :=
  ⟨0, Parses.refl s, id⟩

theorem Parses.parsed {d : Nat} {s t : State} (h : Parses d s t) (hd : (d : Int) ≤ s.remaining) : Parsed s t :=
  ⟨d, h, h.position hd⟩

theorem Parsed.inputOk {s t : State} (h : Parsed s t) (hs : s.inputOk) : t.inputOk := by
  obtain ⟨d, hp, hpos⟩ := h
  refine ⟨by rw [hp.inp]; exact hs.1, ?_, hpos hs.2.2⟩
  unfold State.inputResident
  rw [hp.inp]
  exact hs.2.1

/-- What a marker leaves: a frame as it stands between markers, or the scan started over it, the bytes allocated
counted (R33, R40). -/
def MarkerLeaves (s t : State) : Prop :=
  (KeepsHeaders s t ∨ StartsScan s t) ∧ (s.headerFrame → s.liveOk → t.liveOk)

/-- A marker that ends the DECODE does so within the bytes left, where there are two for the marker itself. -/
def MarkerStops (s t : State) : Prop :=
  ∃ n : Nat, (2 ≤ s.remaining → (n : Int) ≤ s.remaining) ∧ ParseAborts n s t

theorem SameFrame.liveOk {s t : State} (h : SameFrame s t) (hl : s.liveOk) : t.liveOk := by
  obtain ⟨_, _, _, _, _, _, _, _, _, hcomps, hrgb, hlive⟩ := h
  unfold State.liveOk State.bufferBytes at hl ⊢
  rw [hcomps, hrgb, hlive]
  exact hl

/-- A segment whose body leaves the frame alone counts the bytes and never faults. -/
theorem segment_sameFrame_stops {α : Type} {seg : Framed α} {size : α → Nat} {body : α → State → Eng State}
    (s : State) (hb : ∀ a t, seg = .ok a → Post (body a t) (fun u => Parses (size a) t u ∧ SameFrame t u)
      (ParseAborts (size a) t) False) :
    Post (segmentOp seg size body s) (fun t => s.headerFrame → s.liveOk → t.liveOk) (MarkerStops s)
      (¬ s.headerFrame) :=
  segment_post fun a t hseg _ ht _ => by
    subst ht
    exact (hb a _ hseg).mono
      (fun _ hu _ => (((sameFrame_skip 2 s).trans (sameFrame_skip 2 _)).trans hu.2).liveOk) (fun _ h => h)
      False.elim

theorem liveOk_skip {s : State} {n : Nat} (h : s.liveOk) : (s.skip n).liveOk :=
  (sameFrame_skip n s).liveOk h

/-- With a frame already there SOF0's body stops at once (R170). -/
theorem sofBody_again (b : SofBody) {s : State} (h : s.frame = true) : sofBodyOp b s = raise .syntaxError s := by
  simp [sofBodyOp, h]

/-- With none SOS's body stops at once (R160). -/
theorem sosBody_early (b : SosBody) {s : State} (h : s.frame = false) : sosBodyOp b s = raise .syntaxError s := by
  simp [sosBodyOp, h]

theorem sof0_stops {seg : Framed SofBody} (hseg : seg.wf SofBody.size SofBody.wf = true) (s : State) :
    Post (sof0Op seg s) (fun t => s.headerFrame → s.liveOk → t.liveOk) (MarkerStops s) (¬ s.headerFrame) := by
  refine segment_post fun b t hb _ ht _ => ?_
  subst ht
  rcases Bool.eq_false_or_eq_true s.frame with hyes | hno
  · rw [sofBody_again b (s := (s.skip 2).skip 2) hyes]
    exact parseAborts_here (by decide)
  have hnone : s.headerFrame → ((s.skip 2).skip 2).noFrame := by
    rintro (⟨_, hnone⟩ | ⟨hyes, _⟩)
    · exact hnone
    · rw [hno] at hyes
      cases hyes
  refine (sofBody_post b (Framed.wf_ok hseg hb) _).mono (fun u hu hs hl => ?_) (fun _ h => h)
    fun hn hs => hn (hnone hs)
  obtain ⟨_, _, _, _, hlaid⟩ := hu
  exact (hlaid (hnone hs)).2 (liveOk_skip (liveOk_skip hl))

theorem sos_stops (seg : Framed SosBody) (s : State) :
    Post (sosOp seg s) (fun t => s.headerFrame → s.liveOk → t.liveOk) (MarkerStops s) (¬ s.headerFrame) := by
  refine segment_post fun b t _ _ ht _ => ?_
  subst ht
  rcases Bool.eq_false_or_eq_true s.frame with hyes | hno
  · refine (sosBody_post b _).mono (fun u hu _ hl => ?_) (fun _ h => h) fun hshort hs => ?_
    · obtain ⟨_, _, _, _, hcomps, hlive, hrgb, _⟩ := hu
      have hl' : ((s.skip 2).skip 2).liveOk := liveOk_skip (liveOk_skip hl)
      unfold State.liveOk at hl' ⊢
      rw [bufferBytes_of_unselected hcomps hrgb, hlive, hl']
    · rcases hs with ⟨hno, _⟩ | ⟨_, hlaid⟩
      · rw [hyes] at hno
        cases hno
      · exact absurd hshort (Nat.not_lt.mpr (Nat.le_of_eq hlaid.2.1.symm))
  · rw [sosBody_early b (s := (s.skip 2).skip 2) hno]
    exact parseAborts_here (by decide)

theorem refusedMarker_stops {code : Code} (hcode : code ≠ .ok) (s : State) (yes : State → Prop) (ft : Prop) :
    Post (refusedMarker code s) yes (MarkerStops s) ft :=
  ⟨2, id, s.skip 2, 2, code, Nat.le_refl 2, parses_skip 2 s, hcode, rfl⟩

/-- A marker counts the bytes it allocates; it stops within the input, and faults over no frame it can meet. -/
theorem marker_stops {i : Instr} (h : TopInstr i) (s : State) :
    Post (markerOp i s) (fun t => s.headerFrame → s.liveOk → t.liveOk) (MarkerStops s) (¬ s.headerFrame) := by
  cases h with
  | sof0 hseg => exact sof0_stops hseg s
  | dht hseg => exact segment_sameFrame_stops s fun b t hb => dht_post b (Framed.wf_ok hseg hb) t
  | dqt hseg => exact segment_sameFrame_stops s fun b t hb => dqt_post b (Framed.wf_ok hseg hb) t
  | dri seg => exact segment_sameFrame_stops s fun b t _ => dri_post b t
  | sos seg => exact sos_stops seg s
  | appn n seg => exact segment_sameFrame_stops s fun p t _ => skipSeg_post p t
  | com seg => exact segment_sameFrame_stops s fun p t _ => skipSeg_post p t
  | eoiTop => exact refusedMarker_stops (by decide) s _ _
  | notAMarker b0 b1 => exact ⟨0, fun _ => by omega, parseAborts_here (by decide)⟩
  | unsupported _ _ hop _ =>
    rw [hop]
    exact refusedMarker_stops (by decide) s _ _

/-- A marker the decoder reads lies in the bytes left. -/
theorem remaining_of_decodeTop {s : State} {r : Instr × List Byte} (h : decodeTop s.bytesLeft = .ok r) :
    2 ≤ s.remaining := by
  have hle : s.bytesLeft.length ≤ s.remaining.toNat := Memory.length_bytesAt_le _ _ _
  match hb : s.bytesLeft with
  | [] => rw [hb] at h; cases h
  | [_] => rw [hb] at h; cases h
  | _ :: _ :: _ =>
    simp only [hb, List.length_cons] at hle
    omega

/-! #### In the scan -/

/-- Taking d bytes that are there, with the input used up or not. -/
theorem reads_take {s t : State} (d : Nat) (hd : (d : Int) ≤ s.remaining) (hpos : 0 < d)
    (ht : t = { s with pos := s.pos + d, remaining := t.remaining, acc := t.acc })
    (hr : t.remaining = s.remaining - d ∨ t.remaining = 0) : Reads s t := by
  have htpos : t.pos = s.pos + d := by rw [ht]
  have htinp : t.inp = s.inp := by rw [ht]
  refine ⟨by rw [htpos]; exact ht, by omega, by omega, fun hp => ?_⟩
  unfold State.positionOk at hp ⊢
  rw [htpos, htinp]
  push_cast
  omega

/-- What an escape does: it appends at most sixteen bits, or ends the DECODE after eight more (R111, R117). -/
def EscapeDoes (s t : State) : Prop :=
  (Reads s t ∧ t.acc.length ≤ s.acc.length + 16) ∨ ReadAborts s t

theorem reads_dataByte (b : Byte) {s : State} (h : 1 ≤ s.remaining) : Reads s (dataByte b s) :=
  reads_take 1 h (by omega) rfl (.inl rfl)

theorem reads_takeEscape {s : State} (h : 2 ≤ s.remaining) : Reads s (takeEscape s) := by
  refine reads_take 2 h (by omega) rfl (.inl ?_)
  simp only [takeEscape, dataByte, State.skip_remaining, State.push_remaining]
  omega

theorem decodeEscape_does (c : Byte) {s : State} (h : 2 ≤ s.remaining) :
    Keeps (exec (decodeEscape c) s) (EscapeDoes s) := by
  have htake := reads_takeEscape h
  have hlen : (takeEscape s).acc.length = s.acc.length + 8 := by simp [takeEscape, dataByte]
  intro t ht
  unfold decodeEscape at ht
  split at ht
  · cases ht
    exact .inl ⟨htake, by omega⟩
  split at ht
  · cases ht
    exact .inl ⟨htake, by omega⟩
  split at ht
  · cases ht
    exact .inl ⟨reads_take 2 h (by omega) rfl (.inr rfl), by
      simp only [eoiEscape, State.endInput_acc, hlen]; omega⟩
  split at ht
  · cases ht
    exact .inl ⟨htake.trans (reads_push _ _), by
      simp only [rstEscape, State.push_acc, List.length_append, hlen, length_bits8]; omega⟩
  · cases ht
    exact .inr ⟨takeEscape s, htake, by omega, rfl⟩

/-- The escape the decoder reads at `S.pos` takes no more bytes than are left. -/
theorem nextEscape_does (s : State) : Keeps (exec (nextEscape s) s) (EscapeDoes s) := by
  have hlen := Memory.length_bytesAt_le s.inp.mem s.pos (min s.remaining.toNat 2)
  unfold nextEscape
  generalize s.inp.mem.bytesAt s.pos (min s.remaining.toNat 2) = bytes at hlen ⊢
  match bytes with
  | [] =>
    intro t ht
    cases ht
    exact .inl ⟨reads_push s _, by simp⟩
  | b :: rest =>
    rw [List.length_cons] at hlen
    by_cases hff : b = 0xFF
    · subst hff
      match rest with
      | [] =>
        intro t ht
        cases ht
        exact .inr ⟨dataByte 0xFF s, reads_dataByte _ (by omega), by simp [dataByte], rfl⟩
      | c :: after =>
        rw [List.length_cons] at hlen
        exact decodeEscape_does c (by omega)
    · intro t ht
      simp only [decodeEcs, hff, if_false] at ht
      cases ht
      exact .inl ⟨reads_dataByte b (by omega), by simp [dataByte]⟩

/-- What a step of the scan does: a part of the scan, which may be its last, or SYNTAX_ERROR. -/
def ScanDoes (s t : State) : Prop :=
  (Scans s t ∧ (t.phase = s.phase ∨ t.phase = .convert)) ∨ ScanAborts s t

theorem EscapeDoes.scan {s t : State} (h : EscapeDoes s t) (hacc : s.acc.length < 16) : ScanDoes s t := by
  rcases h with ⟨hr, hlen⟩ | ⟨u, hu, hlen, rfl⟩
  · exact .inl ⟨(hr.blocks fun _ => by unfold State.accOk; omega).scans, .inl hr.phase⟩
  · exact .inr ⟨u, (hu.blocks fun _ => by unfold State.accOk; omega).scans, rfl⟩

theorem Blocks.scanDoes {s t : State} (h : Blocks s t) : ScanDoes s t :=
  .inl ⟨h.scans, .inl (by rw [h.frame])⟩

/-- A symbol's code, its magnitude bits and its use are a part of the block. -/
theorem headSymbol_post {h : Fin 4} {use : Byte → Word → State → Eng State} (s : State)
    (huse : ∀ sym v t, Post (use sym v t) (Blocks t) (BlockAborts t) True) :
    Post (headSymbolOp h use s) (Blocks s) (BlockAborts s) True := by
  unfold headSymbolOp
  simp only
  split
  · exact ⟨s, Blocks.refl s, rfl⟩
  · have hdrop : Blocks s (s.dropBits (HuffTable.lookup (s.ht.get h) (bitsNat (s.acc.take 16))).len.val) :=
      (reads_dropBits s _).blocks fun ha => by
        unfold State.accOk at ha ⊢
        simp only [State.dropBits_acc, List.length_drop]
        omega
    refine (post_bind _ _ _ _ _).mpr ((magnitude_post _ _ (by omega)).mono (fun m hm => ?_)
      (fun t ht => .of hdrop ht.block) fun _ => trivial)
    have hb := hdrop.trans (hm.1.blocks hm.2)
    exact (huse _ _ _).mono (fun t ht => hb.trans ht) (fun t ht => .of hb ht) id

theorem scanDoes_of_blocks {s : State} {m : Eng State} (h : Post m (Blocks s) (BlockAborts s) True) :
    Keeps (conclude m) (ScanDoes s) :=
  keeps_of_post (h.mono (fun _ ht => ht.scanDoes) (fun _ ht => .inr ht.scan) id)

theorem ReadsSymbol.step_does {h : Fin 4} {use : Byte → Word → State → Eng State} {s : State}
    (hr : ReadsSymbol h use s) (huse : ∀ sym v t, Post (use sym v t) (Blocks t) (BlockAborts t) True) :
    Keeps (step s) (ScanDoes s) := by
  rcases Nat.lt_or_ge s.acc.length 16 with hacc | hacc
  · rw [hr.step_escape hacc]
    exact fun t ht => (nextEscape_does s t ht).scan hacc
  · rw [hr.step_symbol hacc]
    exact scanDoes_of_blocks (headSymbol_post s huse)

theorem dcValue_blocks (d : Word) (s : State) : Post (dcValueOp d s) (Blocks s) (BlockAborts s) True :=
  (dcValue_post d s _).mono (fun _ ht => ht.1) (fun _ h => h) fun _ => trivial

theorem acSymbol_blocks (sym : Byte) (v : Word) (s : State) :
    Post (acSymbolOp sym v s) (Blocks s) (BlockAborts s) True :=
  (acSymbol_post sym v s).mono (fun _ ht => ht.1) (fun _ h => h) fun _ => trivial

theorem afterMcu_phase (s : State) : s.afterMcu.phase = s.phase ∨ s.afterMcu.phase = .convert := by
  rcases Bool.eq_false_or_eq_true s.lastMcu with hlast | hmore
  · rw [afterMcu_last hlast]
    exact .inr rfl
  · exact .inl (afterMcu_more hmore).2.2

/-- The next block comes in the same phase, or the scan has ended. -/
theorem nextBlock_phase (c : Comp) (s : State) :
    (s.nextBlock c).phase = s.phase ∨ (s.nextBlock c).phase = .convert := by
  unfold State.nextBlock
  simp only
  split
  · exact .inl rfl
  split
  · exact .inl rfl
  split
  · exact .inl rfl
  · exact afterMcu_phase s

theorem idctNext_does (k off : Nat) (s : State) : Keeps (conclude (idctNextOp k off s)) (ScanDoes s) := by
  refine keeps_of_post ((post_bind _ _ _ _ _).mpr ((idctBlock_post k off s _).mono (fun t ht => ?_)
    (fun _ h => h) fun _ => trivial))
  obtain ⟨_, _, hw⟩ := ht
  have hb : Blocks s t := (blocks_scratch s (idctRows s.cfg s.blk) s.seq).trans hw.blocks
  have hphase : t.phase = s.phase := by rw [hb.frame]
  refine (post_bind _ _ _ _ _).mpr ((getComp_post k t _).mono (fun c _ => .inl ⟨hb.scans.trans
    (scans_nextBlock c t), ?_⟩) (fun _ h => h) fun _ => trivial)
  rw [← hphase]
  exact nextBlock_phase c t

theorem restart_does (s : State) :
    Keeps (conclude (do let t ← restartOp s; return t.startMcu)) (ScanDoes s) :=
  keeps_of_post ((post_bind _ _ _ _ _).mpr ((restart_post s).mono
    (fun _ ht => .inl ⟨ht.1.trans (scans_seq rfl), .inl ht.2.1⟩) (fun _ h => .inr h) fun _ => trivial))

theorem step_scan_does {s : State} (hp : s.phase = .scan) (hc : s.cmd = none) : Keeps (step s) (ScanDoes s) := by
  cases hk : s.comps[s.seq.k]? with
  | none =>
    cases hst : s.seq.stage with
    | restart =>
      rw [step_restart hp hc hst]
      exact restart_does s
    | _ =>
      have hf : fetch s = .broken .noComponent := by simp only [fetch_scan hp hc, fetchScan, hst, hk]
      intro t ht
      rw [step, hf] at ht
      cases ht
  | some c =>
    cases hst : s.seq.stage with
    | dc => exact (readsSymbol_dc hp hc hst hk).step_does fun _ => dcValue_blocks
    | ac => exact (readsSymbol_ac hp hc hst hk).step_does acSymbol_blocks
    | idct =>
      rw [step_idct hp hc hst hk]
      exact idctNext_does _ _ s
    | restart =>
      rw [step_restart hp hc hst]
      exact restart_does s

/-! #### Every phase -/

/-- What a step can do. -/
inductive StepDoes (s : State) : State → Prop where
  /-- nothing, with no DECODE in progress and none issued (R287) -/
  | quiet : StepDoes s s
  /-- the per-decode reset (R300) -/
  | accepts {c : Command} (hc : s.cmd = some c) (hp : s.phase = .idle ∨ s.phase = .done) :
    StepDoes s (s.decodeReset c.buf)
  /-- SOI or a marker (R140, R141) -/
  | parses {t : State} (hp : s.phase = .headers) (hc : s.cmd = none) (h : Parsed s t) (hl : MarkerLeaves s t) :
    StepDoes s t
  /-- an abort between markers -/
  | parseAborts {u : State} {code : Code} (hp : s.phase = .headers) (hc : s.cmd = none) (h : Parsed s u) :
    StepDoes s (u.abort code)
  /-- an escape, a symbol, an IDCT or a restart marker (R182, R190, R192) -/
  | scans {t : State} (hp : s.phase = .scan) (hc : s.cmd = none) (h : Scans s t)
    (ht : t.phase = .scan ∨ t.phase = .convert) : StepDoes s t
  /-- an abort inside a scan -/
  | scanAborts {u : State} (hp : s.phase = .scan) (hc : s.cmd = none) (h : Scans s u) :
    StepDoes s (u.abort .syntaxError)
  /-- the conversion and the completion (R250, R255) -/
  | completes {u : State} (hp : s.phase = .convert) (hc : s.cmd = none) (h : Converts s u) : StepDoes s u.finish
  /-- an abort of the conversion -/
  | convertAborts {u : State} (hp : s.phase = .convert) (hc : s.cmd = none) (h : Converts s u) :
    StepDoes s (u.abort .outOfMemory)

theorem soi_does {s : State} (hp : s.phase = .headers) (hc : s.cmd = none) (hpos : s.pos = 0) :
    Keeps (conclude (soiOp s)) (StepDoes s) := by
  refine keeps_of_post ((soi_post s).mono (fun t ht => ?_) (fun t ht => ?_) id)
  · obtain ⟨rfl, hsize⟩ := ht
    refine .parses hp hc ⟨2, parses_skip 2 s, fun hs => ?_⟩
      ⟨.inl (sameFrame_skip 2 s).keepsHeaders, fun _ => liveOk_skip⟩
    unfold State.positionOk at hs ⊢
    simp only [State.skip_pos, State.skip_inp, State.skip_remaining, hpos] at hs ⊢
    omega
  · subst ht
    exact .parseAborts hp hc (.refl s)

theorem marker_does {s : State} {r : Instr × List Byte} (hp : s.phase = .headers) (hc : s.cmd = none)
    (hd : decodeTop s.bytesLeft = .ok r) : Keeps (conclude (markerOp r.1 s)) (StepDoes s) := by
  have htop := topInstr_of_decodeTop hd
  have h2 := remaining_of_decodeTop hd
  refine keeps_of_post (((marker_post htop s).and (marker_stops htop s)).mono (fun t ht => ?_) (fun t ht => ?_)
    fun _ => trivial)
  · obtain ⟨⟨d, _, hle, hparse, hq⟩, hlive⟩ := ht
    refine .parses hp hc (hparse.parsed hle) ⟨?_, hlive⟩
    split at hq
    · exact .inr hq
    · exact .inl hq
  · obtain ⟨_, n, hn, u, d, code, hdn, hparse, _, rfl⟩ := ht
    have := hn h2
    exact .parseAborts hp hc (hparse.parsed (by omega))

theorem step_headers_does {s : State} (hp : s.phase = .headers) (hc : s.cmd = none) :
    Keeps (step s) (StepDoes s) := by
  by_cases hpos : s.pos = 0
  · rw [step_soi hp hc hpos]
    exact soi_does hp hc hpos
  · cases hd : decodeTop s.bytesLeft with
    | error e =>
      rw [step_noMarker hp hc hpos hd]
      exact keeps_of_post (m := raise .syntaxError s) (.parseAborts hp hc (.refl s))
    | ok r =>
      rw [step_marker hp hc hpos hd]
      exact marker_does hp hc hd

theorem step_convert_does {s : State} (hp : s.phase = .convert) (hc : s.cmd = none) :
    Keeps (step s) (StepDoes s) := by
  rw [step_convert hp hc]
  refine keeps_of_post ((post_bind _ _ _ _ _).mpr ((convert_post s).mono (fun t ht => ?_) (fun t ht => ?_)
    fun _ => trivial))
  · exact .completes hp hc ht.1
  · obtain ⟨u, hu, rfl⟩ := ht
    exact .convertAborts hp hc hu

theorem step_ready_does {s : State} (hp : s.phase = .idle ∨ s.phase = .done) : Keeps (step s) (StepDoes s) := by
  intro t ht
  cases hc : s.cmd with
  | none =>
    rw [step_quiet hp hc] at ht
    cases ht
    exact .quiet
  | some c =>
    rw [step_accept hp hc, acceptCommand] at ht
    split at ht
    · cases ht
      exact .accepts hc hp
    · cases ht

/-- Every next state of a step is one of these. -/
theorem step_does (s : State) : Keeps (step s) (StepDoes s) := by
  by_cases hready : s.phase = .idle ∨ s.phase = .done
  · exact step_ready_does hready
  cases hc : s.cmd with
  | some c =>
    intro t ht
    rw [step_overlap hready hc] at ht
    cases ht
  | none =>
    cases hp : s.phase with
    | idle => exact absurd (.inl hp) hready
    | done => exact absurd (.inr hp) hready
    | headers => exact step_headers_does hp hc
    | convert => exact step_convert_does hp hc
    | scan =>
      intro t ht
      rcases step_scan_does hp hc t ht with ⟨hs, hphase⟩ | ⟨u, hu, rfl⟩
      · exact .scans hp hc hs (hp ▸ hphase)
      · exact .scanAborts hp hc hu

/-! ### What every step keeps -/

/-- An abort moves neither the stream position nor the accumulator. -/
theorem abort_reader {u : State} (code : Code) (hi : u.inputOk) (ha : u.accOk) :
    (u.abort code).inputOk ∧ (u.abort code).accOk :=
  ⟨hi, ha⟩

theorem Parsed.accOk {s t : State} (h : Parsed s t) (ha : s.accOk) : t.accOk := by
  obtain ⟨d, hp, _⟩ := h
  unfold State.accOk at ha ⊢
  rw [hp.acc]
  exact ha

theorem Converts.reader {s t : State} (h : Converts s t) (hi : s.inputOk) (ha : s.accOk) : t.inputOk ∧ t.accOk := by
  rw [h.frame]
  exact ⟨hi, ha⟩

/-- Settles O57, by cases on what the step does: each operation takes bytes that are left, and an escape is taken
only while fewer than sixteen bits are held. -/
theorem stepKeepsReaderBounds : Obligations.StepKeepsReaderBounds := by
  intro s hi ha t ht
  cases step_does s t ht with
  | quiet => exact ⟨hi, ha⟩
  | accepts => exact ⟨inputOk_decodeReset _ s, Nat.zero_le 31⟩
  | parses _ _ h _ => exact ⟨h.inputOk hi, h.accOk ha⟩
  | parseAborts _ _ h => exact abort_reader _ (h.inputOk hi) (h.accOk ha)
  | scans _ _ h _ => exact ⟨h.inputOk hi, h.acc ha⟩
  | scanAborts _ _ h => exact abort_reader _ (h.inputOk hi) (h.acc ha)
  | completes _ _ h => exact h.reader hi ha
  | convertAborts _ _ h => exact abort_reader _ (h.reader hi ha).1 (h.reader hi ha).2

/-- Where no DECODE is under way only the count of the bytes is asked for. -/
theorem frameOk_of_live {t : State} (hp : t.phase = .idle ∨ t.phase = .done) (hl : t.liveOk) : t.frameOk := by
  refine ⟨fun h => ?_, fun h => ?_, hl⟩ <;> rcases hp with hp | hp <;> simp [hp] at h

theorem liveOk_abort (code : Code) (u : State) : (u.abort code).liveOk := by
  have hsum : ((u.abort code).comps.map fun c => optBufferSize c.pixels).sum = 0 := by
    refine List.sum_eq_zero fun n hn => ?_
    obtain ⟨c, hc, rfl⟩ := List.mem_map.mp hn
    obtain ⟨d, _, rfl⟩ := List.mem_map.mp hc
    rfl
  show 0 = _ + 0
  rw [hsum]

theorem Scans.liveOk {s t : State} (h : Scans s t) (hl : s.liveOk) : t.liveOk := by
  have hbytes : t.bufferBytes = s.bufferBytes := bufferBytes_of_shapes h.shapes (by rw [h.frame])
  have hlive : t.live = s.live := by rw [h.frame]
  unfold State.liveOk at hl ⊢
  rw [hbytes, hlive, hl]

theorem frameOk_decodeReset (buf : List Byte) (s : State) : (s.decodeReset buf).frameOk :=
  ⟨fun _ => .inl ⟨rfl, rfl, rfl⟩, fun h => h.elim Phase.noConfusion Phase.noConfusion, rfl⟩

theorem MarkerLeaves.frameOk {s t : State} (h : MarkerLeaves s t) (hp : s.phase = .headers) (hs : s.frameOk) :
    t.frameOk := by
  obtain ⟨hheaders, _, hl⟩ := hs
  obtain ⟨hq, hlive⟩ := h
  have hframe : s.headerFrame := hheaders hp
  refine ⟨?_, ?_, hlive hframe hl⟩ <;> rcases hq with ⟨hphase, hkeep⟩ | ⟨hphase, _, hlaid⟩
  · exact fun _ => hkeep hframe
  · exact fun h => by rw [hphase] at h; cases h
  · exact fun h => by rw [hphase, hp] at h; rcases h with h | h <;> cases h
  · exact fun _ => hlaid hframe

/-- Settles O58, by cases on what the step does: SOF0 lays the frame out, the scan changes plane bytes and predictors
alone, and every allocation, release and abort is counted. -/
theorem stepKeepsFrame : Obligations.StepKeepsFrame := by
  intro s hs t ht
  cases step_does s t ht with
  | quiet => exact hs
  | accepts => exact frameOk_decodeReset _ s
  | parses hp _ _ hleaves => exact hleaves.frameOk hp hs
  | scans hp _ h hphase =>
    have hlaid := laidOut_of_scans h (hs.2.1 (.inl hp))
    refine ⟨fun hh => ?_, fun _ => hlaid, h.liveOk hs.2.2⟩
    rcases hphase with hphase | hphase <;> rw [hphase] at hh <;> cases hh
  | completes _ _ h => exact frameOk_of_live (.inr rfl) (h.live hs.2.2)
  | parseAborts => exact frameOk_of_live (.inr rfl) (liveOk_abort _ _)
  | scanAborts => exact frameOk_of_live (.inr rfl) (liveOk_abort _ _)
  | convertAborts => exact frameOk_of_live (.inr rfl) (liveOk_abort _ _)

end Sys2Proof.Machine

/-! ### What no step changes (R21, R24, R73, R183, R255) -/

namespace Sys2Proof.Machine

/-- The host registers 1 to 5 are as before. -/
structure KeepsRegisters (s t : State) : Prop where
  width : t.regWidth = s.regWidth
  height : t.regHeight = s.regHeight
  isColor : t.regIsColor = s.regIsColor
  outSize : t.regOutSize = s.regOutSize
  outBuf : t.regOutBuf = s.regOutBuf

/-- The configuration, the command and the input are as before, and so is a first error. -/
structure KeepsOwned (s t : State) : Prop where
  cfg : t.cfg = s.cfg
  cmd : t.cmd = s.cmd
  inp : t.inp = s.inp
  error : s.error ≠ .ok → t.error = s.error

/-- The tables, the restart interval and the selectors of every component are as before. -/
structure KeepsTables (s t : State) : Prop where
  ht : t.ht = s.ht
  qt : t.qt = s.qt
  qtAvail : t.qtAvail = s.qtAvail
  qtUsed : t.qtUsed = s.qtUsed
  restartInterval : t.restartInterval = s.restartInterval
  selectors : t.comps.map (fun c => (c.qtsel, c.dcsel, c.acsel)) =
    s.comps.map fun c => (c.qtsel, c.dcsel, c.acsel)

theorem KeepsOwned.abort {s u : State} (code : Code) (h : KeepsOwned s u) : KeepsOwned s (u.abort code) :=
  ⟨h.cfg, h.cmd, h.inp, fun he => by
    have hu := h.error he
    rw [State.abort_error, if_neg (by rw [hu]; exact he), hu]⟩

theorem KeepsRegisters.abort {s u : State} (code : Code) (h : KeepsRegisters s u) :
    KeepsRegisters s (u.abort code) :=
  ⟨h.width, h.height, h.isColor, h.outSize, h.outBuf⟩

theorem KeepsTables.abort {s u : State} (code : Code) (h : KeepsTables s u) : KeepsTables s (u.abort code) :=
  ⟨h.ht, h.qt, h.qtAvail, h.qtUsed, h.restartInterval, by
    rw [State.abort_comps, List.map_map]
    exact h.selectors⟩

theorem Parsed.owned {s t : State} (h : Parsed s t) : KeepsOwned s t := by
  obtain ⟨_, hp, _⟩ := h
  exact ⟨hp.cfg, hp.cmd, hp.inp, fun _ => hp.error⟩

theorem Parsed.registers {s t : State} (h : Parsed s t) : KeepsRegisters s t := by
  obtain ⟨_, hp, _⟩ := h
  rw [hp.frame]
  exact ⟨rfl, rfl, rfl, rfl, rfl⟩

theorem Scans.owned {s t : State} (h : Scans s t) : KeepsOwned s t := by
  rw [h.frame]
  exact ⟨rfl, rfl, rfl, fun _ => rfl⟩

theorem Scans.registers {s t : State} (h : Scans s t) : KeepsRegisters s t := by
  rw [h.frame]
  exact ⟨rfl, rfl, rfl, rfl, rfl⟩

/-- A component's selectors are part of its shape. -/
theorem selectors_of_shapes {l m : List Comp} (h : l.map Comp.shape = m.map Comp.shape) :
    l.map (fun c => (c.qtsel, c.dcsel, c.acsel)) = m.map fun c => (c.qtsel, c.dcsel, c.acsel) := by
  have hsel := congrArg (List.map fun c : Comp => (c.qtsel, c.dcsel, c.acsel)) h
  rw [List.map_map, List.map_map] at hsel
  exact hsel

theorem Scans.tables {s t : State} (h : Scans s t) : KeepsTables s t := by
  refine ⟨?_, ?_, ?_, ?_, ?_, selectors_of_shapes h.shapes⟩ <;> rw [h.frame]

theorem Converts.owned {s t : State} (h : Converts s t) : KeepsOwned s t := by
  rw [h.frame]
  exact ⟨rfl, rfl, rfl, fun _ => rfl⟩

theorem Converts.registers {s t : State} (h : Converts s t) : KeepsRegisters s t := by
  rw [h.frame]
  exact ⟨rfl, rfl, rfl, rfl, rfl⟩

/-- What a step keeps of the state the host and the headers own. -/
structure StepKeepsOwned (s t : State) : Prop where
  cfg : t.cfg = s.cfg
  owned : s.cmd = none → KeepsOwned s t
  tables : s.phase = .scan → KeepsTables s t
  registers : ¬ (s.phase = .convert ∧ t.result = .ended .ok) → KeepsRegisters s t

theorem StepDoes.keepsOwned {s t : State} (h : StepDoes s t) : StepKeepsOwned s t := by
  have absurdPhase : ∀ {p q : Phase} {P : Prop}, s.phase = p → p ≠ q → s.phase = q → P := fun hp hne hq =>
    absurd (hp.symm.trans hq) hne
  cases h with
  | quiet =>
    exact ⟨rfl, fun _ => ⟨rfl, rfl, rfl, fun _ => rfl⟩, fun _ => ⟨rfl, rfl, rfl, rfl, rfl, rfl⟩,
      fun _ => ⟨rfl, rfl, rfl, rfl, rfl⟩⟩
  | accepts hc hp =>
    refine ⟨rfl, fun h => (nomatch h.symm.trans hc), fun hscan => ?_, fun _ => ⟨rfl, rfl, rfl, rfl, rfl⟩⟩
    rcases hp with hp | hp <;> exact absurdPhase hp (by decide) hscan
  | parses hp _ h _ => exact ⟨h.owned.cfg, fun _ => h.owned, absurdPhase hp (by decide), fun _ => h.registers⟩
  | parseAborts hp _ h =>
    exact ⟨h.owned.cfg, fun _ => h.owned.abort _, absurdPhase hp (by decide), fun _ => h.registers.abort _⟩
  | scans _ _ h _ => exact ⟨h.cfg, fun _ => h.owned, fun _ => h.tables, fun _ => h.registers⟩
  | scanAborts _ _ h =>
    exact ⟨h.cfg, fun _ => h.owned.abort _, fun _ => h.tables.abort _, fun _ => h.registers.abort _⟩
  | completes hp _ h =>
    have ho := h.owned
    exact ⟨ho.cfg, fun _ => ⟨ho.cfg, ho.cmd, ho.inp, ho.error⟩, absurdPhase hp (by decide),
      fun hn => absurd ⟨hp, rfl⟩ hn⟩
  | convertAborts hp _ h =>
    exact ⟨h.owned.cfg, fun _ => h.owned.abort _, absurdPhase hp (by decide), fun _ => h.registers.abort _⟩

/-- Settles O59, by cases on what the step does: each operation's frame leaves these fields out. -/
theorem stepKeepsOwnedState : Obligations.StepKeepsOwnedState := by
  intro s t ht
  obtain ⟨hcfg, howned, htables, hregs⟩ := (step_does s t ht).keepsOwned
  refine ⟨hcfg, fun hc => ?_, fun hp => ?_, fun hn => ?_⟩
  · obtain ⟨_, hcmd, hinp, herror⟩ := howned hc
    exact ⟨hcmd.trans hc, hinp, herror⟩
  · obtain ⟨h1, h2, h3, h4, h5, h6⟩ := htables hp
    exact ⟨h1, h2, h3, h4, h5, h6⟩
  · obtain ⟨h1, h2, h3, h4, h5⟩ := hregs hn
    exact ⟨h1, h2, h3, h4, h5⟩

end Sys2Proof.Machine

/-! ### The host's reads (R34, R35, R255, R256) -/

namespace Sys2Proof.Machine

/-- No register but RESULT has a value while a DECODE is in progress or RESULT is not OK. -/
theorem hostRead_none {r : HostReg} {s : State} (hr : r ≠ .result)
    (h : s.result ≠ .ended .ok ∨ s.ready = false) : hostRead r s = none := by
  unfold hostRead
  split
  · rfl
  · rename_i hready
    have hresult : s.result ≠ .ended .ok := h.resolve_right fun h => hready (by simp [h])
    cases r with
    | result => exact absurd rfl hr
    | _ => exact if_pos hresult

/-- And neither has an output byte. -/
theorem outputByte_none {s : State} (h : s.result ≠ .ended .ok ∨ s.ready = false) (i : Nat) :
    outputByte i s = none := by
  have hfalse : (s.ready && s.result = .ended .ok && decide (i < outputSize s)) = false := by
    rcases h with h | h <;> simp [h]
  rw [outputByte, hfalse]
  rfl

theorem ready_finish {s : State} (hc : s.cmd = none) : s.finish.ready = true := by simp [State.ready, hc]

/-- After a completion every register has a value. -/
theorem hostRead_finish {s : State} (hc : s.cmd = none) (r : HostReg) :
    hostRead r s.finish = some (match r with
      | .result => .word (s.cfg.codes.ok.setWidth 32)
      | .width => .word (s.width.setWidth 32)
      | .height => .word (s.height.setWidth 32)
      | .isColor => .word (if s.ncomp = 3 then 1 else 0)
      | .outSize => .word (outSizeWord s.outBytes)
      | .outBuf => .ref (if s.ncomp = 3 then .rgb else .plane0)) := by
  cases r <;> simp [hostRead, ready_finish hc, resultWord, codeNumber, State.isColor]

theorem outBytes_eq (s : State) :
    s.outBytes = s.width.toNat * s.height.toNat * (if s.ncomp = 3 then 3 else 1) := by
  simp [State.outBytes, State.isColor]

theorem outputSize_finish (s : State) : outputSize s.finish = s.outBytes := rfl

/-- The output of a completed DECODE is the RGB buffer or plane 0. -/
theorem outArray_finish (s : State) :
    outArray s.finish = if s.ncomp = 3 then s.rgb else s.comps.head?.bind Comp.pixels := by
  rw [outArray, State.finish_regOutBuf, State.isColor]
  by_cases h : s.ncomp = 3
  · rw [if_pos (decide_eq_true h), if_pos h]
    rfl
  · rw [if_neg (by simpa using h), if_neg h]
    rfl

theorem outputByte_finish {s : State} (hc : s.cmd = none) (i : Nat) : outputByte i s.finish =
    if i < s.outBytes then (outArray s.finish).bind fun b => if i < b.size then b.mem.read i else none
    else none := by
  by_cases h : i < s.outBytes <;> simp [outputByte, ready_finish hc, outputSize_finish, h]

/-- Settles O55: the registers are those the completion writes, and no read has a value before it. -/
theorem hostRegisters : Obligations.HostRegisters := by
  intro s
  refine ⟨fun hc => ⟨hostRead_finish hc .result, hostRead_finish hc .width, hostRead_finish hc .height,
    hostRead_finish hc .isColor, fun n hn hlt => ?_, hostRead_finish hc .outBuf, fun i => ?_⟩,
    fun h => ⟨fun _ hr => hostRead_none hr h, outputByte_none h⟩⟩
  · rw [← outBytes_eq] at hn
    rw [hostRead_finish hc, outSizeWord, ← hn, if_pos hlt]
  · rw [outputByte_finish hc, outArray_finish, outBytes_eq]

/-! ### The abort, power-on and the per-decode reset (R38, R39, R275) -/

theorem abort_result_ne_ok {code : Code} (hcode : code ≠ .ok) (s : State) :
    (s.abort code).result ≠ .ended .ok := by
  rw [State.abort_result]
  split
  · simpa using hcode
  · simpa

/-- Settles O5: the abort writes these fields and no other, and its result is not OK. -/
theorem abortEntry : Obligations.AbortEntry := by
  intro s code hcode
  have hresult := abort_result_ne_ok hcode s
  exact ⟨rfl, rfl, rfl, rfl, rfl, rfl, fun _ hr => hostRead_none hr (.inl hresult), outputByte_none (.inl hresult),
    rfl⟩

theorem reset_qt (t : Fin 4) (k : Fin 64) : (State.reset.qt.get t).get k = 0 := by
  simp [State.reset, Vector.get]

theorem reset_ht (h : Fin 4) (w : Nat) : HuffTable.lookup (State.reset.ht.get h) w = ⟨0, 0⟩ := by
  have hempty : State.reset.ht.get h = [] := by simp [State.reset, Vector.get]
  rw [hempty]
  rfl

theorem reset_blk (i : Fin 64) : State.reset.blk.get i = 0 := by
  simp [State.reset, Vector.get]

/-- Settles O6: each field of the power-on state has the value of R38's table. -/
theorem powerOnState : Obligations.PowerOnState :=
  ⟨rfl, rfl, rfl, rfl, rfl, rfl, rfl, rfl, rfl, rfl, rfl, rfl, rfl, rfl, rfl, reset_qt, rfl, rfl, reset_ht, rfl,
    rfl, rfl, rfl, rfl, rfl, reset_blk, rfl, rfl, rfl⟩

/-- Settles O60: the empty input and the absent frame meet each clause. -/
theorem resetMeetsInvariants : Obligations.ResetMeetsInvariants :=
  ⟨rfl, ⟨rfl, fun i hi => absurd hi (Nat.not_lt_zero i), Nat.le_refl 0, .inl (Int.le_refl 0)⟩, Nat.zero_le 31,
    frameOk_of_live (.inl rfl) rfl⟩

/-- Settles O7: the step takes the command up with the per-decode reset, whose fields are R38's. -/
theorem perDecodeReset : Obligations.PerDecodeReset := by
  intro s buf hp hc hlen
  exact ⟨_, step_dutyKept hp hc hlen, rfl, Buffer.read_ofBytes buf, rfl, rfl, rfl, rfl, rfl, rfl, rfl, rfl, rfl, rfl,
    rfl, rfl, rfl, rfl, rfl, reset_qt, rfl, rfl, reset_ht, rfl, rfl, rfl, rfl, rfl, rfl, reset_blk, rfl, rfl, rfl,
    rfl, rfl, rfl, rfl, rfl, rfl, rfl⟩

/-! ### Which instruction a step runs (R13, R31, R140, R141, R180, R190) -/

theorem decodeTop_short {bs : List Byte} (h : bs.length < 2) : decodeTop bs = .error .needTwoBytes := by
  match bs with
  | [] => rfl
  | [_] => rfl
  | _ :: _ :: _ => simp at h

/-- The bytes left are the input's from `S.pos` on. -/
theorem bytesLeft_spec {s : State} (h : s.inputOk) : s.bytesLeft.length = s.remaining.toNat ∧
    ∀ j, j < s.remaining.toNat → s.bytesLeft[j]? = s.inp.mem.read (s.pos + j) := by
  refine ⟨length_bytesAt_pos h (Nat.le_refl _), fun j hj => ?_⟩
  obtain ⟨hwf, hres, hpos, hrem⟩ := h
  simp only [Buffer.wf, Bool.and_eq_true] at hwf
  refine Memory.bytesAt_of_resident hwf.1 (fun i hi => ?_) hj
  obtain ⟨b, hb⟩ := hres (s.pos + i) (by omega)
  rw [hb]
  rfl

/-- Settles O8: SOI at the start, else the instruction at `S.pos`, which adds nothing after it. -/
theorem stepRunsMarker : Obligations.StepRunsMarker := by
  intro s hp hc
  refine ⟨step_soi hp hc, fun i rest hpos hd => ?_, fun hpos hshort => ?_, bytesLeft_spec⟩
  · have htop : TopInstr i := topInstr_of_decodeTop (r := (i, rest)) hd
    rw [htop.exec_eq]
    exact step_marker hp hc hpos hd
  · exact step_noMarker hp hc hpos (decodeTop_short hshort)

/-- A window with no code is HUFF_MISS. -/
theorem ReadsSymbol.step_miss {h : Fin 4} {use : Byte → Word → State → Eng State} {s : State}
    (hr : ReadsSymbol h use s) (hacc : 16 ≤ s.acc.length)
    (hmiss : (HuffTable.lookup (s.ht.get h) (bitsNat (s.acc.take 16))).len = 0) (w : Half) :
    step s = exec (.huffMiss w) s := by
  rw [hr.step_symbol hacc, headSymbolOp, if_pos hmiss]
  rfl

/-- A window with a code is its symbol, the code consumed. -/
theorem ReadsSymbol.step_code {h : Fin 4} {use : Byte → Word → State → Eng State} {s : State}
    (hr : ReadsSymbol h use s) (hacc : 16 ≤ s.acc.length) {e : HtEntry}
    (he : e = HuffTable.lookup (s.ht.get h) (bitsNat (s.acc.take 16))) (hlen : e.len ≠ 0) :
    step s = conclude (symbolOp use e.sym (s.dropBits e.len.val)) := by
  subst he
  rw [hr.step_symbol hacc, headSymbolOp, if_neg hlen]

theorem settled_next {i : Instr} {s t u : State} (hf : fetch s = .run i) (he : exec i s = .next t)
    (hu : settle i t = u) : step s = .next u := by
  rw [step, hf]
  show settled i (exec i s) = .next u
  rw [he, ← hu]
  rfl

/-- Settles O9, by cases on the stage of the scan. -/
theorem stepRunsScan : Obligations.StepRunsScan := by
  intro s c hp hc hk
  refine ⟨fun hst hacc i rest hd => ?_, fun h level hst hacc e he => ?_, fun off t d hst hoff hexec htp htd => ?_,
    fun t hst hexec => ?_⟩
  · have hi : nextEscape s = i := congrArg Prod.fst (Except.ok.inj hd)
    rw [← hi]
    rcases hst with hst | hst
    · exact (readsSymbol_dc hp hc hst hk).step_escape hacc
    · exact (readsSymbol_ac hp hc hst hk).step_escape hacc
  · rcases hst with ⟨hst, rfl, rfl⟩ | ⟨hst, rfl, rfl⟩
    · have hr := readsSymbol_dc hp hc hst hk
      refine ⟨fun hmiss => hr.step_miss hacc (he ▸ hmiss) _, fun i rest hlen hd => ?_⟩
      have hi : decodeDcSymbol e.sym = i := congrArg Prod.fst (Except.ok.inj hd)
      rw [hr.step_code hacc he hlen, ← exec_dcSymbol, hi]
      rfl
    · have hr := readsSymbol_ac hp hc hst hk
      refine ⟨fun hmiss => hr.step_miss hacc (he ▸ hmiss) _, fun i rest hlen hd => ?_⟩
      have hi : decodeAcSymbol e.sym = i := congrArg Prod.fst (Except.ok.inj hd)
      rw [hr.step_code hacc he hlen, ← exec_acSymbol, hi]
      rfl
  · subst hoff
    refine settled_next (by simp only [fetch_scan hp hc, fetchScan, hst, hk]) hexec ?_
    simp only [settle, htp, htd]
  · exact settled_next (by simp only [fetch_scan hp hc, fetchScan, hst]) hexec rfl

theorem dutyKept_iff {cfg : Config} {buf : List Byte} {len : Nat} :
    dutyKept cfg buf len = true ↔ len = buf.length ∧ len ≤ cfg.inLenMax := by simp [dutyKept]

/-- A duty that is broken in the length or the limit. -/
theorem not_dutyKept {cfg : Config} {buf : List Byte} {len : Nat} (h : len ≠ buf.length ∨ cfg.inLenMax < len) :
    ¬ dutyKept cfg buf len = true := by
  rw [dutyKept_iff]
  omega

/-- Settles O10: the cases of the fetch that run no instruction, and those of DECODE that refuse. -/
theorem stepBetweenDecodes : Obligations.StepBetweenDecodes := by
  intro s
  refine ⟨step_quiet, fun c hp hc => ⟨fun hlen hmax => ?_, fun hbroken => ?_⟩, fun c hidle hdone hc => ?_,
    fun t hp hc hexec => ?_, fun buf len => ⟨fun hready => ?_, fun hready hbroken => ?_⟩⟩
  · rw [step_accept hp hc, acceptCommand, if_pos (dutyKept_iff.mpr ⟨hlen, hmax⟩)]
  · rw [step_accept hp hc, acceptCommand, if_neg (not_dutyKept hbroken)]
  · exact step_overlap (by simp [hidle, hdone]) hc
  · exact settled_next (by simp [fetch, hp, hc]) hexec rfl
  · show decodeOp buf len s = _
    simp [decodeOp, hready]
  · show decodeOp buf len s = _
    rw [decodeOp, if_neg (by simp [hready]), if_pos (not_dutyKept hbroken)]

end Sys2Proof.Machine

/-! ### No marker raises INTERNAL_ERROR (R277) -/

namespace Sys2Proof.Machine

/-- An operation that begins in s answers with the sticky error of s, and aborts with another code than
INTERNAL_ERROR where no error came before. -/
def KeepsError (s : State) (m : Eng State) : Prop :=
  Post m (fun t => t.error = s.error) (fun t => s.error = .ok → t.error ≠ .internalError) True

theorem keepsError_raise {s u : State} {code : Code} (hu : u.error = s.error) (hcode : code ≠ .internalError) :
    KeepsError s (raise code u) := by
  intro hs
  rw [State.abort_error, hu, if_pos hs]
  exact hcode

theorem KeepsError.of_error {s u : State} {m : Eng State} (h : KeepsError u m) (hu : u.error = s.error) :
    KeepsError s m := by
  unfold KeepsError at h ⊢
  rw [hu] at h
  exact h

theorem KeepsError.bind {s : State} {m : Eng State} {f : State → Eng State} (h : KeepsError s m)
    (hf : ∀ t, t.error = s.error → KeepsError t (f t)) : KeepsError s (m >>= f) :=
  (post_bind _ _ _ _ _).mpr (Post.imp h fun t ht => (hf t ht).of_error ht)

/-- After a component is read. -/
theorem keepsError_getComp {s u : State} {k : Nat} {f : Comp → Eng State} (hf : ∀ c, KeepsError s (f c)) :
    KeepsError s (getComp k u >>= f) :=
  (post_bind _ _ _ _ _).mpr ((getComp_post k u _).mono (fun c _ => hf c) (fun _ h => h) fun _ => trivial)

/-- After an allocation, which aborts with OUT_OF_MEMORY. -/
theorem keepsError_alloc {s : State} {n : Nat} {f : Buffer × State → Eng State}
    (hf : KeepsError s (f (Buffer.fresh n, { s with live := s.live + n }))) : KeepsError s (alloc n s >>= f) := by
  refine (post_bind _ _ _ _ _).mpr ((alloc_post n s True).mono (fun r hr => ?_) (fun t ht => ?_) id)
  · rw [hr.1]
    exact hf
  · rw [ht.1]
    exact keepsError_raise (s := s) rfl (by decide)

theorem segment_keepsError {α : Type} {seg : Framed α} {size : α → Nat} {body : α → State → Eng State} (s : State)
    (hb : ∀ a t, KeepsError t (body a t)) : KeepsError s (segmentOp seg size body s) := by
  unfold segmentOp
  simp only
  split
  · exact keepsError_raise rfl (by decide)
  · split
    · exact keepsError_raise rfl (by decide)
    · exact keepsError_raise rfl (by decide)
    · split
      · exact keepsError_raise rfl (by decide)
      · exact hb _ _

theorem sofComp_keepsError (c : SofComp) (s : State) : KeepsError s (sofCompOp c s) := by
  unfold sofCompOp
  simp only
  split
  · exact keepsError_raise rfl (by decide)
  split
  · exact keepsError_raise rfl (by decide)
  split
  · exact keepsError_raise rfl (by decide)
  split
  · exact keepsError_raise rfl (by decide)
  split
  · exact keepsError_raise rfl (by decide)
  · rfl

theorem sofComps_keepsError (cs : List SofComp) (s : State) : KeepsError s (sofCompsOp cs s) := by
  induction cs generalizing s with
  | nil => rfl
  | cons c cs ih => exact (sofComp_keepsError c s).bind fun t _ => ih (t.skip 3)

theorem allocPlane_keepsError (k : Nat) (s : State) : KeepsError s (allocPlane k s) := by
  refine keepsError_getComp fun c => ?_
  split
  · exact keepsError_raise rfl (by decide)
  · exact keepsError_alloc rfl

theorem allocRgb_keepsError (s : State) : KeepsError s (allocRgb s) := by
  unfold allocRgb
  split
  · exact keepsError_alloc rfl
  · rfl

theorem allocPlanes_keepsError (n : Nat) (s : State) : KeepsError s (forUp allocPlane n 0 s) :=
  forUp_keeps n 0 s rfl fun k t ht => (allocPlane_keepsError k t).of_error ht

theorem sofBody_keepsError (b : SofBody) (s : State) : KeepsError s (sofBodyOp b s) := by
  unfold sofBodyOp
  split
  · exact keepsError_raise rfl (by decide)
  split
  · exact keepsError_raise rfl (by decide)
  simp only
  split
  · exact keepsError_raise rfl (by decide)
  split
  · exact keepsError_raise rfl (by decide)
  split
  · exact keepsError_raise rfl (by decide)
  split
  · exact keepsError_raise rfl (by decide)
  split
  · exact keepsError_raise rfl (by decide)
  · refine ((sofComps_keepsError _ _).bind fun t _ => ?_).of_error rfl
    refine (KeepsError.bind (s := t.geometry) (allocPlanes_keepsError _ _) fun u _ => ?_).of_error rfl
    exact (allocRgb_keepsError u).bind fun v _ => rfl

theorem buildHt_keepsError (h : Fin 4) (counts syms : List Byte) (s : State) :
    KeepsError s (buildHtOp h counts syms s) := by
  unfold buildHtOp
  by_cases hok : countSum counts ≤ syms.length ∧ (codeWindows (codeLengths 1 counts) : Int) ≤ 65536
  · rw [buildSpans_ok 1 counts syms 65536 s hok.1 hok.2]
    rfl
  · obtain ⟨k, _, _, hfail⟩ := buildSpans_fails 1 counts syms 65536 s (by omega) (by omega)
    rw [hfail]
    exact keepsError_raise (u := s.skip k) rfl (by decide)

theorem dhtTables_keepsError (ts : List DhtTable) (tail : List Byte) (s : State) :
    KeepsError s (dhtTablesOp ts tail s) := by
  induction ts generalizing s with
  | nil =>
    unfold dhtTablesOp
    split
    · rfl
    · exact keepsError_raise rfl (by decide)
  | cons t ts ih =>
    refine KeepsError.bind ?_ fun u _ => ih u
    unfold dhtTableOp
    split
    · exact keepsError_raise rfl (by decide)
    split
    · exact keepsError_raise rfl (by decide)
    · exact (buildHt_keepsError _ _ _ _).of_error rfl

theorem dqtTables_keepsError (ts : List DqtTable) (tail : List Byte) (s : State) :
    KeepsError s (dqtTablesOp ts tail s) := by
  induction ts generalizing s with
  | nil =>
    unfold dqtTablesOp
    split
    · rfl
    · exact keepsError_raise rfl (by decide)
  | cons t ts ih =>
    refine KeepsError.bind ?_ fun u _ => ih u
    unfold dqtTableOp
    split
    · exact keepsError_raise rfl (by decide)
    split
    · exact keepsError_raise rfl (by decide)
    · rfl

theorem driBody_keepsError (b : DriBody) (s : State) : KeepsError s (driBodyOp b s) := by
  cases b with
  | short _ => exact keepsError_raise rfl (by decide)
  | full _ _ => rfl

theorem sosSels_keepsError (sels : List SosSel) (k : Nat) (s : State) : KeepsError s (sosSelsOp sels k s) := by
  induction sels generalizing k s with
  | nil => rfl
  | cons sel sels ih =>
    refine KeepsError.bind (keepsError_getComp fun c => ?_) fun t _ => ih (k + 1) t
    split
    · exact keepsError_raise rfl (by decide)
    split
    · exact keepsError_raise rfl (by decide)
    · rfl

theorem sosBody_keepsError (b : SosBody) (s : State) : KeepsError s (sosBodyOp b s) := by
  unfold sosBodyOp
  split
  · exact keepsError_raise rfl (by decide)
  split
  · exact keepsError_raise rfl (by decide)
  split
  · exact keepsError_raise rfl (by decide)
  split
  · exact keepsError_raise rfl (by decide)
  refine ((sosSels_keepsError _ 0 (s.skip 1)).bind fun t _ => ?_).of_error rfl
  split
  · exact keepsError_raise rfl (by decide)
  split
  · exact keepsError_raise rfl (by decide)
  · rfl

theorem marker_keepsError {i : Instr} (h : TopInstr i) (s : State) : KeepsError s (markerOp i s) := by
  cases h with
  | sof0 _ => exact segment_keepsError s sofBody_keepsError
  | dht _ => exact segment_keepsError s fun b => dhtTables_keepsError b.tables b.tail
  | dqt _ => exact segment_keepsError s fun b => dqtTables_keepsError b.tables b.tail
  | dri seg => exact segment_keepsError s driBody_keepsError
  | sos seg => exact segment_keepsError s sosBody_keepsError
  | appn n seg => exact segment_keepsError s fun _ _ => rfl
  | com seg => exact segment_keepsError s fun _ _ => rfl
  | eoiTop => exact keepsError_raise (u := s.skip 2) rfl (by decide)
  | notAMarker b0 b1 => exact keepsError_raise rfl (by decide)
  | unsupported _ _ hop _ =>
    rw [hop]
    exact keepsError_raise (u := s.skip 2) rfl (by decide)

end Sys2Proof.Machine

/-! ### A whole DECODE ends in DONE (R36, R311, R312) -/

namespace Sys2Proof.Machine

/-- Inside a DECODE of an engine with the configuration of s: nothing has gone wrong so far. -/
structure Running (s t : State) : Prop where
  cfg : t.cfg = s.cfg
  cmd : t.cmd = none
  error : t.error = .ok

/-- A DECODE of s that ends with an abort, not of INTERNAL_ERROR. -/
def DecodeAborts (s t : State) : Prop :=
  ∃ u code, Running s u ∧ code ≠ .ok ∧ code ≠ .internalError ∧ t = u.abort code

theorem Parses.running {d : Nat} {s t u : State} (h : Parses d t u) (hr : Running s t) : Running s u :=
  ⟨h.cfg.trans hr.cfg, h.cmd.trans hr.cmd, h.error.trans hr.error⟩

theorem Scans.running {s t u : State} (h : Scans t u) (hr : Running s t) : Running s u := by
  rw [h.frame]
  exact ⟨hr.cfg, hr.cmd, hr.error⟩

theorem Converts.running {s t u : State} (h : Converts t u) (hr : Running s t) : Running s u := by
  rw [h.frame]
  exact ⟨hr.cfg, hr.cmd, hr.error⟩

theorem ScanAborts.decode {s t u : State} (h : ScanAborts t u) (hr : Running s t) : DecodeAborts s u := by
  obtain ⟨v, hv, rfl⟩ := h
  exact ⟨v, .syntaxError, hv.running hr, by decide, by decide, rfl⟩

theorem ConvertAborts.decode {s t u : State} (h : ConvertAborts t u) (hr : Running s t) : DecodeAborts s u := by
  obtain ⟨v, hv, rfl⟩ := h
  exact ⟨v, .outOfMemory, hv.running hr, by decide, by decide, rfl⟩

theorem MarkerAborts.decode {s t u : State} (h : MarkerAborts t u) (hr : Running s t)
    (he : t.error = .ok → u.error ≠ .internalError) : DecodeAborts s u := by
  obtain ⟨_, v, _, code, _, hv, hcode, rfl⟩ := h
  have hrun := hv.running hr
  refine ⟨v, code, hrun, hcode, fun hint => he hr.error ?_, rfl⟩
  rw [State.abort_error, if_pos hrun.error, hint]

/-- What SCAN hands to the conversion: a laid out frame with every block written. -/
structure Scanned (s t : State) : Prop where
  running : Running s t
  frame : t.frameLaidOut
  ready : t.convertReady

/-- SCAN over a laid out frame and a resident input never faults, and writes every block. -/
theorem scan_ends {s t : State} (hr : Running s t) (hin : t.inputOk) (hl : t.frameLaidOut) :
    Post (scanOp t) (Scanned s) (DecodeAborts s) False := by
  refine (scan_post t).mono (fun u hu => ?_) (fun u hu => hu.decode hr)
    fun hn => hn ⟨hin, scanFits_of_laidOut hl⟩
  obtain ⟨hscan, _, _, _, hwritten⟩ := hu
  have hlaid := laidOut_of_scans hscan hl
  refine ⟨hscan.running hr, hlaid, convertReady_of hlaid fun mx my hx hy => hwritten mx my ?_ ?_⟩
  · rwa [hscan.mbwidth] at hx
  · rwa [hscan.mbheight] at hy

/-- A marker over a frame it can meet never faults, and takes some of the bytes left. -/
theorem marker_ends {i : Instr} {s t : State} (hi : TopInstr i) (hr : Running s t) (hb : BetweenMarkers t) :
    Post (markerOp i t) (fun u => Takes (if isSos i then StartsScan else KeepsHeaders) t u ∧ Running s u)
      (DecodeAborts s) False := by
  refine (((marker_post hi t).and (marker_keepsError hi t)).and (marker_stops hi t)).mono (fun u hu => ?_)
    (fun u hu => ?_) fun hn => hn.2 hb.frame
  · obtain ⟨⟨htakes, _⟩, _⟩ := hu
    have hrun : Running s u := by
      obtain ⟨_, _, _, hp, _⟩ := htakes
      exact hp.running hr
    exact ⟨htakes, hrun⟩
  · obtain ⟨⟨hab, he⟩, _⟩ := hu
    exact hab.decode hr he

/-- TOPLOOP: every marker takes a byte or more, so as many turns as there are bytes suffice (R311). -/
theorem topLoop_ends (fuel : Nat) {s t : State} (hr : Running s t) (hb : BetweenMarkers t)
    (hfuel : t.remaining.toNat < fuel) : Post (topLoop fuel t) (Scanned s) (DecodeAborts s) False := by
  induction fuel generalizing t with
  | zero => exact absurd hfuel (Nat.not_lt_zero _)
  | succ fuel ih =>
    simp only [topLoop]
    cases hd : decodeTop t.bytesLeft with
    | error e => exact ⟨t, .syntaxError, hr, by decide, by decide, rfl⟩
    | ok r =>
      refine (post_bind _ _ _ _ _).mpr ((marker_ends (topInstr_of_decodeTop hd) hr hb).imp fun u hu => ?_)
      obtain ⟨htakes, hru⟩ := hu
      split
      · rename_i hsos
        rw [if_pos hsos] at htakes
        obtain ⟨hscan, hlaid, _⟩ := htakes.scanning hb
        exact scan_ends hru hscan.input hlaid
      · rename_i hsos
        rw [if_neg hsos] at htakes
        refine ih hru (htakes.betweenMarkers hb) ?_
        obtain ⟨d, hpos, hle, hp, _⟩ := htakes
        rw [hp.remaining]
        omega

/-- A DECODE of s that ends with OK: the image's registers, and its output all there. -/
def DecodeOk (s t : State) : Prop :=
  ∃ u, Running s u ∧ u.width ≠ 0 ∧ u.height ≠ 0 ∧ (u.ncomp = 1 ∨ u.ncomp = 3) ∧
    (if u.ncomp = 3 then u.colorDone else u.grayDone) ∧ t = u.finish

/-- The conversion of a scanned frame never faults. -/
theorem convert_ends {s t : State} (h : Scanned s t) :
    Post (convertOp t >>= fun u => pure u.finish) (DecodeOk s) (DecodeAborts s) False := by
  refine (post_bind _ _ _ _ _).mpr ((convert_post t).mono (fun u hu => ?_) (fun u hu => hu.decode h.running)
    fun hn => hn h.ready)
  obtain ⟨hconv, hdone⟩ := hu
  obtain ⟨hn, _, hw, hh, _⟩ := h.frame
  have hdone := hdone h.ready
  have hrun := hconv.running h.running
  have hframe : u.width = t.width ∧ u.height = t.height ∧ u.ncomp = t.ncomp := by
    rw [hconv.frame]
    exact ⟨rfl, rfl, rfl⟩
  obtain ⟨hw', hh', hn'⟩ := hframe
  exact ⟨u, hrun, by rwa [hw'], by rwa [hh'], by rwa [hn'], by rwa [hn'], rfl⟩

/-- The SOI check finds its two bytes in a resident input. -/
theorem soi_ends {s : State} (hin : s.inputOk) :
    Post (soiOp s) (fun _ => True) (fun _ => True) False := by
  unfold soiOp
  split
  · trivial
  · rename_i hsize
    refine (post_bind _ _ _ _ _).mpr ((inByte_pos s 0 (fun _ => True) _ fun _ _ _ => trivial).mono (fun b0 _ => ?_)
      (fun _ h => h) fun hn => hn ⟨hin.2.1, by omega⟩)
    refine (post_bind _ _ _ _ _).mpr ((inByte_pos s 1 (fun _ => True) _ fun _ _ _ => trivial).mono (fun b1 _ => ?_)
      (fun _ h => h) fun hn => hn ⟨hin.2.1, by omega⟩)
    split
    · trivial
    · trivial

theorem running_decodeReset (buf : List Byte) (s : State) : Running s (s.decodeReset buf) :=
  ⟨rfl, rfl, rfl⟩

/-- DECODE after its reset, part by part. -/
theorem decodeRun_ends (buf : List Byte) (s : State) :
    Post (decodeRun (s.decodeReset buf)) (DecodeOk s) (DecodeAborts s) False := by
  have hrun := running_decodeReset buf s
  refine (post_bind _ _ _ _ _).mpr (((soi_post _).and (soi_ends (inputOk_decodeReset buf s))).mono (fun t ht => ?_)
    (fun t ht => ?_) And.right)
  · obtain ⟨⟨rfl, hsize⟩, _⟩ := ht
    refine (post_bind _ _ _ _ _).mpr ((topLoop_ends _ ((parses_skip 2 _).running hrun)
      (betweenMarkers_of_soi hsize) (Nat.lt_succ_self _)).imp fun u hu => convert_ends hu)
  · exact ⟨_, .notAJpeg, hrun, by decide, by decide, ht.1⟩

theorem exec_decode {s : State} {buf : List Byte} (hready : s.ready = true) (hlen : buf.length ≤ s.cfg.inLenMax) :
    exec (.decode buf buf.length) s = conclude (decodeRun (s.decodeReset buf)) := by
  show decodeOp buf buf.length s = _
  rw [decodeOp, if_neg (by simp [hready]), if_neg (by simp [dutyKept_iff, hlen])]

theorem read_of_has {b : Buffer} {i : Nat} (h : b.has i = true) :
    (if i < b.size then b.mem.read i else none).isSome = true := by
  simp only [Buffer.has, Bool.and_eq_true, decide_eq_true_eq] at h
  rw [if_pos h.1]
  exact h.2

/-- The output array of a finished image has every byte of it. -/
theorem outArray_complete {u : State} (h : if u.ncomp = 3 then u.colorDone else u.grayDone) :
    ∃ b, outArray u.finish = some b ∧ ∀ i, i < u.outBytes → b.has i = true := by
  rw [outArray_finish, outBytes_eq]
  by_cases h3 : u.ncomp = 3
  · rw [if_pos h3] at h ⊢
    obtain ⟨b, hb, hall⟩ := h
    refine ⟨b, hb, fun i hi => hall i ?_⟩
    rw [if_pos h3] at hi
    rwa [Nat.mul_comm, Nat.mul_comm u.height.toNat]
  · rw [if_neg h3] at h ⊢
    obtain ⟨c, b, hc, hb, hall⟩ := h
    refine ⟨b, by rw [List.head?_eq_getElem?, hc]; exact hb, fun i hi => hall i ?_⟩
    rw [if_neg h3, Nat.mul_one] at hi
    rwa [Nat.mul_comm]

/-- And the host can take each. -/
theorem outputByte_complete {u : State} (hc : u.cmd = none)
    (h : if u.ncomp = 3 then u.colorDone else u.grayDone) {i : Nat} (hi : i < outputSize u.finish) :
    (outputByte i u.finish).isSome = true := by
  obtain ⟨b, hb, hall⟩ := outArray_complete h
  rw [outputSize_finish] at hi
  rw [outputByte_finish hc, if_pos hi, hb]
  exact read_of_has (hall i hi)

/-- Settles O52: no part of DECODE faults, since its loops' bounds suffice and a laid out frame has every byte the
rules index; it ends in an abort or in a completion with the output all there. -/
theorem decodeEndsDone : Obligations.DecodeEndsDone := by
  intro s buf hready hlen
  rw [exec_decode hready hlen]
  have hends := decodeRun_ends buf s
  match decodeRun (s.decodeReset buf), hends with
  | .ok _, ⟨u, hrun, hw, hh, hn, hdone, rfl⟩ =>
    refine ⟨_, rfl, rfl, ready_finish hrun.cmd, ?_, ?_, hrun.cfg,
      fun _ => ⟨rfl, rfl, hw, hh, hn, by simp [State.isColor], fun i => outputByte_complete hrun.cmd hdone⟩⟩
    · rw [State.finish_result, State.finish_error, hrun.error]
    · rw [State.finish_error, hrun.error]
      decide
  | .error (.aborted _), ⟨u, code, hrun, hok, hint, rfl⟩ =>
    have herror : (u.abort code).error = code := by rw [State.abort_error, if_pos hrun.error]
    refine ⟨_, rfl, rfl, by simp [State.ready, hrun.cmd], rfl, ?_, hrun.cfg, fun h => absurd (herror.symm.trans h) hok⟩
    rwa [herror]
  | .error (.fault _), h => exact h.elim

end Sys2Proof.Machine

/-! ### A scan of filler bits (R111, R190, R309) -/

namespace Sys2Proof.Machine

/-- The input is used up at position p, and only filler bits are held. -/
structure Filling (p : Nat) (s : State) : Prop where
  pos : s.pos = p
  ended : s.remaining ≤ 0
  ones : ∀ b ∈ s.acc, b = true

/-- The all-ones window is a DC symbol of category 0 or an EOB in the tables of every component, and no restart
marker is ever due. -/
structure FillTables (s : State) : Prop where
  restartInterval : s.restartInterval = 0
  dc : ∀ c ∈ s.comps, (HuffTable.lookup (s.ht.get c.dcsel.toFin) 0xFFFF).len ≠ 0 ∧
    (HuffTable.lookup (s.ht.get c.dcsel.toFin) 0xFFFF).sym.toNat % 16 = 0
  ac : ∀ c ∈ s.comps, (HuffTable.lookup (s.ht.get c.acsel.toFin) 0xFFFF).len ≠ 0 ∧
    (HuffTable.lookup (s.ht.get c.acsel.toFin) 0xFFFF).sym = 0x00

theorem KeepsTables.fillTables {s t : State} (h : KeepsTables s t) (hs : FillTables s) : FillTables t := by
  have hsel : ∀ d ∈ t.comps, ∃ c ∈ s.comps, c.dcsel = d.dcsel ∧ c.acsel = d.acsel := by
    intro d hd
    have hm := List.mem_map_of_mem (f := fun c : Comp => (c.qtsel, c.dcsel, c.acsel)) hd
    rw [h.selectors] at hm
    obtain ⟨c, hc, he⟩ := List.mem_map.mp hm
    simp only [Prod.mk.injEq] at he
    exact ⟨c, hc, he.2⟩
  refine ⟨h.restartInterval.trans hs.restartInterval, fun d hd => ?_, fun d hd => ?_⟩
  · obtain ⟨c, hc, hdc, _⟩ := hsel d hd
    rw [h.ht, ← hdc]
    exact hs.dc c hc
  · obtain ⟨c, hc, _, hac⟩ := hsel d hd
    rw [h.ht, ← hac]
    exact hs.ac c hc

theorem Filling.push {p : Nat} {s : State} (h : Filling p s) : Filling p (s.push 0xFF) := by
  refine ⟨h.pos, h.ended, fun b hb => ?_⟩
  rcases List.mem_append.mp hb with hb | hb
  · exact h.ones b hb
  · exact (by decide : ∀ b ∈ bits8 0xFF, b = true) b hb

theorem Filling.dropBits {p : Nat} {s : State} (h : Filling p s) (n : Nat) : Filling p (s.dropBits n) :=
  ⟨h.pos, h.ended, fun b hb => h.ones b (List.mem_of_mem_drop hb)⟩

/-- Sixteen filler bits are the window 0xFFFF. -/
theorem Filling.window {p : Nat} {s : State} (h : Filling p s) (hlen : 16 ≤ s.acc.length) :
    bitsNat (s.acc.take 16) = 0xFFFF := by
  have hrep : s.acc.take 16 = List.replicate 16 true :=
    List.eq_replicate_iff.mpr ⟨by simpa using hlen, fun b hb => h.ones b (List.mem_of_mem_take hb)⟩
  rw [hrep]
  decide

theorem fill_filling {p : Nat} (n fuel : Nat) {s : State} (h : Filling p s) :
    Post (fillOp n fuel s) (Filling p) (fun _ => False) True := by
  induction fuel generalizing s with
  | zero =>
    unfold fillOp
    split
    · trivial
    · exact h
  | succ fuel ih =>
    unfold fillOp
    split
    · rw [refillOp, if_pos h.ended]
      exact ih h.push
    · exact h

/-- DECODE_VLC takes the symbol of the all-ones window, which has no magnitude bits. -/
theorem vlc_filling {p : Nat} {s : State} {h : Fin 4} {e : HtEntry} (hs : Filling p s)
    (he : e = HuffTable.lookup (s.ht.get h) 0xFFFF) (hlen : e.len ≠ 0) (hsym : e.sym.toNat % 16 = 0) :
    Post (decodeVlcOp h s) (fun r => r.1 = e.sym ∧ Filling p r.2.2) (fun _ => False) True := by
  have hpeek : Post (peekOp 16 s) (fun r => Filling p r.2) (fun _ => False) True :=
    (post_bind _ _ _ _ _).mpr ((fill_filling 16 2 hs).imp fun t ht => ht)
  refine (post_bind _ _ _ _ _).mpr ((hpeek.and (peek_post 16 s (by omega))).mono (fun r hr => ?_) (fun _ h => h.1)
    fun _ => trivial)
  obtain ⟨hf, hreads, _, hheld, hvalue, _⟩ := hr
  rw [hvalue, hf.window hheld, hreads.ht, ← he]
  simp only
  rw [if_neg hlen, consume_held (by omega)]
  refine (post_bind _ _ _ _ _).mpr ((post_bind _ _ _ _ _).mpr ?_)
  rw [magnitudeOp, if_pos hsym]
  exact ⟨rfl, hf.dropBits _⟩

theorem acLoop_done {s : State} (h : s.seq.stage ≠ .ac) (fuel : Nat) : acLoop fuel s = .ok s := by
  cases fuel <;> simp [acLoop, h]

/-- The AC loop ends at its first symbol, an EOB. -/
theorem acLoop_filling {p : Nat} (fuel : Nat) {s : State} (h : Filling p s) (ht : FillTables s) :
    Post (acLoop (fuel + 1) s) (Filling p) (fun _ => False) True := by
  unfold acLoop
  split
  · refine (post_bind _ _ _ _ _).mpr ((getComp_post _ s _).mono (fun c hc => ?_) (fun _ h => h) fun _ => trivial)
    obtain ⟨hlen, hsym⟩ := ht.ac c (List.mem_of_getElem? hc)
    refine (post_bind _ _ _ _ _).mpr ((vlc_filling h rfl hlen (by rw [hsym]; rfl)).imp fun r hr => ?_)
    obtain ⟨hr1, hf⟩ := hr
    rw [hr1, hsym]
    show Post (acLoop fuel r.2.2.endBlock) (Filling p) (fun _ => False) True
    rw [acLoop_done (by simp [State.endBlock])]
    exact ⟨hf.pos, hf.ended, hf.ones⟩
  · exact h

theorem coefficients_filling {p : Nat} (k : Nat) {s : State} (h : Filling p s) (ht : FillTables s) :
    Post (coefficientsOp k s) (Filling p) (fun _ => False) True := by
  refine (post_bind _ _ _ _ _).mpr ((getComp_post k s _).mono (fun c hc => ?_) (fun _ h => h) fun _ => trivial)
  obtain ⟨hlen, hsym⟩ := ht.dc c (List.mem_of_getElem? hc)
  have hstart : Filling p (s.startBlock k) := ⟨h.pos, h.ended, h.ones⟩
  refine (post_bind _ _ _ _ _).mpr (((vlc_filling hstart rfl hlen hsym).and (vlc_post _ _)).mono (fun r hr => ?_)
    (fun _ h => h.1) fun _ => trivial)
  obtain ⟨⟨_, hf⟩, hreads, hacc⟩ := hr
  have hblocks : Blocks s r.2.2 := (blocks_scratch s _ _).trans (hreads.blocks hacc)
  have hvalue : Post (dcValueOp r.2.1 r.2.2) (Filling p) (fun _ => False) True :=
    (post_bind _ _ _ _ _).mpr ((getComp_post _ r.2.2 _).mono (fun _ _ => ⟨hf.pos, hf.ended, hf.ones⟩)
      (fun _ h => h) fun _ => trivial)
  refine (post_bind _ _ _ _ _).mpr ((hvalue.and (dcValue_post r.2.1 r.2.2 fun _ => False)).mono (fun t hd => ?_)
    (fun _ h => h.1) fun _ => trivial)
  exact acLoop_filling 62 hd.1 ((hblocks.trans hd.2.1).scans.tables.fillTables ht)

/-- The state of a scan that filler bits complete. -/
structure Fills (p : Nat) (s : State) : Prop where
  reader : Filling p s
  tables : FillTables s

theorem decodeBlock_fills {p : Nat} (k off : Nat) {s : State} (h : Fills p s) :
    Post (decodeBlockOp k off s) (Fills p) (fun _ => False) True := by
  have hreader : Post (decodeBlockOp k off s) (Filling p) (fun _ => False) True := by
    refine (post_bind _ _ _ _ _).mpr ((coefficients_filling k h.reader h.tables).imp fun t hf => ?_)
    refine (idctBlock_post k off t _).mono (fun u hu => ?_) (fun _ h => h) fun _ => trivial
    obtain ⟨_, _, hw⟩ := hu
    rw [hw.frame]
    exact ⟨hf.pos, hf.ended, hf.ones⟩
  refine (hreader.and (decodeBlock_post k off s)).mono (fun t ht => ?_) (fun _ h => h.1) fun _ => trivial
  obtain ⟨hf, hblocks, _⟩ := ht
  exact ⟨hf, hblocks.scans.tables.fillTables h.tables⟩

theorem mcu_fills {p : Nat} {s : State} (h : Fills p s) : Post (mcuOp s) (Fills p) (fun _ => False) True := by
  refine forUp_keeps _ _ s h fun k t ht => ?_
  refine (post_bind _ _ _ _ _).mpr ((getComp_post k t _).mono (fun c _ => ?_) (fun _ h => h) fun _ => trivial)
  exact forUp_keeps _ _ t ht fun y u hu => forUp_keeps _ _ u hu fun x v hv => decodeBlock_fills k _ hv

theorem Filling.afterMcu {p : Nat} {s : State} (h : Filling p s) : Filling p s.afterMcu := by
  unfold State.afterMcu
  simp only
  split
  · exact ⟨h.pos, h.ended, fun _ hb => absurd hb List.not_mem_nil⟩
  split
  · exact ⟨h.pos, h.ended, h.ones⟩
  split
  · exact ⟨h.pos, h.ended, h.ones⟩
  · exact ⟨h.pos, h.ended, h.ones⟩

/-- With no restart interval the restart check is never due. -/
theorem afterMcu_stage {s : State} (h : s.restartInterval = 0) : s.afterMcu.seq.stage ≠ .restart := by
  unfold State.afterMcu
  simp only
  split
  · simp [State.endScan, Seq.start]
  · simp [State.startMcu, State.startBlock]

theorem scanLoop_fills {p : Nat} (fuel : Nat) {s : State} (h : Fills p s) :
    Post (scanLoop fuel s) (Filling p) (fun _ => False) True := by
  induction fuel generalizing s with
  | zero => trivial
  | succ fuel ih =>
    refine (post_bind _ _ _ _ _).mpr ((mcu_fills h).imp fun m hm => ?_)
    have hnext : Fills p m.afterMcu :=
      ⟨hm.reader.afterMcu, (scans_afterMcu m).tables.fillTables hm.tables⟩
    split
    · exact hnext.reader
    · rw [if_neg (afterMcu_stage hm.tables.restartInterval)]
      exact ih hnext

/-- SCAN of filler bits does not abort, and takes no input. -/
theorem scan_fills {p : Nat} {s : State} (h : Fills p s) :
    Post (scanOp s) (Filling p) (fun _ => False) True :=
  scanLoop_fills s.mcuCount (s := s.startScan) ⟨⟨h.reader.pos, h.reader.ended, h.reader.ones⟩,
    (scans_seq rfl : Scans s s.startScan).tables.fillTables h.tables⟩

/-! ### A conversion with nothing to upsample (R250) -/

/-- Every component covers the image. -/
def State.allCover (s : State) : Prop :=
  ∀ c ∈ s.comps, s.needsUpsampling c = false

theorem upsampleComp_covering {s : State} (h : s.allCover) (k : Nat) :
    Post (upsampleComp k s) (fun t => t = s) (fun _ => False) True := by
  cases hc : s.comps[k]? with
  | none => simp [upsampleComp, upsampleLoop, getComp, hc, bind, Except.bind, stuck, Post]
  | some c =>
    have hcover := h c (List.mem_of_getElem? hc)
    simp [upsampleComp, upsampleLoop, getComp_ok hc, hcover, bind, Except.bind, pure, Except.pure, Post]

/-- Such a conversion allocates nothing, and so does not abort. -/
theorem convert_covering {s : State} (h : s.allCover) :
    Post (convertOp s) (fun _ => True) (fun _ => False) True := by
  have hsame : Post (forUp upsampleComp s.ncomp.toNat 0 s) (fun t => t = s) (fun _ => False) True :=
    forUp_keeps _ _ s rfl fun k t ht => by subst ht; exact upsampleComp_covering h k
  refine (post_bind _ _ _ _ _).mpr (hsame.imp fun t ht => ?_)
  split
  · exact (color_post t _).mono (fun _ _ => trivial) (fun _ h => h) fun _ => trivial
  · exact (compact_post t _).mono (fun _ _ => trivial) (fun _ h => h) fun _ => trivial

/-- A scan changes no component's size. -/
theorem Scans.allCover {s t : State} (h : Scans s t) (hs : s.allCover) : t.allCover := by
  intro d hd
  obtain ⟨k, hk⟩ := List.getElem?_of_mem hd
  obtain ⟨c, hc, hshape⟩ := h.comp_back hk
  have hcover := hs c (List.mem_of_getElem? hc)
  have hwidth : d.width = c.width := show d.shape.width = c.shape.width by rw [hshape]
  have hheight : d.height = c.height := show d.shape.height = c.shape.height by rw [hshape]
  have hside : t.width = s.width ∧ t.height = s.height := by
    rw [h.frame]
    exact ⟨rfl, rfl⟩
  unfold State.needsUpsampling at hcover ⊢
  rwa [hwidth, hheight, hside.1, hside.2]

end Sys2Proof.Machine

/-! ### The bytes ahead of the engine (R22, R81, R142) -/

namespace Sys2Proof.Machine

/-- The input from `S.pos` to its end is bs, and all of it remains. -/
structure Ahead (bs : List Byte) (s : State) : Prop where
  input : ∃ before, s.inp = Buffer.ofBytes (before ++ bs) ∧ s.pos = before.length
  remaining : s.remaining = bs.length

theorem Ahead.inputOk {bs : List Byte} {s : State} (h : Ahead bs s) : s.inputOk := by
  obtain ⟨⟨before, hinp, hpos⟩, hrem⟩ := h
  refine ⟨by rw [hinp]; exact Buffer.wf_ofBytes _, fun i hi => ?_, ?_⟩
  · rw [hinp] at hi ⊢
    exact ⟨(before ++ bs)[i], by rw [Buffer.read_ofBytes]; exact List.getElem?_eq_getElem hi⟩
  · simp only [State.positionOk, hinp, hpos, hrem, Buffer.size_ofBytes, List.length_append]
    omega

theorem Ahead.bytesLeft {bs : List Byte} {s : State} (h : Ahead bs s) : s.bytesLeft = bs := by
  obtain ⟨hlen, hbyte⟩ := bytesLeft_spec h.inputOk
  obtain ⟨⟨before, hinp, hpos⟩, hrem⟩ := h
  have hrem : s.remaining.toNat = bs.length := by omega
  refine List.ext_getElem? fun j => ?_
  rcases Nat.lt_or_ge j bs.length with hj | hj
  · rw [hbyte j (by omega), hinp, hpos, Buffer.read_ofBytes, List.getElem?_append_right (by omega),
      Nat.add_sub_cancel_left]
  · rw [List.getElem?_eq_none (by omega), List.getElem?_eq_none hj]

/-- Past a segment the rest of the input lies ahead. -/
theorem Ahead.past {seg rest : List Byte} {s t : State} (h : Ahead (seg ++ rest) s) (hinp : t.inp = s.inp)
    (hpos : t.pos = s.pos + seg.length) (hrem : t.remaining = s.remaining - seg.length) : Ahead rest t := by
  obtain ⟨⟨before, hin, hp⟩, hr⟩ := h
  refine ⟨⟨before ++ seg, by rw [hinp, hin, List.append_assoc], by rw [hpos, hp, List.length_append]⟩, ?_⟩
  rw [hrem, hr, List.length_append]
  push_cast
  omega

theorem ahead_decodeReset (buf : List Byte) (s : State) : Ahead buf (s.decodeReset buf) :=
  ⟨⟨[], rfl, rfl⟩, rfl⟩

/-- A turn of TOPLOOP whose marker the bytes ahead spell, and which goes on to the next. -/
theorem topLoop_header {bs rest : List Byte} {s t : State} {i : Instr} (fuel : Nat) (h : Ahead bs s)
    (hd : decodeTop bs = .ok (i, rest)) (hi : isSos i = false) (hop : markerOp i s = .ok t) :
    topLoop (fuel + 1) s = topLoop fuel t := by
  simp only [topLoop, h.bytesLeft, hd, hop, hi]
  rfl

/-- The turn of TOPLOOP that begins the scan. -/
theorem topLoop_sos {bs rest : List Byte} {s t : State} {i : Instr} (fuel : Nat) (h : Ahead bs s)
    (hd : decodeTop bs = .ok (i, rest)) (hi : isSos i = true) (hop : markerOp i s = .ok t) :
    topLoop (fuel + 1) s = scanOp t := by
  simp only [topLoop, h.bytesLeft, hd, hop, hi]
  rfl

/-- A payload of the stated length is framed whole. -/
theorem parseFrame_payload {α : Type} (parse : List Byte → α) {l1 l0 : Byte} {payload : List Byte}
    (rest : List Byte) (h : (be16 l1 l0).toNat = payload.length + 2) :
    parseFrame parse (l1 :: l0 :: (payload ++ rest)) = (.ok (parse payload), rest) := by
  simp [parseFrame, h]

/-- A segment that lies in the bytes left is its body after the marker and the length. -/
theorem segmentOp_inside {α : Type} {a : α} {size : α → Nat} {body : α → State → Eng State} {s : State}
    (h : (size a : Int) + 4 ≤ s.remaining) : segmentOp (.ok a) size body s = body a ((s.skip 2).skip 2) := by
  simp [segmentOp, show ¬ s.remaining - 2 < 2 by omega, show ¬ s.remaining - 2 < (size a : Int) + 2 by omega]

/-! ### A gray stream (R81 to R87, R140 to R166) -/

/-- DQT with one table, in slot 0. -/
def grayDqt (steps : List Byte) : List Byte :=
  [0xFF, 0xDB, 0x00, 0x43] ++ (0x00 :: steps)

/-- SOF0 of a gray frame, one component with factors 1 by 1. -/
def graySof0 (width height : Half) : List Byte :=
  [0xFF, 0xC0, 0x00, 0x0B, 0x08, hiByte height, loByte height, hiByte width, loByte width, 0x01, 0x01, 0x11, 0x00]

/-- Two codes of one bit. -/
def grayCounts : List Byte :=
  2 :: List.replicate 15 0

/-- The payload of DHT: DC slot 0 and AC slot 2, each with the symbol 0 for both codes. -/
def grayDhtPayload : List Byte :=
  0x00 :: grayCounts ++ [0x00, 0x00, 0x10] ++ grayCounts ++ [0x00, 0x00]

def grayDht : List Byte :=
  [0xFF, 0xC4, 0x00, 0x28] ++ grayDhtPayload

/-- SOS of the one component. -/
def graySos : List Byte :=
  [0xFF, 0xDA, 0x00, 0x08, 0x01, 0x01, 0x00, 0x00, 0x3F, 0x00]

/-- The instructions these bytes decode to. -/
def grayDqtBody (steps : List Byte) : DqtBody :=
  ⟨[⟨0, 0, steps⟩], []⟩

def graySof0Body (width height : Half) : SofBody :=
  .full 8 height width 1 [⟨1, 1, 1, 0⟩] []

def grayDhtBody : DhtBody :=
  ⟨[⟨0, 0, grayCounts, [0, 0]⟩, ⟨1, 0, grayCounts, [0, 0]⟩], []⟩

def graySosBody : SosBody :=
  .full [⟨1, 0, 0⟩] 0 63 0 0 []

theorem decodeTop_grayDqt {steps : List Byte} (h : steps.length = 64) (rest : List Byte) :
    decodeTop (grayDqt steps ++ rest) = .ok (.dqt (.ok (grayDqtBody steps)), rest) := by
  have hframe := parseFrame_payload parseDqt (l1 := 0x00) (l0 := 0x43) (payload := 0x00 :: steps) rest
    (by rw [List.length_cons, h]; rfl)
  have hbytes : encodeDqt (grayDqtBody steps) = 0x00 :: steps := by
    simp [encodeDqt, grayDqtBody, encodeDqtTable, pack]
  have hbody : parseDqt (0x00 :: steps) = grayDqtBody steps := by
    rw [← hbytes]
    exact parseDqt_encode (grayDqtBody steps) (by simp [DqtBody.wf, grayDqtBody, h])
  rw [hbody] at hframe
  exact congrArg (fun f => Except.ok (Instr.dqt f.1, f.2)) hframe

theorem decodeTop_graySof0 (width height : Half) (rest : List Byte) :
    decodeTop (graySof0 width height ++ rest) = .ok (.sof0 (.ok (graySof0Body width height)), rest) := by
  have hbody : parseSof [0x08, hiByte height, loByte height, hiByte width, loByte width, 0x01, 0x01, 0x11, 0x00] =
      graySof0Body width height :=
    parseSof_encode (graySof0Body width height) rfl
  have hframe := parseFrame_payload parseSof (l1 := 0x00) (l0 := 0x0B) rest (payload :=
    [0x08, hiByte height, loByte height, hiByte width, loByte width, 0x01, 0x01, 0x11, 0x00]) (by simp [be16])
  rw [hbody] at hframe
  exact congrArg (fun f => Except.ok (Instr.sof0 f.1, f.2)) hframe

theorem decodeTop_grayDht (rest : List Byte) :
    decodeTop (grayDht ++ rest) = .ok (.dht (.ok grayDhtBody), rest) := by
  have hbody : parseDht grayDhtPayload = grayDhtBody := parseDht_encode grayDhtBody (by decide)
  have hframe := parseFrame_payload parseDht (l1 := 0x00) (l0 := 0x28) rest (payload := grayDhtPayload) rfl
  rw [hbody] at hframe
  exact congrArg (fun f => Except.ok (Instr.dht f.1, f.2)) hframe

theorem decodeTop_graySos : decodeTop graySos = .ok (.sos (.ok graySosBody), []) := rfl

/-- The table the DHT segment builds. -/
def grayTable : HuffTable :=
  [⟨1, 0x00⟩, ⟨1, 0x00⟩]

/-- The one component as SOF0 leaves it, over a plane of n bytes. -/
def grayComp (width height : Half) : Comp :=
  { newComp 1 with
    ssx := 1
    ssy := 1
    width := width.toNat
    height := height.toNat
    stride := 8 * ceilDiv width.toNat 8
    pixels := some (Buffer.fresh (64 * ceilDiv width.toNat 8 * ceilDiv height.toNat 8)) }

/-- The state after the gray DQT. -/
def State.pastDqt (steps : List Byte) (s : State) : State :=
  { s with
    pos := s.pos + 69
    remaining := s.remaining - 69
    qt := s.qt.set 0 (writeSteps steps 0 (s.qt.get 0))
    qtAvail := s.qtAvail ||| 1 }

/-- The state after the gray SOF0. -/
def State.pastSof0 (width height : Half) (s : State) : State :=
  { s with
    pos := s.pos + 13
    remaining := s.remaining - 13
    frame := true
    width := width
    height := height
    ncomp := 1
    hmax := 1
    vmax := 1
    mcuW := 8
    mcuH := 8
    mbwidth := ceilDiv width.toNat 8
    mbheight := ceilDiv height.toNat 8
    qtUsed := s.qtUsed ||| 1
    comps := [grayComp width height]
    live := s.live + 64 * ceilDiv width.toNat 8 * ceilDiv height.toNat 8 }

/-- The state after the gray DHT. -/
def State.pastDht (s : State) : State :=
  { s with
    pos := s.pos + 42
    remaining := s.remaining - 42
    ht := (s.ht.set 0 grayTable).set 2 grayTable }

/-- The state after the gray SOS: the scan is at its start. -/
def State.pastSos (s : State) : State :=
  { s with
    pos := s.pos + 10
    remaining := s.remaining - 10
    phase := .scan }.startScan

theorem dqt_gray {steps : List Byte} {s : State} (hlen : steps.length = 64) (h : 69 ≤ s.remaining) :
    dqtOp (.ok (grayDqtBody steps)) s = .ok (s.pastDqt steps) := by
  have hsize : (grayDqtBody steps).size = 65 := by simp [grayDqtBody, DqtBody.size, hlen]
  rw [dqtOp, segmentOp_inside (by rw [hsize]; omega)]
  simp only [grayDqtBody, dqtTablesOp, dqtTableOp]
  simp [State.pastDqt, State.skip, bind, Except.bind]
  omega

theorem geometry_gray {s : State} {c : Comp} {width height : Half} (hn : s.ncomp = 1) (hw : s.width = width)
    (hh : s.height = height) (hc : s.comps = [c]) : s.geometry = { s with
      hmax := 1
      vmax := 1
      mcuW := 8
      mcuH := 8
      mbwidth := ceilDiv width.toNat 8
      mbheight := ceilDiv height.toNat 8
      comps := [{ c with
        ssx := 1
        ssy := 1
        width := width.toNat
        height := height.toNat
        stride := 8 * ceilDiv width.toNat 8 }] } := by
  have hone : ∀ n, ceilDiv n 1 = n := fun n => by simp [ceilDiv]
  subst hw hh
  simp [State.geometry, hn, hc, largest, compGeometry, hone]

theorem allocPlane_granted {k : Nat} {s : State} {c : Comp} (hc : s.comps[k]? = some c)
    (hfit : ¬ ((c.width < 3 ∧ c.ssx ≠ s.hmax) ∨ (c.height < 3 ∧ c.ssy ≠ s.vmax)))
    (hgrants : allocGrants s.cfg (planeBytes c s.mbheight) s.live = true) :
    allocPlane k s = .ok ({ s with live := s.live + planeBytes c s.mbheight }.setComp k
      { c with pixels := some (Buffer.fresh (planeBytes c s.mbheight)) }) := by
  rw [allocPlane, getComp_ok hc]
  show (if _ then _ else _) = _
  rw [if_neg hfit, alloc, if_pos hgrants]
  rfl

/-- SOF0's body where its checks up to the components pass (R146, R147, R170). -/
theorem sofBody_accepted {width height : Half} {nf : Byte} {comps : List SofComp} {extra : List Byte} {s : State}
    (hframe : s.frame = false) (hw : width ≠ 0) (hh : height ≠ 0) (hnf : nf = 1 ∨ nf = 3)
    (hroom : 3 * nf.toNat ≤ 3 * comps.length + extra.length) :
    sofBodyOp (.full 8 height width nf comps extra) s = (do
      let t ← sofCompsOp comps ({ s with height := height, width := width, ncomp := nf.setWidth 2 }.skip 6)
      let u ← forUp allocPlane nf.toNat 0 t.geometry
      let v ← allocRgb u
      return { v with frame := true }.skip extra.length) := by
  have hsize : (SofBody.full 8 height width nf comps extra).size = 6 + 3 * comps.length + extra.length := rfl
  have hmin : 1 ≤ nf.toNat := by rcases hnf with rfl | rfl <;> decide
  have hcount : ¬ (nf ≠ 1 ∧ nf ≠ 3) := fun h => hnf.elim h.1 h.2
  have hsides : ¬ (width = 0 ∨ height = 0) := fun h => h.elim hw hh
  unfold sofBodyOp
  rw [if_neg (by simp [hframe])]
  simp only
  rw [if_neg (by rw [hsize]; omega), if_neg (fun h => h rfl), if_neg hsides, if_neg hcount,
    if_neg (by rw [hsize]; omega)]

/-- The gray component as SOF0 reads it. -/
def grayFactors : Comp :=
  { newComp 1 with ssx := 1, ssy := 1 }

/-- The gray component once the geometry is known, before its plane is allocated. -/
def graySized (width height : Half) : Comp :=
  { grayFactors with
    width := width.toNat
    height := height.toNat
    stride := 8 * ceilDiv width.toNat 8 }

theorem planeBytes_graySized (width height : Half) :
    planeBytes (graySized width height) (ceilDiv height.toNat 8) =
      64 * ceilDiv width.toNat 8 * ceilDiv height.toNat 8 := by
  simp only [planeBytes, graySized, grayFactors, show (1 : Nibble).toNat = 1 from rfl]
  ring

theorem sofComps_gray (s : State) : sofCompsOp [⟨1, 1, 1, 0⟩] s =
    .ok ({ s with comps := s.comps ++ [grayFactors], qtUsed := s.qtUsed ||| 1 }.skip 3) := rfl

/-- The plane of the gray component, where the host grants it. -/
theorem allocPlane_gray {width height : Half} {s : State} (hcomps : s.comps = [graySized width height])
    (hhmax : s.hmax = 1) (hvmax : s.vmax = 1) (hmb : s.mbheight = ceilDiv height.toNat 8) (hlive : s.live = 0)
    (hgrants : allocGrants s.cfg (64 * ceilDiv width.toNat 8 * ceilDiv height.toNat 8) 0 = true) :
    allocPlane 0 s = .ok { s with
      comps := [grayComp width height]
      live := s.live + 64 * ceilDiv width.toNat 8 * ceilDiv height.toNat 8 } := by
  have hplane : planeBytes (graySized width height) s.mbheight =
      64 * ceilDiv width.toNat 8 * ceilDiv height.toNat 8 := by
    rw [hmb, planeBytes_graySized]
  rw [allocPlane_granted (c := graySized width height) (by rw [hcomps]; rfl)
    (by simp [hhmax, hvmax, graySized, grayFactors]) (by rwa [hplane, hlive]), hplane, State.setComp, hcomps]
  rfl

/-- The geometry and the plane of the gray frame. -/
theorem planes_gray {width height : Half} {s : State} (hn : s.ncomp = 1) (hw : s.width = width)
    (hh : s.height = height) (hcomps : s.comps = [grayFactors]) (hlive : s.live = 0)
    (hgrants : allocGrants s.cfg (64 * ceilDiv width.toNat 8 * ceilDiv height.toNat 8) 0 = true) :
    forUp allocPlane 1 0 s.geometry = .ok { s with
      hmax := 1
      vmax := 1
      mcuW := 8
      mcuH := 8
      mbwidth := ceilDiv width.toNat 8
      mbheight := ceilDiv height.toNat 8
      comps := [grayComp width height]
      live := s.live + 64 * ceilDiv width.toNat 8 * ceilDiv height.toNat 8 } := by
  rw [geometry_gray hn hw hh hcomps, forUp, allocPlane_gray (width := width) (height := height)]
  · rfl
  · rfl
  · rfl
  · rfl
  · rfl
  · exact hlive
  · exact hgrants

theorem allocRgb_gray {s : State} (h : s.ncomp ≠ 3) : allocRgb s = .ok s :=
  if_neg h

/-- SOF0's body on the gray frame: its plane is granted. -/
theorem sofBody_gray {width height : Half} {s : State} (hw : width ≠ 0) (hh : height ≠ 0)
    (hframe : s.frame = false) (hcomps : s.comps = []) (hlive : s.live = 0)
    (hgrants : allocGrants s.cfg (64 * ceilDiv width.toNat 8 * ceilDiv height.toNat 8) 0 = true) :
    sofBodyOp (graySof0Body width height) ((s.skip 2).skip 2) = .ok (s.pastSof0 width height) := by
  rw [graySof0Body, sofBody_accepted (s := (s.skip 2).skip 2) hframe hw hh (.inl rfl) (by decide), sofComps_gray]
  show (forUp allocPlane 1 0 (State.geometry _) >>= _) = _
  rw [planes_gray (width := width) (height := height)]
  · rw [State.pastSof0, show s.remaining - 13 = s.remaining - 2 - 2 - 6 - 3 - 0 by omega]
    simp only [State.skip, bind, Except.bind]
    rw [allocRgb_gray (show (1 : BitVec 2) ≠ 3 by decide)]
    rfl
  · rfl
  · rfl
  · rfl
  · exact congrArg (· ++ [grayFactors]) hcomps
  · exact hlive
  · exact hgrants

theorem sof0_gray {width height : Half} {s : State} (hw : width ≠ 0) (hh : height ≠ 0) (h : 13 ≤ s.remaining)
    (hframe : s.frame = false) (hcomps : s.comps = []) (hlive : s.live = 0)
    (hgrants : allocGrants s.cfg (64 * ceilDiv width.toNat 8 * ceilDiv height.toNat 8) 0 = true) :
    sof0Op (.ok (graySof0Body width height)) s = .ok (s.pastSof0 width height) := by
  rw [sof0Op, segmentOp_inside (by show ((9 : Nat) : Int) + 4 ≤ s.remaining; omega)]
  exact sofBody_gray hw hh hframe hcomps hlive hgrants

theorem buildHt_gray (h : Fin 4) (s : State) :
    buildHtOp h grayCounts [0x00, 0x00] s = .ok { s.skip 2 with ht := s.ht.set h.val grayTable h.isLt } := by
  rw [buildHtOp, buildSpans_ok 1 grayCounts [0x00, 0x00] 65536 s (by decide) (by decide)]
  rfl

theorem dht_gray {s : State} (h : 42 ≤ s.remaining) : dhtOp (.ok grayDhtBody) s = .ok s.pastDht := by
  rw [dhtOp, segmentOp_inside (by show ((38 : Nat) : Int) + 4 ≤ s.remaining; omega)]
  show (buildHtOp (htSlot 0 0) grayCounts [0x00, 0x00] _ >>= fun t =>
    buildHtOp (htSlot 1 0) grayCounts [0x00, 0x00] (t.skip 17) >>= fun u => .ok u) = _
  simp only [buildHt_gray, bind, Except.bind]
  rw [State.pastDht, show s.remaining - 42 = s.remaining - 2 - 2 - 17 - 2 - 17 - 2 by omega]
  simp only [State.skip]
  rfl

/-- The selectors of SOS are the ones the component has. -/
theorem sosSels_gray {s : State} {width height : Half} (hcomps : s.comps = [grayComp width height]) :
    sosSelsOp [⟨1, 0, 0⟩] 0 s = .ok (s.skip 2) := by
  have hsame : s.setComp 0 (grayComp width height) = s := by
    rw [State.setComp, hcomps, List.set_cons_zero, ← hcomps]
  rw [sosSelsOp, sosSelOp, getComp_ok (c := grayComp width height) (by rw [hcomps]; rfl)]
  show Except.ok ((s.setComp 0 (grayComp width height)).skip 2) = _
  rw [hsame]

/-- SOS over the gray frame starts its scan. -/
theorem sos_gray {s : State} {width height : Half} (h : 10 ≤ s.remaining) (hframe : s.frame = true)
    (hncomp : s.ncomp = 1) (hcomps : s.comps = [grayComp width height])
    (hqt : s.qtUsed &&& ~~~ s.qtAvail = 0) : sosOp (.ok graySosBody) s = .ok s.pastSos := by
  rw [sosOp, segmentOp_inside (by show ((6 : Nat) : Int) + 4 ≤ s.remaining; omega)]
  show sosBodyOp (.full [⟨1, 0, 0⟩] 0 63 0 0 []) _ = _
  unfold sosBodyOp
  rw [if_neg (by simp [State.skip, hframe]), if_neg (by simp [State.skip, hncomp, SosBody.size])]
  simp only
  rw [if_neg (by simp [State.skip, hncomp])]
  rw [sosSels_gray (s := ((s.skip 2).skip 2).skip 1) hcomps]
  simp only [bind, Except.bind]
  rw [if_neg (by decide), if_neg (by simpa [State.skip] using hqt)]
  rw [State.pastSos, show s.remaining - 10 = s.remaining - 2 - 2 - 1 - 2 - 3 by omega]
  simp only [State.skip]
  rfl

end Sys2Proof.Machine

/-! ### A gray DECODE from its stream to its output (R36, R140, R255) -/

namespace Sys2Proof.Machine

/-- The stream of the gray image. -/
def grayStream (steps : List Byte) (width height : Half) : List Byte :=
  [0xFF, 0xD8] ++ (grayDqt steps ++ (graySof0 width height ++ (grayDht ++ graySos)))

/-- What the gray markers need of the state: no frame, nothing allocated, and the plane granted. -/
structure GrayReady (width height : Half) (s : State) : Prop where
  frame : s.frame = false
  comps : s.comps = []
  live : s.live = 0
  qtUsed : s.qtUsed = 0
  grants : allocGrants s.cfg (64 * ceilDiv width.toNat 8 * ceilDiv height.toNat 8) 0 = true

/-- The state after the four gray markers. -/
def State.pastGray (steps : List Byte) (width height : Half) (s : State) : State :=
  (((s.pastDqt steps).pastSof0 width height).pastDht).pastSos

theorem inByte_ofBytes {s : State} {bs : List Byte} {i : Nat} {v : Byte} (hinp : s.inp = Buffer.ofBytes bs)
    (hv : bs[i]? = some v) : inByte i s = .ok v := by
  refine Buffer.get_ok .input ?_ (by rw [hinp, Buffer.read_ofBytes, hv])
  rw [hinp, Buffer.size_ofBytes]
  exact (List.getElem?_eq_some_iff.mp hv).1

theorem soi_decodeReset (rest : List Byte) (s : State) :
    soiOp (s.decodeReset ([0xFF, 0xD8] ++ rest)) = .ok ((s.decodeReset ([0xFF, 0xD8] ++ rest)).skip 2) := by
  have hsize : ¬ (s.decodeReset ([0xFF, 0xD8] ++ rest)).inp.size < 2 := by
    rw [State.decodeReset, Buffer.size_ofBytes, List.length_append]
    show ¬ 2 + rest.length < 2
    omega
  rw [soiOp, if_neg hsize, inByte_ofBytes (v := 0xFF) rfl rfl, inByte_ofBytes (v := 0xD8) rfl rfl]
  rfl

/-- The marker loop takes the gray markers one by one, and goes on to the scan. -/
theorem topLoop_gray {steps : List Byte} {width height : Half} {s : State} (fuel : Nat) (hlen : steps.length = 64)
    (hw : width ≠ 0) (hh : height ≠ 0)
    (h : Ahead (grayDqt steps ++ (graySof0 width height ++ (grayDht ++ graySos))) s)
    (hs : GrayReady width height s) :
    topLoop (fuel + 4) s = scanOp (s.pastGray steps width height) ∧ Ahead [] (s.pastGray steps width height) := by
  have hdqt : (grayDqt steps).length = 69 := by simp [grayDqt, hlen]
  have hsof : (graySof0 width height).length = 13 := rfl
  have hdht : grayDht.length = 42 := rfl
  have hsos : graySos.length = 10 := rfl
  have h1 : Ahead (graySof0 width height ++ (grayDht ++ graySos)) (s.pastDqt steps) :=
    h.past rfl (by rw [hdqt]; rfl) (by rw [hdqt]; rfl)
  have h2 : Ahead (grayDht ++ graySos) ((s.pastDqt steps).pastSof0 width height) := h1.past rfl rfl rfl
  have h3 : Ahead graySos ((s.pastDqt steps).pastSof0 width height).pastDht := h2.past rfl rfl rfl
  have h4 : Ahead [] (s.pastGray steps width height) := h3.past (seg := graySos) (rest := []) rfl rfl rfl
  have room1 := h.remaining
  have room2 := h1.remaining
  have room3 := h2.remaining
  have room4 := h3.remaining
  rw [List.length_append, hdqt] at room1
  rw [List.length_append, hsof] at room2
  rw [List.length_append, hdht] at room3
  rw [hsos] at room4
  have hqt : (s.qtUsed ||| 1) &&& ~~~ (s.qtAvail ||| 1) = 0 := by
    rw [hs.qtUsed]
    exact (by decide : ∀ b : BitVec 4, (0 ||| 1) &&& ~~~ (b ||| 1) = 0) s.qtAvail
  refine ⟨?_, h4⟩
  calc
    topLoop (fuel + 4) s = topLoop (fuel + 3) (s.pastDqt steps) :=
      topLoop_header _ h (decodeTop_grayDqt hlen _) rfl (dqt_gray hlen (by omega))
    _ = topLoop (fuel + 2) ((s.pastDqt steps).pastSof0 width height) :=
      topLoop_header _ h1 (decodeTop_graySof0 width height _) rfl
        (sof0_gray hw hh (by omega) hs.frame hs.comps hs.live hs.grants)
    _ = topLoop (fuel + 1) ((s.pastDqt steps).pastSof0 width height).pastDht :=
      topLoop_header _ h2 (decodeTop_grayDht _) rfl (dht_gray (by omega))
    _ = scanOp (s.pastGray steps width height) :=
      topLoop_sos _ h3 decodeTop_graySos rfl (sos_gray (width := width) (height := height) (by omega) rfl rfl rfl hqt)

theorem lookup_grayTable : HuffTable.lookup grayTable 0xFFFF = ⟨1, 0x00⟩ := by decide

/-- The scan of the gray stream meets only filler bits, and both tables give these the symbol 0. -/
theorem fills_pastGray {steps : List Byte} {width height : Half} {s : State}
    (h : Ahead [] (s.pastGray steps width height)) (hacc : s.acc = []) (hri : s.restartInterval = 0) :
    Fills (s.pastGray steps width height).pos (s.pastGray steps width height) := by
  have hdc : HuffTable.lookup ((s.pastGray steps width height).ht.get 0) 0xFFFF = ⟨1, 0x00⟩ := by
    show HuffTable.lookup (((s.ht.set 0 grayTable).set 2 grayTable).get 0) 0xFFFF = _
    simp [Vector.get_eq_getElem, lookup_grayTable]
  have hac : HuffTable.lookup ((s.pastGray steps width height).ht.get 2) 0xFFFF = ⟨1, 0x00⟩ := by
    show HuffTable.lookup (((s.ht.set 0 grayTable).set 2 grayTable).get 2) 0xFFFF = _
    simp [Vector.get_eq_getElem, lookup_grayTable]
  refine ⟨⟨rfl, by rw [h.remaining]; decide, ?_⟩, hri, fun c hc => ?_, fun c hc => ?_⟩
  · show ∀ b ∈ s.acc, b = true
    simp [hacc]
  · obtain rfl := List.mem_singleton.mp (show c ∈ [grayComp width height] from hc)
    exact ⟨fun h => absurd (hdc ▸ h) (by decide), congrArg (fun e => e.sym.toNat % 16) hdc⟩
  · obtain rfl := List.mem_singleton.mp (show c ∈ [grayComp width height] from hc)
    exact ⟨fun h => absurd (hac ▸ h) (by decide), congrArg HtEntry.sym hac⟩

theorem allCover_pastGray (steps : List Byte) (width height : Half) (s : State) :
    (s.pastGray steps width height).allCover := by
  intro c hc
  obtain rfl := List.mem_singleton.mp (show c ∈ [grayComp width height] from hc)
  show (decide (width.toNat < width.toNat) || decide (height.toNat < height.toNat)) = false
  simp

/-- r is the completion of a frame with the sides and the component count of s. -/
def CompletesAs (s r : State) : Prop :=
  ∃ u : State, r = u.finish ∧ u.error = s.error ∧ u.width = s.width ∧ u.height = s.height ∧ u.ncomp = s.ncomp

theorem Scans.completesAs {s t r : State} (h : Scans s t) (hr : CompletesAs t r) : CompletesAs s r := by
  obtain ⟨u, rfl, he, hw, hh, hn⟩ := hr
  rw [h.frame] at he hw hh hn
  exact ⟨u, rfl, he, hw, hh, hn⟩

theorem Converts.completesAs {s t : State} (h : Converts s t) : CompletesAs s t.finish := by
  refine ⟨t, rfl, ?_, ?_, ?_, ?_⟩ <;> rw [h.frame]

/-- A scan of filler bits over a frame with nothing to upsample is completed. -/
theorem fills_completes {p : Nat} {s : State} (h : Fills p s) (hc : s.allCover) :
    Post (scanOp s >>= fun t => convertOp t >>= fun u => pure u.finish) (CompletesAs s) (fun _ => False) True := by
  refine (post_bind _ _ _ _ _).mpr (((scan_fills h).and (scan_post s)).mono (fun t ht => ?_) (fun _ h => h.1)
    fun _ => trivial)
  obtain ⟨_, hscan, _⟩ := ht
  refine (post_bind _ _ _ _ _).mpr (((convert_covering (hscan.allCover hc)).and (convert_post t)).mono
    (fun u hu => ?_) (fun _ h => h.1) fun _ => trivial)
  obtain ⟨_, hconv, _⟩ := hu
  exact hscan.completesAs hconv.completesAs

/-- After SOI the gray markers and a scan of filler bits complete the DECODE. -/
theorem gray_completes {steps : List Byte} {width height : Half} {s : State} (hlen : steps.length = 64)
    (hw : width ≠ 0) (hh : height ≠ 0)
    (h : Ahead (grayDqt steps ++ (graySof0 width height ++ (grayDht ++ graySos))) s)
    (hs : GrayReady width height s) (hacc : s.acc = []) (hri : s.restartInterval = 0) :
    Post (topLoopOp s >>= fun t => convertOp t >>= fun u => pure u.finish)
      (CompletesAs (s.pastGray steps width height)) (fun _ => False) True := by
  obtain ⟨fuel, hfuel⟩ : ∃ fuel, s.remaining.toNat + 1 = fuel + 4 := by
    have hr := h.remaining
    simp only [List.length_append, show graySos.length = 10 from rfl] at hr
    exact ⟨s.remaining.toNat - 3, by omega⟩
  obtain ⟨hloop, hend⟩ := topLoop_gray fuel hlen hw hh h hs
  rw [topLoopOp, hfuel, hloop]
  exact fills_completes (fills_pastGray hend hacc hri) (allCover_pastGray steps width height s)

/-- The DECODE of the gray stream after its reset. -/
theorem decodeRun_gray {steps : List Byte} {width height : Half} (s : State) (hlen : steps.length = 64)
    (hw : width ≠ 0) (hh : height ≠ 0)
    (hgrants : allocGrants s.cfg (64 * ceilDiv width.toNat 8 * ceilDiv height.toNat 8) 0 = true) :
    Post (decodeRun (s.decodeReset (grayStream steps width height)))
      (fun r => r.error = .ok ∧ r.regWidth = width ∧ r.regHeight = height ∧ r.regIsColor = false ∧
        r.regOutBuf = .plane0) (fun _ => False) True := by
  have hahead := (ahead_decodeReset (grayStream steps width height) s).past
    (t := (s.decodeReset (grayStream steps width height)).skip 2) rfl rfl rfl
  rw [decodeRun, grayStream, soi_decodeReset]
  refine (gray_completes hlen hw hh hahead ⟨rfl, rfl, rfl, rfl, hgrants⟩ rfl rfl).imp fun r hr => ?_
  obtain ⟨v, rfl, he, hvw, hvh, hn⟩ := hr
  have hgray : v.isColor = false := by
    rw [State.isColor, hn]
    rfl
  refine ⟨he, hvw, hvh, hgray, ?_⟩
  show (if v.isColor then OutRef.rgb else .plane0) = _
  rw [hgray]
  rfl

/-- Settles O53: the marker loop reaches a scan of filler bits, whose blocks are all empty, and the one component
covers the image, so that no part of the DECODE aborts; DONE and the output are then O52's. -/
theorem decodeCompletes : Obligations.DecodeCompletes := by
  intro s width height steps counts buf hready hw hh hlen hcounts hbuf hin hgrants
  have hstream : buf = grayStream steps width height := by
    subst hcounts hbuf
    simp [grayStream, grayDqt, graySof0, grayDht, grayDhtPayload, grayCounts, graySos]
  obtain ⟨t, hexec, hphase, _, hresult, _, _, hok⟩ := decodeEndsDone s buf hready hin
  have hpost := decodeRun_gray s hlen hw hh hgrants
  rw [← hstream] at hpost
  have hrun := hexec
  rw [exec_decode hready hin] at hrun
  match decodeRun (s.decodeReset buf), hrun, hpost with
  | .ok _, rfl, ⟨he, hrw, hrh, hcolor, hout⟩ =>
    obtain ⟨_, _, _, _, _, _, hbytes⟩ := hok he
    refine ⟨_, hexec, hphase, he, by rw [hresult, he], hrw, hrh, hcolor, hout, fun i hi => hbytes i ?_⟩
    rw [outputSize, hrw, hrh, hcolor]
    simpa using hi
  | .error (.aborted _), _, h => exact h.elim

end Sys2Proof.Machine

/-! ### What the decoder answers (R80 to R93, R97, R99) -/

namespace Sys2Proof.Machine

/-- An answer of the decoder at the level accounts for the bytes bs: its instruction is well formed, and the
instruction's encoding followed by the bytes left over is bs. -/
def Accounts (level : Level) (bs : List Byte) (r : Instr × List Byte) : Prop :=
  r.1.wf = true ∧ ∃ enc, encode r.1 = some (level, enc) ∧ enc ++ r.2 = bs

theorem Accounts.ite {level : Level} {bs : List Byte} {p : Prop} [Decidable p] {a b : Instr × List Byte}
    (ha : p → Accounts level bs a) (hb : ¬ p → Accounts level bs b) :
    Accounts level bs (if p then a else b) := by
  split
  · exact ha ‹_›
  · exact hb ‹_›

/-- A marker with a segment accounts for its code and the bytes after it (R81). -/
theorem Accounts.segment {α : Type} {mk : Framed α → Instr} {size : α → Nat} {body : α → Bool}
    {parse : List Byte → α} {enc : α → List Byte} {c : Byte}
    (hwf : ∀ seg, (mk seg).wf = seg.wf size body)
    (henc : ∀ seg, encode (mk seg) = some (.top, 0xFF :: c :: encodeFrame enc seg))
    (hparse : ∀ bs, body (parse bs) = true ∧ enc (parse bs) = bs) (hlen : ∀ a, (enc a).length = size a)
    (rest : List Byte) : Accounts .top (0xFF :: c :: rest) (framedInstr mk parse rest) := by
  obtain ⟨hseg, hbytes, _⟩ := parseFrame_wf (size := size) hparse hlen rest
  exact ⟨(hwf _).trans hseg, _, henc _, congrArg (fun bs => 0xFF :: c :: bs) hbytes⟩

theorem hiNibble_toNat (b : Byte) : (hiNibble b).toNat = b.toNat / 16 := by
  have hb := b.isLt
  simp only [hiNibble, BitVec.extractLsb'_toNat, Nat.shiftRight_eq_div_pow]
  omega

/-- The marker level accounts for every code (R82): the codes that no more specific row takes are reserved. -/
theorem accounts_decodeMarker (c : Byte) (rest : List Byte) :
    Accounts .top (0xFF :: c :: rest) (decodeMarker c rest) := by
  have bytes : ∀ bs : List Byte, true = true ∧ id bs = bs := fun _ => ⟨rfl, rfl⟩
  unfold decodeMarker
  refine .ite (fun h => h ▸ .segment (fun _ => rfl) (fun _ => rfl) parseSof_wf length_encodeSof rest) fun hC0 => ?_
  refine .ite (fun h => h ▸ .segment (fun _ => rfl) (fun _ => rfl) parseDht_wf length_encodeDht rest) fun hC4 => ?_
  refine .ite (fun h => h ▸ .segment (fun _ => rfl) (fun _ => rfl) parseDqt_wf length_encodeDqt rest) fun hDB => ?_
  refine .ite (fun h => h ▸ .segment (fun _ => rfl) (fun _ => rfl) parseDri_wf length_encodeDri rest) fun hDD => ?_
  refine .ite (fun h => h ▸ .segment (fun _ => rfl) (fun _ => rfl) parseSos_wf length_encodeSos rest) fun hDA => ?_
  refine .ite (fun h => ?_) fun hE => ?_
  · have hc : pack 0xE (loNibble c) = c := by rw [← h, pack_split]
    exact .segment (enc := id) (fun _ => rfl) (fun seg => by rw [encode, hc]) bytes (fun _ => rfl) rest
  refine .ite (fun h => h ▸ .segment (fun _ => rfl) (fun _ => rfl) bytes (fun _ => rfl) rest) fun hFE => ?_
  refine .ite (fun h => ⟨rfl, [0xFF, c], by rw [h]; rfl, rfl⟩) fun hD9 => ?_
  refine .ite (fun h => ⟨rfl, [0xFF, c], by rw [h]; rfl, rfl⟩) fun hD8 => ?_
  refine .ite (fun h => ⟨rfl, [0xFF, c], by rw [h]; rfl, rfl⟩) fun hDC => ?_
  refine .ite (fun h => ⟨rfl, [0xFF, c], by rw [h]; rfl, rfl⟩) fun hFF => ?_
  refine .ite (fun h => ⟨h, _, rfl, rfl⟩) fun hC1 => ?_
  refine .ite (fun h => ⟨h, _, rfl, rfl⟩) fun hC5 => ?_
  refine .ite (fun h => ⟨h, _, rfl, rfl⟩) fun hC8 => ?_
  refine .ite (fun h => ⟨h, _, rfl, rfl⟩) fun hCC => ?_
  refine .ite (fun h => ⟨rfl, [0xFF, c], by rw [encode, rstCode, rstCode_extract h], rfl⟩) fun hD0 => ?_
  refine .ite (fun h => ⟨h, _, rfl, rfl⟩) fun hDE => ?_
  refine .ite (fun h => ⟨h, _, rfl, rfl⟩) fun hF0 => ⟨?_, _, rfl, rfl⟩
  -- the codes and ranges above leave 0x00 to 0xBF
  simp only [Instr.wf, reservedCode, codeIn, ← BitVec.toNat_inj, hiNibble_toNat, Bool.and_eq_true,
    decide_eq_true_eq, BitVec.ofNat_eq_ofNat, BitVec.toNat_ofNat] at *
  omega

/-- The byte level accounts for every second byte of an escape (R89). -/
theorem accounts_decodeEscape (c : Byte) (rest : List Byte) :
    Accounts .ecs (0xFF :: c :: rest) (decodeEscape c, rest) := by
  unfold decodeEscape
  split
  · exact ⟨rfl, [0xFF, c], by subst c; rfl, rfl⟩
  split
  · exact ⟨rfl, [0xFF, c], by subst c; rfl, rfl⟩
  split
  · exact ⟨rfl, [0xFF, c], by subst c; rfl, rfl⟩
  split
  · rename_i hrst
    exact ⟨rfl, [0xFF, c], by rw [encode, rstCode, rstCode_extract hrst], rfl⟩
  · rename_i h00 hFF hD9 hrst
    refine ⟨?_, _, rfl, rfl⟩
    simp only [Instr.wf, otherMarkerCode, h00, hFF, hD9, hrst, decide_false, Bool.or_false, Bool.not_false]

theorem accounts_decodeEcs (bs : List Byte) : Accounts .ecs bs (decodeEcs bs) := by
  match bs with
  | [] => exact ⟨rfl, _, rfl, rfl⟩
  | b :: rest =>
    refine .ite (fun h => ?_) fun h => ⟨decide_eq_true h, _, rfl, rfl⟩
    subst h
    match rest with
    | [] => exact ⟨rfl, _, rfl, rfl⟩
    | c :: after => exact accounts_decodeEscape c after

/-- An AC symbol accounts for its byte (R93): the nibbles make it up. -/
theorem accounts_decodeAcSymbol (sym : Byte) (rest : List Byte) :
    Accounts .acSymbol (sym :: rest) (decodeAcSymbol sym, rest) := by
  have hsym := pack_split sym
  unfold decodeAcSymbol
  split
  · exact ⟨rfl, [sym], by subst sym; rfl, rfl⟩
  split
  · exact ⟨rfl, [sym], by subst sym; rfl, rfl⟩
  split
  · rename_i hne0 hneF0 hlo
    rw [hlo] at hsym
    have hhi0 : hiNibble sym ≠ 0 := fun h => hne0 (by rw [← hsym, h]; rfl)
    have hhi15 : hiNibble sym ≠ 15 := fun h => hneF0 (by rw [← hsym, h]; rfl)
    exact ⟨by rw [Instr.wf, decide_eq_true hhi0, decide_eq_true hhi15]; rfl, [sym], by rw [encode, hsym], rfl⟩
  · rename_i hlo
    exact ⟨decide_eq_true hlo, [sym], by rw [encode, hsym], rfl⟩

theorem accounts_decodeTop {bs : List Byte} {r : Instr × List Byte} (h : decodeTop bs = .ok r) :
    Accounts .top bs r := by
  match bs, h with
  | b0 :: b1 :: rest, rfl =>
    refine .ite (fun h => ?_) fun h => ⟨decide_eq_true h, _, rfl, rfl⟩
    subst h
    exact accounts_decodeMarker b1 rest

theorem accounts_decode {level : Level} {bs : List Byte} {r : Instr × List Byte} (h : decode level bs = .ok r) :
    Accounts level bs r := by
  match level, bs, h with
  | .start, b0 :: b1 :: rest, h =>
    rw [decode] at h
    split at h
    · rename_i hsoi
      obtain ⟨rfl, rfl⟩ := hsoi
      cases h
      exact ⟨rfl, _, rfl, rfl⟩
    · cases h
  | .top, bs, h => exact accounts_decodeTop h
  | .ecs, bs, rfl => exact accounts_decodeEcs bs
  | .dcSymbol, sym :: rest, rfl =>
    exact ⟨rfl, [sym], by rw [decodeDcSymbol, encode, pack_split], rfl⟩
  | .acSymbol, sym :: rest, rfl => exact accounts_decodeAcSymbol sym rest

/-- Settles O2, level by level: each branch of the decoder accounts for the bytes it was given. -/
theorem decodedTakesItsBytes : Obligations.DecodedTakesItsBytes := by
  intro level bs rest i h
  exact accounts_decode h

end Sys2Proof.Machine

/-! ### The decoder on an encoding and the bytes that follow (R80 to R93, R97) -/

namespace Sys2Proof.Machine

/-- More bytes after the input leave an instruction that ends itself as it is: they are left over too. -/
def ReadsOn (f : List Byte → Instr × List Byte) : Prop :=
  ∀ bs rest, (f bs).1.endsItself = true → f (bs ++ rest) = ((f bs).1, (f bs).2 ++ rest)

theorem ReadsOn.fixed (i : Instr) : ReadsOn fun bs => (i, bs) :=
  fun _ _ _ => rfl

theorem ReadsOn.ite {p : Prop} [Decidable p] {f g : List Byte → Instr × List Byte} (hf : ReadsOn f)
    (hg : ReadsOn g) : ReadsOn fun bs => if p then f bs else g bs := by
  split
  · exact hf
  · exact hg

/-- A segment within the input is framed alike when more follows (R81, R142). -/
theorem parseFrame_append {α : Type} (parse : List Byte → α) {bs : List Byte} {a : α} (rest : List Byte)
    (h : (parseFrame parse bs).1 = .ok a) :
    parseFrame parse (bs ++ rest) = (.ok a, (parseFrame parse bs).2 ++ rest) := by
  match bs with
  | l1 :: l0 :: body =>
    simp only [parseFrame, List.cons_append] at h ⊢
    split at h
    · cases h
    · rename_i hin
      cases h
      have hle : (be16 l1 l0).toNat - 2 ≤ body.length := by omega
      rw [if_neg (by rw [List.length_append]; omega), if_neg hin, List.take_append_of_le_length hle,
        List.drop_append_of_le_length hle]

theorem endsItself_of_segment_malformed {i : Instr} (h : i.segment = some none) : i.endsItself = false := by
  unfold Instr.endsItself
  split
  · rfl
  · rfl
  · rw [h]

/-- A marker with a segment ends itself where its segment holds a payload (R142). -/
theorem framed_of_endsItself {α : Type} {size : α → Nat} {seg : Framed α} {i : Instr}
    (hseg : i.segment = some (seg.payload size)) (h : i.endsItself = true) : ∃ a, seg = .ok a := by
  cases seg with
  | ok a => exact ⟨a, rfl⟩
  | noLength left => exact absurd h (by rw [endsItself_of_segment_malformed hseg]; decide)
  | badLength l => exact absurd h (by rw [endsItself_of_segment_malformed hseg]; decide)

theorem ReadsOn.segment {α : Type} {mk : Framed α → Instr} {size : α → Nat} (parse : List Byte → α)
    (hseg : ∀ seg, (mk seg).segment = some (seg.payload size)) : ReadsOn (framedInstr mk parse) := by
  intro bs rest h
  obtain ⟨a, ha⟩ := framed_of_endsItself (hseg _) h
  simp only [framedInstr, parseFrame_append parse rest ha, ha]

theorem readsOn_decodeMarker (c : Byte) : ReadsOn (decodeMarker c) := by
  unfold decodeMarker
  refine .ite (.segment parseSof fun _ => rfl) ?_
  refine .ite (.segment parseDht fun _ => rfl) ?_
  refine .ite (.segment parseDqt fun _ => rfl) ?_
  refine .ite (.segment parseDri fun _ => rfl) ?_
  refine .ite (.segment parseSos fun _ => rfl) ?_
  refine .ite (.segment id fun _ => rfl) ?_
  refine .ite (.segment id fun _ => rfl) ?_
  repeat' refine .ite (.fixed _) ?_
  exact .fixed _

theorem readsOn_decodeEcs : ReadsOn decodeEcs := by
  intro bs rest h
  match bs with
  | [] => cases h
  | b :: tail =>
    by_cases hff : b = 0xFF
    · subst hff
      match tail with
      | [] => cases h
      | c :: after => rfl
    · simp only [decodeEcs, List.cons_append, if_neg hff]

/-- What the decoder reads at any level, where it ends itself, it reads again when more bytes follow. -/
theorem decode_append {level : Level} {bs left : List Byte} {i : Instr} (rest : List Byte)
    (h : decode level bs = .ok (i, left)) (hends : i.endsItself = true) :
    decode level (bs ++ rest) = .ok (i, left ++ rest) := by
  have readsOn : ∀ {f : List Byte → Instr × List Byte} {tail : List Byte}, ReadsOn f → f tail = (i, left) →
      f (tail ++ rest) = (i, left ++ rest) := fun {f tail} hf hi => by
    have := hf tail rest
    rw [hi] at this
    exact this hends
  match level, bs, h with
  | .start, b0 :: b1 :: tail, h =>
    simp only [decode, List.cons_append] at h ⊢
    split at h
    · rename_i hsoi
      cases h
      rw [if_pos hsoi]
    · cases h
  | .top, b0 :: b1 :: tail, h =>
    have hf : ReadsOn fun bs => if b0 = 0xFF then decodeMarker b1 bs else (.notAMarker b0 b1, bs) :=
      .ite (readsOn_decodeMarker b1) (.fixed _)
    exact congrArg Except.ok (readsOn hf (Except.ok.inj h))
  | .ecs, bs, h => exact congrArg Except.ok (readsOn readsOn_decodeEcs (Except.ok.inj h))
  | .dcSymbol, sym :: tail, h => exact congrArg Except.ok (readsOn (.fixed _) (Except.ok.inj h))
  | .acSymbol, sym :: tail, h => exact congrArg Except.ok (readsOn (.fixed _) (Except.ok.inj h))

/-- The per-instruction laws together: an encoding alone is read back whole. -/
theorem encoding_statement (i : Instr) : Laws.Encoding.Statement i := by
  cases i with
  | soi => exact Laws.Encoding.soi
  | sof0 seg => exact Laws.Encoding.sof0 seg
  | dht seg => exact Laws.Encoding.dht seg
  | dqt seg => exact Laws.Encoding.dqt seg
  | dri seg => exact Laws.Encoding.dri seg
  | sos seg => exact Laws.Encoding.sos seg
  | appn n seg => exact Laws.Encoding.appn n seg
  | com seg => exact Laws.Encoding.com seg
  | eoiTop => exact Laws.Encoding.eoiTop
  | rstmTop m => exact Laws.Encoding.rstmTop m
  | unsupportedSof1Sof3 c => exact Laws.Encoding.unsupportedSof1Sof3 c
  | unsupportedSof5Sof7 c => exact Laws.Encoding.unsupportedSof5Sof7 c
  | unsupportedJpgSof9Sof11 c => exact Laws.Encoding.unsupportedJpgSof9Sof11 c
  | unsupportedDacSof13Sof15 c => exact Laws.Encoding.unsupportedDacSof13Sof15 c
  | unsupportedDnl => exact Laws.Encoding.unsupportedDnl
  | unsupportedDhpExp c => exact Laws.Encoding.unsupportedDhpExp c
  | unsupportedJpgn c => exact Laws.Encoding.unsupportedJpgn c
  | unsupportedSoiAgain => exact Laws.Encoding.unsupportedSoiAgain
  | unsupportedReserved00Bf c => exact Laws.Encoding.unsupportedReserved00Bf c
  | unsupportedFillTop => exact Laws.Encoding.unsupportedFillTop
  | notAMarker b0 b1 => exact Laws.Encoding.notAMarker b0 b1
  | ecsData b => exact Laws.Encoding.ecsData b
  | ecsStuff => exact Laws.Encoding.ecsStuff
  | ecsFill => exact Laws.Encoding.ecsFill
  | ecsRstm m => exact Laws.Encoding.ecsRstm m
  | ecsEoi => exact Laws.Encoding.ecsEoi
  | ecsOtherMarker c => exact Laws.Encoding.ecsOtherMarker c
  | ecsFfLast => exact Laws.Encoding.ecsFfLast
  | ecsFiller => exact Laws.Encoding.ecsFiller
  | dcCat ignored s => exact Laws.Encoding.dcCat ignored s
  | acEob => exact Laws.Encoding.acEob
  | acZrl => exact Laws.Encoding.acZrl
  | acRuncat r s => exact Laws.Encoding.acRuncat r s
  | acIllegal r => exact Laws.Encoding.acIllegal r
  | _ => exact Laws.encoding_of_none rfl

/-- Settles O1: an encoding is read back alone, by the per-instruction laws, and the decoder does not look past
an instruction that ends itself. -/
theorem decodeReadsBackEncoded : Obligations.DecodeReadsBackEncoded := by
  intro i level bs rest hwf henc hrest
  have halone : decode level bs = .ok (i, []) := encoding_statement i hwf level bs henc
  rcases hrest with rfl | hends
  · rw [List.append_nil, halone]
  · exact decode_append rest halone hends

/-- Settles O3: the decoder runs on each word. -/
theorem specWordsDecode : Obligations.SpecWordsDecode :=
  ⟨rfl, rfl, rfl, rfl, rfl, rfl, rfl, rfl, rfl⟩

end Sys2Proof.Machine

/-! ### Magnitude bits as a signed value (R94) -/

namespace Sys2Proof.Machine

theorem twoPow_eq_ofInt (s : Nat) : BitVec.twoPow 32 s = BitVec.ofInt 32 (2 ^ s) := by
  have hcast : ((2 ^ s : Nat) : Int) = 2 ^ s := Nat.cast_pow 2 s
  rw [← hcast, BitVec.ofInt_natCast]
  exact BitVec.eq_of_toNat_eq (by rw [BitVec.toNat_twoPow, BitVec.toNat_ofNat])

theorem negOne_shiftLeft (s : Nat) : (-1 : Word) <<< s = BitVec.ofInt 32 (-2 ^ s) := by
  calc (-1 : Word) <<< s = -1 * BitVec.twoPow 32 s := BitVec.shiftLeft_eq_mul_twoPow _ _
    _ = -BitVec.twoPow 32 s := neg_one_mul _
    _ = BitVec.ofInt 32 (-2 ^ s) := by rw [twoPow_eq_ofInt, BitVec.ofInt_neg]

/-- The lower half of a category stands for the negative values, computed as integers modulo 2^32. -/
theorem extend_lowerHalf {v s : Nat} (hs : s ≠ 0) (hv : v < 2 ^ (s - 1)) :
    extend v s = BitVec.ofInt 32 ((v : Int) - 2 ^ s + 1) := by
  rw [extend, if_neg hs, if_pos hv, negOne_shiftLeft, ← BitVec.ofInt_natCast, Int.sub_eq_add_neg,
    BitVec.ofInt_add, BitVec.ofInt_add]
  rfl

theorem extend_upperHalf {v s : Nat} (hs : s ≠ 0) (hv : ¬ v < 2 ^ (s - 1)) :
    extend v s = BitVec.ofInt 32 v := by
  rw [extend, if_neg hs, if_neg hv, BitVec.ofInt_natCast]

/-- Settles O19: both halves lie within 16 bits, so that no value wraps around. -/
theorem extendSigned : Obligations.ExtendSigned := by
  refine ⟨fun v => rfl, fun v s h1 h15 hv => ?_⟩
  have hs : s ≠ 0 := by omega
  have hcast : ((2 ^ s : Nat) : Int) = 2 ^ s := Nat.cast_pow 2 s
  have hpow : 2 ^ s ≤ 2 ^ 15 := Nat.pow_le_pow_right (by decide) h15
  split
  · rename_i hlow
    rw [extend_lowerHalf hs hlow, BitVec.toInt_ofInt_eq_self (by decide)] <;> omega
  · rename_i hhigh
    rw [extend_upperHalf hs hhigh, BitVec.toInt_ofInt_eq_self (by decide)] <;> omega

end Sys2Proof.Machine

/-! ### What the bit reader's instructions do (R111 to R121) -/

namespace Sys2Proof.Machine

/-! #### The escapes -/

/-- An escape takes two bytes and its 0xFF is one data byte (R111). -/
theorem takeEscape_eq (s : State) :
    takeEscape s = { s with pos := s.pos + 2, remaining := s.remaining - 2, acc := s.acc ++ bits8 0xFF } := by
  have hrem : s.remaining - (1 : Nat) - (1 : Nat) = s.remaining - 2 := by omega
  show { s with
    pos := s.pos + 1 + 1
    remaining := s.remaining - (1 : Nat) - (1 : Nat)
    acc := s.acc ++ bits8 0xFF } = _
  rw [hrem]

theorem eoiEscape_eq (s : State) :
    eoiEscape s = { s with pos := s.pos + 2, remaining := 0, acc := s.acc ++ bits8 0xFF } := by
  rw [eoiEscape, takeEscape_eq]
  rfl

/-- Both bytes of a restart marker are data (R113). -/
theorem rstEscape_eq (m : Byte) (s : State) :
    rstEscape m s = { s with
      pos := s.pos + 2
      remaining := s.remaining - 2
      acc := s.acc ++ bits8 0xFF ++ bits8 m } := by
  rw [rstEscape, takeEscape_eq]
  rfl

/-- The code of restart marker m is 0xD0 + m (R82). -/
theorem rstCode_eq_add : ∀ m : BitVec 3, (0b11010 : BitVec 5) ++ m = (0xD0 + m.setWidth 8 : Byte) := by decide

theorem abortsWith_otherMarker (s : State) : AbortsWith s .syntaxError (conclude (otherMarker s)) :=
  abortsWith_abort .syntaxError rfl rfl rfl rfl rfl rfl rfl rfl rfl

theorem abortsWith_ffLast (s : State) : AbortsWith s .syntaxError (conclude (ffLast s)) :=
  abortsWith_abort .syntaxError rfl rfl rfl rfl rfl rfl rfl rfl rfl

/-- Settles O11: each escape's next state is that of its operation. -/
theorem escapesTaken : Obligations.EscapesTaken := by
  intro s
  refine ⟨fun b => rfl, ?_, ?_, fun m => ?_, ?_, rfl, fun hended => refill_ended hended⟩
  · exact congrArg Host.Outcome.next (takeEscape_eq s)
  · exact congrArg Host.Outcome.next (takeEscape_eq s)
  · rw [← rstCode_eq_add]
    exact congrArg Host.Outcome.next (rstEscape_eq _ s)
  · exact congrArg Host.Outcome.next (eoiEscape_eq s)

/-! #### The decoder's reading of a second byte -/

theorem codeIn_rst_iff (c : Byte) : codeIn 0xD0 0xD7 c = true ↔ 0xD0 ≤ c ∧ c ≤ 0xD7 := by
  rw [codeIn, Bool.and_eq_true, decide_eq_true_eq, decide_eq_true_eq]
  rfl

theorem otherMarkerCode_iff (c : Byte) :
    otherMarkerCode c = true ↔ c ≠ 0x00 ∧ ¬ (0xD0 ≤ c ∧ c ≤ 0xD7) ∧ c ≠ 0xD9 ∧ c ≠ 0xFF := by
  rw [← codeIn_rst_iff, otherMarkerCode]
  simp only [Bool.not_eq_true', Bool.or_eq_false_iff, decide_eq_false_iff_not, Bool.not_eq_true]
  tauto

/-- Settles O12: the decoder reads each of these bytes as the instruction of its error, by the laws of the
encoding, and that instruction ends the DECODE. -/
theorem entropyErrors : Obligations.EntropyErrors := by
  intro s
  refine ⟨fun c h00 hrst hD9 hFF => ?_, fun c => ?_, rfl, rfl, fun r h0 h15 => ?_, fun r => rfl, fun w => rfl⟩
  · have hother : otherMarkerCode c = true := (otherMarkerCode_iff c).mpr ⟨h00, hrst, hD9, hFF⟩
    exact Laws.Encoding.ecsOtherMarker c hother _ _ rfl
  · rw [← takeEscape_eq]
    rfl
  · have hwf : (Instr.acIllegal r).wf = true := by
      simp only [Instr.wf, Bool.and_eq_true, decide_eq_true_eq]
      exact ⟨h0, h15⟩
    exact Laws.Encoding.acIllegal r hwf _ _ rfl

/-! #### REFILL -/

theorem exec_decodeEscape_rst {c : Byte} (h : codeIn 0xD0 0xD7 c = true) (h00 : c ≠ 0x00) (hFF : c ≠ 0xFF)
    (hD9 : c ≠ 0xD9) (s : State) : exec (decodeEscape c) s = .next (rstEscape c s) := by
  rw [decodeEscape, if_neg h00, if_neg hFF, if_neg hD9, if_pos h]
  show Host.Outcome.next (rstEscape _ s) = _
  rw [rstCode_extract h]

/-- Settles O13, by cases on the bytes at `S.pos` as R111 tells them apart. -/
theorem refillFollowsTheBytes : Obligations.RefillFollowsTheBytes := by
  intro s
  refine ⟨fun hended => refill_ended hended, fun b hleft hlt hb => ?_⟩
  have hfirst : inByte s.pos s = .ok b := Buffer.get_ok .input hlt hb
  refine ⟨fun hdata => refill_data hleft hfirst hdata, ?_, ?_⟩
  · rintro rfl hlast
    show AbortsWith s .syntaxError (conclude (refillOp s))
    rw [refill_ffLast hlast hfirst]
    exact abortsWith_ffLast s
  · rintro m rfl htwo hlt' hm
    have hrefill : exec .refill s = exec (decodeEscape m) s :=
      refill_escape htwo hfirst (Buffer.get_ok .input hlt' hm)
    rw [hrefill]
    split
    · rename_i hone
      rcases hone with rfl | rfl <;> exact congrArg Host.Outcome.next (takeEscape_eq s)
    rename_i hnone
    obtain ⟨h00, hFF⟩ := not_or.mp hnone
    split
    · rename_i hD9
      rw [hD9]
      exact congrArg Host.Outcome.next (eoiEscape_eq s)
    rename_i hD9
    split
    · rename_i hrst
      rw [exec_decodeEscape_rst ((codeIn_rst_iff m).mpr hrst) h00 hFF hD9, rstEscape_eq]
    · rename_i hrst
      rw [(Laws.marker_codes' m).2.2.2 ((otherMarkerCode_iff m).mpr ⟨h00, hrst, hD9, hFF⟩)]
      exact abortsWith_otherMarker s

/-! #### PEEK -/

theorem foldl_bits (bs : List Bool) (a : Nat) :
    bs.foldl (fun n b => 2 * n + b.toNat) a = a * 2 ^ bs.length + bitsNat bs := by
  induction bs generalizing a with
  | nil => simp [bitsNat]
  | cons b bs ih =>
    rw [bitsNat, List.foldl_cons, List.foldl_cons, ih, ih (2 * 0 + b.toNat), List.length_cons]
    ring

/-- The first bit is the most significant (R119). -/
theorem bitsNat_cons (b : Bool) (bs : List Bool) :
    bitsNat (b :: bs) = b.toNat * 2 ^ bs.length + bitsNat bs := by
  rw [bitsNat, List.foldl_cons, foldl_bits, Nat.mul_zero, Nat.zero_add]

theorem fill_held {n : Nat} {s : State} (h : n ≤ s.acc.length) (fuel : Nat) : fillOp n fuel s = .ok s := by
  cases fuel with
  | zero => rw [fillOp, if_neg (Nat.not_lt.mpr h)]
  | succ fuel => rw [fillOp, if_neg (Nat.not_lt.mpr h)]

theorem fill_refills {n : Nat} {s : State} (h : s.acc.length < n) (fuel : Nat) :
    fillOp n (fuel + 1) s = refillOp s >>= fillOp n fuel := by
  rw [fillOp, if_pos h]

/-- Each refill adds at least 8 bits (R117): a bound that suffices for n bits can be raised. -/
theorem fill_succ {n : Nat} (fuel : Nat) {s : State} (h : n ≤ s.acc.length + 8 * fuel) :
    fillOp n (fuel + 1) s = fillOp n fuel s := by
  induction fuel generalizing s with
  | zero => rw [fill_held h, fill_held h]
  | succ fuel ih =>
    by_cases hheld : n ≤ s.acc.length
    · rw [fill_held hheld, fill_held hheld]
    · rw [fill_refills (by omega), fill_refills (by omega)]
      have hadds := refill_post s
      revert hadds
      cases refillOp s with
      | error e => exact fun _ => rfl
      | ok t =>
        intro ⟨_, bits, hacc, hbits⟩
        have hlen : t.acc.length = s.acc.length + bits.length := by rw [hacc, List.length_append]
        exact ih (by omega)

theorem peek_held {n : Nat} {s : State} (h : n ≤ s.acc.length) : peekOp n s = .ok (bitsNat (s.acc.take n), s) := by
  unfold peekOp
  split
  · rename_i h0
    subst h0
    rfl
  · rw [fill_held h]
    rfl

/-- PEEK with too few bits held is a REFILL and PEEK again (R119). -/
theorem peek_refills {n : Nat} {s : State} (hn : n ≤ 16) (h : s.acc.length < n) :
    peekOp n s = refillOp s >>= peekOp n := by
  have hfill : fillOp n 2 s = refillOp s >>= fillOp n 2 := by
    rw [← fill_succ 2 (by omega), fill_refills h]
  have hpeek : ∀ t, peekOp n t = fillOp n 2 t >>= fun t => pure (bitsNat (t.acc.take n), t) :=
    fun _ => if_neg (by omega)
  rw [hpeek, hfill, bind_assoc]
  exact bind_congr fun t => (hpeek t).symm

/-- Settles O15: PEEK by whether n bits are held, and a refill where they are not. -/
theorem peekReadsBits : Obligations.PeekReadsBits := by
  refine ⟨bitsNat_cons, fun n s => ?_⟩
  have hexec : ∀ t, exec (.peek n) t = conclude (peekOp n.val t >>= fun r => pure (r.2.returns (.nat r.1))) :=
    fun _ => rfl
  have hn : n.val ≤ 16 := by omega
  refine ⟨fun h0 => ?_, fun hheld => ?_, fun u hshort hu => ?_, fun u hshort hu => ?_⟩
  · subst h0
    rfl
  · rw [hexec, peek_held hheld]
    rfl
  · rw [hexec, peek_refills hn hshort, hu]
    rfl
  · rw [hexec, peek_refills hn hshort, hu]
    rfl

/-! #### CONSUME, READ and ALIGN -/

/-- CONSUME removes the first n bits of what PEEK leaves, whether it had to refill or not (R120). -/
theorem consume_eq_peek (n : Nat) (s : State) : consumeOp n s = peekOp n s >>= fun r => pure (r.2.dropBits n) := by
  unfold consumeOp
  split
  · rfl
  · rename_i hheld
    rw [peek_held (Nat.not_lt.mp hheld)]
    rfl

/-- READ is PEEK and its bits removed: PEEK leaves n bits held, so that CONSUME refills no more (R121). -/
theorem read_eq_peek {n : Nat} (hn : n ≤ 16) (s : State) :
    readOp n s = peekOp n s >>= fun r => pure (r.1, r.2.dropBits n) := by
  have hpeek := peek_post n s hn
  unfold readOp
  revert hpeek
  cases peekOp n s with
  | error e => exact fun _ => rfl
  | ok r =>
    intro ⟨_, _, hheld, _, _⟩
    show (consumeOp n r.2 >>= fun t => pure (r.1, t)) = _
    rw [consume_held hheld]
    rfl

/-- Settles O16: CONSUME and READ follow what PEEK answers; ALIGN is arithmetic on the number of bits held. -/
theorem alignConsumeRead : Obligations.AlignConsumeRead := by
  intro n s
  have hconsume : exec (.consume n) s = conclude (peekOp n.val s >>= fun r => pure (r.2.dropBits n.val)) :=
    congrArg conclude (consume_eq_peek n.val s)
  have hread : exec (.read n) s =
      conclude (peekOp n.val s >>= fun r => pure ((r.2.dropBits n.val).returns (.nat r.1))) := by
    show conclude (readOp n.val s >>= fun r => pure (r.2.returns (.nat r.1))) = _
    rw [read_eq_peek (by omega), bind_assoc]
    rfl
  have hanswer : ∀ v u, peekOp n.val s = .ok (v, u) →
      exec (.consume n) s = .next { u with acc := u.acc.drop n.val } ∧
      exec (.read n) s = .next { u with acc := u.acc.drop n.val, ret := .nat v } := by
    intro v u hpeek
    rw [hconsume, hread, hpeek]
    exact ⟨rfl, rfl⟩
  refine ⟨fun hheld => hanswer _ _ (peek_held hheld), hanswer, fun u hpeek => ?_, _, rfl, rfl, ?_, fun hwhole => ?_⟩
  · rw [hconsume, hread, hpeek]
    exact ⟨rfl, rfl⟩
  · show (s.acc.drop (s.acc.length % 8)).length % 8 = 0
    rw [List.length_drop]
    omega
  · rw [alignOp, hwhole]
    rfl

end Sys2Proof.Machine

/-! ### What BUILD_HT leaves in its slot (R131, R132, R153) -/

namespace Sys2Proof.Machine

/-- Every length of a table of sixteen counts is kept by an entry's length field. -/
theorem map_len_spansOf {counts syms : List Byte} (hcounts : counts.length = 16)
    (hsyms : countSum counts ≤ syms.length) :
    (spansOf 1 counts syms).map (·.len.val) = codeLengths 1 counts := by
  rw [spansOf, List.map_zipWith]
  refine List.ext_getElem (by simp [length_codeLengths, hsyms]) fun j _ hj => ?_
  have hrange := codeLengths_range 1 counts (List.getElem_mem hj)
  rw [List.getElem_zipWith]
  exact Nat.mod_eq_of_lt (by omega)

/-- BUILD_HT with symbols and code space enough puts the spans of the codes in its slot. -/
theorem buildHt_ok (h : Fin 4) {counts syms : List Byte} (s : State) (hsyms : countSum counts ≤ syms.length)
    (hspace : codeWindows (codeLengths 1 counts) ≤ 65536) :
    buildHtOp h counts syms s =
      .ok { s.skip (countSum counts) with ht := s.ht.set h.val (spansOf 1 counts syms) h.isLt } := by
  rw [buildHtOp, buildSpans_ok 1 counts syms 65536 s hsyms (by omega)]
  rfl

/-- Settles O17: where BUILD_HT succeeds the slot holds the spans of the codes, looked up by the laws of `lookup`;
where it lacks symbols or code space it has skipped some symbols and written no slot. -/
theorem buildHtFillsTable : Obligations.BuildHtFillsTable := by
  intro h counts syms s hcounts
  refine ⟨fun hsyms hspace => ?_, fun hlacks => ?_⟩
  · have hslot : (s.ht.set h.val (spansOf 1 counts syms) h.isLt).get h = spansOf 1 counts syms :=
      Vector.getElem_set_self h.isLt
    have hlens := map_len_spansOf hcounts hsyms
    refine ⟨_, congrArg conclude (buildHt_ok h s hsyms hspace), rfl, fun g hg => ?_, fun j l v w hl hv hlo hhi => ?_,
      fun w hw => ?_⟩
    · exact Vector.getElem_set_ne h.isLt g.isLt fun e => hg (Fin.ext e.symm)
    · have hlt : l < 17 := by
        have := codeLengths_range 1 counts (List.mem_of_getElem? hl)
        omega
      have hlen : (Fin.ofNat 17 l).val = l := Nat.mod_eq_of_lt hlt
      have hentry : (spansOf 1 counts syms)[j]? = some ⟨Fin.ofNat 17 l, v⟩ := by
        simp [spansOf, List.getElem?_zipWith, hl, hv]
      have hspan := lookup_span _ j w _ hentry (by rwa [List.map_take, hlens]) (by rwa [List.map_take, hlens, hlen])
      simp only [hslot, hspan]
      exact ⟨hlen, trivial⟩
    · simp only [hslot]
      exact lookup_past _ w (by rwa [hlens])
  · obtain ⟨k, _, _, hfail⟩ := buildSpans_fails 1 counts syms 65536 s (by decide) (by omega)
    have habort : exec (.buildHt h counts syms) s = .next ((s.skip k).abort .syntaxError) := by
      show conclude (buildHtOp h counts syms s) = _
      rw [buildHtOp, hfail]
      rfl
    rw [habort]
    refine ⟨abortsWith_abort .syntaxError rfl rfl rfl rfl rfl rfl rfl rfl rfl, fun t ht => ?_⟩
    cases ht
    rfl

end Sys2Proof.Machine

/-! ### A scan of filler bits completes, whatever the input holds (R111, R190, R191, R309) -/

namespace Sys2Proof.Machine

/-- The operation answers or aborts: it meets no fault. -/
def NoFault {α : Type} (m : Eng α) : Prop :=
  Post m (fun _ => True) (fun _ => True) False

/-- A bind meets no fault where its first part meets none and the second none from what the first answers. -/
theorem NoFault.bind {α β : Type} {m : Eng α} {f : α → Eng β} {yes : α → Prop} {ab : State → Prop} {ft : Prop}
    (hm : NoFault m) (hyes : Post m yes ab ft) (hf : ∀ a, yes a → NoFault (f a)) : NoFault (m >>= f) :=
  (post_bind _ _ _ _ _).mpr ((hm.and hyes).mono (fun a ha => hf a ha.2) (fun _ _ => trivial) fun h => h.1)

/-! #### The block -/

/-- Once the input is used up, the bits asked for come from filler bytes, 8 at each refill (R117). -/
theorem fill_ended {p n : Nat} (fuel : Nat) {s : State} (h : Filling p s) (hn : n ≤ s.acc.length + 8 * fuel) :
    Post (fillOp n fuel s) (fun t => Filling p t ∧ n ≤ t.acc.length) (fun _ => False) False := by
  induction fuel generalizing s with
  | zero =>
    rw [fill_held (by omega)]
    exact ⟨h, by omega⟩
  | succ fuel ih =>
    by_cases hheld : n ≤ s.acc.length
    · rw [fill_held hheld]
      exact ⟨h, hheld⟩
    · rw [fill_refills (by omega), refillOp, if_pos h.ended]
      exact ih h.push (by rw [State.push_acc, List.length_append, length_bits8]; omega)

theorem peek_ended {p n : Nat} {s : State} (h : Filling p s) (hn : n ≤ 16) :
    Post (peekOp n s) (fun r => Filling p r.2 ∧ n ≤ r.2.acc.length) (fun _ => False) False := by
  unfold peekOp
  split
  · exact ⟨h, by omega⟩
  · exact (post_bind _ _ _ _ _).mpr ((fill_ended 2 h (by omega)).imp fun _ ht => ht)

theorem magnitude_noFault {p n : Nat} {s : State} (h : Filling p s) (hn : n ≤ 16) : NoFault (magnitudeOp n s) := by
  unfold magnitudeOp
  split
  · trivial
  · rw [read_eq_peek hn, bind_assoc]
    exact (post_bind _ _ _ _ _).mpr ((peek_ended h hn).mono (fun _ _ => trivial) (fun _ h => h.elim) id)

/-- Neither the window nor the magnitude bits of a symbol meet a fault. -/
theorem vlc_noFault {p : Nat} (h : Fin 4) {s : State} (hs : Filling p s) : NoFault (decodeVlcOp h s) := by
  refine (post_bind _ _ _ _ _).mpr ((peek_ended hs (by omega)).mono (fun r hr => ?_) (fun _ h => h.elim) id)
  obtain ⟨hf, hheld⟩ := hr
  simp only
  split
  · trivial
  · rw [consume_held (by omega)]
    exact (post_bind _ _ _ _ _).mpr
      ((post_bind _ _ _ _ _).mpr (Post.imp (magnitude_noFault (hf.dropBits _) (by omega)) fun _ _ => trivial))

/-- The DC coefficient's effect where its component is there (R185). -/
theorem dcValue_ok {s : State} {c : Comp} (d : Word) (hc : s.comps[s.seq.k]? = some c) :
    dcValueOp d s = .ok { s with
      comps := s.comps.set s.seq.k { c with dcpred := c.dcpred + d }
      blk := blkSet s.blk 0 ((c.dcpred + d) * quantStep s c.qtsel 0)
      seq := { s.seq with kz := 0, stage := .ac } } := by
  rw [dcValueOp, getComp_ok hc]
  rfl

/-- The AC loop's one turn, an EOB, meets no fault where its component is there. -/
theorem acLoop_noFault {p : Nat} (fuel : Nat) {s : State} {c : Comp} (h : Filling p s)
    (hc : s.comps[s.seq.k]? = some c) (hlen : (HuffTable.lookup (s.ht.get c.acsel.toFin) 0xFFFF).len ≠ 0)
    (hsym : (HuffTable.lookup (s.ht.get c.acsel.toFin) 0xFFFF).sym = 0x00) : NoFault (acLoop (fuel + 1) s) := by
  unfold acLoop
  split
  · rw [getComp_ok hc]
    refine (post_bind _ _ _ _ _).mpr (NoFault.bind (vlc_noFault _ h) (vlc_filling h rfl hlen (by rw [hsym]; rfl))
      fun r hr => ?_)
    rw [hr.1, hsym]
    show NoFault (acLoop fuel r.2.2.endBlock)
    rw [acLoop_done (by simp [State.endBlock])]
    trivial
  · trivial

theorem coefficients_noFault {p k : Nat} {s : State} {c : Comp} (h : Fills p s) (hc : s.comps[k]? = some c) :
    NoFault (coefficientsOp k s) := by
  obtain ⟨hlen, hsym⟩ := h.tables.dc c (List.mem_of_getElem? hc)
  have hstart : Filling p (s.startBlock k) := ⟨h.reader.pos, h.reader.ended, h.reader.ones⟩
  rw [coefficientsOp, getComp_ok hc]
  refine (post_bind _ _ _ _ _).mpr (NoFault.bind (vlc_noFault _ hstart)
    ((vlc_filling hstart rfl hlen hsym).and (vlc_post _ _)) fun r hr => ?_)
  obtain ⟨⟨_, hf⟩, hreads, _⟩ := hr
  have hcomp : r.2.2.comps[r.2.2.seq.k]? = some c := by
    rw [hreads.seq, hreads.comps]
    exact hc
  obtain ⟨haclen, hacsym⟩ := h.tables.ac c (List.mem_of_getElem? hc)
  rw [show s.ht = r.2.2.ht from hreads.ht.symm] at haclen hacsym
  rw [dcValue_ok _ hcomp]
  exact (post_bind _ _ _ _ _).mpr ((post_ok _ _ _ _).mpr (acLoop_noFault 62 ⟨hf.pos, hf.ended, hf.ones⟩
    (List.getElem?_set_self (List.getElem?_eq_some_iff.mp hcomp).1) haclen hacsym))

theorem decodeBlock_noFault {p k off : Nat} {s : State} (h : Fills p s) (hfits : s.blockFits k off) :
    NoFault (decodeBlockOp k off s) := by
  have ⟨c, hc, _⟩ := hfits
  exact NoFault.bind (coefficients_noFault h hc) (coefficients_post k s) fun t ht =>
    (idctBlock_post k off t _).mono (fun _ _ => trivial) (fun _ h => h) fun hn => hn (blockFits_of ht.1 hfits)

/-! #### The MCUs -/

/-- One MCU over filler bits: its blocks lie in their planes, so none of them meets a fault. -/
theorem mcu_noFault {p : Nat} {s : State} (h : Fills p s) (hfits : s.mcuFits s.mbx s.mby) : NoFault (mcuOp s) := by
  have hblock : ∀ k off t, s.blockFits k off → Fills p t ∧ Blocks s t →
      Post (decodeBlockOp k off t) (fun u => Fills p u ∧ Blocks s u) (fun _ => True) False :=
    fun k off t hfit ht =>
      ((decodeBlock_noFault ht.1 (blockFits_of ht.2 hfit)).and
        ((decodeBlock_fills k off ht.1).and (decodeBlock_post k off t))).mono
        (fun u hu => ⟨hu.2.1, ht.2.trans hu.2.2.1⟩) (fun _ _ => trivial) fun hn => hn.1
  refine Post.imp (forUp_post (P := fun _ t => Fills p t ∧ Blocks s t) _ 0 s ⟨h, Blocks.refl s⟩
    fun k t _ hk ht => ?_) fun _ _ => trivial
  obtain ⟨c, hc, hblocks⟩ := hfits k (by omega)
  obtain ⟨d, hd, hshape⟩ := ht.2.comp hc
  rw [mcuComponent, getComp_ok hd]
  refine forUp_post (P := fun _ u => Fills p u ∧ Blocks s u) _ 0 t ht fun y u _ hy hu =>
    forUp_post (P := fun _ v => Fills p v ∧ Blocks s v) _ 0 u hu fun x v _ hx hv => ?_
  rw [ssy_of_shape hshape] at hy
  rw [ssx_of_shape hshape] at hx
  have hplace : v.mbx = s.mbx ∧ v.mby = s.mby := by
    rw [hv.2.frame]
    exact ⟨rfl, rfl⟩
  simp only [blockOffset_of_shape hshape, hplace]
  exact hblock k _ v (hblocks y x (by omega) (by omega)) hv

/-- The scan stands at an MCU of the image (R190). -/
def State.atMcu (s : State) : Prop :=
  s.mbx < max 1 s.mbwidth ∧ s.mby < max 1 s.mbheight

/-- The MCUs of the image before the one the scan stands at, in raster order. -/
def State.mcusDone (s : State) : Nat :=
  s.mby * max 1 s.mbwidth + s.mbx

theorem mcusDone_lt {s : State} (h : s.atMcu) : s.mcusDone < s.mcuCount := by
  have hrow := Nat.mul_le_mul_right (max 1 s.mbwidth) (Nat.succ_le_of_lt h.2)
  rw [Nat.succ_mul, Nat.mul_comm (max 1 s.mbheight)] at hrow
  have hcol := h.1
  unfold State.mcusDone State.mcuCount
  omega

/-- Before the last MCU the scan moves on to the next MCU of the image. -/
theorem afterMcu_atMcu {s : State} (hlast : s.lastMcu = false) (h : s.atMcu) :
    s.afterMcu.atMcu ∧ s.afterMcu.mcusDone = s.mcusDone + 1 := by
  obtain ⟨hx, hy⟩ := h
  obtain ⟨hmbx, hmby, _⟩ := afterMcu_more hlast
  simp only [State.lastMcu, Bool.and_eq_false_iff, decide_eq_false_iff_not] at hlast
  unfold State.atMcu State.mcusDone
  rw [hmbx, hmby, (scans_afterMcu s).mbwidth, (scans_afterMcu s).mbheight]
  split
  · rw [Nat.succ_mul]
    omega
  · omega

/-- SCAN's loop over filler bits meets no fault: its turns suffice for the MCUs left, and each fits. -/
theorem scanLoop_noFault {p : Nat} (fuel : Nat) {s : State} (h : Fills p s) (hfits : s.scanFits) (hat : s.atMcu)
    (hfuel : s.mcuCount ≤ fuel + s.mcusDone) : NoFault (scanLoop fuel s) := by
  induction fuel generalizing s with
  | zero =>
    have := mcusDone_lt hat
    omega
  | succ fuel ih =>
    refine NoFault.bind (mcu_noFault h (hfits _ _ hat.1 hat.2)) ((mcu_fills h).and (mcu_post s)) fun m hm => ?_
    obtain ⟨hf, hblocks, _⟩ := hm
    split
    · trivial
    · rename_i hlast
      have hplace : m.atMcu ∧ m.mcusDone = s.mcusDone := by
        rw [hblocks.frame]
        exact ⟨hat, rfl⟩
      obtain ⟨hat', hdone⟩ := afterMcu_atMcu (by simpa using hlast) hplace.1
      have hscans := hblocks.scans.trans (scans_afterMcu m)
      have hcount : m.afterMcu.mcuCount = s.mcuCount := by
        rw [State.mcuCount, hscans.mbwidth, hscans.mbheight]
        rfl
      rw [if_neg (afterMcu_stage hf.tables.restartInterval)]
      exact ih ⟨hf.reader.afterMcu, (scans_afterMcu m).tables.fillTables hf.tables⟩ (scanFits_of hscans hfits) hat'
        (by omega)

theorem scan_noFault {p : Nat} {s : State} (h : Fills p s) (hfits : s.scanFits) : NoFault (scanOp s) := by
  have hscans : Scans s s.startScan := scans_seq rfl
  refine scanLoop_noFault (s := s.startScan) _ ⟨⟨h.reader.pos, h.reader.ended, h.reader.ones⟩,
    hscans.tables.fillTables h.tables⟩ (scanFits_of hscans hfits) ⟨?_, ?_⟩ (Nat.le_add_right _ _)
  · show 0 < max 1 s.mbwidth
    omega
  · show 0 < max 1 s.mbheight
    omega

/-! #### The planes -/

/-- In a laid out frame whose MCUs are all written every byte of every plane has a value. -/
theorem planes_full {s : State} (h : s.frameLaidOut)
    (hw : ∀ mx my, mx < max 1 s.mbwidth → my < max 1 s.mbheight → s.mcuWritten mx my) :
    ∀ c ∈ s.comps, ∀ b, c.pixels = some b → ∀ j, j < b.size → b.has j = true := by
  intro c hm b hb j hj
  obtain ⟨k, hc⟩ := List.getElem?_of_mem hm
  have hk : k < s.ncomp.toNat := h.2.1 ▸ (List.getElem?_eq_some_iff.mp hc).1
  obtain ⟨_, hcomps, _, _, _, _, hlaid, _⟩ := h
  obtain ⟨_, _, _, _, _, _, hstride, _, _, b', hb', hsize⟩ := hlaid c hm
  obtain rfl : b = b' := Option.some.inj (hb.symm.trans hb')
  obtain ⟨mx, my, sbx, sby, r, x, hmx, hmy, hsbx, hsby, hr, hx, hjeq⟩ :=
    byte_in_block (hstride ▸ hsize ▸ hj)
  obtain ⟨c', hc', hblocks⟩ := hw mx my (by omega) (by omega) k hk
  obtain rfl : c = c' := Option.some.inj (hc.symm.trans hc')
  obtain ⟨c', hc', hbytes⟩ := hblocks sby sbx hsby hsbx
  obtain rfl : c = c' := Option.some.inj (hc.symm.trans hc')
  have hbyte := hbytes r x hr hx
  rw [blockOffset, hstride, ← hjeq] at hbyte
  simp only [State.planeByte, hc, hb, Option.bind_some] at hbyte
  simp [Buffer.has, hj, hbyte]

/-- Settles O31: the filler bits decode every block, no operation of the scan meets a fault, and a scan that
answers has written every block of the frame. -/
theorem scanCompletes : Obligations.ScanCompletes := by
  intro s hlaid hri hacc hended htables
  have hfills : Fills s.pos s := by
    refine ⟨⟨rfl, hended, by simp [hacc]⟩, hri, fun c hc => ?_, fun c hc => ?_⟩
    · obtain ⟨hdclen, hdcsym, _, _⟩ := htables c hc _ _ rfl rfl
      exact ⟨hdclen, hdcsym⟩
    · obtain ⟨_, _, hac⟩ := htables c hc _ _ rfl rfl
      exact hac
  have hscan := (scan_noFault hfills (scanFits_of_laidOut hlaid)).and ((scan_fills hfills).and (scan_post s))
  show ∃ t, conclude (scanOp s) = .next t ∧ _
  match scanOp s, hscan with
  | .ok t, ⟨_, hfilling, hscans, _, hphase, _, hwritten⟩ =>
    have hlaid' := laidOut_of_scans hscans hlaid
    refine ⟨t, rfl, hphase, hscans.error, hlaid', hfilling.pos, planes_full hlaid' fun mx my hx hy => ?_⟩
    exact hwritten mx my (hscans.mbwidth ▸ hx) (hscans.mbheight ▸ hy)
  | .error (.aborted _), ⟨_, hnone, _⟩ => exact hnone.elim
  | .error (.fault _), ⟨hnone, _⟩ => exact hnone.elim

end Sys2Proof.Machine

/-! ### What SOI, SEGLEN and a marker without an accepted segment do (R140 to R143, R168, R169) -/

namespace Sys2Proof.Machine

/-- What an abort from a state hands on to the state after it besides the code (R275): the sticky error, the
configuration, the command, the input and registers 1 to 5. -/
def State.kept (s : State) : Code × Config × Option Command × Buffer × Half × Half × Bool × Word × OutRef :=
  (s.error, s.cfg, s.cmd, s.inp, s.regWidth, s.regHeight, s.regIsColor, s.regOutSize, s.regOutBuf)

/-- The operation raises the code from a state that keeps what an abort of s hands on. -/
def RaisesFrom {α : Type} (s : State) (code : Code) (m : Eng α) : Prop :=
  ∃ u : State, u.kept = s.kept ∧ m = raise code u

theorem raisesFrom_raise {α : Type} {s u : State} {code : Code} (h : u.kept = s.kept) :
    RaisesFrom s code (raise code u : Eng α) :=
  ⟨u, h, rfl⟩

theorem RaisesFrom.of_kept {α : Type} {s u : State} {code : Code} {m : Eng α} (h : RaisesFrom u code m)
    (hu : u.kept = s.kept) : RaisesFrom s code m := by
  obtain ⟨v, hv, hm⟩ := h
  exact ⟨v, hv.trans hu, hm⟩

/-- What follows an operation that raises is not run. -/
theorem RaisesFrom.bind {α β : Type} {s : State} {code : Code} {m : Eng α} {f : α → Eng β}
    (h : RaisesFrom s code m) : RaisesFrom s code (m >>= f) := by
  obtain ⟨u, hu, rfl⟩ := h
  exact ⟨u, hu, rfl⟩

theorem raisesFrom_raise_bind {α β : Type} {s u : State} {code : Code} {f : α → Eng β} (h : u.kept = s.kept) :
    RaisesFrom s code (raise code u >>= f) :=
  (raisesFrom_raise h).bind

/-- What follows an operation that answers t is run from t. -/
theorem RaisesFrom.after {β : Type} {s t : State} {code : Code} {m : Eng State} {f : State → Eng β}
    (hm : m = .ok t) (h : RaisesFrom s code (f t)) : RaisesFrom s code (m >>= f) := by
  subst hm
  exact h

theorem RaisesFrom.abortsWith {s : State} {code : Code} {m : Eng State} (h : RaisesFrom s code m) :
    AbortsWith s code (conclude m) := by
  obtain ⟨u, hu, rfl⟩ := h
  simp only [State.kept, Prod.mk.injEq] at hu
  obtain ⟨herror, hcfg, hcmd, hinp, hwidth, hheight, hcolor, hsize, hbuf⟩ := hu
  exact abortsWith_abort code herror hcfg hcmd hinp hwidth hheight hcolor hsize hbuf

/-- The value of a two-byte field (R61). -/
theorem be16_toNat (hi lo : Byte) : (be16 hi lo).toNat = 256 * hi.toNat + lo.toNat := by
  have hlo := lo.isLt
  rw [be16, BitVec.toNat_append, Nat.shiftLeft_eq, Nat.mul_comm, ← Nat.two_pow_add_eq_or_of_lt hlo]

/-- The SOI check is a test of the first two bytes where these are there. -/
theorem soiOp_bytes {s : State} {b0 b1 : Byte} (hsize : 2 ≤ s.inp.size) (h0 : s.inp.mem.read 0 = some b0)
    (h1 : s.inp.mem.read 1 = some b1) :
    soiOp s = if b0 ≠ 0xFF ∨ b1 ≠ 0xD8 then raise .notAJpeg s else .ok (s.skip 2) := by
  rw [soiOp, if_neg (by omega), inByte, inByte, Buffer.get_ok _ (by omega) h0, Buffer.get_ok _ (by omega) h1]
  rfl

/-- Settles O32, by the size of the input and then its first two bytes. -/
theorem soiChecked : Obligations.SoiChecked := by
  intro s
  refine ⟨fun hsize => ?_, fun b0 b1 hsize h0 h1 => ⟨fun hbad => ?_, fun hff hd8 => ?_⟩⟩
  · show conclude (soiOp s) = _
    rw [soiOp, if_pos hsize]
    rfl
  · show conclude (soiOp s) = _
    rw [soiOp_bytes hsize h0 h1, if_pos hbad]
    rfl
  · show conclude (soiOp s) = _
    rw [soiOp_bytes hsize h0 h1, if_neg (by simp [hff, hd8])]
    rfl

/-- SEGLEN is a test of the length field where this is there. -/
theorem segLenOp_bytes {s : State} {l1 l0 : Byte} (hrem : 2 ≤ s.remaining) (hpos : s.pos + 1 < s.inp.size)
    (h1 : s.inp.mem.read s.pos = some l1) (h0 : s.inp.mem.read (s.pos + 1) = some l0) :
    segLenOp s = if 256 * l1.toNat + l0.toNat < 2 ∨ s.remaining < ((256 * l1.toNat + l0.toNat : Nat) : Int) then
        raise .syntaxError s
      else .ok (256 * l1.toNat + l0.toNat - 2, s.skip 2) := by
  rw [segLenOp, if_neg (by omega), inByte, inByte, Buffer.get_ok _ (by omega) h1, Buffer.get_ok _ hpos h0,
    ← be16_toNat]
  rfl

theorem exec_seglen (s : State) :
    exec .seglen s = conclude (segLenOp s >>= fun r => .ok (r.2.returns (.nat r.1))) := rfl

/-- Settles O33, by the bytes that remain and then the length field. -/
theorem seglenAndSkip : Obligations.SeglenAndSkip := by
  intro s
  refine ⟨fun hrem => ?_, fun l1 l0 l hrem hpos h1 h0 hl => ⟨fun hbad => ?_, fun hlow hfits => ?_⟩, fun n => rfl⟩
  · rw [exec_seglen, segLenOp, if_pos hrem]
    rfl
  · rw [exec_seglen, segLenOp_bytes hrem hpos h1 h0, ← hl, if_pos hbad]
    rfl
  · rw [exec_seglen, segLenOp_bytes hrem hpos h1 h0, ← hl, if_neg (by omega)]
    rfl

/-- A segment without a payload that lies in the input ends after its marker's two bytes (R142). -/
theorem segmentOp_misframed {α : Type} {seg : Framed α} {size : α → Nat} {body : α → State → Eng State} {s : State}
    (h : s.remaining < 4 ∨ seg.payload size = none ∨
      ∃ n, seg.payload size = some n ∧ s.remaining < (n : Int) + 4) :
    segmentOp seg size body s = raise .syntaxError (s.skip 2) := by
  unfold segmentOp
  simp only
  split
  · rfl
  · rename_i hrem
    rw [State.skip_remaining] at hrem
    cases seg with
    | noLength _ => rfl
    | badLength _ => rfl
    | ok a =>
      refine if_pos ?_
      rw [State.skip_remaining]
      rcases h with h | h | ⟨n, hn, h⟩
      · omega
      · cases h
      · cases hn
        omega

/-- Settles O34: the instructions with a segment are the seven marker segments, and all check the frame alike. -/
theorem segmentFramingErrors : Obligations.SegmentFramingErrors := by
  intro i payload s hi h
  cases i with
  | sof0 | dht | dqt | dri | sos | appn | com =>
    cases hi
    exact congrArg conclude (segmentOp_misframed h)
  | _ => cases hi

/-- Settles O35: each payload lies in the input, so that the segment is its body after four bytes. -/
theorem skippedSegmentsAndDri : Obligations.SkippedSegmentsAndDri := by
  intro s
  refine ⟨fun n p hp t ht => ?_, fun ri extra hextra => ?_, fun bytes hbytes hroom => ?_⟩
  · have hskip : skipSegmentOp (.ok p) s = .ok t := by
      rw [skipSegmentOp, segmentOp_inside hp, skipSegOp, ht]
      simp only [State.skip, Except.ok.injEq, State.mk.injEq, true_and, and_true]
      omega
    exact ⟨congrArg conclude hskip, congrArg conclude hskip⟩
  · have hroom : ((DriBody.full ri extra).size : Int) + 4 ≤ s.remaining := by
      simp only [DriBody.size]
      omega
    show conclude (driOp _ s) = _
    rw [driOp, segmentOp_inside hroom, driBodyOp]
    simp only [State.skip, conclude, Host.Outcome.next.injEq, State.mk.injEq, true_and, and_true]
    omega
  · show AbortsWith s _ (conclude (driOp _ s))
    rw [driOp, segmentOp_inside (by exact hroom)]
    exact (raisesFrom_raise rfl).abortsWith

/-- A marker code whose instruction takes the two bytes only and ends the command with UNSUPPORTED. -/
def Refused (rest : List Byte) (r : Instr × List Byte) : Prop :=
  r.2 = rest ∧ ∀ s : State, exec r.1 s = .next ((s.skip 2).abort .unsupported)

theorem Refused.ite {rest : List Byte} {p : Prop} [Decidable p] {a b : Instr × List Byte} (ha : Refused rest a)
    (hb : Refused rest b) : Refused rest (if p then a else b) := by
  split
  · exact ha
  · exact hb

/-- A code of high nibble 14 is one of the APPn codes (R82). -/
theorem isAppn_of_hiNibble {c : Byte} (h : hiNibble c = 0xE) : 0xE0 ≤ c ∧ c ≤ 0xEF := by
  have hnibble := congrArg BitVec.toNat h
  rw [hiNibble_toNat] at hnibble
  simp only [BitVec.le_def, BitVec.ofNat_eq_ofNat, BitVec.toNat_ofNat] at hnibble ⊢
  omega

/-- Settles O4: past the accepted codes and EOI every branch of the decoder takes no more than the code and answers an
instruction that is refused. -/
theorem refusedMarkersAbort : Obligations.RefusedMarkersAbort := by
  refine ⟨fun c rest hC0 hC4 hDB hDD hDA hAppn hFE hD9 => ?_, fun s m c d =>
    ⟨rfl, rfl, rfl, rfl, rfl, rfl, rfl, rfl, rfl, rfl, rfl, rfl, rfl⟩⟩
  have hrefused : Refused rest (decodeMarker c rest) := by
    rw [decodeMarker, if_neg hC0, if_neg hC4, if_neg hDB, if_neg hDD, if_neg hDA,
      if_neg fun h => hAppn (isAppn_of_hiNibble h), if_neg hFE, if_neg hD9]
    repeat' refine Refused.ite ?_ ?_
    all_goals exact ⟨rfl, fun _ => rfl⟩
  obtain ⟨hrest, hexec⟩ := hrefused
  refine ⟨(decodeMarker c rest).1, ?_, hexec⟩
  show decodeTop (0xFF :: c :: rest) = _
  rw [decodeTop, if_pos rfl]
  exact congrArg (fun bs => Except.ok ((decodeMarker c rest).1, bs)) hrest

end Sys2Proof.Machine

/-! ### The tables DQT and DHT load (R151 to R156) -/

namespace Sys2Proof

/-- A table DQT accepts (R156). -/
def DqtTable.good (t : DqtTable) : Prop :=
  t.pq = 0 ∧ t.tq.toNat ≤ 3

def DqtTable.slot (t : DqtTable) : Fin 4 :=
  Fin.ofNat 4 t.tq.toNat

/-- The steps of a table as what a slot holds. -/
def DqtTable.entry (t : DqtTable) : Vector Byte 64 :=
  Machine.writeSteps t.steps 0 (Vector.replicate 64 0)

/-- A table DHT accepts: a legal class and identifier, all its symbols, and code space enough (R132, R152, R153). -/
def DhtTable.good (t : DhtTable) : Prop :=
  t.tc.toNat ≤ 1 ∧ t.th.toNat ≤ 1 ∧ countSum t.counts ≤ t.syms.length ∧
    Machine.codeWindows (Machine.codeLengths 1 t.counts) ≤ 65536

def DhtTable.slot (t : DhtTable) : Fin 4 :=
  Machine.htSlot t.tc t.th

/-- What BUILD_HT makes of a table. -/
def DhtTable.entry (t : DhtTable) : Machine.HuffTable :=
  Machine.spansOf 1 t.counts t.syms

/-- A table takes the header and the symbols its counts ask for. -/
def DhtTable.whole (t : DhtTable) : Prop :=
  t.size = 17 + countSum t.counts

end Sys2Proof

namespace Sys2Proof.Machine

/-- Entries written one after another, each to its slot. -/
def loadSlots {α β : Type} {n : Nat} (slot : β → Fin n) (entry : β → α) (us : List β) (v : Vector α n) : Vector α n :=
  us.foldl (fun v u => v.set (slot u).val (entry u) (slot u).isLt) v

/-- A slot holds the last entry written to it, or what it held before. -/
theorem get_loadSlots {α β : Type} {n : Nat} (slot : β → Fin n) (entry : β → α) (us : List β) (v : Vector α n)
    (i : Fin n) : (loadSlots slot entry us v).get i =
      ((us.reverse.find? fun u => slot u = i).map entry).getD (v.get i) := by
  induction us using List.reverseRecOn with
  | nil => rfl
  | append_singleton us u ih =>
    simp only [loadSlots, List.foldl_append, List.foldl_cons, List.foldl_nil, List.reverse_append,
      List.reverse_cons, List.reverse_nil, List.nil_append, List.cons_append, List.find?_cons]
    by_cases hu : slot u = i
    · subst hu
      simp [Vector.get_eq_getElem]
    · have hne : (slot u).val ≠ i.val := fun h => hu (Fin.ext h)
      simp only [hu, decide_false]
      rw [← ih, loadSlots, Vector.get_eq_getElem, Vector.getElem_set_ne _ _ hne]
      rfl

/-! #### DQT -/

/-- Steps that fit a slot from position k on are written there, the others left. -/
theorem get_writeSteps (steps : List Byte) (k : Nat) (q : Vector Byte 64) (hk : k + steps.length ≤ 64) (i : Fin 64) :
    (writeSteps steps k q).get i = if k ≤ i.val then (steps[i.val - k]?).getD (q.get i) else q.get i := by
  induction steps generalizing k q with
  | nil => simp [writeSteps]
  | cons b steps ih =>
    rw [List.length_cons] at hk
    have hmod : k % 64 = k := Nat.mod_eq_of_lt (by omega)
    rw [writeSteps, ih (k + 1) _ (by omega)]
    simp only [hmod, Vector.get_eq_getElem, Vector.getElem_set]
    rcases Nat.lt_trichotomy k i.val with hlt | heq | hgt
    · rw [if_pos (show k + 1 ≤ i.val by omega), if_pos hlt.le, if_neg hlt.ne,
        show i.val - k = i.val - (k + 1) + 1 by omega, List.getElem?_cons_succ]
    · rw [if_neg (show ¬ k + 1 ≤ i.val by omega), if_pos heq, if_pos heq.le, heq, Nat.sub_self]
      rfl
    · rw [if_neg (show ¬ k + 1 ≤ i.val by omega), if_neg hgt.ne', if_neg (show ¬ k ≤ i.val by omega)]

/-- A whole table leaves nothing of what its slot held. -/
theorem writeSteps_whole {t : DqtTable} (h : t.steps.length = 64) (q : Vector Byte 64) :
    writeSteps t.steps 0 q = t.entry := by
  refine Vector.ext fun i hi => ?_
  have hget := get_writeSteps t.steps 0 q (by omega) ⟨i, hi⟩
  have hentry := get_writeSteps t.steps 0 (Vector.replicate 64 0) (by omega) ⟨i, hi⟩
  simp only [Nat.zero_le, if_true, Nat.sub_zero, List.getElem?_eq_getElem (show i < t.steps.length by omega),
    Option.getD_some] at hget hentry
  exact hget.trans hentry.symm

theorem getElem?_steps {t : DqtTable} (h : t.steps.length = 64) (k : Fin 64) :
    t.steps[k.val]? = some (t.entry.get k) := by
  rw [DqtTable.entry, get_writeSteps _ 0 _ (by omega)]
  simp [h]

/-- The state after the tables given: each in its slot, the slot marked. -/
def State.dqtLoaded (ts : List DqtTable) (s : State) : State :=
  { s with
    pos := s.pos + (ts.map fun t => 1 + t.steps.length).sum
    remaining := s.remaining - ((ts.map fun t => 1 + t.steps.length).sum : Nat)
    qt := loadSlots DqtTable.slot DqtTable.entry ts s.qt
    qtAvail := ts.foldl (fun marks t => marks ||| (1 : BitVec 4) <<< t.slot.val) s.qtAvail }

theorem dqtTableOp_good {t : DqtTable} (ht : t.good) (h : t.steps.length = 64) (s : State) :
    dqtTableOp t s = .ok (s.dqtLoaded [t]) := by
  obtain ⟨hpq, htq⟩ := ht
  rw [dqtTableOp, if_neg (fun hne => hne hpq), if_neg (by omega)]
  show Except.ok _ = _
  rw [writeSteps_whole h]
  simp [State.dqtLoaded, State.skip, h, loadSlots, DqtTable.slot]

theorem dqtLoaded_cons (t : DqtTable) (ts : List DqtTable) (s : State) :
    (s.dqtLoaded [t]).dqtLoaded ts = s.dqtLoaded (t :: ts) := by
  simp only [State.dqtLoaded, loadSlots, List.map_cons, List.map_nil, List.sum_cons, List.sum_nil, List.foldl_cons,
    List.foldl_nil, State.mk.injEq, true_and, and_true]
  omega

/-- Good tables are loaded, and DQT goes on with those after them. -/
theorem dqtTablesOp_good {ts : List DqtTable} (hgood : ∀ t ∈ ts, t.good) (h : ∀ t ∈ ts, t.steps.length = 64)
    (more : List DqtTable) (tail : List Byte) (s : State) :
    dqtTablesOp (ts ++ more) tail s = dqtTablesOp more tail (s.dqtLoaded ts) := by
  induction ts generalizing s with
  | nil => simp [State.dqtLoaded, loadSlots]
  | cons t ts ih =>
    rw [List.forall_mem_cons] at hgood h
    rw [List.cons_append, dqtTablesOp, dqtTableOp_good hgood.1 h.1, ← dqtLoaded_cons t ts]
    exact ih hgood.2 h.2 _

/-- A mark is set by the tables of its slot only. -/
theorem getLsbD_marks (ts : List DqtTable) (marks : BitVec 4) (i : Fin 4) :
    (ts.foldl (fun marks t => marks ||| (1 : BitVec 4) <<< t.slot.val) marks).getLsbD i.val =
      (marks.getLsbD i.val || (ts.reverse.find? fun t => t.slot = i).isSome) := by
  have hbit : ∀ slot i : Fin 4, ((1 : BitVec 4) <<< slot.val).getLsbD i.val = decide (slot = i) := by decide
  induction ts using List.reverseRecOn with
  | nil => simp
  | append_singleton ts t ih =>
    simp only [List.foldl_append, List.foldl_cons, List.foldl_nil, BitVec.getLsbD_or, ih, hbit,
      List.reverse_append, List.reverse_cons, List.reverse_nil, List.nil_append, List.cons_append, List.find?_cons]
    by_cases ht : t.slot = i <;> simp [ht]

/-- A good table's slot is the number the payload names. -/
theorem find?_dqtSlot {ts : List DqtTable} (hgood : ∀ t ∈ ts, t.good) (i : Fin 4) :
    (ts.reverse.find? fun t => t.tq.toNat = i.val) = ts.reverse.find? fun t => t.slot = i := by
  refine List.find?_congr fun t ht => ?_
  have hlow := (hgood t (List.mem_reverse.mp ht)).2
  simp only [DqtTable.slot, Fin.ext_iff, Fin.val_ofNat, Nat.mod_eq_of_lt (show t.tq.toNat < 4 by omega)]

/-- Settles O36: the good tables are loaded in order, and a slot holds the last of its tables; the first bad one, or
bytes left over, raise from there. -/
theorem dqtLoads : Obligations.DqtLoads := by
  intro b s hwf hroom
  obtain ⟨tables, tail⟩ := b
  simp only [DqtBody.wf, Bool.and_eq_true, List.all_eq_true, decide_eq_true_eq] at hwf
  obtain ⟨h64, _⟩ := hwf
  have hexec : exec (.dqt (.ok ⟨tables, tail⟩)) s = conclude (dqtTablesOp tables tail ((s.skip 2).skip 2)) :=
    congrArg conclude (segmentOp_inside hroom)
  rw [hexec]
  refine ⟨fun hgood => ?_, fun good bad more htables hgood => ?_⟩
  · have hloop := dqtTablesOp_good hgood h64 [] tail ((s.skip 2).skip 2)
    rw [List.append_nil, dqtTablesOp] at hloop
    rw [hloop]
    refine ⟨fun htail => ?_, fun htail => ?_⟩
    · rw [if_neg (by simpa using htail)]
      exact (raisesFrom_raise rfl).abortsWith
    · obtain rfl : tail = [] := htail
      rw [if_pos List.length_nil]
      refine ⟨_, rfl, ?_, fun i => ?_⟩
      · simp only [State.dqtLoaded, State.skip, DqtBody.size, List.length_nil, State.mk.injEq, true_and, and_true]
        omega
      · rw [find?_dqtSlot hgood]
        simp only [State.dqtLoaded, State.skip_qt, State.skip_qtAvail, get_loadSlots, getLsbD_marks]
        refine ⟨fun u hu => ?_, fun hnone => by simp [hnone]⟩
        have hlen := h64 u (List.mem_reverse.mp (List.mem_of_find?_eq_some hu))
        rw [hu]
        exact ⟨Bool.or_true _, getElem?_steps hlen⟩
  · subst htables
    rw [dqtTablesOp_good hgood (fun t ht => h64 t (List.mem_append_left _ ht)), dqtTablesOp, dqtTableOp]
    refine ⟨fun hpq => ?_, fun hpq htq => ?_⟩
    · rw [if_pos hpq]
      exact (raisesFrom_raise_bind rfl).abortsWith
    · rw [if_neg (fun hne => hne hpq), if_pos htq]
      exact (raisesFrom_raise_bind rfl).abortsWith

/-! #### DHT -/

/-- The state after the tables given: each built in its slot. -/
def State.dhtLoaded (ts : List DhtTable) (s : State) : State :=
  { s with
    pos := s.pos + (ts.map DhtTable.size).sum
    remaining := s.remaining - ((ts.map DhtTable.size).sum : Nat)
    ht := loadSlots DhtTable.slot DhtTable.entry ts s.ht }

theorem dhtTableOp_good {t : DhtTable} (ht : t.good) (hwhole : t.whole) (s : State) :
    dhtTableOp t s = .ok (s.dhtLoaded [t]) := by
  obtain ⟨hclass, hid, hsyms, hspace⟩ := ht
  rw [dhtTableOp, if_neg (by omega), if_neg (by omega), buildHt_ok _ _ hsyms hspace]
  simp only [State.dhtLoaded, State.skip, loadSlots, List.map_cons, List.map_nil, List.sum_cons, List.sum_nil,
    List.foldl_cons, List.foldl_nil, Except.ok.injEq, State.mk.injEq, true_and, and_true,
    DhtTable.slot, DhtTable.entry, show t.size = 17 + countSum t.counts from hwhole]
  omega

theorem dhtLoaded_cons (t : DhtTable) (ts : List DhtTable) (s : State) :
    (s.dhtLoaded [t]).dhtLoaded ts = s.dhtLoaded (t :: ts) := by
  simp only [State.dhtLoaded, loadSlots, List.map_cons, List.map_nil, List.sum_cons, List.sum_nil, List.foldl_cons,
    List.foldl_nil, State.mk.injEq, true_and, and_true]
  omega

/-- Good tables are built, and DHT goes on with those after them. -/
theorem dhtTablesOp_good {ts : List DhtTable} (hgood : ∀ t ∈ ts, t.good) (hwhole : ∀ t ∈ ts, t.whole)
    (more : List DhtTable) (tail : List Byte) (s : State) :
    dhtTablesOp (ts ++ more) tail s = dhtTablesOp more tail (s.dhtLoaded ts) := by
  induction ts generalizing s with
  | nil => simp [State.dhtLoaded, loadSlots]
  | cons t ts ih =>
    rw [List.forall_mem_cons] at hgood hwhole
    rw [List.cons_append, dhtTablesOp, dhtTableOp_good hgood.1 hwhole.1, ← dhtLoaded_cons t ts]
    exact ih hgood.2 hwhole.2 _

/-- No table of a payload holds more symbols than its counts ask for (R84). -/
theorem size_le_of_dhtWf {ts : List DhtTable} {tail : List Byte} (h : dhtWf ts tail = true) :
    ∀ t ∈ ts, t.counts.length = 16 ∧ t.syms.length ≤ countSum t.counts := by
  induction ts with
  | nil => simp
  | cons t ts ih =>
    rw [List.forall_mem_cons]
    cases ts with
    | nil =>
      simp only [dhtWf, Bool.and_eq_true, Bool.or_eq_true, decide_eq_true_eq] at h
      exact ⟨⟨h.1, by omega⟩, by simp⟩
    | cons u us =>
      simp only [dhtWf, Bool.and_eq_true, decide_eq_true_eq] at h
      exact ⟨⟨h.1.1, h.1.2.le⟩, ih h.2⟩

theorem whole_of_good {ts : List DhtTable} {tail : List Byte} (h : dhtWf ts tail = true) {t : DhtTable} (ht : t ∈ ts)
    (hgood : t.good) : t.whole := by
  obtain ⟨hcounts, hsyms⟩ := size_le_of_dhtWf h t ht
  obtain ⟨_, _, hall, _⟩ := hgood
  rw [DhtTable.whole, DhtTable.size]
  omega

/-- A good table's slot is the number 2·Tc + Th of the payload. -/
theorem slot_val_of_good {t : DhtTable} (h : t.good) : t.slot.val = 2 * t.tc.toNat + t.th.toNat := by
  obtain ⟨hclass, hid, _⟩ := h
  rw [DhtTable.slot, htSlot, Fin.val_ofNat]
  omega

theorem find?_dhtSlot {ts : List DhtTable} (hgood : ∀ t ∈ ts, t.good) (h : Fin 4) :
    (ts.reverse.find? fun t => 2 * t.tc.toNat + t.th.toNat = h.val) = ts.reverse.find? fun t => t.slot = h := by
  refine List.find?_congr fun t ht => ?_
  rw [← slot_val_of_good (hgood t (List.mem_reverse.mp ht))]
  simp only [Fin.ext_iff]

/-- BUILD_HT of a good table's counts and symbols leaves the table's entry in its slot, in any state. -/
theorem entry_of_buildHt {t : DhtTable} (ht : t.good) {h : Fin 4} {v w : State}
    (hexec : exec (.buildHt h t.counts t.syms) v = .next w) : t.entry = w.ht.get h := by
  obtain ⟨_, _, hsyms, hspace⟩ := ht
  have hbuild : exec (.buildHt h t.counts t.syms) v = conclude (buildHtOp h t.counts t.syms v) := rfl
  rw [hbuild, buildHt_ok h v hsyms hspace] at hexec
  cases hexec
  exact (Vector.getElem_set_self h.isLt).symm

/-- BUILD_HT raises where it lacks symbols or code space. -/
theorem buildHtOp_raises {h : Fin 4} {counts syms : List Byte} (s : State)
    (hlacks : syms.length < countSum counts ∨ 65536 < codeWindows (codeLengths 1 counts)) :
    RaisesFrom s .syntaxError (buildHtOp h counts syms s) := by
  obtain ⟨k, _, _, hfail⟩ := buildSpans_fails 1 counts syms 65536 s (by decide) (by omega)
  rw [buildHtOp, hfail]
  exact raisesFrom_raise_bind (u := s.skip k) rfl

/-- Settles O37: the good tables are built in order, and a slot holds the last of its tables; the first bad one, or
bytes left over, raise from there. -/
theorem dhtLoads : Obligations.DhtLoads := by
  intro b s good hwf hroom hgoodIff
  obtain rfl : good = DhtTable.good := funext fun u => propext (hgoodIff u)
  obtain ⟨tables, tail⟩ := b
  have hwhole : ∀ t ∈ tables, t.good → t.whole := fun t ht => whole_of_good hwf ht
  have hexec : exec (.dht (.ok ⟨tables, tail⟩)) s = conclude (dhtTablesOp tables tail ((s.skip 2).skip 2)) :=
    congrArg conclude (segmentOp_inside hroom)
  rw [hexec]
  refine ⟨fun hgood => ?_, fun before bad more htables hgood => ?_⟩
  · have hloop := dhtTablesOp_good hgood (fun t ht => hwhole t ht (hgood t ht)) [] tail ((s.skip 2).skip 2)
    rw [List.append_nil, dhtTablesOp] at hloop
    rw [hloop]
    refine ⟨fun htail => ?_, fun htail => ?_⟩
    · rw [if_neg (by simpa using htail)]
      exact (raisesFrom_raise rfl).abortsWith
    · obtain rfl : tail = [] := htail
      rw [if_pos List.length_nil]
      refine ⟨_, rfl, ?_, fun h => ?_⟩
      · simp only [State.dhtLoaded, State.skip, DhtBody.size, List.length_nil, State.mk.injEq, true_and, and_true]
        omega
      · rw [find?_dhtSlot hgood]
        simp only [State.dhtLoaded, State.skip_ht, get_loadSlots]
        refine ⟨fun u hu v w hbuild => ?_, fun hnone => by simp [hnone]⟩
        have hu' := hgood u (List.mem_reverse.mp (List.mem_of_find?_eq_some hu))
        rw [hu]
        exact entry_of_buildHt hu' hbuild
  · subst htables
    rw [dhtTablesOp_good hgood fun t ht => hwhole t (List.mem_append_left _ ht) (hgood t ht), dhtTablesOp, dhtTableOp]
    refine ⟨fun hheader => ?_, fun hclass hlow hhigh => ?_, fun hclass hid hlacks => ?_⟩
    · rw [if_pos hheader]
      exact (raisesFrom_raise_bind rfl).abortsWith
    · rw [if_neg (by omega), if_pos (by omega)]
      exact (raisesFrom_raise_bind rfl).abortsWith
    · rw [if_neg (by omega), if_neg (by omega)]
      exact ((buildHtOp_raises _ hlacks).of_kept rfl).bind.abortsWith

end Sys2Proof.Machine

/-! ### SOF0: its checks, the geometry and the allocations (R146 to R150, R170) -/

namespace Sys2Proof

/-- A component SOF0 accepts (R148). -/
def SofComp.good (c : SofComp) : Prop :=
  c.h ∈ [1, 2, 4, 8] ∧ c.v ∈ [1, 2, 4, 8] ∧ c.tq.toNat ≤ 3

/-- The component as R148 leaves it. -/
def SofComp.comp (c : SofComp) : Machine.Comp :=
  { Machine.newComp c.cid with ssx := c.h, ssy := c.v, qtsel := c.tq.setWidth 2 }

end Sys2Proof

namespace Sys2Proof.Machine

theorem powerOfTwo_iff (f : Nibble) : powerOfTwo f = true ↔ f ∈ [1, 2, 4, 8] := by
  revert f
  decide

/-- The checks of one component, in R148's order. -/
theorem sofCompOp_eq (c : SofComp) (s : State) :
    sofCompOp c s =
      if c.h = 0 then raise .syntaxError { s with comps := s.comps ++ [newComp c.cid] }
      else if c.h ∉ [1, 2, 4, 8] then raise .unsupported { s with comps := s.comps ++ [newComp c.cid] }
      else if c.v = 0 then raise .syntaxError { s with comps := s.comps ++ [newComp c.cid] }
      else if c.v ∉ [1, 2, 4, 8] then raise .unsupported { s with comps := s.comps ++ [newComp c.cid] }
      else if 3 < c.tq.toNat then raise .syntaxError { s with comps := s.comps ++ [newComp c.cid] }
      else .ok { s with comps := s.comps ++ [c.comp], qtUsed := s.qtUsed ||| ((1 : BitVec 4) <<< c.tq.toNat) } := by
  simp only [← powerOfTwo_iff]
  rfl

theorem ne_zero_of_factor {f : Nibble} (h : f ∈ [1, 2, 4, 8]) : f ≠ 0 := by
  rintro rfl
  exact absurd h (by decide)

/-- The state after good components of SOF0: each appended to the frame's, its table marked used. -/
def State.sofRead (cs : List SofComp) (s : State) : State :=
  { s with
    pos := s.pos + 3 * cs.length
    remaining := s.remaining - (3 * cs.length : Nat)
    comps := s.comps ++ cs.map SofComp.comp
    qtUsed := cs.foldl (fun used c => used ||| (1 : BitVec 4) <<< c.tq.toNat) s.qtUsed }

theorem sofRead_cons (c : SofComp) (cs : List SofComp) (s : State) :
    (s.sofRead [c]).sofRead cs = s.sofRead (c :: cs) := by
  simp only [State.sofRead, List.map_cons, List.map_nil, List.length_cons, List.length_nil, List.foldl_cons,
    List.foldl_nil, List.append_assoc, List.cons_append, List.nil_append, State.mk.injEq, true_and, and_true]
  omega

/-- Good components are read, and SOF0 goes on with those after them. -/
theorem sofCompsOp_good {cs : List SofComp} (hgood : ∀ c ∈ cs, c.good) (more : List SofComp) (s : State) :
    sofCompsOp (cs ++ more) s = sofCompsOp more (s.sofRead cs) := by
  induction cs generalizing s with
  | nil => simp [State.sofRead]
  | cons c cs ih =>
    rw [List.forall_mem_cons] at hgood
    obtain ⟨⟨hh, hv, htq⟩, hrest⟩ := hgood
    rw [List.cons_append, sofCompsOp, sofCompOp_eq, if_neg (ne_zero_of_factor hh), if_neg (not_not_intro hh),
      if_neg (ne_zero_of_factor hv), if_neg (not_not_intro hv), if_neg (by omega), ← sofRead_cons c cs]
    exact ih hrest (s.sofRead [c])

/-- A payload of fewer than nine bytes ends SOF0 at once (R147). -/
theorem sofBody_short {b : SofBody} {s : State} (hframe : s.frame = false) (hsize : b.size < 9) :
    sofBodyOp b s = raise .syntaxError s := by
  unfold sofBodyOp
  rw [if_neg (by simp [hframe])]
  cases b with
  | short _ => rfl
  | full => exact if_pos hsize

/-- SOF0's checks on the fields before the components, in R147's order. -/
theorem sofBody_header {prec nf : Byte} {height width : Half} {comps : List SofComp} {extra : List Byte} {s : State}
    (hframe : s.frame = false) (hsize : 9 ≤ (SofBody.full prec height width nf comps extra).size) :
    (prec ≠ 8 → RaisesFrom s .unsupported (sofBodyOp (.full prec height width nf comps extra) s)) ∧
    (prec = 8 → width = 0 ∨ height = 0 →
      RaisesFrom s .syntaxError (sofBodyOp (.full prec height width nf comps extra) s)) ∧
    (prec = 8 → width ≠ 0 → height ≠ 0 →
      (nf ≠ 1 → nf ≠ 3 → RaisesFrom s .unsupported (sofBodyOp (.full prec height width nf comps extra) s)) ∧
      (nf = 1 ∨ nf = 3 → (SofBody.full prec height width nf comps extra).size < 6 + 3 * nf.toNat →
        RaisesFrom s .syntaxError (sofBodyOp (.full prec height width nf comps extra) s))) := by
  rw [sofBodyOp, if_neg (by simp [hframe])]
  simp only
  rw [if_neg (Nat.not_lt.mpr hsize)]
  refine ⟨fun hprec => ?_, fun hprec hsides => ?_, fun hprec hw hh => ⟨fun h1 h3 => ?_, fun hnf hshort => ?_⟩⟩
  · rw [if_pos hprec]
    exact raisesFrom_raise rfl
  · rw [if_neg (not_not_intro hprec), if_pos hsides]
    exact raisesFrom_raise rfl
  · rw [if_neg (not_not_intro hprec), if_neg (not_or_intro hw hh), if_pos ⟨h1, h3⟩]
    exact raisesFrom_raise rfl
  · rw [if_neg (not_not_intro hprec), if_neg (not_or_intro hw hh), if_neg fun h => hnf.elim h.1 h.2,
      if_pos (by omega)]
    exact raisesFrom_raise rfl

/-- The first component that is not good decides (R148). -/
theorem sofComps_bad {good more : List SofComp} {bad : SofComp} (hgood : ∀ c ∈ good, c.good) (s : State) :
    (bad.h = 0 → RaisesFrom s .syntaxError (sofCompsOp (good ++ bad :: more) s)) ∧
    (bad.h ≠ 0 → bad.h ∉ [1, 2, 4, 8] → RaisesFrom s .unsupported (sofCompsOp (good ++ bad :: more) s)) ∧
    (bad.h ∈ [1, 2, 4, 8] → bad.v = 0 → RaisesFrom s .syntaxError (sofCompsOp (good ++ bad :: more) s)) ∧
    (bad.h ∈ [1, 2, 4, 8] → bad.v ≠ 0 → bad.v ∉ [1, 2, 4, 8] →
      RaisesFrom s .unsupported (sofCompsOp (good ++ bad :: more) s)) ∧
    (bad.h ∈ [1, 2, 4, 8] → bad.v ∈ [1, 2, 4, 8] → 3 < bad.tq.toNat →
      RaisesFrom s .syntaxError (sofCompsOp (good ++ bad :: more) s)) := by
  rw [sofCompsOp_good hgood, sofCompsOp, sofCompOp_eq]
  refine ⟨fun hh => ?_, fun hh hh' => ?_, fun hh hv => ?_, fun hh hv hv' => ?_, fun hh hv htq => ?_⟩
  · rw [if_pos hh]
    exact raisesFrom_raise_bind rfl
  · rw [if_neg hh, if_pos hh']
    exact raisesFrom_raise_bind rfl
  · rw [if_neg (ne_zero_of_factor hh), if_neg (not_not_intro hh), if_pos hv]
    exact raisesFrom_raise_bind rfl
  · rw [if_neg (ne_zero_of_factor hh), if_neg (not_not_intro hh), if_neg hv, if_pos hv']
    exact raisesFrom_raise_bind rfl
  · rw [if_neg (ne_zero_of_factor hh), if_neg (not_not_intro hh), if_neg (ne_zero_of_factor hv),
      if_neg (not_not_intro hv), if_pos htq]
    exact raisesFrom_raise_bind rfl

theorem exec_sof0 {b : SofBody} {s : State} (hroom : (b.size : Int) + 4 ≤ s.remaining) :
    exec (.sof0 (.ok b)) s = conclude (sofBodyOp b ((s.skip 2).skip 2)) :=
  congrArg conclude (segmentOp_inside hroom)

/-- Settles O38: the checks on the header, and then those on the components, each from a state that has taken some
of the payload. -/
theorem sofChecks : Obligations.SofChecks := by
  intro s b hroom
  have raised : ∀ {code}, RaisesFrom ((s.skip 2).skip 2) code (sofBodyOp b ((s.skip 2).skip 2)) →
      AbortsWith s code (conclude (sofBodyOp b ((s.skip 2).skip 2))) := fun h => (h.of_kept rfl).abortsWith
  rw [exec_sof0 hroom]
  refine ⟨fun hframe => raised ?_, fun hframe hsize => raised ?_,
    fun prec height width nf comps extra hb hframe hsize => ?_⟩
  · rw [sofBody_again b (show ((s.skip 2).skip 2).frame = true from hframe)]
    exact raisesFrom_raise rfl
  · rw [sofBody_short (show ((s.skip 2).skip 2).frame = false from hframe) hsize]
    exact raisesFrom_raise rfl
  subst hb
  obtain ⟨hprec, hsides, hcount⟩ := sofBody_header (s := (s.skip 2).skip 2) hframe hsize
  refine ⟨fun h => raised (hprec h), fun h h' => raised (hsides h h'), fun h8 hw hh => ?_⟩
  obtain ⟨hcount, hshort⟩ := hcount h8 hw hh
  refine ⟨fun h1 h3 => raised (hcount h1 h3), fun hnf h => raised (hshort hnf h),
    fun hnf hwhole good bad more hcomps hgood => ?_⟩
  subst h8 hcomps
  obtain ⟨hh0, hhFactor, hv0, hvFactor, htq⟩ := sofComps_bad (more := more) (bad := bad) hgood
    ({ (s.skip 2).skip 2 with height := height, width := width, ncomp := nf.setWidth 2 }.skip 6)
  rw [sofBody_accepted (s := (s.skip 2).skip 2) hframe hw hh hnf (by simp only [SofBody.size] at hwhole; omega)]
    at raised ⊢
  exact ⟨fun h => raised (.bind ((hh0 h).of_kept rfl)), fun h h' => raised (.bind ((hhFactor h h').of_kept rfl)),
    fun h h' => raised (.bind ((hv0 h h').of_kept rfl)),
    fun h h' h'' => raised (.bind ((hvFactor h h' h'').of_kept rfl)),
    fun h h' h'' => raised (.bind ((htq h h' h'').of_kept rfl))⟩

end Sys2Proof.Machine

/-! ### SOF0's planes and the RGB buffer (R149, R150) -/

namespace Sys2Proof.Machine

/-- A plane below 3 samples that would have to be upsampled (R150). -/
abbrev State.tooSmall (s : State) (c : Comp) : Prop :=
  (c.width < 3 ∧ c.ssx ≠ s.hmax) ∨ (c.height < 3 ∧ c.ssy ≠ s.vmax)

/-- The requests for the planes, in the order R150 makes them. -/
def State.planeSizes (s : State) : List Nat :=
  s.comps.map fun c => planeBytes c s.mbheight

/-- The j-th of the requests given is granted after those before it. -/
def State.granted (s : State) (sizes : List Nat) (j : Nat) : Prop :=
  ∀ n, sizes[j]? = some n → allocGrants s.cfg n (s.live + (sizes.take j).sum) = true

/-- Whether a request is granted does not depend on those after it. -/
theorem granted_append {s : State} {sizes : List Nat} {j : Nat} (hj : j < sizes.length) (more : List Nat) :
    s.granted (sizes ++ more) j ↔ s.granted sizes j := by
  rw [State.granted, State.granted, List.getElem?_append_left hj, List.take_append_of_le_length hj.le]

/-- Component j gets its plane. -/
def State.planeOk (s : State) (j : Nat) : Prop :=
  ∀ c, s.comps[j]? = some c → ¬ s.tooSmall c ∧ s.granted s.planeSizes j

def Comp.withPlane (n : Nat) (c : Comp) : Comp :=
  { c with pixels := some (Buffer.fresh n) }

def State.withPlane (s : State) (c : Comp) : Comp :=
  c.withPlane (planeBytes c s.mbheight)

/-- The state in which the first j components have their planes. -/
def State.planesTo (j : Nat) (s : State) : State :=
  { s with
    comps := (s.comps.take j).map s.withPlane ++ s.comps.drop j
    live := s.live + (s.planeSizes.take j).sum }

theorem alloc_granted {n : Nat} {s : State} (h : allocGrants s.cfg n s.live = true) :
    alloc n s = .ok (Buffer.fresh n, { s with live := s.live + n }) :=
  if_pos h

theorem alloc_refused {n : Nat} {s : State} (h : ¬ allocGrants s.cfg n s.live = true) :
    alloc n s = raise .outOfMemory s :=
  if_neg h

theorem forUp_add (body : Nat → State → Eng State) (a b i : Nat) (s : State) :
    forUp body (a + b) i s = forUp body a i s >>= forUp body b (i + a) := by
  induction a generalizing i s with
  | zero => rw [Nat.zero_add]; rfl
  | succ a ih =>
    rw [Nat.add_right_comm, forUp, forUp, bind_assoc, show i + (a + 1) = i + 1 + a by omega]
    exact congrArg (body i s >>= ·) (funext fun t => ih (i + 1) t)

theorem planesTo_all {j : Nat} {s : State} (hj : j = s.comps.length) : s.planesTo j =
    { s with comps := s.comps.map s.withPlane, live := s.live + s.planeSizes.sum } := by
  have hsizes : s.planeSizes.take s.comps.length = s.planeSizes := List.take_of_length_le (by simp [State.planeSizes])
  subst hj
  simp [State.planesTo, hsizes]

/-- The turn of component j, where the components before it have their planes: the size check, then the request. -/
theorem allocPlane_planesTo {j : Nat} {s : State} {c : Comp} (hc : s.comps[j]? = some c) :
    (s.tooSmall c → allocPlane j (s.planesTo j) = raise .unsupported (s.planesTo j)) ∧
    (¬ s.tooSmall c → ¬ s.granted s.planeSizes j → allocPlane j (s.planesTo j) = raise .outOfMemory (s.planesTo j)) ∧
    (¬ s.tooSmall c → s.granted s.planeSizes j → allocPlane j (s.planesTo j) = .ok (s.planesTo (j + 1))) := by
  obtain ⟨hj, hcj⟩ := List.getElem?_eq_some_iff.mp hc
  have hlen : ((s.comps.take j).map s.withPlane).length = j := by simp [hj.le]
  have hsizej : s.planeSizes[j]? = some (planeBytes c s.mbheight) := by simp [State.planeSizes, hc]
  have hdrop : s.comps.drop j = c :: s.comps.drop (j + 1) := by rw [List.drop_eq_getElem_cons hj, hcj]
  have hcomp : (s.planesTo j).comps[j]? = some c := by
    rw [State.planesTo, List.getElem?_append_right hlen.le, hlen, Nat.sub_self, hdrop]
    rfl
  have hgranted : s.granted s.planeSizes j ↔
      allocGrants (s.planesTo j).cfg (planeBytes c s.mbheight) (s.planesTo j).live = true := by
    simp [State.granted, hsizej, State.planesTo]
  have hturn : allocPlane j (s.planesTo j) = if s.tooSmall c then raise .unsupported (s.planesTo j) else
      alloc (planeBytes c s.mbheight) (s.planesTo j) >>= fun r =>
        .ok (r.2.setComp j { c with pixels := some r.1 }) := by
    rw [allocPlane, getComp_ok hcomp]
    rfl
  refine ⟨fun hsmall => ?_, fun hfits hrefused => ?_, fun hfits hgrants => ?_⟩
  · rw [hturn, if_pos hsmall]
  · rw [hturn, if_neg hfits, alloc_refused fun h => hrefused (hgranted.mpr h)]
    rfl
  · rw [hturn, if_neg hfits, alloc_granted (hgranted.mp hgrants)]
    have hcomps : ((s.comps.take j).map s.withPlane ++ s.comps.drop j).set j (s.withPlane c) =
        (s.comps.take (j + 1)).map s.withPlane ++ s.comps.drop (j + 1) := by
      rw [hdrop, List.set_append_right _ _ hlen.le, hlen, Nat.sub_self, List.set_cons_zero,
        List.take_succ_eq_append_getElem hj, hcj]
      simp
    have hlive : (s.planeSizes.take (j + 1)).sum = (s.planeSizes.take j).sum + planeBytes c s.mbheight := by
      rw [List.take_add_one, hsizej]
      simp
    show Except.ok (State.setComp j (s.withPlane c) _) = Except.ok (s.planesTo (j + 1))
    simp only [State.setComp, State.planesTo, hcomps, hlive, Nat.add_assoc]

/-- The first j components get their planes. -/
theorem allocPlanes_ok {s : State} (j : Nat) (hj : j ≤ s.comps.length) (h : ∀ i, i < j → s.planeOk i) :
    forUp allocPlane j 0 s = .ok (s.planesTo j) := by
  induction j with
  | zero => simp [forUp, State.planesTo]
  | succ j ih =>
    have hc : s.comps[j]? = some s.comps[j] := List.getElem?_eq_getElem hj
    obtain ⟨hfits, hgrants⟩ := h j (Nat.lt_succ_self j) _ hc
    rw [forUp_add, ih (by omega) fun i hi => h i (by omega)]
    show allocPlane (0 + j) (s.planesTo j) >>= _ = _
    rw [Nat.zero_add, (allocPlane_planesTo hc).2.2 hfits hgrants]
    rfl

/-- The first component that gets none decides: its size is checked before its request. -/
theorem allocPlanes_fails {s : State} {n j : Nat} {c : Comp} (hn : j < n) (h : ∀ i, i < j → s.planeOk i)
    (hc : s.comps[j]? = some c) :
    (s.tooSmall c → RaisesFrom s .unsupported (forUp allocPlane n 0 s)) ∧
    (¬ s.tooSmall c → ¬ s.granted s.planeSizes j → RaisesFrom s .outOfMemory (forUp allocPlane n 0 s)) := by
  obtain ⟨r, rfl⟩ : ∃ r, n = j + (r + 1) := ⟨n - j - 1, by omega⟩
  have hloop : forUp allocPlane (j + (r + 1)) 0 s =
      allocPlane j (s.planesTo j) >>= forUp allocPlane r (j + 1) := by
    rw [forUp_add, allocPlanes_ok j (List.getElem?_eq_some_iff.mp hc).1.le h, Nat.zero_add]
    rfl
  rw [hloop]
  obtain ⟨hsmall, hrefused, _⟩ := allocPlane_planesTo hc
  refine ⟨fun hs => ?_, fun hfits hr => ?_⟩
  · rw [hsmall hs]
    exact raisesFrom_raise_bind rfl
  · rw [hrefused hfits hr]
    exact raisesFrom_raise_bind rfl

/-- The state before the allocations of an accepted SOF0: its fields and components read, the geometry computed. -/
def State.framed (height width : Half) (nf : Byte) (cs : List SofComp) (s : State) : State :=
  (({ s with height := height, width := width, ncomp := nf.setWidth 2 }.skip 6).sofRead cs).geometry

/-- A SOF0 whose payload passes every check: the allocations, and the frame is accepted. -/
theorem exec_sof0_good {height width : Half} {nf : Byte} {cs : List SofComp} {extra : List Byte} {s : State}
    (hframe : s.frame = false) (hw : width ≠ 0) (hh : height ≠ 0) (hnf : nf = 1 ∨ nf = 3)
    (hlen : cs.length = nf.toNat) (hgood : ∀ c ∈ cs, c.good)
    (hroom : (extra.length : Int) + (10 + 3 * cs.length : Nat) ≤ s.remaining) :
    exec (.sof0 (.ok (.full 8 height width nf cs extra))) s = conclude
      ((forUp allocPlane nf.toNat 0 (((s.skip 2).skip 2).framed height width nf cs) >>= allocRgb) >>= fun v =>
        .ok ({ v with frame := true }.skip extra.length)) := by
  have hread := sofCompsOp_good hgood []
    ({ (s.skip 2).skip 2 with height := height, width := width, ncomp := nf.setWidth 2 }.skip 6)
  rw [List.append_nil] at hread
  rw [exec_sof0 (by simp only [SofBody.size]; omega),
    sofBody_accepted (s := (s.skip 2).skip 2) hframe hw hh hnf (by omega), hread, bind_assoc]
  rfl

/-- All components get their planes. -/
theorem allocPlanes_all {n : Nat} {s : State} (hn : n = s.comps.length) (h : ∀ i, i < n → s.planeOk i) :
    forUp allocPlane n 0 s =
      .ok { s with comps := s.comps.map s.withPlane, live := s.live + s.planeSizes.sum } := by
  rw [allocPlanes_ok n hn.le h, planesTo_all hn]

/-! #### One component -/

/-- The one component of a gray frame with its geometry, before its plane is allocated. -/
def grayFrameComp (height width : Half) (c : SofComp) : Comp :=
  ⟨c.cid, 1, 1, width.toNat, height.toNat, 8 * ceilDiv width.toNat 8, c.tq.setWidth 2, 0, 2, 0, none⟩

/-- Its plane has 64 bytes for each block of the image. -/
theorem planeBytes_grayFrameComp (height width : Half) (c : SofComp) (mbh : Nat) :
    planeBytes (grayFrameComp height width c) mbh = 64 * ceilDiv width.toNat 8 * mbh := by
  simp only [planeBytes, grayFrameComp, show (1 : Nibble).toNat = 1 from rfl]
  ring

/-- The geometry of a one-component frame, whatever factors it states (R149, D17). -/
theorem framed_gray {height width : Half} {c : SofComp} {s : State} (hcomps : s.comps = []) :
    s.framed height width 1 [c] = { s with
      pos := s.pos + 9
      remaining := s.remaining - 9
      width := width
      height := height
      ncomp := 1
      hmax := 1
      vmax := 1
      mcuW := 8
      mcuH := 8
      mbwidth := ceilDiv width.toNat 8
      mbheight := ceilDiv height.toNat 8
      qtUsed := s.qtUsed ||| ((1 : BitVec 4) <<< c.tq.toNat)
      comps := [grayFrameComp height width c] } := by
  rw [State.framed, geometry_gray (c := c.comp) rfl rfl rfl (by simp [State.sofRead, hcomps])]
  simp only [State.sofRead, State.skip, List.length_cons, List.length_nil, List.foldl_cons, List.foldl_nil,
    State.mk.injEq, true_and, and_true]
  exact ⟨by omega, rfl, rfl⟩

/-- Settles O39: the one plane is requested after the geometry, and nothing else of the frame is. -/
theorem sofGrayFrame : Obligations.SofGrayFrame := by
  intro s height width c extra mbw mbh n hframe hnone hh hw hch hcv htq hroom hmbw hmbh hn
  obtain rfl : mbw = ceilDiv width.toNat 8 := hmbw
  obtain rfl : mbh = ceilDiv height.toNat 8 := hmbh
  rw [exec_sof0_good hframe hw hh (.inl rfl) rfl (by simpa using ⟨hch, hcv, htq⟩) hroom]
  have hframed := framed_gray (height := height) (width := width) (c := c) (s := (s.skip 2).skip 2) hnone
  generalize ((s.skip 2).skip 2).framed height width 1 [c] = g at hframed ⊢
  have hcomps : g.comps = [grayFrameComp height width c] := by rw [hframed]
  have hcomp : g.comps[0]? = some (grayFrameComp height width c) := by rw [hcomps]; rfl
  have hbytes : planeBytes (grayFrameComp height width c) g.mbheight = n := by
    rw [hframed, hn, planeBytes_grayFrameComp]
  have hsizes : g.planeSizes = [n] := by rw [State.planeSizes, hcomps, ← hbytes]; rfl
  have hgranted : g.granted g.planeSizes 0 ↔ allocGrants s.cfg n s.live = true := by
    rw [hsizes, hframed]
    simp [State.granted]
  have hfits : ¬ g.tooSmall (grayFrameComp height width c) := by
    rw [hframed]
    simp [State.tooSmall, grayFrameComp]
  refine ⟨fun hgrants => ?_, fun hrefused => ?_⟩
  · have hplane := allocPlanes_all (n := 1) (s := g) (by rw [hcomps]; rfl) fun i hi d hd => by
      obtain rfl : i = 0 := by omega
      obtain rfl := Option.some.inj (hcomp.symm.trans hd)
      exact ⟨hfits, hgranted.mpr hgrants⟩
    have hgray : g.ncomp ≠ 3 := by rw [hframed]; exact (by decide : (1 : BitVec 2) ≠ 3)
    show conclude ((forUp allocPlane 1 0 g >>= _) >>= _) = _
    rw [hplane, hsizes, hcomps, List.map_singleton, State.withPlane, hbytes]
    show conclude (allocRgb _ >>= _) = _
    rw [allocRgb_gray (by exact hgray), hframed]
    simp only [State.skip, conclude, bind, Except.bind, Host.Outcome.next.injEq, State.mk.injEq, true_and, and_true]
    exact ⟨by omega, by omega, rfl, rfl⟩
  · have hraises := (allocPlanes_fails Nat.one_pos (fun i hi => absurd hi (Nat.not_lt_zero i)) hcomp).2 hfits
      fun h => by simp [hgranted.mp h] at hrefused
    exact (hraises.bind.bind.of_kept (by rw [hframed]; rfl)).abortsWith

/-! #### Three components -/

/-- The requests of a colour frame: the planes in order, then the RGB buffer. -/
def State.requests (s : State) : List Nat :=
  s.planeSizes ++ [3 * s.width.toNat * s.height.toNat]

theorem length_planeSizes (s : State) : s.planeSizes.length = s.comps.length := by
  simp [State.planeSizes]

/-- Components before the j-th fit and their requests are granted. -/
theorem planeOk_of_requests {s : State} {j : Nat} (hj : j ≤ s.comps.length)
    (h : ∀ i d, i < j → s.comps[i]? = some d → ¬ s.tooSmall d ∧ s.granted s.requests i) :
    ∀ i, i < j → s.planeOk i := fun i hi d hd => by
  obtain ⟨hfits, hgrants⟩ := h i d hi hd
  exact ⟨hfits, (granted_append (by rw [length_planeSizes]; omega) _).mp hgrants⟩

/-- The allocations of a colour frame, all granted. -/
theorem colourAllocs_ok {s : State} (hn : s.ncomp = 3) (hlen : s.comps.length = 3)
    (hfits : ∀ d ∈ s.comps, ¬ s.tooSmall d) (hgrants : ∀ j, j < 4 → s.granted s.requests j) :
    forUp allocPlane 3 0 s >>= allocRgb = .ok { s with
      comps := s.comps.map s.withPlane
      rgb := some (Buffer.fresh (3 * s.width.toNat * s.height.toNat))
      live := s.live + s.requests.sum } := by
  have hplanes := allocPlanes_all hlen.symm (planeOk_of_requests hlen.ge fun i d hi hd =>
    ⟨hfits d (List.mem_of_getElem? hd), hgrants i (by omega)⟩)
  have hrgb : allocGrants s.cfg (3 * s.width.toNat * s.height.toNat) (s.live + s.planeSizes.sum) = true := by
    have hlast := hgrants 3 (by omega) (3 * s.width.toNat * s.height.toNat)
    simpa [State.requests, length_planeSizes, hlen] using hlast
  rw [hplanes]
  show allocRgb _ = _
  rw [allocRgb, if_pos hn, alloc_granted hrgb]
  show Except.ok _ = _
  simp only [State.requests, List.sum_append, List.sum_singleton, Nat.add_assoc]

/-- The first component too small to upsample ends SOF0 with UNSUPPORTED. -/
theorem colourAllocs_small {s : State} {j : Nat} {c : Comp} (hlen : s.comps.length = 3) (hc : s.comps[j]? = some c)
    (hsmall : s.tooSmall c)
    (h : ∀ i d, i < j → s.comps[i]? = some d → ¬ s.tooSmall d ∧ s.granted s.requests i) :
    RaisesFrom s .unsupported (forUp allocPlane 3 0 s >>= allocRgb) := by
  have hj := (List.getElem?_eq_some_iff.mp hc).1
  exact ((allocPlanes_fails (by omega) (planeOk_of_requests hj.le h) hc).1 hsmall).bind

/-- The first refused request ends it with OUT_OF_MEMORY. -/
theorem colourAllocs_refused {s : State} {j : Nat} (hn : s.ncomp = 3) (hlen : s.comps.length = 3) (hj : j < 4)
    (hrefused : ¬ s.granted s.requests j) (hgrants : ∀ i, i < j → s.granted s.requests i)
    (hfits : ∀ i d, i ≤ j → s.comps[i]? = some d → ¬ s.tooSmall d) :
    RaisesFrom s .outOfMemory (forUp allocPlane 3 0 s >>= allocRgb) := by
  have hbefore : ∀ i d, i < j → s.comps[i]? = some d → ¬ s.tooSmall d ∧ s.granted s.requests i :=
    fun i d hi hd => ⟨hfits i d hi.le hd, hgrants i hi⟩
  rcases Nat.lt_or_ge j 3 with hlt | hge
  · obtain ⟨c, hc⟩ : ∃ c, s.comps[j]? = some c := ⟨s.comps[j], List.getElem?_eq_getElem (by omega)⟩
    refine ((allocPlanes_fails hlt (planeOk_of_requests (by omega) hbefore) hc).2 (hfits j c (Nat.le_refl j) hc)
      fun h => hrefused ?_).bind
    exact (granted_append (by rw [length_planeSizes]; omega) _).mpr h
  · obtain rfl : j = 3 := by omega
    have hrgb : ¬ allocGrants s.cfg (3 * s.width.toNat * s.height.toNat) (s.live + s.planeSizes.sum) = true := by
      simpa [State.granted, State.requests, length_planeSizes, hlen] using hrefused
    refine RaisesFrom.after (allocPlanes_all hlen.symm (planeOk_of_requests hlen.ge hbefore)) ?_
    rw [allocRgb, if_pos hn, alloc_refused hrgb]
    exact raisesFrom_raise_bind rfl

theorem largest_le {fs : List Nibble} {m : Nibble} (h : ∀ f ∈ fs, f ≤ m) : largest fs ≤ m := by
  have key : ∀ (fs : List Nibble) (a : Nibble), a ≤ m → (∀ f ∈ fs, f ≤ m) →
      fs.foldl (fun m f => if m < f then f else m) a ≤ m := by
    intro fs
    induction fs with
    | nil => exact fun a ha _ => ha
    | cons f fs ih =>
      intro a ha h
      rw [List.forall_mem_cons] at h
      rw [List.foldl_cons]
      exact ih _ (by split <;> [exact h.1; exact ha]) h.2
  exact key fs 0 (BitVec.le_def.mpr (Nat.zero_le _)) h

theorem largest_eq {fs : List Nibble} {m : Nibble} (hle : ∀ f ∈ fs, f ≤ m) (hm : m ∈ fs) : largest fs = m :=
  BitVec.le_antisymm (largest_le hle) (le_largest hm)

/-- A component of a colour frame with its geometry, before its plane is allocated. -/
def colourFrameComp (height width : Half) (hm vm : Nibble) (c : SofComp) : Comp :=
  compGeometry width.toNat height.toNat (ceilDiv width.toNat (8 * hm.toNat)) hm vm c.comp

/-- The geometry of a three-component frame (R149). -/
theorem framed_colour {height width : Half} {cs : List SofComp} {hm vm : Nibble} {s : State} (hcomps : s.comps = [])
    (hhm : largest (cs.map (·.h)) = hm) (hvm : largest (cs.map (·.v)) = vm) :
    s.framed height width 3 cs = { s with
      pos := s.pos + (6 + 3 * cs.length)
      remaining := s.remaining - ((6 + 3 * cs.length : Nat) : Int)
      width := width
      height := height
      ncomp := 3
      hmax := hm
      vmax := vm
      mcuW := 8 * hm.toNat
      mcuH := 8 * vm.toNat
      mbwidth := ceilDiv width.toNat (8 * hm.toNat)
      mbheight := ceilDiv height.toNat (8 * vm.toNat)
      qtUsed := cs.foldl (fun used c => used ||| (1 : BitVec 4) <<< c.tq.toNat) s.qtUsed
      comps := cs.map (colourFrameComp height width hm vm) } := by
  have hthree : ¬ (BitVec.setWidth 2 (3 : Byte)) = 1 := by decide
  subst hhm hvm
  simp only [State.framed, State.geometry, State.sofRead, State.skip, hthree, if_false, hcomps, List.nil_append,
    List.map_map]
  simp only [State.mk.injEq, true_and, and_true]
  exact ⟨by omega, by omega, rfl, rfl, rfl, rfl, rfl, rfl, rfl, rfl⟩

/-- Settles O40: the requests are made in order over the geometry of the three components, each after its size
check. -/
theorem sofColourFrame : Obligations.SofColourFrame := by
  intro s height width c0 c1 c2 extra hm vm mbw mbh mk small sizes grants hframe hnone hh hw hfactors hhm hvm hroom
    hmbw hmbh hmk hsmall hsizes hgrants
  have hgood : ∀ c ∈ [c0, c1, c2], c.good := fun c hc =>
    have ⟨hch, hcv, htq, _⟩ := hfactors c hc
    ⟨hch, hcv, htq⟩
  have hleh : ∀ c ∈ [c0, c1, c2], c.h ≤ hm := fun c hc =>
    have ⟨_, _, _, hle, _⟩ := hfactors c hc
    hle
  have hlev : ∀ c ∈ [c0, c1, c2], c.v ≤ vm := fun c hc =>
    have ⟨_, _, _, _, hle⟩ := hfactors c hc
    hle
  have hmaxh : largest ([c0, c1, c2].map (·.h)) = hm :=
    largest_eq (List.forall_mem_map.mpr hleh) (List.mem_map.mpr hhm)
  have hmaxv : largest ([c0, c1, c2].map (·.v)) = vm :=
    largest_eq (List.forall_mem_map.mpr hlev) (List.mem_map.mpr hvm)
  rw [exec_sof0_good hframe hw hh (.inr rfl) rfl hgood hroom]
  have hframed := framed_colour (height := height) (width := width) (s := (s.skip 2).skip 2) hnone hmaxh hmaxv
  generalize ((s.skip 2).skip 2).framed height width 3 [c0, c1, c2] = g at hframed ⊢
  subst hmbw hmbh
  have hcomps : g.comps = [c0, c1, c2].map (colourFrameComp height width hm vm) := by rw [hframed]
  have hlen : g.comps.length = 3 := by rw [hcomps]; rfl
  have hn : g.ncomp = 3 := by rw [hframed]
  have hcomp : ∀ j, g.comps[j]? = [c0, c1, c2][j]?.map (colourFrameComp height width hm vm) := fun j => by
    rw [hcomps, List.getElem?_map]
  have hreq : g.requests = sizes := by rw [hsizes, State.requests, State.planeSizes, hframed]; rfl
  have hgranted : ∀ j, g.granted g.requests j ↔ grants j := fun j => by rw [hgrants, hreq, hframed]; rfl
  have htooSmall : ∀ c, g.tooSmall (colourFrameComp height width hm vm c) ↔ small c := fun c => by
    rw [hsmall, hmk, hframed]; rfl
  have hwith : ∀ c, g.withPlane (colourFrameComp height width hm vm c) = mk c := fun c => by rw [hmk, hframed]; rfl
  have hkept : g.kept = s.kept := by rw [hframed]; rfl
  refine ⟨fun hfits hall => ?_, fun j c hc hs hbefore => ?_, fun j hj hrefused hbefore hfits => ?_⟩
  · have hnoneSmall : ∀ d ∈ g.comps, ¬ g.tooSmall d := by
      rw [hcomps, List.forall_mem_map]
      exact fun c hc => (htooSmall c).not.mpr (hfits c hc)
    show conclude ((forUp allocPlane 3 0 g >>= allocRgb) >>= _) = _
    rw [colourAllocs_ok hn hlen hnoneSmall fun j hj => (hgranted j).mpr (hall j hj), hreq, hcomps, List.map_map,
      show g.withPlane ∘ colourFrameComp height width hm vm = mk from funext hwith, hframed]
    simp only [State.skip, conclude, bind, Except.bind, Host.Outcome.next.injEq, State.mk.injEq, true_and, and_true,
      List.length_cons, List.length_nil]
    exact ⟨by omega, by omega, rfl, rfl, rfl⟩
  · have := colourAllocs_small (j := j) hlen (by rw [hcomp, hc]; rfl) ((htooSmall c).mpr hs) fun i d hi hd => by
      rw [hcomp, Option.map_eq_some_iff] at hd
      obtain ⟨e, he, rfl⟩ := hd
      rw [htooSmall, hgranted]
      exact hbefore i e hi he
    exact (this.bind.of_kept hkept).abortsWith
  · have := colourAllocs_refused hn hlen hj (fun h => hrefused ((hgranted j).mp h))
      (fun i hi => (hgranted i).mpr (hbefore i hi)) fun i d hi hd => by
        rw [hcomp, Option.map_eq_some_iff] at hd
        obtain ⟨e, he, rfl⟩ := hd
        rw [htooSmall]
        exact hfits i e hi he
    exact (this.bind.of_kept hkept).abortsWith

end Sys2Proof.Machine

/-! ### SOS: its checks and the start of the scan (R160 to R166, R193) -/

namespace Sys2Proof

/-- A selector SOS accepts for a component (R161, R162). -/
def SosSel.good (c : Machine.Comp) (sel : SosSel) : Prop :=
  sel.cs = c.cid ∧ sel.td.toNat ≤ 1 ∧ sel.ta.toNat ≤ 1

/-- The component with the tables the selector names. -/
def SosSel.select (c : Machine.Comp) (sel : SosSel) : Machine.Comp :=
  { c with dcsel := Machine.dcSlot sel.td, acsel := Machine.acSlot sel.ta }

end Sys2Proof

namespace Sys2Proof.Machine

/-- The j-th selector is one its component accepts. -/
def State.selOk (s : State) (sels : List SosSel) (j : Nat) : Prop :=
  ∀ (c : Comp) (sel : SosSel), s.comps[j]? = some c → sels[j]? = some sel → sel.good c

/-- The state in which the first j selectors are taken. -/
def State.selected (sels : List SosSel) (j : Nat) (s : State) : State :=
  { s with
    pos := s.pos + 2 * j
    remaining := s.remaining - (2 * j : Nat)
    comps := List.zipWith SosSel.select (s.comps.take j) (sels.take j) ++ s.comps.drop j }

/-- The turn of component k, where the selectors before it are taken: the identifier, then the tables (R161, R162). -/
theorem sosSelOp_selected {k : Nat} {s : State} {sels : List SosSel} {c : Comp} {sel : SosSel}
    (hc : s.comps[k]? = some c) (hsel : sels[k]? = some sel) :
    (sel.cs ≠ c.cid → sosSelOp k sel (s.selected sels k) = raise .unsupported (s.selected sels k)) ∧
    (sel.cs = c.cid → 1 < sel.td.toNat ∨ 1 < sel.ta.toNat →
      sosSelOp k sel (s.selected sels k) = raise .syntaxError (s.selected sels k)) ∧
    (sel.good c → sosSelOp k sel (s.selected sels k) = .ok (s.selected sels (k + 1))) := by
  obtain ⟨hk, hck⟩ := List.getElem?_eq_some_iff.mp hc
  obtain ⟨hk', hselk⟩ := List.getElem?_eq_some_iff.mp hsel
  have hlen : (List.zipWith SosSel.select (s.comps.take k) (sels.take k)).length = k := by simp [hk.le, hk'.le]
  have hdrop : s.comps.drop k = c :: s.comps.drop (k + 1) := by rw [List.drop_eq_getElem_cons hk, hck]
  have hcomp : (s.selected sels k).comps[k]? = some c := by
    rw [State.selected, List.getElem?_append_right hlen.le, hlen, Nat.sub_self, hdrop]
    rfl
  have hturn : sosSelOp k sel (s.selected sels k) = if sel.cs ≠ c.cid then raise .unsupported (s.selected sels k)
      else if 1 < sel.td.toNat ∨ 1 < sel.ta.toNat then raise .syntaxError (s.selected sels k)
      else .ok (((s.selected sels k).setComp k (sel.select c)).skip 2) := by
    rw [sosSelOp, getComp_ok hcomp]
    rfl
  refine ⟨fun hcs => ?_, fun hcs hbad => ?_, fun hgood => ?_⟩
  · rw [hturn, if_pos hcs]
  · rw [hturn, if_neg (not_not_intro hcs), if_pos hbad]
  · obtain ⟨hcs, htd, hta⟩ := hgood
    have hcomps : (List.zipWith SosSel.select (s.comps.take k) (sels.take k) ++ s.comps.drop k).set k (sel.select c) =
        List.zipWith SosSel.select (s.comps.take (k + 1)) (sels.take (k + 1)) ++ s.comps.drop (k + 1) := by
      rw [hdrop, List.set_append_right _ _ hlen.le, hlen, Nat.sub_self, List.set_cons_zero,
        List.take_succ_eq_append_getElem hk, List.take_succ_eq_append_getElem hk', hck, hselk,
        List.zipWith_append (by simp [hk.le, hk'.le])]
      simp
    rw [hturn, if_neg (not_not_intro hcs), if_neg (by omega)]
    simp only [State.selected, State.setComp, State.skip, hcomps, Except.ok.injEq, State.mk.injEq, true_and, and_true]
    omega

/-- Good selectors are taken, and SOS goes on with those after them. -/
theorem sosSelsOp_selected {s : State} {sels : List SosSel} (hlen : sels.length ≤ s.comps.length) (j : Nat)
    (hj : j ≤ sels.length) (h : ∀ i, i < j → s.selOk sels i) :
    sosSelsOp sels 0 s = sosSelsOp (sels.drop j) j (s.selected sels j) := by
  induction j with
  | zero => simp [State.selected]
  | succ j ih =>
    have hc : s.comps[j]? = some s.comps[j] := List.getElem?_eq_getElem (by omega)
    have hsel : sels[j]? = some sels[j] := List.getElem?_eq_getElem hj
    rw [ih (by omega) fun i hi => h i (by omega), List.drop_eq_getElem_cons hj, sosSelsOp,
      (sosSelOp_selected hc hsel).2.2 (h j (Nat.lt_succ_self j) _ _ hc hsel)]
    rfl

/-- The first component whose selector is not good decides: the identifier before the tables. -/
theorem sosSels_bad {s : State} {sels : List SosSel} {k : Nat} {c : Comp} {sel : SosSel}
    (hlen : sels.length ≤ s.comps.length) (hc : s.comps[k]? = some c) (hsel : sels[k]? = some sel)
    (h : ∀ i, i < k → s.selOk sels i) :
    (sel.cs ≠ c.cid → RaisesFrom s .unsupported (sosSelsOp sels 0 s)) ∧
    (sel.cs = c.cid → 1 < sel.td.toNat ∨ 1 < sel.ta.toNat → RaisesFrom s .syntaxError (sosSelsOp sels 0 s)) := by
  obtain ⟨hk, hselk⟩ := List.getElem?_eq_some_iff.mp hsel
  obtain ⟨hcs, htables, _⟩ := sosSelOp_selected hc hsel
  rw [sosSelsOp_selected hlen k hk.le h, List.drop_eq_getElem_cons hk, sosSelsOp, hselk]
  refine ⟨fun hbad => ?_, fun hgood hbad => ?_⟩
  · rw [hcs hbad]
    exact raisesFrom_raise_bind rfl
  · rw [htables hgood hbad]
    exact raisesFrom_raise_bind rfl

/-- All selectors good: each component has its tables. -/
theorem sosSelsOp_all {s : State} {sels : List SosSel} (hlen : sels.length = s.comps.length)
    (h : ∀ j, s.selOk sels j) :
    sosSelsOp sels 0 s = .ok { s with
      pos := s.pos + 2 * sels.length
      remaining := s.remaining - (2 * sels.length : Nat)
      comps := List.zipWith SosSel.select s.comps sels } := by
  rw [sosSelsOp_selected hlen.le sels.length (Nat.le_refl _) fun i _ => h i, List.drop_length, sosSelsOp,
    State.selected, List.take_length, hlen, List.take_length, List.drop_length, List.append_nil]

/-- A payload below 4 + 2·ncomp bytes ends SOS (R160, log 28). -/
theorem sosBody_shortLength {b : SosBody} {s : State} (hframe : s.frame = true)
    (hshort : b.size < 4 + 2 * s.ncomp.toNat) : sosBodyOp b s = raise .syntaxError s := by
  unfold sosBodyOp
  rw [if_neg (not_not_intro hframe), if_pos hshort]

/-- A payload that does not hold its own list lists other components than the frame's (R161). -/
theorem sosBody_shortList {bytes : List Byte} {s : State} (hframe : s.frame = true)
    (hlong : 4 + 2 * s.ncomp.toNat ≤ (SosBody.short bytes).size) :
    sosBodyOp (.short bytes) s = raise .unsupported s := by
  rw [sosBodyOp, if_neg (not_not_intro hframe), if_neg (Nat.not_lt.mpr hlong)]

/-- A list of another length than the frame's ends SOS (R161). -/
theorem sosBody_count {sels : List SosSel} {ss se : Byte} {ah al : Nibble} {extra : List Byte} {s : State}
    (hframe : s.frame = true) (hlong : 4 + 2 * s.ncomp.toNat ≤ (SosBody.full sels ss se ah al extra).size)
    (hcount : sels.length ≠ s.ncomp.toNat) :
    sosBodyOp (.full sels ss se ah al extra) s = raise .unsupported s := by
  rw [sosBodyOp, if_neg (not_not_intro hframe), if_neg (Nat.not_lt.mpr hlong)]
  exact if_pos hcount

/-- Past these checks: the selectors, the spectral range, the quantisation tables, the scan (R160). -/
theorem sosBody_selectors {sels : List SosSel} {ss se : Byte} {ah al : Nibble} {extra : List Byte} {s : State}
    (hframe : s.frame = true) (hlong : 4 + 2 * s.ncomp.toNat ≤ (SosBody.full sels ss se ah al extra).size)
    (hcount : sels.length = s.ncomp.toNat) :
    sosBodyOp (.full sels ss se ah al extra) s = sosSelsOp sels 0 (s.skip 1) >>= fun t =>
      if ss ≠ 0 ∨ se ≠ 63 ∨ ah ≠ 0 ∨ al ≠ 0 then raise .unsupported t
      else if t.qtUsed &&& ~~~ t.qtAvail ≠ 0 then raise .syntaxError t
      else .ok { t.skip (3 + extra.length) with phase := .scan }.startScan := by
  rw [sosBodyOp, if_neg (not_not_intro hframe), if_neg (Nat.not_lt.mpr hlong)]
  exact if_neg (not_not_intro hcount)

theorem exec_sos {b : SosBody} {s : State} (hroom : (b.size : Int) + 4 ≤ s.remaining) :
    exec (.sos (.ok b)) s = conclude (sosBodyOp b ((s.skip 2).skip 2)) :=
  congrArg conclude (segmentOp_inside hroom)

/-- Settles O42: the checks before the selectors, those on each component, and those after them, each from a state
that has taken some of the payload. -/
theorem sosChecks : Obligations.SosChecks := by
  intro s b hroom
  rw [exec_sos hroom]
  have raised : ∀ {code}, RaisesFrom ((s.skip 2).skip 2) code (sosBodyOp b ((s.skip 2).skip 2)) →
      AbortsWith s code (conclude (sosBodyOp b ((s.skip 2).skip 2))) := fun h => (h.of_kept rfl).abortsWith
  refine ⟨fun hframe => raised ?_, fun hframe hshort => raised ?_, fun bytes hb hframe hlong => raised ?_,
    fun sels ss se ah al extra hb hframe hlong => ⟨fun hcount => raised ?_, fun hcount hcomps good hgood => ?_⟩⟩
  · rw [sosBody_early b (show ((s.skip 2).skip 2).frame = false from hframe)]
    exact raisesFrom_raise rfl
  · rw [sosBody_shortLength (s := (s.skip 2).skip 2) hframe hshort]
    exact raisesFrom_raise rfl
  · subst hb
    rw [sosBody_shortList (s := (s.skip 2).skip 2) hframe hlong]
    exact raisesFrom_raise rfl
  · subst hb
    rw [sosBody_count (s := (s.skip 2).skip 2) hframe hlong hcount]
    exact raisesFrom_raise rfl
  subst hb
  obtain rfl : good = (((s.skip 2).skip 2).skip 1).selOk sels := funext fun j => propext (hgood j)
  have hlen : sels.length = (((s.skip 2).skip 2).skip 1).comps.length := hcount.trans hcomps.symm
  rw [sosBody_selectors (s := (s.skip 2).skip 2) hframe hlong hcount] at raised ⊢
  refine ⟨fun k c sel hc hsel hbefore => ?_, fun hall => ?_⟩
  · obtain ⟨hcs, htables⟩ := sosSels_bad (s := ((s.skip 2).skip 2).skip 1) hlen.le hc hsel hbefore
    exact ⟨fun h => raised (.bind ((hcs h).of_kept rfl)), fun h h' => raised (.bind ((htables h h').of_kept rfl))⟩
  · refine ⟨fun hrange => raised (.after (sosSelsOp_all hlen hall) ?_),
      fun hss hse hah hal hqt => raised (.after (sosSelsOp_all hlen hall) ?_)⟩
    · rw [if_pos hrange]
      exact raisesFrom_raise rfl
    · rw [if_neg (by simp [hss, hse, hah, hal]), if_pos (by exact hqt)]
      exact raisesFrom_raise rfl

theorem select_eq {c : Comp} {sel : SosSel} (h : sel.good c) : sel.select c =
    { c with dcsel := if sel.td = 0 then 0 else 1, acsel := if sel.ta = 0 then 2 else 3 } := by
  have hdc : ∀ t : Nibble, t.toNat ≤ 1 → dcSlot t = if t = 0 then 0 else 1 := by decide
  have hac : ∀ t : Nibble, t.toNat ≤ 1 → acSlot t = if t = 0 then 2 else 3 := by decide
  obtain ⟨_, htd, hta⟩ := h
  rw [SosSel.select, hdc _ htd, hac _ hta]

/-- Settles O41: no check raises, the selectors are taken, and the scan is started. -/
theorem sosStartsScan : Obligations.SosStartsScan := by
  intro s sels extra hframe hcomps hcount hgood hqt hroom
  have hsize : (SosBody.full sels 0 63 0 0 extra).size = 4 + 2 * sels.length + extra.length := rfl
  have hlen : sels.length = (((s.skip 2).skip 2).skip 1).comps.length := hcount.trans hcomps.symm
  have hzip : List.zipWith SosSel.select s.comps sels = List.zipWith (fun c sel => { c with
      dcsel := if sel.td = 0 then 0 else 1
      acsel := if sel.ta = 0 then 2 else 3 }) s.comps sels := by
    refine List.ext_getElem (by simp) fun j hj _ => ?_
    rw [List.getElem_zipWith, List.getElem_zipWith]
    exact select_eq (hgood j _ _ (List.getElem?_eq_getElem _) (List.getElem?_eq_getElem _))
  rw [exec_sos (by rw [hsize]; push_cast; omega), sosBody_selectors (s := (s.skip 2).skip 2) hframe
    (show 4 + 2 * s.ncomp.toNat ≤ _ by rw [hsize]; omega) hcount, sosSelsOp_all hlen hgood]
  show conclude (if s.qtUsed &&& ~~~ s.qtAvail ≠ 0 then _ else _) = _
  rw [if_neg (not_not_intro hqt)]
  simp only [State.skip, State.startScan, State.startMcu, State.startBlock, conclude, Host.Outcome.next.injEq,
    State.mk.injEq, true_and, and_true, hzip]
  exact ⟨by omega, by omega, rfl⟩

end Sys2Proof.Machine

/-! ### TOPLOOP turn by turn (R141, R160, R311) -/

namespace Sys2Proof.Machine

/-- An operation that ends with the command aborted leaves the phase DONE. -/
theorem MarkerAborts.phase {s t : State} (h : MarkerAborts s t) : t.phase = .done := by
  obtain ⟨_, u, _, code, _, _, _, rfl⟩ := h
  rfl

/-- Fewer than two bytes where a marker must start are SYNTAX_ERROR. -/
theorem topLoop_short (fuel : Nat) {s : State} (h : s.remaining < 2) :
    topLoop (fuel + 1) s = raise .syntaxError s := by
  have hlen : s.bytesLeft.length ≤ s.remaining.toNat := Memory.length_bytesAt_le _ _ _
  rw [topLoop, decodeTop_short (by omega)]

/-- One turn: the marker's handler, and then the scan or the loop again. -/
theorem topLoop_turn (fuel : Nat) {s : State} {r : Instr × List Byte} (hd : decodeTop s.bytesLeft = .ok r) :
    topLoop (fuel + 1) s = markerOp r.1 s >>= fun t => if isSos r.1 then scanOp t else topLoop fuel t := by
  rw [topLoop, hd]

/-- A turn that goes on has taken at least a byte of those left. -/
theorem Takes.remaining {Q : State → State → Prop} {s t : State} (h : Takes Q s t) :
    t.remaining.toNat < s.remaining.toNat := by
  obtain ⟨d, hd, hle, hp, _⟩ := h
  have := hp.remaining
  omega

/-- More turns than there are bytes left change nothing (R311). -/
theorem topLoop_fuel {a b : Nat} {s : State} (ha : s.remaining.toNat < a) (hb : s.remaining.toNat < b) :
    topLoop a s = topLoop b s := by
  induction a generalizing b s with
  | zero => omega
  | succ a ih =>
    obtain ⟨b, rfl⟩ : ∃ b', b = b' + 1 := ⟨b - 1, by omega⟩
    cases hd : decodeTop s.bytesLeft with
    | error e => rw [topLoop, topLoop, hd]
    | ok r =>
      rw [topLoop_turn a hd, topLoop_turn b hd]
      have hpost := marker_post (topInstr_of_decodeTop hd) s
      match markerOp r.1 s, hpost with
      | .ok t, htakes =>
        show (if isSos r.1 then scanOp t else topLoop a t) = if isSos r.1 then scanOp t else topLoop b t
        have hless := htakes.remaining
        rw [ih (b := b) (by omega) (by omega)]
      | .error _, _ => rfl

/-- What TOPLOOP goes on with after the marker's instruction, by the phase this leaves. -/
theorem toploop_after {s t : State} {i : Instr} {rest : List Byte} (hphase : s.phase = .headers)
    (hd : decodeTop s.bytesLeft = .ok (i, rest)) (hexec : exec i s = .next t) :
    (t.phase = .done → exec .toploop s = .next t) ∧
    (t.phase = .headers → exec .toploop s = exec .toploop t) ∧
    (t.phase = .scan → exec .toploop s = exec .scan t) := by
  have htop : TopInstr i := topInstr_of_decodeTop (r := (i, rest)) hd
  have hloop : exec .toploop s = conclude (markerOp i s >>= fun u =>
      if isSos i then scanOp u else topLoop s.remaining.toNat u) := congrArg conclude (topLoop_turn _ hd)
  rw [htop.exec_eq] at hexec
  rw [hloop]
  have hpost := marker_post htop s
  match markerOp i s, hexec, hpost with
  | .error (.aborted u), rfl, hpost =>
    have hdone : u.phase = .done := hpost.phase
    exact ⟨fun _ => rfl, fun h => by simp [hdone] at h, fun h => by simp [hdone] at h⟩
  | .ok u, rfl, htakes =>
    simp only [bind, Except.bind]
    have hless := htakes.remaining
    obtain ⟨_, _, _, _, hleaves⟩ := htakes
    by_cases hsos : isSos i = true
    · rw [if_pos hsos] at hleaves ⊢
      have hscan : u.phase = .scan := hleaves.1
      exact ⟨fun h => by simp [hscan] at h, fun h => by simp [hscan] at h, fun _ => rfl⟩
    · rw [if_neg hsos] at hleaves ⊢
      have hheaders : u.phase = .headers := hleaves.1.trans hphase
      refine ⟨fun h => by simp [hheaders] at h, fun _ => ?_, fun h => by simp [hheaders] at h⟩
      exact congrArg conclude (topLoop_fuel hless (Nat.lt_succ_self _))

/-- The SOS of a one-component frame with the selectors 0 starts a scan of that frame, past its ten bytes. -/
theorem sos_unit {s : State} {c : Comp} (hframe : s.frame = true) (hn : s.ncomp = 1) (hlaid : s.frameLaidOut)
    (hcomps : s.comps = [c]) (hqt : s.qtUsed &&& ~~~ s.qtAvail = 0) (hrem : s.remaining = 10) :
    ∃ t, exec (.sos (.ok (.full [⟨c.cid, 0, 0⟩] 0 63 0 0 []))) s = .next t ∧ t.phase = .scan ∧ t.frameLaidOut ∧
      t.comps = [{ c with dcsel := 0, acsel := 2 }] ∧ t.remaining = 0 ∧ t.acc = s.acc ∧ t.ht = s.ht ∧
      t.restartInterval = s.restartInterval ∧ t.error = s.error := by
  have hlen : 1 = s.ncomp.toNat := by rw [hn]; rfl
  have hsel : ∀ (k : Nat) (d : Comp) (sel : SosSel), s.comps[k]? = some d →
      ([⟨c.cid, 0, 0⟩] : List SosSel)[k]? = some sel → sel.cs = d.cid ∧ sel.td.toNat ≤ 1 ∧ sel.ta.toNat ≤ 1 := by
    intro k d sel hd hs
    obtain rfl : k = 0 := by
      have := (List.getElem?_eq_some_iff.mp hs).1
      simpa using this
    rw [hcomps] at hd
    cases hd
    cases hs
    exact ⟨rfl, Nat.zero_le 1, Nat.zero_le 1⟩
  have hexec := sosStartsScan s [⟨c.cid, 0, 0⟩] [] hframe (by rw [hcomps]; exact hlen) hlen hsel hqt
    (by rw [hrem]; simp)
  rw [hcomps] at hexec
  refine ⟨_, hexec, rfl, laidOut_of_unselected hlaid ?_ rfl rfl rfl rfl rfl rfl rfl rfl, rfl, ?_, rfl, rfl, rfl, rfl⟩
  · rw [hcomps]
    rfl
  · rw [hrem]
    rfl

/-- Settles O43: a turn is the marker's instruction and what its phase calls for; the last SOS of a one-component frame
starts a scan with the input used up, which O31 completes. -/
theorem topLoopTurns : Obligations.TopLoopTurns := by
  intro s hphase hin
  refine ⟨fun hshort => ?_, fun i rest t hd hexec => toploop_after hphase hd hexec,
    fun c dc ac hframe hn hlaid hcomps hqt hri hacc hbytes hdc hac hdclen hdcsym haclen hacsym => ?_⟩
  · exact congrArg conclude (topLoop_short s.remaining.toNat hshort)
  have hrem : s.remaining = 10 := by
    have hlen := (bytesLeft_spec hin).1
    rw [hbytes] at hlen
    simp only [List.length_cons, List.length_nil] at hlen
    omega
  have hd : decodeTop s.bytesLeft = .ok (.sos (.ok (.full [⟨c.cid, 0, 0⟩] 0 63 0 0 [])), []) := by
    rw [hbytes]
    rfl
  obtain ⟨t, hexec, htphase, htlaid, htcomps, htrem, htacc, htht, htri, hterror⟩ :=
    sos_unit hframe hn hlaid hcomps hqt hrem
  obtain ⟨u, hu, huphase, huerror, hulaid, _, hfull⟩ := scanCompletes t htlaid (htri.trans hri) (htacc.trans hacc)
    (by omega) (by
      rw [htcomps, htht]
      rintro d hd _ _ rfl rfl
      obtain rfl := List.mem_singleton.mp hd
      subst hdc hac
      exact ⟨hdclen, hdcsym, haclen, hacsym⟩)
  exact ⟨u, ((toploop_after hphase hd hexec).2.2 htphase).trans hu, huphase, huerror.trans hterror, hulaid, hfull⟩

end Sys2Proof.Machine

/-! ### DECODE part by part (R140, R255) -/

namespace Sys2Proof.Machine

/-- A part of a command: where it ends the command (its abort leaves the phase DONE) the command ends there, and
otherwise the next part goes on from what it answers. -/
theorem conclude_part {m : Eng State} {Q : State → Prop} (h : Post m (fun a => a.phase ≠ .done ∧ Q a)
    (fun a => a.phase = .done) False) (f : State → Eng State) :
    ∃ a, conclude m = .next a ∧ (a.phase = .done → conclude (m >>= f) = .next a) ∧
      (a.phase ≠ .done → Q a ∧ conclude (m >>= f) = conclude (f a)) := by
  match m, h with
  | .ok a, ⟨hgoes, hq⟩ => exact ⟨a, rfl, fun hdone => absurd hdone hgoes, fun _ => ⟨hq, rfl⟩⟩
  | .error (.aborted a), hdone => exact ⟨a, rfl, fun _ => rfl, fun hgoes => absurd hdone hgoes⟩

theorem DecodeAborts.phase {s t : State} (h : DecodeAborts s t) : t.phase = .done := by
  obtain ⟨_, _, _, _, _, rfl⟩ := h
  rfl

/-- TOPLOOP that answers does so from its scan, in CONVERT. -/
theorem topLoop_phase (fuel : Nat) (s : State) :
    Post (topLoop fuel s) (fun t => t.phase = .convert) (fun _ => True) True := by
  induction fuel generalizing s with
  | zero => trivial
  | succ fuel ih =>
    unfold topLoop
    split
    · trivial
    · refine (post_bind _ _ _ _ _).mpr (Post.imp (post_true _) fun t _ => ?_)
      split
      · exact (scan_post t).mono (fun u hu => hu.2.2.1) (fun _ _ => trivial) fun _ => trivial
      · exact ih t

/-- Settles O51: no part faults, and each leaves a phase other than DONE unless it aborts. -/
theorem decodeRunsItsParts : Obligations.DecodeRunsItsParts := by
  intro s buf hready hlen o ho
  rw [exec_decode hready hlen] at ho
  have hrun := running_decodeReset buf s
  have hsoi : Post (soiOp (s.decodeReset buf))
      (fun a => a.phase ≠ .done ∧ a = (s.decodeReset buf).skip 2 ∧ 2 ≤ (s.decodeReset buf).inp.size)
      (fun a => a.phase = .done) False :=
    ((soi_post _).and (soi_ends (inputOk_decodeReset buf s))).mono
      (fun a ha => ⟨by rw [ha.1.1]; exact (by decide : Phase.headers ≠ Phase.done), ha.1⟩)
      (fun a ha => by rw [ha.1]; rfl) And.right
  obtain ⟨a, ha, hadone, hago⟩ := conclude_part hsoi fun t => topLoopOp t >>= fun u => convertOp u >>= fun v =>
    pure v.finish
  refine ⟨a, ha, fun h => ho.trans (hadone h), fun h => ?_⟩
  obtain ⟨⟨rfl, hsize⟩, hago⟩ := hago h
  have hloop : Post (topLoopOp ((s.decodeReset buf).skip 2))
      (fun b => b.phase ≠ .done ∧ b.phase = .convert ∧ Scanned s b) (fun b => b.phase = .done) False :=
    ((topLoop_phase _ _).and (topLoop_ends _ ((parses_skip 2 _).running hrun) (betweenMarkers_of_soi hsize)
      (Nat.lt_succ_self _))).mono (fun b ⟨hphase, hscanned⟩ => ⟨by rw [hphase]; decide, hphase, hscanned⟩)
      (fun b ⟨_, haborts⟩ => haborts.phase) And.right
  obtain ⟨b, hb, hbdone, hbgo⟩ := conclude_part hloop fun u => convertOp u >>= fun v => pure v.finish
  refine ⟨b, hb, fun h => ho.trans (hago.trans (hbdone h)), fun h => ?_⟩
  obtain ⟨⟨hconvert, hscanned⟩, hbgo⟩ := hbgo h
  have hconv : Post (convertOp b) (fun c => c.phase ≠ .done ∧ True) (fun c => c.phase = .done) False :=
    (convert_post b).mono
      (fun c hc => ⟨by rw [hc.1.frame]; exact (by rw [hconvert]; decide : b.phase ≠ .done), trivial⟩)
      (fun c hc => (hc.decode hscanned.running).phase) fun hn => hn hscanned.ready
  obtain ⟨c, hc, hcdone, hcgo⟩ := conclude_part hconv fun v => pure v.finish
  exact ⟨c, hc, fun h => ho.trans (hago.trans (hbgo.trans (hcdone h))),
    fun h => ho.trans (hago.trans (hbgo.trans (hcgo h).2))⟩

end Sys2Proof.Machine

/-! ### A symbol and its magnitude bits (R94, R180) -/

namespace Sys2Proof.Machine

theorem read_held {n : Nat} {s : State} (h : n ≤ s.acc.length) :
    readOp n s = .ok (bitsNat (s.acc.take n), s.dropBits n) := by
  rw [readOp, peek_held h]
  show (consumeOp n s >>= fun t => pure (bitsNat (s.acc.take n), t)) = _
  rw [consume_held h]
  rfl

/-- A READ that answers has read input alone, and its n bits are a number below 2^n. -/
theorem reads_of_read {n v : Nat} {s u : State} (hn : n ≤ 16) (h : readOp n s = .ok (v, u)) :
    Reads s u ∧ v < 2 ^ n := by
  have hread := read_post n s hn
  rw [h] at hread
  obtain ⟨hreads, _, hv⟩ := hread
  exact ⟨hreads, hv⟩

/-- The magnitude bits of a category other than 0 are READ and extended. -/
theorem magnitude_read {c : Nat} (hc : c ≠ 0) (s : State) :
    magnitudeOp c s = readOp c s >>= fun r => pure (extend r.1 c, r.2) :=
  if_neg hc

/-- Magnitude bits that are held, none of them for category 0, are dropped and extended. -/
theorem magnitude_held {c : Nat} {s : State} (h : c ≤ s.acc.length) :
    magnitudeOp c s = .ok (extend (bitsNat (s.acc.take c)) c, s.dropBits c) := by
  rcases Nat.eq_zero_or_pos c with rfl | hpos
  · rfl
  · rw [magnitude_read (by omega), read_held h]
    rfl

/-- With sixteen bits held DECODE_VLC and the use of its symbol run the symbol at the head. -/
theorem decodeVlc_use_held (h : Fin 4) (use : Byte → Word → State → Eng State) {s : State}
    (hheld : 16 ≤ s.acc.length) :
    (decodeVlcOp h s >>= fun r => use r.1 r.2.1 r.2.2) = headSymbolOp h use s := by
  rw [decodeVlc_use, fill_held hheld]
  rfl

theorem headSymbol_miss {h : Fin 4} {s : State} {e : HtEntry} (use : Byte → Word → State → Eng State)
    (he : e = HuffTable.lookup (s.ht.get h) (bitsNat (s.acc.take 16))) (hlen : e.len = 0) :
    headSymbolOp h use s = raise .syntaxError s := by
  subst he
  exact if_pos hlen

theorem headSymbol_code {h : Fin 4} {s : State} {e : HtEntry} (use : Byte → Word → State → Eng State)
    (he : e = HuffTable.lookup (s.ht.get h) (bitsNat (s.acc.take 16))) (hlen : e.len ≠ 0) :
    headSymbolOp h use s = symbolOp use e.sym (s.dropBits e.len.val) := by
  subst he
  exact if_neg hlen

/-- A code of a category-0 symbol has no magnitude bits after it. -/
theorem symbolOp_noMagnitude {sym : Byte} (use : Byte → Word → State → Eng State) (s : State)
    (hsym : sym.toNat % 16 = 0) : symbolOp use sym s = use sym 0 s := by
  rw [symbolOp, hsym]
  rfl

/-- What DECODE_VLC run by itself does with its symbol (log 11). -/
def returnSymbol (sym : Byte) (v : Word) (s : State) : Eng State :=
  pure (s.returns (.symbol sym v))

/-- Settles O18: short of sixteen bits DECODE_VLC is a REFILL and DECODE_VLC again; with sixteen it runs the symbol at
their head, whose magnitude bits are none, held or read. -/
theorem decodeVlcSymbol : Obligations.DecodeVlcSymbol := by
  intro h s
  have hexec : ∀ t, exec (.decodeVlc h) t = conclude (fillOp 16 2 t >>= headSymbolOp h returnSymbol) :=
    fun t => congrArg conclude (decodeVlc_use h returnSymbol t)
  have hrefill (hshort : s.acc.length < 16) : exec (.decodeVlc h) s =
      conclude (refillOp s >>= fun t => fillOp 16 2 t >>= headSymbolOp h returnSymbol) := by
    rw [hexec, ← fill_succ 2 (by omega), fill_refills hshort, bind_assoc]
  refine ⟨fun u hshort hu => ?_, fun u hshort hu => ?_, fun e cat hheld he hcat => ?_⟩
  · rw [hrefill hshort, hu, hexec]
    rfl
  · rw [hrefill hshort, hu]
    rfl
  · have hhead : exec (.decodeVlc h) s = conclude (headSymbolOp h returnSymbol s) :=
      congrArg conclude (decodeVlc_use_held h returnSymbol hheld)
    have hcode (hlen : e.len ≠ 0) : exec (.decodeVlc h) s =
        conclude (magnitudeOp cat (s.dropBits e.len.val) >>= fun m => returnSymbol e.sym m.1 m.2) := by
      rw [hhead, headSymbol_code _ he hlen, hcat]
      rfl
    refine ⟨fun hlen => ?_, fun hlen h0 => ?_, fun hlen h0 hbits => ?_, fun v u hlen h0 hread => ?_,
      fun u hlen h0 hread => ?_⟩
    · rw [hhead, headSymbol_miss _ he hlen]
      rfl
    · rw [hcode hlen, h0]
      rfl
    · rw [hcode hlen, magnitude_held (by rw [State.dropBits_acc, List.length_drop]; omega), ← List.drop_drop]
      rfl
    · rw [hcode hlen, magnitude_read h0, show readOp cat (s.dropBits e.len.val) = _ from hread]
      rfl
    · rw [hcode hlen, magnitude_read h0, show readOp cat (s.dropBits e.len.val) = _ from hread]
      rfl

/-! ### The coefficients a symbol stores (R185 to R188) -/

/-- The DC coefficient after READ took its magnitude bits: the reader alone has moved on from s. -/
theorem dcValue_reads {s u : State} {c : Comp} (d : Word) (h : Reads s u) (hc : s.comps[s.seq.k]? = some c) :
    dcValueOp d u = .ok { u with
      comps := s.comps.set s.seq.k { c with dcpred := c.dcpred + d }
      blk := s.blk.set 0 ((c.dcpred + d) * ((s.qt.get c.qtsel.toFin).get 0).setWidth 32)
      seq := { s.seq with kz := 0, stage := .ac } } := by
  obtain ⟨hframe, _⟩ := h
  rw [hframe]
  exact dcValue_ok d hc

/-- Settles O20: the magnitude bits are held or READ takes them, and then the coefficient is stored. -/
theorem dcCoefficient : Obligations.DcCoefficient := by
  intro ignored cat s c hc
  have hexec : exec (.dcCat ignored cat) s = conclude (magnitudeOp cat.toNat s >>= fun m => dcValueOp m.1 m.2) := rfl
  have hcat (h0 : cat ≠ 0) : cat.toNat ≠ 0 := fun h => h0 (BitVec.eq_of_toNat_eq h)
  refine ⟨fun hheld d hd => ?_, fun v u h0 hread => ?_, fun u h0 hread => ?_⟩
  · rw [hexec, magnitude_held hheld, ← hd]
    exact congrArg conclude (dcValue_reads d (reads_dropBits s _) hc)
  · rw [hexec, magnitude_read (hcat h0), hread]
    exact congrArg conclude (dcValue_reads _ (reads_of_read (by omega) hread).1 hc)
  · rw [hexec, magnitude_read (hcat h0), hread]
    rfl

/-- A run that stays within the block stores its coefficient (R186). -/
theorem acRun_ok {s : State} {c : Comp} {r kz : Nat} (v : Word) (hc : s.comps[s.seq.k]? = some c)
    (hkz : kz = s.seq.kz + r + 1) (hle : kz ≤ 63) : acRunOp r v s = .ok (s.storeCoef c kz v) := by
  subst hkz
  refine (if_neg (Nat.not_lt.mpr hle)).trans ?_
  rw [getComp_ok hc]
  rfl

/-- An AC coefficient after READ took its magnitude bits: the reader alone has moved on from s. -/
theorem acRun_reads {s u : State} {c : Comp} {r kz : Nat} (v : Word) (h : Reads s u)
    (hc : s.comps[s.seq.k]? = some c) (hkz : kz = s.seq.kz + r + 1) (hle : kz ≤ 63) :
    acRunOp r v u = .ok { u with
      blk := blkSet s.blk (zzPos s.cfg kz).val (v * quantStep s c.qtsel kz)
      seq := { s.seq with kz := kz, stage := if kz < 63 then .ac else .idct } } := by
  obtain ⟨hframe, _⟩ := h
  rw [hframe]
  exact acRun_ok v hc hkz hle

/-- A run past position 63 is an error (R188). -/
theorem acRun_past {s u : State} {r kz : Nat} (v : Word) (h : Reads s u) (hkz : kz = s.seq.kz + r + 1)
    (hgt : 63 < kz) : acRunOp r v u = raise .syntaxError u := by
  rw [← h.seq] at hkz
  subst hkz
  exact if_pos hgt

/-- Settles O21: ZRL is a run without magnitude bits; a run with a category has them held or READ takes them. -/
theorem acCoefficients : Obligations.AcCoefficients := by
  intro s c hc
  refine ⟨rfl, fun kz hkz => ⟨fun hle => ?_, fun hgt => ?_⟩, fun r cat kz h0 hkz => ?_⟩
  · have hrun := acRun_reads 0 (Reads.refl s) hc (r := 15) hkz hle
    rw [zero_mul] at hrun
    exact congrArg conclude hrun
  · exact congrArg conclude (acRun_past 0 (Reads.refl s) (r := 15) hkz hgt)
  · have hexec : exec (.acRuncat r cat) s =
        conclude (magnitudeOp cat.toNat s >>= fun m => acRunOp r.toNat m.1 m.2) := rfl
    have hcat : cat.toNat ≠ 0 := fun h => h0 (BitVec.eq_of_toNat_eq h)
    refine ⟨fun hheld v hv => ?_, fun v u hread => ?_, fun u hread => ?_⟩
    · rw [hexec, magnitude_held hheld, ← hv]
      exact ⟨fun hle => congrArg conclude (acRun_reads v (reads_dropBits s _) hc hkz hle),
        fun hgt => congrArg conclude (acRun_past v (reads_dropBits s _) hkz hgt)⟩
    · obtain ⟨hreads, _⟩ := reads_of_read (by omega) hread
      rw [hexec, magnitude_read hcat, hread]
      exact ⟨fun hle => congrArg conclude (acRun_reads _ hreads hc hkz hle),
        fun hgt => congrArg conclude (acRun_past _ hreads hkz hgt)⟩
    · rw [hexec, magnitude_read hcat, hread]
      rfl

end Sys2Proof.Machine

/-! ### One block, and its scan, as a whole (R182, R184, R189, R190, R312) -/

namespace Sys2Proof.Machine

/-- An abort inside a scan ends the DECODE with SYNTAX_ERROR. -/
theorem ScanAborts.abortsWith {s t : State} (h : ScanAborts s t) : AbortsWith s .syntaxError (.next t) := by
  obtain ⟨u, hu, rfl⟩ := h
  have howned := hu.owned
  have hregs := hu.registers
  exact abortsWith_abort .syntaxError hu.error howned.cfg howned.cmd howned.inp hregs.width hregs.height hregs.isColor
    hregs.outSize hregs.outBuf

/-- An operation that either answers with P, or raises SYNTAX_ERROR inside a scan, and meets no fault. -/
theorem abortsWith_or_answers {s : State} {m : Eng State} {P : State → Prop} (h : Post m P (ScanAborts s) False) :
    AbortsWith s .syntaxError (conclude m) ∨ ∃ t, conclude m = .next t ∧ P t :=
  match m, h with
  | .ok t, ht => .inr ⟨t, rfl, ht⟩
  | .error (.aborted _), hab => .inl hab.abortsWith

/-- The stores of a block write no byte outside it (R216). -/
theorem lastWrite_blockWrites_none {cfg : Config} {blk : Vector Word 64} {off stride j : Nat}
    (hj : ∀ r x, r < 8 → x < 8 → j ≠ off + r * stride + x) :
    lastWrite (blockWrites cfg blk off stride 8) j = none := by
  refine lastWrite_none fun w hw heq => ?_
  obtain ⟨x, hx, r, hr, haddr⟩ := mem_blockWrites.mp hw
  have hrow : r < 8 := (List.getElem?_eq_some_iff.mp hr).1
  exact hj r x hrow hx (heq ▸ haddr)

/-- Of the components DECODE_BLOCK changes its own only, in its predictor and in the bytes of the block. -/
theorem decodeBlock_plane {k off : Nat} {s : State} {c : Comp} (hc : s.comps[k]? = some c) :
    Post (decodeBlockOp k off s) (fun t =>
      (∃ p q, t.comps = s.comps.set k { c with dcpred := p, pixels := q }) ∧
      ∀ j, (∀ r x, r < 8 → x < 8 → j ≠ off + r * c.stride + x) → t.planeByte k j = s.planeByte k j)
      (fun _ => True) True := by
  have hk := (List.getElem?_eq_some_iff.mp hc).1
  refine (post_bind _ _ _ _ _).mpr ((coefficients_comps k s).imp fun u hu => ?_)
  obtain ⟨c', p, hc', hucomps⟩ := hu
  obtain rfl : c = c' := Option.some.inj (hc.symm.trans hc')
  have huc : u.comps[k]? = some { c with dcpred := p } := by rw [hucomps, List.getElem?_set_self hk]
  have hubyte : ∀ j, u.planeByte k j = s.planeByte k j := fun j => by
    rw [State.planeByte, State.planeByte, huc, hc]
    rfl
  refine (idctBlock_post k off u fun _ => True).mono (fun t ht => ?_) (fun _ _ => trivial) fun _ => trivial
  obtain ⟨d, hd, hw⟩ := ht
  obtain rfl := Option.some.inj (huc.symm.trans hd)
  obtain ⟨q, hq⟩ := hw.plane _ huc
  refine ⟨⟨p, q, by rw [hq]; exact (congrArg (List.set · k _) hucomps).trans (List.set_set ..)⟩, fun j hj => ?_⟩
  rw [hw.byte, if_pos rfl, lastWrite_blockWrites_none hj]
  exact hubyte j

/-- Settles O22: a block inside its plane meets no fault, and what it leaves is what its coefficients and its IDCT
leave. -/
theorem decodeBlockWritesItsBlock : Obligations.DecodeBlockWritesItsBlock := by
  intro k off s c b hin hc hb hsize
  have hfits : s.blockFits k off := ⟨c, hc, b, hb, hsize⟩
  have hpost := ((decodeBlock_post k off s).and (decodeBlock_plane hc (off := off))).mono
    (ab' := ScanAborts s) (ft' := False) (fun _ h => h) (fun _ h => h.1.scan) fun hn => hn.1 ⟨hin, hfits⟩
  refine (abortsWith_or_answers hpost).imp id fun ⟨t, ht, ⟨hblocks, hwritten⟩, ⟨p, q, hcomps⟩, hothers⟩ => ?_
  have hk := (List.getElem?_eq_some_iff.mp hc).1
  have htc : t.comps[k]? = some { c with dcpred := p, pixels := q } := by rw [hcomps, List.getElem?_set_self hk]
  obtain ⟨d, hd, hbytes⟩ := hwritten
  obtain rfl := Option.some.inj (htc.symm.trans hd)
  refine ⟨t, ht, hblocks.frame, ?_, hbytes, hothers⟩
  obtain ⟨d, hd, hshape⟩ := hblocks.comp hc
  obtain rfl := Option.some.inj (htc.symm.trans hd)
  have hpixels : q.map (fun b => Buffer.fresh b.size) = some (Buffer.fresh b.size) := by
    have := congrArg Comp.pixels hshape
    rwa [Comp.shape, Comp.shape, hb] at this
  obtain ⟨b', rfl, hb'⟩ := Option.map_eq_some_iff.mp hpixels
  exact ⟨p, b', hcomps, (congrArg Buffer.size hb' :)⟩

/-- A DC symbol of category 0 leaves the predictor (R185). -/
theorem dcValue_zero {s : State} {c : Comp} (hc : s.comps[s.seq.k]? = some c) :
    dcValueOp 0 s = .ok { s with
      blk := blkSet s.blk 0 (c.dcpred * quantStep s c.qtsel 0)
      seq := { s.seq with kz := 0, stage := .ac } } := by
  have hsame : s.comps.set s.seq.k { c with dcpred := c.dcpred + 0 } = s.comps := by
    obtain ⟨hk, rfl⟩ := List.getElem?_eq_some_iff.mp hc
    rw [add_zero]
    exact List.set_getElem_self hk
  rw [dcValue_ok 0 hc, hsame, add_zero]

/-- An EOB at the head of the accumulator ends the AC loop (R186). -/
theorem acLoop_eob (fuel : Nat) {s : State} {c : Comp} {e : HtEntry} (hst : s.seq.stage = .ac)
    (hc : s.comps[s.seq.k]? = some c) (hheld : 16 ≤ s.acc.length)
    (he : e = HuffTable.lookup (s.ht.get c.acsel.toFin) (bitsNat (s.acc.take 16))) (hlen : e.len ≠ 0)
    (hsym : e.sym = 0x00) : acLoop (fuel + 1) s = .ok (s.dropBits e.len.val).endBlock := by
  rw [acLoop, if_pos hst, getComp_ok hc]
  refine (decodeVlc_use_held c.acsel.toFin (fun sym v t => acSymbolOp sym v t >>= acLoop fuel) hheld).trans ?_
  rw [headSymbol_code _ he hlen, symbolOp_noMagnitude _ _ (by rw [hsym]; rfl), hsym]
  exact acLoop_done (s := (s.dropBits e.len.val).endBlock) (by simp [State.endBlock]) fuel

/-- The coefficients of a block whose codes, both at the head of the accumulator, are a DC symbol of category 0 and an
EOB: entry 0 is the one entry that is not 0 (R184). -/
theorem coefficients_flat {k : Nat} {s : State} {c : Comp} {dc ac : HtEntry} (hc : s.comps[k]? = some c)
    (hdc : dc = HuffTable.lookup (s.ht.get c.dcsel.toFin) (bitsNat (s.acc.take 16))) (hdclen : dc.len ≠ 0)
    (hdcsym : dc.sym.toNat % 16 = 0) (hheld : 16 + dc.len.val ≤ s.acc.length)
    (hac : ac = HuffTable.lookup (s.ht.get c.acsel.toFin) (bitsNat ((s.acc.drop dc.len.val).take 16)))
    (haclen : ac.len ≠ 0) (hacsym : ac.sym = 0x00) :
    coefficientsOp k s = .ok { s with
      acc := s.acc.drop (dc.len.val + ac.len.val)
      blk := (Vector.replicate 64 0).set 0 (c.dcpred * ((s.qt.get c.qtsel.toFin).get 0).setWidth 32)
      seq := { s.seq with k := k, kz := 0, stage := .idct } } := by
  rw [coefficientsOp, getComp_ok hc]
  refine (decodeVlc_use_held c.dcsel.toFin (fun _ v t => dcValueOp v t >>= acLoop 63) (s := s.startBlock k)
    (show 16 ≤ s.acc.length by omega)).trans ?_
  rw [headSymbol_code (s := s.startBlock k) _ hdc hdclen, symbolOp_noMagnitude _ _ hdcsym]
  have hvalue := dcValue_zero (s := (s.startBlock k).dropBits dc.len.val) hc
  have hdrop : 16 ≤ (s.acc.drop dc.len.val).length := by
    rw [List.length_drop]
    omega
  rw [hvalue, ← List.drop_drop]
  refine (pure_bind _ _).trans ((acLoop_eob (c := c) 62 ?_ ?_ ?_ ?_ haclen hacsym).trans ?_)
  exacts [rfl, hc, hdrop, hac, rfl]

/-- Settles O23: the coefficients are computed, and the IDCT of a block inside its plane writes every byte of it. -/
theorem decodeBlockFlat : Obligations.DecodeBlockFlat := by
  intro k off s c b dc ac hc hb hsize hdc hdclen hdcsym hheld hac haclen hacsym
  have hcoef := coefficients_flat hc hdc hdclen hdcsym hheld hac haclen hacsym
  have hanswers : Post (decodeBlockOp k off s) (fun _ => True) (fun _ => False) False := by
    rw [decodeBlockOp, hcoef]
    exact (idctBlock_post k off _ _).mono (fun _ _ => trivial) (fun _ h => h) fun hout => hout ⟨c, hc, b, hb, hsize⟩
  refine ⟨congrArg conclude (congrArg (· >>= idctBlockOp k off) hcoef), ?_⟩
  show ∃ t, conclude (decodeBlockOp k off s) = .next t ∧ _
  match decodeBlockOp k off s, hanswers.and (decodeBlock_post k off s) with
  | .ok t, ⟨_, hblocks, d, hd, hbytes⟩ =>
    obtain ⟨d', hd', hshape⟩ := hblocks.comp hc
    obtain rfl := Option.some.inj (hd.symm.trans hd')
    refine ⟨t, rfl, hblocks.error, by rw [hblocks.frame], ?_⟩
    rwa [← Comp.stride_of_shape hshape]
  | .error (.aborted _), ⟨hnone, _⟩ => exact hnone.elim
  | .error (.fault _), ⟨hnone, _⟩ => exact hnone.elim

end Sys2Proof.Machine

/-! ### Where the sequencer goes, and the scan as a whole (R190, R192, R194, R312) -/

namespace Sys2Proof.Machine

/-- Before the last MCU the next one begins, unless a restart marker is due (R190, R192). -/
theorem afterMcu_next {s : State} {x y : Nat}
    (hnext : (s.mbx + 1 < s.mbwidth ∧ x = s.mbx + 1 ∧ y = s.mby) ∨
      (s.mbwidth ≤ s.mbx + 1 ∧ s.mby + 1 < s.mbheight ∧ x = 0 ∧ y = s.mby + 1)) :
    s.afterMcu =
      if s.restartInterval = 0 then { s with mbx := x, mby := y }.startMcu
      else if s.rstCount - 1 = 0 then { s with mbx := x, mby := y, rstCount := s.rstCount - 1 }.awaitRestart
      else { s with mbx := x, mby := y, rstCount := s.rstCount - 1 }.startMcu := by
  have hlast : s.lastMcu = false := by
    simp only [State.lastMcu, Bool.and_eq_false_iff, decide_eq_false_iff_not]
    omega
  have hplace : (if s.mbwidth ≤ s.mbx + 1 then 0 else s.mbx + 1) = x ∧
      (if s.mbwidth ≤ s.mbx + 1 then s.mby + 1 else s.mby) = y := by
    split <;> omega
  simp only [State.afterMcu, hlast, Bool.false_eq_true, if_false, decide_eq_true_eq, hplace]

/-- After the last block of an MCU comes what follows the MCU (R190). -/
theorem nextBlock_mcuEnd {s : State} {c : Comp} (hx : c.ssx.toNat ≤ s.seq.sbx + 1) (hy : c.ssy.toNat ≤ s.seq.sby + 1)
    (hk : s.ncomp.toNat ≤ s.seq.k + 1) : s.nextBlock c = s.afterMcu := by
  simp only [State.nextBlock, Nat.not_lt.mpr hx, Nat.not_lt.mpr hy, Nat.not_lt.mpr hk, if_false]

/-- Settles O28, by what is left: blocks in the row, rows, components, MCUs. -/
theorem nextBlockOrder : Obligations.NextBlockOrder := by
  rintro s c z rfl
  refine ⟨fun hx => if_pos hx, fun hx hy => ?_, fun hx hy hk => ?_, fun hx hy hk => ?_⟩
  · exact (if_neg (Nat.not_lt.mpr hx)).trans (if_pos hy)
  · exact (if_neg (Nat.not_lt.mpr hx)).trans ((if_neg (Nat.not_lt.mpr hy)).trans (if_pos hk))
  · rw [nextBlock_mcuEnd hx hy hk]
    refine ⟨fun x y hnext => ?_, fun hw hh => afterMcu_last (by simp [State.lastMcu, hw, hh])⟩
    rw [afterMcu_next hnext]
    refine ⟨fun h0 => if_pos h0, fun h0 hmore => ?_, fun h0 hdue => ?_⟩
    · exact (if_neg h0).trans (if_neg hmore)
    · rw [if_neg h0, if_pos hdue, hdue]
      rfl

/-- Sixteen bits are the marker RSTn exactly where their high thirteen are those of FFD0 and their low three are n
(R192). -/
theorem eq_restartMarker_iff {v : Nat} (hv : v < 2 ^ 16) (n : BitVec 3) {m : Half} (hm : m = BitVec.ofNat 16 v) :
    v = 0xFFD0 + n.toNat ↔ m &&& 0xFFF8 = 0xFFD0 ∧ m.extractLsb' 0 3 = n := by
  have hmv : m.toNat = v := by rw [hm, BitVec.toNat_ofNat, Nat.mod_eq_of_lt hv]
  have hhigh : (m &&& 0xFFF8).toNat = v / 8 * 8 := by
    have hmask : m &&& (0xFFF8 : Half) = (m >>> 3) <<< 3 := (BitVec.shiftLeft_ushiftRight (x := m) (n := 3)).symm
    rw [hmask, BitVec.toNat_shiftLeft, BitVec.toNat_ushiftRight, hmv, Nat.shiftLeft_eq, Nat.shiftRight_eq_div_pow]
    omega
  have hlow : (m.extractLsb' 0 3).toNat = v % 8 := by
    rw [BitVec.extractLsb'_toNat, hmv]
    rfl
  have hn := n.isLt
  rw [← BitVec.toNat_inj, ← BitVec.toNat_inj, hhigh, hlow]
  show _ ↔ v / 8 * 8 = 0xFFD0 ∧ _
  omega

/-- Settles O29: what READ takes is the expected marker or it is not; the held bits are what READ would take. -/
theorem restartCheck : Obligations.RestartCheck := by
  rintro s a rfl
  have hexec : exec .restart s = conclude (readOp 16 (alignOp s) >>= fun r =>
    if r.1 = 0xFFD0 + s.nextRst.toNat then pure r.2.restarted else raise .syntaxError r.2) := rfl
  have hread : ∀ v u, readOp 16 (alignOp s) = .ok (v, u) → ∀ m : Half, m = BitVec.ofNat 16 v →
      (m &&& 0xFFF8 = 0xFFD0 → m.extractLsb' 0 3 = s.nextRst → exec .restart s = .next { u with
        nextRst := s.nextRst + 1
        rstCount := s.restartInterval.toNat
        comps := s.comps.map fun c => { c with dcpred := 0 } }) ∧
      (m &&& 0xFFF8 ≠ 0xFFD0 ∨ m.extractLsb' 0 3 ≠ s.nextRst →
        exec .restart s = .next (u.abort .syntaxError)) := by
    intro v u hu m hm
    obtain ⟨hreads, hv⟩ := reads_of_read (by omega) hu
    have hmarker := eq_restartMarker_iff hv s.nextRst hm
    rw [hexec, hu]
    refine ⟨fun hhigh hlow => ?_, fun hother => ?_⟩
    · have hrestarted : u.restarted = { u with
          nextRst := s.nextRst + 1
          rstCount := s.restartInterval.toNat
          comps := s.comps.map fun c => { c with dcpred := 0 } } := by
        rw [hreads.frame]
        rfl
      rw [← hrestarted]
      exact congrArg conclude (if_pos (hmarker.mpr ⟨hhigh, hlow⟩))
    · exact congrArg conclude (if_neg fun h => hother.elim (· (hmarker.mp h).1) (· (hmarker.mp h).2))
  exact ⟨fun hheld => hread _ _ (read_held hheld), hread, fun u hu => by
    rw [hexec, show readOp 16 (alignOp s) = _ from hu]
    rfl⟩

/-- Settles O30: every block of a laid out frame lies in its plane, so that the scan meets no fault, and the blocks of
all MCUs are all the bytes of the planes. -/
theorem scanAnswers : Obligations.ScanAnswers := by
  intro s hin hlaid
  have hpost := (scan_post s).mono (ab' := ScanAborts s) (ft' := False) (fun _ h => h) (fun _ h => h)
    fun hn => hn ⟨hin, scanFits_of_laidOut hlaid⟩
  refine (abortsWith_or_answers hpost).imp id fun ⟨t, ht, hscan, hacc, hphase, _, hwritten⟩ => ?_
  have htlaid := laidOut_of_scans hscan hlaid
  have hframe := hscan.frame
  rw [hacc, hphase] at hframe
  refine ⟨t, ht, hphase, htlaid, hscan.inputOk hin, planes_full htlaid fun mx my hx hy =>
    hwritten mx my (hscan.mbwidth ▸ hx) (hscan.mbheight ▸ hy), hframe, ?_⟩
  have hshapes := congrArg (List.map fun c : Comp => { c with dcpred := 0, pixels := none }) hscan.shapes
  rwa [List.map_map, List.map_map] at hshapes

end Sys2Proof.Machine

/-! ### The IDCT: the two passes in closed form, their shortcuts, and the block (R210 to R217) -/

namespace Sys2Proof

/-- A row or column whose entries past the first are 0. -/
def Oct.dcOnly (d : Word) : Oct Word :=
  ⟨d, 0, 0, 0, 0, 0, 0, 0⟩

/-- The same value eight times. -/
def Oct.const {α : Type} (v : α) : Oct α :=
  ⟨v, v, v, v, v, v, v, v⟩

end Sys2Proof

namespace Sys2Proof.Machine

/-- The shortcut is not taken where it is off, or where an entry past the first is not 0 (R213, R215). -/
theorem shortcut_not_taken {lit : Bool} {b : Oct Word} (h : lit = false ∨ b.a1 ≠ 0 ∨ b.a2 ≠ 0 ∨ b.a3 ≠ 0 ∨
    b.a4 ≠ 0 ∨ b.a5 ≠ 0 ∨ b.a6 ≠ 0 ∨ b.a7 ≠ 0) : ¬ (lit && flat b) = true := by
  simp only [flat, Bool.and_eq_true, decide_eq_true_eq]
  rintro ⟨hlit, ⟨⟨⟨⟨⟨h1, h2⟩, h3⟩, h4⟩, h5⟩, h6⟩, h7⟩
  simp [hlit, h1, h2, h3, h4, h5, h6, h7] at h

/-- Settles O24: the full pass is taken, and its statements put into one another are the closed form. -/
theorem idctRowFormula : Obligations.IdctRowFormula := by
  intro s b hfull
  intros
  subst_vars
  have hop : idctRowOp s.cfg b = idctRowFull s.cfg b := if_neg (shortcut_not_taken hfull)
  exact congrArg (fun o => Host.Outcome.next (s.returns (.words o))) hop

/-- Settles O25: the full pass is taken, and its statements put into one another are the closed form. -/
theorem idctColFormula : Obligations.IdctColFormula := by
  intro s b hfull
  intros
  subst_vars
  have hop : idctColOp s.cfg b = idctColFull s.cfg b := if_neg (shortcut_not_taken hfull)
  exact congrArg (fun o => Host.Outcome.next (s.returns (.samples o))) hop

/-! A row or column with one entry not 0: every odd term, and every even term but the first, is 0 whatever the weights,
and each rounding term alone is shifted out. -/

theorem idctRowFull_dcOnly (cfg : Config) (d : Word) :
    idctRowFull cfg (.dcOnly d) = .const (sra (d <<< 11 + 128) 8) := by
  have hround : sra 128#32 8 = 0 := by decide
  simp [idctRowFull, Oct.dcOnly, Oct.const, hround]

theorem idctColFull_dcOnly (cfg : Config) (e : Word) :
    idctColFull cfg (.dcOnly e) = .const (biasClip (sra (e <<< 8 + 8192) 14)) := by
  have hround : sra 128#32 8 = 0 := by decide
  have hround' : sra 4#32 3 = 0 := by decide
  simp [idctColFull, Oct.dcOnly, Oct.const, hround, hround']

/-- The row pass of a row with one entry not 0 is the shortcut's value where the shortcut is on, or the full transform's
value is the same. -/
theorem idctRowOp_dcOnly {cfg : Config} {d : Word}
    (h : cfg.idctShortcutLiteral = true ∨ sra (d <<< 11 + 128) 8 = d <<< 3) :
    idctRowOp cfg (.dcOnly d) = .const (d <<< 3) := by
  rcases h with hlit | heq
  · exact if_pos (by rw [hlit]; rfl)
  · rw [idctRowOp, idctRowFull_dcOnly, heq]
    exact ite_id ..

theorem idctColOp_dcOnly {cfg : Config} {e : Word}
    (h : cfg.idctShortcutLiteral = true ∨ sra (e <<< 8 + 8192) 14 = sra (e + 32) 6) :
    idctColOp cfg (.dcOnly e) = .const (biasClip (sra (e + 32) 6)) := by
  rcases h with hlit | heq
  · exact if_pos (by rw [hlit]; rfl)
  · rw [idctColOp, idctColFull_dcOnly, heq]
    exact ite_id ..

/-- A shift and an addition that stay within 32 bits are those of the integers. -/
theorem toInt_shiftLeft_add {x c : Word} {n : Nat} {z : Int} (hz : z = x.toInt * 2 ^ n + c.toInt)
    (hlow : -2 ^ 31 ≤ z) (hhigh : z < 2 ^ 31) : (x <<< n + c).toInt = z := by
  have hword : x <<< n + c = BitVec.ofInt 32 z := by
    rw [hz, BitVec.ofInt_add, BitVec.ofInt_mul, BitVec.ofInt_toInt, BitVec.ofInt_toInt, ← twoPow_eq_ofInt,
      BitVec.shiftLeft_eq_mul_twoPow]
  rw [hword, BitVec.toInt_ofInt_eq_self (by decide)] <;> omega

theorem toInt_sra (x : Word) (n : Nat) : (sra x n).toInt = x.toInt / 2 ^ n := by
  rw [sra, BitVec.toInt_sshiftRight, Int.shiftRight_eq_div_pow]
  norm_cast

/-- Inside R217's range `d · 2^11 + 128` does not wrap, and its high part is `d · 2^3`. -/
theorem sra_rowScale {d : Word} (hlow : -2 ^ 20 ≤ d.toInt) (hhigh : d.toInt ≤ 2 ^ 20 - 1) :
    sra (d <<< 11 + 128) 8 = d <<< 3 := by
  refine BitVec.eq_of_toInt_eq ?_
  have hfull : (d <<< 11 + 128).toInt = d.toInt * 2 ^ 11 + 128 := toInt_shiftLeft_add rfl (by omega) (by omega)
  have hfast : (d <<< 3 + 0).toInt = d.toInt * 2 ^ 3 + 0 := toInt_shiftLeft_add rfl (by omega) (by omega)
  rw [add_zero] at hfast
  rw [toInt_sra, hfull, hfast]
  omega

/-- Inside R217's range `e · 2^8 + 8192`, which is `(e + 32) · 2^8`, does not wrap. -/
theorem sra_colScale {e : Word} (hlow : -2 ^ 23 ≤ e.toInt) (hhigh : e.toInt ≤ 2 ^ 23 - 33) :
    sra (e <<< 8 + 8192) 14 = sra (e + 32) 6 := by
  refine BitVec.eq_of_toInt_eq ?_
  have hfull : (e <<< 8 + 8192).toInt = e.toInt * 2 ^ 8 + 8192 := toInt_shiftLeft_add rfl (by omega) (by omega)
  have hfast : (e <<< 0 + 32).toInt = e.toInt * 2 ^ 0 + 32 := toInt_shiftLeft_add rfl (by omega) (by omega)
  rw [BitVec.shiftLeft_zero] at hfast
  rw [toInt_sra, toInt_sra, hfull, hfast]
  omega

/-- Settles O26: inside the ranges no shift wraps, so that the full transform has the shortcut's value; at each of the
four words outside them the two are computed and differ. -/
theorem shortcutIdentity : Obligations.ShortcutIdentity := by
  refine ⟨?_, ?_, ?_, ?_⟩
  · rintro s d hd v rfl
    have hop : idctRowOp s.cfg (.dcOnly d) = .const (d <<< 3) :=
      idctRowOp_dcOnly (hd.imp id fun ⟨_, hlow, hhigh⟩ => sra_rowScale hlow hhigh)
    exact congrArg (fun o => Host.Outcome.next (s.returns (.words o))) hop
  · rintro s e he v rfl
    have hop : idctColOp s.cfg (.dcOnly e) = .const (biasClip (sra (e + 32) 6)) :=
      idctColOp_dcOnly (he.imp id fun ⟨_, hlow, hhigh⟩ => sra_colScale hlow hhigh)
    exact congrArg (fun o => Host.Outcome.next (s.returns (.samples o))) hop
  · rintro d (rfl | rfl)
    · decide
    · decide
  · rintro e (rfl | rfl)
    · decide
    · decide

/-! #### The block (R210, R216) -/

/-- At a stride of 8 or more each address of a block is that of one row and one column: its quotient and remainder
by the stride. -/
theorem blockAddress_unique {off stride r x r' x' : Nat} (hstride : 8 ≤ stride) (hx : x < 8) (hx' : x' < 8)
    (h : off + r * stride + x = off + r' * stride + x') : r = r' ∧ x = x' := by
  have hquotient : (x + stride * r) / stride = r ∧ (x + stride * r) % stride = x :=
    (Nat.div_mod_unique (by omega)).mpr ⟨rfl, by omega⟩
  have hquotient' : (x' + stride * r') / stride = r' ∧ (x' + stride * r') % stride = x' :=
    (Nat.div_mod_unique (by omega)).mpr ⟨rfl, by omega⟩
  have hsame : x + stride * r = x' + stride * r' := by
    rw [Nat.mul_comm stride, Nat.mul_comm stride]
    omega
  rw [hsame] at hquotient
  exact ⟨hquotient.1.symm.trans hquotient'.1, hquotient.2.symm.trans hquotient'.2⟩

/-- Each byte of the block is stored once, with its sample. -/
theorem lastWrite_blockWrites {cfg : Config} {blk : Vector Word 64} {off stride r x : Nat} (hstride : 8 ≤ stride)
    (hr : r < 8) (hx : x < 8) :
    lastWrite (blockWrites cfg blk off stride 8) (off + r * stride + x) =
      (idctColOp cfg (blkCol blk x)).toList[r]? := by
  have hsample : (idctColOp cfg (blkCol blk x)).toList[r]? = some ((idctColOp cfg (blkCol blk x)).toList[r]'hr) :=
    List.getElem?_eq_getElem hr
  rw [hsample]
  refine lastWrite_mem (mem_blockWrites.mpr ⟨x, hx, r, hsample, rfl⟩) fun w hw haddr => ?_
  obtain ⟨x', hx', r', hr', haddr'⟩ := mem_blockWrites.mp hw
  obtain ⟨rfl, rfl⟩ := blockAddress_unique hstride hx' hx (haddr'.symm.trans haddr)
  exact Option.some.inj (hr'.symm.trans hsample)

/-- Writes to a plane leave its size. -/
theorem WritesBytes.buffer {k : Nat} {ws : List (Nat × Byte)} {s t : State} {c : Comp} {b : Buffer}
    (h : WritesBytes k ws s t) (hc : s.comps[k]? = some c) (hb : c.pixels = some b) :
    ∃ b', t.comps = s.comps.set k { c with pixels := some b' } ∧ b'.size = b.size := by
  obtain ⟨p, hp⟩ := h.plane c hc
  obtain ⟨d, hd, hshape⟩ := h.blocks.comp hc
  rw [hp, List.getElem?_set_self (List.getElem?_eq_some_iff.mp hc).1] at hd
  obtain rfl := Option.some.inj hd
  have hpixels : p.map (fun b => Buffer.fresh b.size) = some (Buffer.fresh b.size) := by
    have := congrArg Comp.pixels hshape
    rwa [Comp.shape, Comp.shape, hb] at this
  obtain ⟨b', rfl, hb'⟩ := Option.map_eq_some_iff.mp hpixels
  exact ⟨b', hp, (congrArg Buffer.size hb' :)⟩

/-- Settles O27: the block lies in its plane, so that every store is made; each byte of it is stored once, and no other
byte is. -/
theorem idctBlockWrites : Obligations.IdctBlockWrites := by
  intro k off s c b hc hb hstride hsize
  have hpost := idctBlock_post k off s fun _ => False
  obtain ⟨t, ht, d, hd, hw⟩ := answers_of_post <|
    hpost.mono (fun _ h => h) (fun _ h => h.elim) fun hout => hout ⟨c, hc, b, hb, hsize⟩
  obtain rfl := Option.some.inj (hc.symm.trans hd)
  obtain ⟨b', hcomps, hsize'⟩ := hw.buffer hc hb
  have hblk : t.blk = idctRows s.cfg s.blk := by rw [hw.frame]
  refine ⟨t, b', ht, ?_, hsize', fun r hr => ?_, fun r x hr hx => ?_, fun j hj => ?_⟩
  · rw [hw.frame, hcomps]
  · rw [hblk]
    exact blkRow_idctRows s.cfg s.blk r hr
  · have hlen : r < (idctColOp s.cfg (blkCol (idctRows s.cfg s.blk) x)).toList.length := hr
    rw [hw.byte, if_pos rfl, lastWrite_blockWrites hstride hr hx, hblk, List.getElem?_eq_getElem hlen]
    rfl
  · rw [hw.byte, if_pos rfl, lastWrite_blockWrites_none hj]
    rfl

end Sys2Proof.Machine

/-! ### The upsampler's passes, output by output (R230 to R237) -/

namespace Sys2Proof.Machine

/-- The taps of one line of w samples S, whose right edge reads the samples before index e: what R232 and R236 say
of its outputs. -/
structure LineTaps (cfg : Config) (S : Nat → Word) (w e : Nat) (out : Nat → Option Byte) : Prop where
  left1 : out 0 = some (filterRound (cfg.cf2a * S 0 + cfg.cf2b * S 1))
  left2 : out 1 = some (filterRound (cfg.cf3x * S 0 + cfg.cf3y * S 1 + cfg.cf3z * S 2))
  left3 : out 2 = some (filterRound (cfg.cf3a * S 0 + cfg.cf3b * S 1 + cfg.cf3c * S 2))
  interior : ∀ x, x + 4 ≤ w →
    out (2 * x + 3) = some (filterRound
      (cfg.cf4a * S x + cfg.cf4b * S (x + 1) + cfg.cf4c * S (x + 2) + cfg.cf4d * S (x + 3))) ∧
    out (2 * x + 4) = some (filterRound
      (cfg.cf4d * S x + cfg.cf4c * S (x + 1) + cfg.cf4b * S (x + 2) + cfg.cf4a * S (x + 3)))
  right3 : out (2 * w - 3) = some (filterRound
    (cfg.cf3a * S (e - 1) + cfg.cf3b * S (e - 2) + cfg.cf3c * S (e - 3)))
  right2 : out (2 * w - 2) = some (filterRound
    (cfg.cf3x * S (e - 1) + cfg.cf3y * S (e - 2) + cfg.cf3z * S (e - 3)))
  right1 : out (2 * w - 1) = some (filterRound (cfg.cf2a * S (e - 1) + cfg.cf2b * S (e - 2)))

/-- After its three left outputs a line goes on with the interior ones, and ends with the three right ones. -/
theorem getElem?_lineOf_add_three (cfg : Config) (B : Nat → Byte) (w e i : Nat) :
    (lineOf cfg B w e)[i + 3]? = (interiorOf cfg B (w - 3) 0 ++
      [tap3 cfg.cf3a cfg.cf3b cfg.cf3c (B (e - 1)) (B (e - 2)) (B (e - 3)),
        tap3 cfg.cf3x cfg.cf3y cfg.cf3z (B (e - 1)) (B (e - 2)) (B (e - 3)),
        tap2 cfg.cf2a cfg.cf2b (B (e - 1)) (B (e - 2))])[i]? := by
  simp only [lineOf, edgeOutputs, List.cons_append, List.nil_append, List.getElem?_cons_succ]

theorem getElem?_lineOf_interior (cfg : Config) (B : Nat → Byte) (e : Nat) {w i : Nat} (h : i < 2 * (w - 3)) :
    (lineOf cfg B w e)[i + 3]? = (interiorOf cfg B (w - 3) 0)[i]? :=
  (getElem?_lineOf_add_three cfg B w e i).trans (List.getElem?_append_left (by rwa [length_interiorOf]))

theorem getElem?_lineOf_right (cfg : Config) (B : Nat → Byte) (e : Nat) {w : Nat} (hw : 3 ≤ w) (i : Nat) :
    (lineOf cfg B w e)[2 * w - 3 + i]? = [tap3 cfg.cf3a cfg.cf3b cfg.cf3c (B (e - 1)) (B (e - 2)) (B (e - 3)),
      tap3 cfg.cf3x cfg.cf3y cfg.cf3z (B (e - 1)) (B (e - 2)) (B (e - 3)),
      tap2 cfg.cf2a cfg.cf2b (B (e - 1)) (B (e - 2))][i]? := by
  rw [show 2 * w - 3 + i = 2 * (w - 3) + i + 3 by omega, getElem?_lineOf_add_three,
    List.getElem?_append_right (by rw [length_interiorOf]; omega), length_interiorOf, Nat.add_sub_cancel_left]

/-- The outputs of a line of bytes are its taps. -/
theorem lineTaps_lineOf {cfg : Config} {B : Nat → Byte} {S : Nat → Word} {w e : Nat} {out : Nat → Option Byte}
    (hw : 3 ≤ w) (he : 3 ≤ e) (hS : ∀ i, i < max w e → S i = sampleWord (B i))
    (hout : ∀ i, i < 2 * w → out i = (lineOf cfg B w e)[i]?) : LineTaps cfg S w e out := by
  have hlast : ∀ i, i < 3 → out (2 * w - 3 + i) = _ := fun i hi =>
    (hout _ (by omega)).trans (getElem?_lineOf_right cfg B e hw i)
  have hS0 := hS 0 (by omega)
  have hS1 := hS 1 (by omega)
  have hS2 := hS 2 (by omega)
  have hE1 := hS (e - 1) (by omega)
  have hE2 := hS (e - 2) (by omega)
  have hE3 := hS (e - 3) (by omega)
  refine ⟨?_, ?_, ?_, fun x hx => ?_, ?_, ?_, ?_⟩
  · rw [hout 0 (by omega), hS0, hS1]
    rfl
  · rw [hout 1 (by omega), hS0, hS1, hS2]
    rfl
  · rw [hout 2 (by omega), hS0, hS1, hS2]
    rfl
  · rw [hout _ (by omega), hout _ (by omega), hS x (by omega), hS (x + 1) (by omega), hS (x + 2) (by omega),
      hS (x + 3) (by omega), getElem?_lineOf_interior cfg B e (by omega),
      getElem?_lineOf_interior cfg B e (i := 2 * x + 1) (by omega), interiorOf_even cfg B _ 0 x (by omega),
      interiorOf_odd cfg B _ 0 x (by omega), Nat.zero_add]
    exact ⟨rfl, rfl⟩
  · rw [hE1, hE2, hE3]
    exact hlast 0 (by omega)
  · rw [hE1, hE2, hE3, show 2 * w - 2 = 2 * w - 3 + 1 by omega]
    exact hlast 1 (by omega)
  · rw [hE1, hE2, show 2 * w - 1 = 2 * w - 3 + 2 by omega]
    exact hlast 2 (by omega)

/-- A byte with a value, as a datapath value. -/
theorem eq_sampleWord_read {b : Buffer} {i : Nat} {x : Word} (hb : b.has i = true)
    (hx : ∀ v, b.mem.read i = some v → x = v.setWidth 32) : x = sampleWord ((b.mem.read i).getD 0) := by
  simp only [Buffer.has, Bool.and_eq_true] at hb
  obtain ⟨v, hv⟩ := Option.isSome_iff_exists.mp hb.2
  rw [hx v hv, hv]
  rfl

/-! #### The horizontal pass -/

theorem upsH_refused {k : Nat} {s : State} {c : Comp} (hc : s.comps[k]? = some c) (hw : 3 ≤ c.width)
    (hg : allocGrants s.cfg (2 * c.width * c.height) s.live = false) : upsHOp k s = raise .outOfMemory s := by
  unfold upsHOp
  rw [getComp_ok hc]
  show (if c.width < 3 then _ else _) = _
  rw [if_neg (by omega), alloc_refused (by rw [hg]; decide)]
  rfl

/-- The bytes the horizontal pass leaves. -/
def widenedBytes (cfg : Config) (c : Comp) (old : Buffer) : List Byte :=
  ((List.range c.height).map fun y =>
    lineOf cfg (fun x => (old.mem.read (y * c.stride + x)).getD 0) c.width (rightEdge cfg c)).flatten

theorem length_widenedBytes (cfg : Config) {c : Comp} (old : Buffer) (hw : 3 ≤ c.width) :
    (widenedBytes cfg c old).length = 2 * c.width * c.height := by
  rw [widenedBytes, length_flatten_of (m := 2 * c.width), List.length_map, List.length_range, Nat.mul_comm]
  intro l hl
  obtain ⟨y, _, rfl⟩ := List.mem_map.mp hl
  exact length_lineOf _ _ _ _ hw

/-- Every row of the new plane is the line of the old row's samples. -/
theorem lineTaps_widenedBytes (cfg : Config) {c : Comp} {old : Buffer} {S : Nat → Word} {y : Nat} (hw : 3 ≤ c.width)
    (hs : c.width ≤ c.stride) (hf : ∀ j, j < c.height * c.stride → old.has j = true) (hy : y < c.height)
    (hS : ∀ x v, old.mem.read (y * c.stride + x) = some v → S x = v.setWidth 32) :
    LineTaps cfg S c.width (rightEdge cfg c) fun i =>
      (Buffer.ofBytes (widenedBytes cfg c old)).mem.read (y * (2 * c.width) + i) := by
  have hedge : 3 ≤ rightEdge cfg c ∧ rightEdge cfg c ≤ c.stride := by
    unfold rightEdge
    split <;> omega
  exact lineTaps_lineOf hw hedge.1
    (fun x hx => eq_sampleWord_read (hf _ (index_lt (show x < c.stride by omega) hy)) (hS x))
    (fun x hx => (Buffer.read_ofBytes _ _).trans
      (getElem_flatten_rows _ (2 * c.width) c.height (fun _ => length_lineOf _ _ _ _ hw) hy hx))

/-- Settles O44: the pass writes every output of a row of the old plane. -/
theorem upsHFormula : Obligations.UpsHFormula := by
  intro k s c old L cf E hc hb hw hs hf hL hcf hstride hwidth
  obtain rfl : cf = filterRound := funext hcf
  obtain rfl : E = rightEdge s.cfg c := by
    unfold rightEdge
    cases hedge : s.cfg.upsHEdge with
    | stride => exact hstride hedge
    | width => exact hwidth hedge
  refine ⟨fun hg => congrArg conclude (upsH_refused hc hw hg), fun hg =>
    ⟨_, Buffer.ofBytes (widenedBytes s.cfg c old), congrArg conclude (upsH_ok hc hb hw hs hf hg),
      length_widenedBytes s.cfg old hw, rfl, ?_⟩⟩
  rintro y _ hy rfl
  obtain ⟨h1, h2, h3, hmid, h4, h5, h6⟩ := lineTaps_widenedBytes s.cfg hw hs hf hy (hL y)
  rw [Nat.add_sub_assoc (by omega), Nat.add_sub_assoc (by omega), Nat.add_sub_assoc (by omega)]
  exact ⟨h1, h2, h3, hmid, h4, h5, h6⟩

/-! #### The vertical pass -/

theorem upsV_refused {k : Nat} {s : State} {c : Comp} (hc : s.comps[k]? = some c) (hh : 3 ≤ c.height)
    (hg : allocGrants s.cfg (c.width * (2 * c.height)) s.live = false) : upsVOp k s = raise .outOfMemory s := by
  unfold upsVOp
  rw [getComp_ok hc]
  show (if c.height < 3 then _ else _) = _
  rw [if_neg (by omega), alloc_refused (by rw [hg]; decide)]
  rfl

/-- The bytes the vertical pass leaves. -/
def heightenedBytes (cfg : Config) (c : Comp) (old : Buffer) : List Byte :=
  rowsOfColumns ((List.range c.width).map fun x =>
    lineOf cfg (fun y => (old.mem.read (y * c.stride + x)).getD 0) c.height c.height) (2 * c.height)

theorem length_heightenedBytes (cfg : Config) (c : Comp) (old : Buffer) :
    (heightenedBytes cfg c old).length = c.width * (2 * c.height) := by
  rw [heightenedBytes, length_rowsOfColumns, List.length_map, List.length_range, Nat.mul_comm]

/-- Every column of the new plane is the line of the old column's samples. -/
theorem lineTaps_heightenedBytes (cfg : Config) {c : Comp} {old : Buffer} {S : Nat → Word} {x : Nat}
    (hh : 3 ≤ c.height) (hs : c.width ≤ c.stride) (hf : ∀ j, j < c.height * c.stride → old.has j = true)
    (hx : x < c.width) (hS : ∀ r v, old.mem.read (r * c.stride + x) = some v → S r = v.setWidth 32) :
    LineTaps cfg S c.height c.height fun r =>
      (Buffer.ofBytes (heightenedBytes cfg c old)).mem.read (r * c.width + x) := by
  refine lineTaps_lineOf (B := fun y => (old.mem.read (y * c.stride + x)).getD 0) hh hh
    (fun r hr => eq_sampleWord_read (hf _ (index_lt (show x < c.stride by omega) (show r < c.height by omega))) (hS r))
    fun r hr => ?_
  rw [Buffer.read_ofBytes, heightenedBytes, getElem_rowsOfColumns _ _ _ hr hx, List.getD_eq_getElem?_getD,
    List.getElem?_eq_getElem (by rwa [length_lineOf _ _ _ _ hh])]
  rfl

/-- Settles O45: the pass puts every output of a column of the old plane. -/
theorem upsVFormula : Obligations.UpsVFormula := by
  intro k s c old P cf hc hb hh hs hf hP hcf
  obtain rfl : cf = filterRound := funext hcf
  refine ⟨fun hg => congrArg conclude (upsV_refused hc hh hg), fun hg =>
    ⟨_, Buffer.ofBytes (heightenedBytes s.cfg c old), congrArg conclude (upsV_ok hc hb hh hs hf hg),
      length_heightenedBytes s.cfg c old, rfl, ?_⟩⟩
  rintro x _ put hx rfl hput
  obtain rfl := funext hput
  obtain ⟨h1, h2, h3, hmid, h4, h5, h6⟩ := lineTaps_heightenedBytes s.cfg hh hs hf hx (hP x)
  exact ⟨h1, h2, h3, hmid, h4, h5, h6⟩

end Sys2Proof.Machine

/-! ### CONVERT a turn at a time, and as a whole (R238, R239, R250, R277, R312) -/

namespace Sys2Proof.Machine

/-- Where two operations agree on every value the first part can answer, they agree after it. -/
theorem bind_eq_of_post {α β : Type} {m : Eng α} {yes : α → Prop} {ab : State → Prop} {ft : Prop} {f g : α → Eng β}
    (h : Post m yes ab ft) (hfg : ∀ a, yes a → f a = g a) : m >>= f = m >>= g :=
  match m, h with
  | .ok a, ha => hfg a ha
  | .error _, _ => rfl

/-- A loop whose turns leave the state as it is. -/
theorem forUp_still {body : Nat → State → Eng State} {s : State} (n i : Nat)
    (h : ∀ j, i ≤ j → j < i + n → body j s = .ok s) : forUp body n i s = .ok s := by
  induction n generalizing i with
  | zero => rfl
  | succ n ih =>
    rw [forUp, h i (Nat.le_refl i) (by omega)]
    exact ih (i + 1) fun j h1 h2 => h j (by omega) (by omega)

/-- Component k is as wide and as high as the image. -/
def State.spans (s : State) (k : Nat) : Prop :=
  ∃ c, s.comps[k]? = some c ∧ s.width.toNat ≤ c.width ∧ s.height.toNat ≤ c.height

theorem needsUpsampling_iff (s : State) (c : Comp) :
    s.needsUpsampling c = true ↔ c.width < s.width.toNat ∨ c.height < s.height.toNat := by
  simp [State.needsUpsampling]

theorem needsUpsampling_eq_false_iff (s : State) (c : Comp) :
    s.needsUpsampling c = false ↔ s.width.toNat ≤ c.width ∧ s.height.toNat ≤ c.height := by
  simp [State.needsUpsampling]

/-! #### The loop of one component -/

/-- One turn of the convergence loop of R250. -/
def upsampleTurn (k : Nat) (s : State) : Eng State :=
  widen k s >>= heighten k

theorem upsampleLoop_done {k : Nat} {s : State} {c : Comp} (fuel : Nat) (hc : s.comps[k]? = some c)
    (hn : s.needsUpsampling c = false) : upsampleLoop k (fuel + 1) s = .ok s := by
  rw [upsampleLoop, getComp_ok hc]
  show (if s.needsUpsampling c = true then _ else _) = _
  rw [hn]
  rfl

theorem upsampleLoop_turn {k : Nat} {s : State} {c : Comp} (fuel : Nat) (hc : s.comps[k]? = some c)
    (hn : s.needsUpsampling c = true) : upsampleLoop k (fuel + 1) s = upsampleTurn k s >>= upsampleLoop k fuel := by
  rw [upsampleLoop, getComp_ok hc, upsampleTurn, bind_assoc]
  show (if s.needsUpsampling c = true then _ else _) = _
  rw [if_pos hn]

/-- A turn doubles each side of component k that falls short, or ends the DECODE with OUT_OF_MEMORY. -/
theorem upsampleTurn_post {k : Nat} {s : State} {c : Comp} (hc : s.comps[k]? = some c) :
    Post (upsampleTurn k s) (fun v => Upsamples k s v ∧ ∃ d, v.comps[k]? = some d ∧
      d.width = (if c.width < s.width.toNat then 2 * c.width else c.width) ∧
      d.height = if c.height < s.height.toNat then 2 * c.height else c.height) (UpsampleAborts k s) True := by
  refine (post_bind _ _ _ _ _).mpr ((widen_post k s c hc 0).mono (fun t ht => ?_) (fun _ h => h) fun _ => trivial)
  obtain ⟨hut, d, hd, hdw, hdh, _⟩ := ht
  refine (heighten_post k t d hd 0).mono (fun v hv => ?_) (fun _ h => .of hut h) fun _ => trivial
  obtain ⟨huv, e, he, heh, hew, _⟩ := hv
  rw [hut.height, hdh] at heh
  exact ⟨hut.trans huv, e, he, hew.trans hdw, heh⟩

/-- A side that reaches n in one doubling more reaches it after its doubling. -/
theorem le_doubled {n a fuel : Nat} (h : n ≤ a * 2 ^ (fuel + 1)) : n ≤ (if a < n then 2 * a else a) * 2 ^ fuel := by
  split
  · calc n ≤ a * 2 ^ (fuel + 1) := h
      _ = 2 * a * 2 ^ fuel := by ring
  · exact Nat.le_trans (by omega) (Nat.le_mul_of_pos_right a (Nat.two_pow_pos fuel))

/-- One turn more than the doublings that reach the image changes nothing (R238). -/
theorem upsampleLoop_enough {k : Nat} (fuel : Nat) {s : State} {c : Comp} (hc : s.comps[k]? = some c)
    (hw : s.width.toNat ≤ c.width * 2 ^ fuel) (hh : s.height.toNat ≤ c.height * 2 ^ fuel) :
    upsampleLoop k (fuel + 1) s = upsampleLoop k (fuel + 2) s := by
  induction fuel generalizing s c with
  | zero =>
    have hdone := (needsUpsampling_eq_false_iff s c).mpr ⟨by omega, by omega⟩
    rw [upsampleLoop_done _ hc hdone, upsampleLoop_done _ hc hdone]
  | succ fuel ih =>
    cases hn : s.needsUpsampling c with
    | false => rw [upsampleLoop_done _ hc hn, upsampleLoop_done _ hc hn]
    | true =>
      rw [upsampleLoop_turn _ hc hn, upsampleLoop_turn _ hc hn]
      refine bind_eq_of_post (upsampleTurn_post hc) fun v ⟨hv, d, hd, hdw, hdh⟩ => ih hd ?_ ?_
      · rw [hv.width, hdw]
        exact le_doubled hw
      · rw [hv.height, hdh]
        exact le_doubled hh

theorem upsampleComp_spans {k : Nat} {s : State} (h : s.spans k) : upsampleComp k s = .ok s := by
  obtain ⟨c, hc, hw, hh⟩ := h
  have hdone := (needsUpsampling_eq_false_iff s c).mpr ⟨hw, hh⟩
  rw [upsampleComp, upsampleLoop_done _ hc hdone]
  show (getComp k s >>= fun d => if s.needsUpsampling d = true then _ else _) = _
  rw [getComp_ok hc]
  show (if s.needsUpsampling c = true then _ else _) = _
  rw [hdone]
  rfl

/-- Upsampling a component is a turn, and upsampling it from there: 16 turns are enough for a side of 3 or more. -/
theorem upsampleComp_turn {k : Nat} {s : State} {c : Comp} (hc : s.comps[k]? = some c) (hw : 3 ≤ c.width)
    (hh : 3 ≤ c.height) (hn : s.needsUpsampling c = true) :
    upsampleComp k s = upsampleTurn k s >>= upsampleComp k := by
  rw [upsampleComp, upsampleLoop_turn _ hc hn, bind_assoc]
  refine bind_eq_of_post (upsampleTurn_post hc) fun v ⟨hv, d, hd, hdw, hdh⟩ => ?_
  have hwv := s.width.isLt
  have hhv := s.height.isLt
  rw [upsampleComp, upsampleLoop_enough 15 hd]
  · rw [hv.width]
    split at hdw <;> omega
  · rw [hv.height]
    split at hdh <;> omega

/-! #### The components in order -/

/-- CONVERT passes over the components that span the image. -/
theorem convertOp_skip {j : Nat} {s : State} (hj : j ≤ s.ncomp.toNat) (h : ∀ i, i < j → s.spans i) :
    convertOp s = forUp upsampleComp (s.ncomp.toNat - j) j s >>= fun t =>
      if t.ncomp = 3 then colorOp t else compactOp t := by
  have hsplit : s.ncomp.toNat = j + (s.ncomp.toNat - j) := by omega
  have hstill : forUp upsampleComp j 0 s = .ok s :=
    forUp_still j 0 fun i _ hi => upsampleComp_spans (h i (by omega))
  rw [convertOp, hsplit, forUp_add, hstill, Nat.add_sub_cancel_left, Nat.zero_add]
  rfl

theorem Upsamples.spans {k j : Nat} {s t : State} (h : Upsamples k s t) (hj : j ≠ k) (hs : s.spans j) :
    t.spans j := by
  rw [State.spans, h.others j hj, h.width, h.height]
  exact hs

/-- Where component k is the first that does not span the image, CONVERT is a turn of its loop, and CONVERT from
there. -/
theorem convertOp_turn {k : Nat} {s : State} {c : Comp} (hk : k < s.ncomp.toNat) (hspans : ∀ j, j < k → s.spans j)
    (hc : s.comps[k]? = some c) (hw : 3 ≤ c.width) (hh : 3 ≤ c.height) (hn : s.needsUpsampling c = true) :
    convertOp s = upsampleTurn k s >>= convertOp := by
  obtain ⟨n, hleft⟩ : ∃ n, s.ncomp.toNat - k = n + 1 := ⟨s.ncomp.toNat - k - 1, by omega⟩
  rw [convertOp_skip (Nat.le_of_lt hk) hspans, hleft, forUp, upsampleComp_turn hc hw hh hn, bind_assoc, bind_assoc]
  refine bind_eq_of_post (upsampleTurn_post hc) fun v ⟨hv, _⟩ => ?_
  have hncomp : v.ncomp = s.ncomp := by rw [hv.frame]
  rw [convertOp_skip (by rw [hncomp]; exact Nat.le_of_lt hk) fun j hj => hv.spans (Nat.ne_of_lt hj) (hspans j hj),
    hncomp, hleft, forUp, bind_assoc]

/-! #### One turn as instructions -/

/-- A pass of the conversion answers in CONVERT, or ends the command. -/
theorem pass_cases {k : Nat} {s u : State} {m : Eng State} {P : State → Prop} {ft : Prop} (hp : s.phase = .convert)
    (h : Post m (fun t => Upsamples k s t ∧ P t) (UpsampleAborts k s) ft) (hm : conclude m = .next u) :
    (m = .ok u ∧ u.phase = .convert ∧ Upsamples k s u ∧ P u) ∨ (m = .error (.aborted u) ∧ u.phase = .done) := by
  match m, h with
  | .ok t, ⟨hut, hpt⟩ =>
    obtain rfl := Host.Outcome.next.inj hm
    exact .inl ⟨rfl, by rw [hut.frame]; exact hp, hut, hpt⟩
  | .error (.aborted t), ⟨_, _, habort⟩ =>
    obtain rfl := Host.Outcome.next.inj hm
    exact .inr ⟨rfl, by rw [habort]; rfl⟩
  | .error (.fault _), _ => exact nomatch hm

/-- A pass that is due runs, and one that is not leaves the state as it is. -/
theorem conclude_ite_pass {p : Prop} [Decidable p] {m : Eng State} {s u : State}
    (h : if p then conclude m = .next u else u = s) : conclude (if p then m else pure s) = .next u := by
  split at h
  · rwa [if_pos ‹p›]
  · rw [if_neg ‹¬ p›, h]
    rfl

theorem conclude_widen {k : Nat} {s u : State} {c : Comp} (hc : s.comps[k]? = some c)
    (h : if c.width < s.width.toNat then exec (.upsH k) s = .next u else u = s) :
    conclude (widen k s) = .next u := by
  rw [widen, getComp_ok hc]
  exact conclude_ite_pass (m := upsHOp k s) h

theorem conclude_heighten {k : Nat} {s u : State} {c : Comp} (hc : s.comps[k]? = some c)
    (h : if c.height < s.height.toNat then exec (.upsV k) s = .next u else u = s) :
    conclude (heighten k s) = .next u := by
  rw [heighten, getComp_ok hc]
  exact conclude_ite_pass (m := upsVOp k s) h

/-- Settles O49: CONVERT is a turn of the loop and CONVERT from there, and the turn is its two passes. -/
theorem convertRunsPasses : Obligations.ConvertRunsPasses := by
  intro s u v k c hp hk hspans hc hw hh hshort hu
  have hturn : convertOp s = widen k s >>= fun t => heighten k t >>= convertOp :=
    (convertOp_turn hk hspans hc hw hh ((needsUpsampling_iff s c).mpr hshort)).trans (bind_assoc _ _ _)
  have hne : Phase.convert ≠ Phase.done := by decide
  rcases pass_cases hp (widen_post k s c hc 0) (conclude_widen hc hu) with
    ⟨hwiden, hpu, hsu, d, hd, _, hdh, _⟩ | ⟨hwiden, hdone⟩
  · refine ⟨fun hdone => absurd (hpu.symm.trans hdone) hne, fun _ hv => ?_⟩
    rw [← hdh, ← hsu.height] at hv
    rw [hwiden] at hturn
    have hrest : convertOp s = heighten k u >>= convertOp := hturn
    rcases pass_cases hpu (heighten_post k u d hd 0) (conclude_heighten hd hv) with
      ⟨hheighten, hpv, _⟩ | ⟨hheighten, hdone⟩
    · rw [hheighten] at hrest
      exact ⟨fun hdone => absurd (hpv.symm.trans hdone) hne, fun _ => congrArg conclude hrest⟩
    · rw [hheighten] at hrest
      exact ⟨fun _ => congrArg conclude hrest, fun hpv => absurd (hpv.symm.trans hdone) hne⟩
  · rw [hwiden] at hturn
    exact ⟨fun _ => congrArg conclude hturn, fun hpu => absurd (hpu.symm.trans hdone) hne⟩

/-! #### The conversion as a whole -/

/-- In a laid out frame whose plane bytes all have a value every MCU is written. -/
theorem mcuWritten_of_planes {s : State} (h : s.frameLaidOut)
    (hfull : ∀ c ∈ s.comps, ∀ b, c.pixels = some b → ∀ j, j < b.size → b.has j = true) {mx my : Nat}
    (hx : mx < max 1 s.mbwidth) (hy : my < max 1 s.mbheight) : s.mcuWritten mx my := by
  intro k hk
  obtain ⟨c, hc, hfits⟩ := scanFits_of_laidOut h mx my hx hy k hk
  refine ⟨c, hc, fun sby sbx hsby hsbx => ⟨c, hc, fun r x hr hx => ?_⟩⟩
  obtain ⟨d, hd, b, hb, hsize⟩ := hfits sby sbx hsby hsbx
  obtain rfl := Option.some.inj (hc.symm.trans hd)
  have hrow := Nat.mul_le_mul_right c.stride (show r ≤ 7 by omega)
  have hhas := hfull c (List.mem_of_getElem? hc) b hb (blockOffset c mx my sbx sby + r * c.stride + x) (by omega)
  simp only [Buffer.has, Bool.and_eq_true] at hhas
  simpa [State.planeByte, hc, hb] using hhas.2

theorem ConvertAborts.abortsWith {s t : State} (h : ConvertAborts s t) : AbortsWith s .outOfMemory (.next t) := by
  obtain ⟨u, hu, rfl⟩ := h
  have howned := hu.owned
  have hregs := hu.registers
  exact abortsWith_abort .outOfMemory (by rw [hu.frame]) howned.cfg howned.cmd howned.inp hregs.width hregs.height
    hregs.isColor hregs.outSize hregs.outBuf

/-- A conversion that meets no fault answers with P, or raises OUT_OF_MEMORY. -/
theorem converts_or_abortsWith {s : State} {m : Eng State} {P : State → Prop} (h : Post m P (ConvertAborts s) False) :
    (∃ t, conclude m = .next t ∧ P t) ∨ AbortsWith s .outOfMemory (conclude m) :=
  match m, h with
  | .ok t, ht => .inl ⟨t, rfl, ht⟩
  | .error (.aborted _), hab => .inr hab.abortsWith

theorem allCover_of_spans {s : State} (hlen : s.comps.length = s.ncomp.toNat)
    (h : ∀ k, k < s.ncomp.toNat → s.spans k) : s.allCover := by
  intro c hm
  obtain ⟨k, hc⟩ := List.getElem?_of_mem hm
  obtain ⟨d, hd, hside⟩ := h k (hlen ▸ (List.getElem?_eq_some_iff.mp hc).1)
  obtain rfl := Option.some.inj (hc.symm.trans hd)
  exact (needsUpsampling_eq_false_iff s c).mpr hside

/-- A conversion that ends with a complete output: what it leaves alone, and the bytes of the output. -/
def ConvertsWhole (s t : State) : Prop :=
  t = { s with comps := t.comps, rgb := t.rgb, live := t.live } ∧
  (s.ncomp = 1 → ∀ j, j < s.width.toNat * s.height.toNat → t.planeHas 0 j) ∧
  (s.ncomp = 3 → ∀ j, j < 3 * s.width.toNat * s.height.toNat → (t.rgbByte j).isSome = true)

theorem Converts.whole {s t : State} (h : Converts s t) (hout : if s.ncomp = 3 then t.colorDone else t.grayDone) :
    ConvertsWhole s t := by
  have hside : t.width = s.width ∧ t.height = s.height := by
    rw [h.frame]
    exact ⟨rfl, rfl⟩
  refine ⟨h.frame, fun hn j hj => ?_, fun hn j hj => ?_⟩
  · rw [if_neg (by rw [hn]; decide)] at hout
    obtain ⟨c, b, hc, hb, hall⟩ := hout
    exact ⟨c, b, hc, hb, hall j (by rwa [hside.1, hside.2, Nat.mul_comm])⟩
  · rw [if_pos hn] at hout
    obtain ⟨b, hb, hall⟩ := hout
    have hhas := hall j (by rwa [hside.1, hside.2, Nat.mul_comm s.height.toNat, ← Nat.mul_assoc])
    simp only [Buffer.has, Bool.and_eq_true] at hhas
    rw [State.rgbByte, hb]
    exact hhas.2

/-- Settles O50: nothing to upsample leaves the output stage alone; a laid out frame with every plane byte written is
ready for the conversion, and a conversion can abort in an upsampler pass only. -/
theorem convertAnswers : Obligations.ConvertAnswers := by
  intro s covers complete _ hcovers hcomplete
  refine ⟨fun h => ?_, fun hlaid hfull => ?_⟩
  · have hskip := convertOp_skip (Nat.le_refl _) (hcovers.mp h)
    rw [Nat.sub_self] at hskip
    refine (congrArg conclude hskip).trans ?_
    show conclude (if s.ncomp = 3 then colorOp s else compactOp s) = _
    split <;> rfl
  · have hready := convertReady_of hlaid fun mx my hx hy => mcuWritten_of_planes hlaid hfull hx hy
    have hpost : Post (convertOp s) (ConvertsWhole s) (ConvertAborts s) False :=
      (convert_post s).mono (fun t ht => ht.1.whole (ht.2 hready)) (fun _ h => h) fun hn => hn hready
    refine ⟨fun h => hcomplete.mpr ?_, (converts_or_abortsWith hpost).imp_left hcomplete.mpr⟩
    have hnone := convert_covering (allCover_of_spans hlaid.2.1 (hcovers.mp h))
    exact answers_of_post ((hpost.and hnone).mono (fun _ ht => ht.1) (fun _ ht => ht.2.elim) And.left)

end Sys2Proof.Machine

/-! ### The colour converter: the pixel formula, COLOR and COMPACT (R251 to R254) -/

namespace Sys2Proof.Machine

/-! #### The pixel formula (R251, R252) -/

theorem toNat_clip (x : Word) : ((clip x).toNat : Int) = max 0 (min 255 x.toInt) := by
  have hx := BitVec.toInt_eq_toNat_cond x
  unfold clip
  split
  · show (0 : Int) = _
    omega
  · split
    · show (255 : Int) = _
      omega
    · rw [BitVec.toNat_setWidth]
      omega

/-- A sum that is that of the integers modulo 2^32, and stays within 32 bits, is shifted and clamped as an integer. -/
theorem toNat_clip_sra_ofInt {z : Int} (hlow : -2 ^ 31 ≤ z) (hhigh : z < 2 ^ 31) :
    ((clip (sra (BitVec.ofInt 32 z) 8)).toNat : Int) = max 0 (min 255 (z / 256)) := by
  rw [toNat_clip, toInt_sra, BitVec.toInt_ofInt_eq_self (by decide) hlow hhigh]
  rfl

theorem sampleWord_eq_ofInt (v : Byte) : sampleWord v = BitVec.ofInt 32 v.toNat := by
  rw [BitVec.ofInt_natCast, BitVec.ofNat_toNat]
  rfl

/-- Y as the integer it stands for. -/
theorem luma_eq_ofInt (y : Byte) : sampleWord y <<< 8 = BitVec.ofInt 32 (256 * y.toNat) := by
  rw [BitVec.shiftLeft_eq_mul_twoPow, twoPow_eq_ofInt, sampleWord_eq_ofInt, ← BitVec.ofInt_mul, Int.mul_comm]
  rfl

theorem ofInt_sub (a b : Int) : BitVec.ofInt 32 (a - b) = BitVec.ofInt 32 a - BitVec.ofInt 32 b := by
  rw [Int.sub_eq_add_neg, BitVec.ofInt_add, BitVec.ofInt_neg, BitVec.sub_eq_add_neg]

/-- Cb or Cr as the integer it stands for. -/
theorem chroma_eq_ofInt (v : Byte) : sampleWord v - 128 = BitVec.ofInt 32 (v.toNat - 128) := by
  rw [sampleWord_eq_ofInt, ofInt_sub]
  rfl

/-- With the default coefficients no sum of R251 wraps, so each channel is that of the integers (R252). -/
theorem yccOp_default (y cb cr : Byte) :
    ((yccOp defaultConfig y cb cr).1.toNat : Int) =
      max 0 (min 255 ((256 * (y.toNat : Int) + 359 * (cr.toNat - 128) + 128) / 256)) ∧
    ((yccOp defaultConfig y cb cr).2.1.toNat : Int) =
      max 0 (min 255 ((256 * (y.toNat : Int) - 88 * (cb.toNat - 128) - 183 * (cr.toNat - 128) + 128) / 256)) ∧
    ((yccOp defaultConfig y cb cr).2.2.toNat : Int) =
      max 0 (min 255 ((256 * (y.toNat : Int) + 454 * (cb.toNat - 128) + 128) / 256)) := by
  have hy := y.isLt
  have hcb := cb.isLt
  have hcr := cr.isLt
  simp only [yccOp, luma_eq_ofInt, chroma_eq_ofInt]
  refine ⟨?_, ?_, ?_⟩
  · rw [← toNat_clip_sra_ofInt (by omega) (by omega), BitVec.ofInt_add, BitVec.ofInt_add, BitVec.ofInt_mul 359]
    rfl
  · rw [← toNat_clip_sra_ofInt (by omega) (by omega), BitVec.ofInt_add, ofInt_sub (_ - _), ofInt_sub (256 * _),
      BitVec.ofInt_mul 88, BitVec.ofInt_mul 183]
    rfl
  · rw [← toNat_clip_sra_ofInt (by omega) (by omega), BitVec.ofInt_add, BitVec.ofInt_add, BitVec.ofInt_mul 454]
    rfl

/-- Neutral chroma gives the luma, since the rounding term alone is shifted out (R252). -/
theorem yccOp_neutral (y : Byte) : yccOp defaultConfig y 128 128 = (y, y, y) := by
  have hy := y.isLt
  have hneutral : ((128 : Byte).toNat : Int) - 128 = 0 := by decide
  obtain ⟨hr, hg, hb⟩ := yccOp_default y 128 128
  rw [hneutral] at hr hg hb
  have hred : (yccOp defaultConfig y 128 128).1 = y := BitVec.eq_of_toNat_eq (by omega)
  have hgreen : (yccOp defaultConfig y 128 128).2.1 = y := BitVec.eq_of_toNat_eq (by omega)
  have hblue : (yccOp defaultConfig y 128 128).2.2 = y := BitVec.eq_of_toNat_eq (by omega)
  exact Prod.ext hred (Prod.ext hgreen hblue)

/-- YCC2RGB leaves the pixel as the value it returns, and changes nothing else. -/
theorem exec_ycc2rgb {s : State} {y cb cr r g b : Byte} (hp : yccOp s.cfg y cb cr = (r, g, b)) :
    exec (.ycc2rgb y cb cr) s = .next { s with ret := .rgb r g b } := by
  show Host.Outcome.next (s.returns (.rgb (yccOp s.cfg y cb cr).1 (yccOp s.cfg y cb cr).2.1
    (yccOp s.cfg y cb cr).2.2)) = _
  rw [hp]
  rfl

/-- Settles O46: R251's sums are the operation's own; with the default coefficients they are those of the integers. -/
theorem pixelFormula : Obligations.PixelFormula := by
  refine ⟨?_, ?_, ?_⟩
  · rintro s y cb cr _ _ _ rfl rfl rfl
    exact exec_ycc2rgb rfl
  · intro s y cb cr r g b hcfg hexec
    have hvalues := yccOp_default y cb cr
    rw [← hcfg] at hvalues
    obtain ⟨⟨r', g', b'⟩, hp⟩ : ∃ p, yccOp s.cfg y cb cr = p := ⟨_, rfl⟩
    rw [hp] at hvalues
    have hret : Ret.rgb r' g' b' = .rgb r g b :=
      congrArg State.ret (Host.Outcome.next.inj ((exec_ycc2rgb hp).symm.trans hexec))
    obtain ⟨rfl, rfl, rfl⟩ := Ret.rgb.inj hret
    exact hvalues
  · intro s y hcfg
    exact exec_ycc2rgb (by rw [hcfg, yccOp_neutral])

/-! #### COLOR (R253) -/

/-- The row and the column of a sample in row-major order. -/
theorem rowMajor_div_mod {w x : Nat} (y : Nat) (hx : x < w) : (y * w + x) / w = y ∧ (y * w + x) % w = x :=
  (Nat.div_mod_unique (by omega)).mpr ⟨by rw [Nat.mul_comm, Nat.add_comm], hx⟩

/-- The three bytes of pixel (x, y) of the colour image. -/
theorem State.colorByte_pixel (s : State) {x r : Nat} (y : Nat) (hx : x < s.width.toNat) (hr : r < 3) :
    s.colorByte (3 * (y * s.width.toNat + x) + r) =
      if r = 0 then (s.pixel x y).1 else if r = 1 then (s.pixel x y).2.1 else (s.pixel x y).2.2 := by
  obtain ⟨hdiv, hmod⟩ := rowMajor_div_mod y hx
  rw [State.colorByte, Nat.mul_add_div (by decide), Nat.div_eq_of_lt hr, Nat.add_zero, hdiv, hmod, Nat.mul_add_mod,
    Nat.mod_eq_of_lt hr]

theorem State.sample_of_planeByte {s : State} {k x y : Nat} {c : Comp} {v : Byte} (hc : s.comps[k]? = some c)
    (hv : s.planeByte k (y * c.stride + x) = some v) : s.sample k x y = v := by
  rw [State.sample, hc]
  exact congrArg (Option.getD · 0) hv

/-- Bytes of the RGB buffer after COLOR has written the first n. -/
theorem Colors.buffer {n : Nat} {s t : State} {b : Buffer} (h : Colors n s t) (hb : s.rgb = some b) :
    ∃ b', t = { s with rgb := some b' } ∧ b'.size = b.size ∧
      ∀ j, b'.mem.read j = if j < n then some (s.colorByte j) else b.mem.read j := by
  obtain ⟨b', hb', hsize⟩ := Option.map_eq_some_iff.mp (h.size.trans (congrArg (Option.map Buffer.size) hb))
  refine ⟨b', hb' ▸ h.frame, hsize, fun j => ?_⟩
  have hj := h.byte j
  rwa [State.rgbByte, State.rgbByte, hb, hb'] at hj

/-- Settles O47: COLOR leaves the colour image in the buffer's first bytes, three bytes a pixel. -/
theorem colorWritesRgb : Obligations.ColorWritesRgb := by
  intro s W H b hW hH hb hsize hsamples
  subst hW hH
  have harea : 3 * s.width.toNat * s.height.toNat = 3 * (s.height.toNat * s.width.toNat) := by
    rw [Nat.mul_assoc, Nat.mul_comm s.width.toNat]
  rw [harea] at hsize ⊢
  have hhas : ∀ k x y, k < 3 → x < s.width.toNat → y < s.height.toNat → s.hasSample k x y := by
    intro k x y hk hx hy
    obtain ⟨c, hc, d, p, hd, hp, hread⟩ := hsamples k x y hk hx hy
    obtain rfl := Option.some.inj (hc.symm.trans hd)
    exact ⟨c, p, hc, hp, hread⟩
  have hready : s.colorReady := ⟨fun x y hx hy =>
    ⟨hhas 0 x y (by decide) hx hy, hhas 1 x y (by decide) hx hy, hhas 2 x y (by decide) hx hy⟩, b, hb, hsize⟩
  obtain ⟨t, hexec, hcolors⟩ := answers_of_post <|
    (color_post s (Colors _ s)).mono (fun _ h => h) (fun _ h => h) fun hn => hn hready
  obtain ⟨b', ht, hsize', hread⟩ := hcolors.buffer hb
  refine ⟨t, b', hexec, ht, hsize', ?_, fun j hj => (hread j).trans (if_neg (by omega))⟩
  intro x y c0 c1 c2 l cb cr p hx hy hc0 hc1 hc2 hl hcb hcr hp
  have hpixel : s.pixel x y = p := by
    rw [hp, State.pixel, State.sample_of_planeByte hc0 hl, State.sample_of_planeByte hc1 hcb,
      State.sample_of_planeByte hc2 hcr]
  have hbyte : ∀ r, r < 3 → b'.mem.read (3 * (y * s.width.toNat + x) + r) =
      some (if r = 0 then p.1 else if r = 1 then p.2.1 else p.2.2) := by
    intro r hr
    have hin := index_lt hx hy
    rw [hread, if_pos (by omega), s.colorByte_pixel y hx hr, hpixel]
  exact ⟨hbyte 0 (by decide), hbyte 1 (by decide), hbyte 2 (by decide)⟩

/-! #### COMPACT (R254) -/

theorem compactOp_unpadded {s : State} {c : Comp} (hc : s.comps[0]? = some c) (heq : c.width = c.stride) :
    compactOp s = .ok s := by
  rw [compactOp, getComp_ok hc]
  exact if_pos heq

/-- The plane of component 0 after COMPACT has moved the bytes below n. -/
theorem Compacts.buffer {n : Nat} {c : Comp} {s t : State} {b : Buffer} (h : Compacts n c s t)
    (hc : s.comps[0]? = some c) (hb : c.pixels = some b) :
    ∃ b', t = { s with comps := s.comps.set 0 { c with pixels := some b' } } ∧ b'.size = b.size ∧
      ∀ j, b'.mem.read j = if c.width ≤ j ∧ j < n then b.mem.read (j / c.width * c.stride + j % c.width)
        else b.mem.read j := by
  obtain ⟨p, hset⟩ := h.plane c hc
  have hcomp : t.comps[0]? = some { c with pixels := p } := by
    rw [hset]
    exact List.getElem?_set_self (List.getElem?_eq_some_iff.mp hc).1
  obtain ⟨d, hd, hshape⟩ := shape_at h.shapes hc
  obtain rfl := Option.some.inj (hcomp.symm.trans hd)
  have hfresh : p.map (fun q => Buffer.fresh q.size) = c.pixels.map (fun q => Buffer.fresh q.size) :=
    congrArg Comp.pixels hshape
  rw [hb] at hfresh
  obtain ⟨b', rfl, hsize⟩ := Option.map_eq_some_iff.mp hfresh
  refine ⟨b', hset ▸ h.frame, (Buffer.mk.inj hsize).1, fun j => ?_⟩
  simpa [State.planeByte, hcomp, hc, hb] using h.byte 0 j

/-- COMPACT of a padded plane: the bytes of rows 1 and on stand where the rows without padding have them. -/
theorem compactOp_padded {s : State} {c : Comp} {b : Buffer} (hc : s.comps[0]? = some c) (hb : c.pixels = some b)
    (hle : c.width ≤ c.stride) (hne : c.width ≠ c.stride)
    (hall : ∀ y x, y < c.height → x < c.width → b.has (y * c.stride + x) = true) :
    Answers (exec .compact s) fun t => ∃ b',
      t = { s with comps := s.comps.set 0 { c with stride := c.width, pixels := some b' } } ∧ b'.size = b.size ∧
      ∀ j, b'.mem.read j = if c.width ≤ j ∧ j < c.height * c.width then
        b.mem.read (j / c.width * c.stride + j % c.width) else b.mem.read j := by
  refine answers_of_post ?_
  rw [compactOp, getComp_ok hc]
  show Post (if c.width = c.stride then _ else _) _ _ _
  rw [if_neg hne, post_bind]
  refine (compactLoop_post c s _ hle).mono (fun u hu => ?_) (fun _ h => h) fun hn =>
    hn ⟨b, by rw [hc]; exact hb, hall⟩
  obtain ⟨b', rfl, hsize, hread⟩ := hu.buffer hc hb
  rw [post_bind, getComp_ok (List.getElem?_set_self (List.getElem?_eq_some_iff.mp hc).1)]
  refine ⟨b', ?_, hsize, hread⟩
  rw [State.setComp, List.set_set]

/-- Settles O48: row 0 stays where it is, and byte y·width + x of a row below is that of column x of row y. -/
theorem compactMovesRows : Obligations.CompactMovesRows := by
  intro s c b hc hb hle hall
  refine ⟨fun heq => congrArg conclude (compactOp_unpadded hc heq), fun hne => ?_⟩
  obtain ⟨t, hexec, b', ht, hsize, hread⟩ := compactOp_padded hc hb hle hne fun y x hy hx => hall x y hx hy
  refine ⟨t, b', hexec, ht, hsize, fun x y hx hy => ?_, fun j hj => (hread j).trans (if_neg (by omega))⟩
  rw [hread]
  cases y with
  | zero => rw [if_neg (by omega), Nat.zero_mul, Nat.zero_mul]
  | succ y =>
    obtain ⟨hdiv, hmod⟩ := rowMajor_div_mod (y + 1) hx
    have hrow : c.width ≤ (y + 1) * c.width := Nat.le_mul_of_pos_left _ (Nat.succ_pos y)
    have hin := index_lt hx hy
    rw [if_pos ⟨by omega, hin⟩, hdiv, hmod]

end Sys2Proof.Machine
